-- ==== Sys2Proof/Word.lean ====
section
/-! DEFINITION. The bit-vector widths of the HTB block (spec 00_scope R4, R5; 10_state R16, R17, R20). -/

namespace Sys2Proof

/-- A byte of a buffer, and a symbol: `SYM_W = 8` (R4). -/
abbrev Byte := BitVec 8

/-- A frequency count, the total, a length or a cursor: `FREQ_W = LEN_W = 64` (R5). -/
abbrev Word := BitVec 64

/-- A node weight: `WEIGHT_W = 72` (R5). -/
abbrev Weight := BitVec 72

/-- An arena index as a register or a node field holds it: `NODE_IDX_W = 9` (R5). -/
abbrev NodeIdx := BitVec 9

/-- The width of `NNODE`: 10 bits (R17). -/
abbrev NodeCount := BitVec 10

/-- The bits of one code, index 0 the first bit packed: 255 bits (R20). -/
abbrev CodeBits := BitVec 255

end Sys2Proof
end

