-- ==== Sys2Proof/Config.lean ====
section
/-! DEFINITION. What an implementation of the HTB block fixes (capacities, R6) and the free values: what the spec leaves unspecified (93_implementation_defined U1, U3, U4). -/

namespace Sys2Proof.Config

/-- `TOTAL_MAX = 2^63 - 1`: the largest legal total count (R5, R62). -/
def totalMax : Nat := 9223372036854775807

/-- Capacities lie below this bound: `0 <= IBUF_CAP, OBUF_CAP < 2^63` (R6). -/
abbrev capLimit : Nat := 9223372036854775808

/-- `NODE_MAX = 511`: entries of the node arena (R5). -/
abbrev nodeMax : Nat := 511

/-- `NSYM = 256`: distinct symbols (R4). -/
abbrev nsym : Nat := 256

/-- How many nodes lie on one path from the root of a well-formed tree, root and leaf counted:
`CODE_MAX + 1 = 256` (R5, R30). -/
abbrev depthMax : Nat := 256

/-- The two parameters the spec leaves open (R6): the capacities of the buffers, in bytes. -/
structure Capacities where
  ibuf : Fin capLimit
  obuf : Fin capLimit
  deriving DecidableEq, Repr

/-- DESIGN CHOICE (log entry 1): the capacities of the machine `State.reset` starts. The spec leaves
them open; a claim quantifies over every `Capacities`, never relies on these two numbers. -/
def defaultCapacities : Capacities where
  ibuf := ⟨65536, by decide⟩
  obuf := ⟨65536, by decide⟩

/-- Which unspecified value a draw is for: one name for each location that can lose its value
(R199, U1) or be read without having one (U3). -/
inductive FreeSlot where
  | hostRead
  | blockRead
  | total
  | ipos
  | olen
  | nnode
  | root
  | freq (s : Nat)
  | nodeLeaf (i : Nat)
  | nodeSym (i : Nat)
  | nodeLeft (i : Nat)
  | nodeRight (i : Nat)
  | nodeWeight (i : Nat)
  | codePresent (s : Nat)
  | codeLen (s : Nat)
  | codeBits (s : Nat)
  deriving DecidableEq, Repr

/-- THE FREE VALUE (log entry 2): what draw number `n` gives for `slot`. It has no body, so no proof can know
a value of it. A location of width `w` takes it modulo `2^w`; a location with a bound takes it modulo the
bound (U1: "any value ... drawn afresh at each error"; U3: "drawn afresh at every read"). -/
opaque freeValue (n : Nat) (slot : FreeSlot) : Nat

end Sys2Proof.Config
end

