-- ==== Sys2Proof/Syntax.lean ====
section
/-! DEFINITION. The commands of the HTB block: one constructor per row of spec/opcode_table.json (30_encoding R75). A command has no operand fields, no immediates and no modes. -/

namespace Sys2Proof

/-- The twelve commands (R75). Every operand is in the registers and the buffers. -/
inductive Instr where
  | fcnt
  | build
  | genc
  | whdr
  | tser
  | pack
  | rhdr
  | tdes
  | unpk
  | comp
  | deco
  | clr
  deriving DecidableEq, Repr

end Sys2Proof
end

