-- ==== Sys2Proof/WellFormed.lean ====
section
/-! DEFINITION. What is well formed: every command (it carries no operand, R75), and of the 256 command words those R75 lists (R76). -/

namespace Sys2Proof

/-- A command is well formed: it has no operand field that could be out of range (R75). -/
def Instr.wf : Instr → Bool
  | .fcnt => true
  | .build => true
  | .genc => true
  | .whdr => true
  | .tser => true
  | .pack => true
  | .rhdr => true
  | .tdes => true
  | .unpk => true
  | .comp => true
  | .deco => true
  | .clr => true

/-- A command word is legal when it is one of the opcodes `0x01` to `0x0C` (R75, R76). -/
def commandWordWf (v : Byte) : Bool := decide (1 ≤ v.toNat) && decide (v.toNat ≤ 12)

end Sys2Proof
end

