-- ==== Sys2Proof/Decode.lean ====
section
/-! DEFINITION. The decoder of the command word and, after it, the encoder (30_encoding R75, R76). -/

namespace Sys2Proof

/-- Why bytes are no command. -/
inductive DecodeError where
  /-- there is no byte to decode -/
  | noByte
  /-- `0x00` or `0x0D` to `0xFF` (R76) -/
  | illegalOpcode (v : Byte)
  deriving DecidableEq, Repr

/-- The opcode map of R75, read from the value written to `CMD`. -/
def decodeOpcode (v : Byte) : Except DecodeError Instr :=
  match v.toNat with
  | 0x01 => .ok .fcnt
  | 0x02 => .ok .build
  | 0x03 => .ok .genc
  | 0x04 => .ok .whdr
  | 0x05 => .ok .tser
  | 0x06 => .ok .pack
  | 0x07 => .ok .rhdr
  | 0x08 => .ok .tdes
  | 0x09 => .ok .unpk
  | 0x0A => .ok .comp
  | 0x0B => .ok .deco
  | 0x0C => .ok .clr
  | _ => .error (.illegalOpcode v)

/-- Decoding a byte stream: one byte is one command, the rest is handed back (R75: "There is one format, `CMD8`"). -/
def decode : List Byte → Except DecodeError (Instr × List Byte)
  | [] => .error .noByte
  | v :: rest =>
    match decodeOpcode v with
    | .ok i => .ok (i, rest)
    | .error e => .error e

/-- The command an instruction whose bits are `w` decodes to: its one byte is bits 7 to 0, and there is no
longer command, so `nbits` adds nothing. -/
def decodeTableWord (_nbits w : Nat) : Option Instr :=
  match decode [BitVec.ofNat 8 w] with
  | .ok (i, _) => some i
  | .error _ => none

/-- The opcode of a command (R75). -/
def opcode : Instr → Byte
  | .fcnt => 0x01
  | .build => 0x02
  | .genc => 0x03
  | .whdr => 0x04
  | .tser => 0x05
  | .pack => 0x06
  | .rhdr => 0x07
  | .tdes => 0x08
  | .unpk => 0x09
  | .comp => 0x0A
  | .deco => 0x0B
  | .clr => 0x0C

/-- The words of a command: its opcode byte, nothing else (R75). -/
def encode (i : Instr) : List Byte := [opcode i]

end Sys2Proof
end

