-- ==== Sys2Proof/Machine/State.lean ====
section
/-! DEFINITION. The architectural state of the HTB block (10_state R10 to R27), the host's transactions, the fault and refusal reasons, and the state after reset (R31). -/

namespace Sys2Proof.Machine

/-- Why the machine stops. -/
inductive Fault where
  /-- Raised by a traversal (GENC, TSER, UNPK and the commands that run them) that leaves the entries below `NNODE`,
  or goes deeper than any well-formed tree. R18: the arena is well formed whenever `TREE_VALID = 1`, so no state a
  run reaches raises it (R152, S4 of 93: "cannot occur"). Safe: the model stops where the spec says nothing can happen. -/
  | illFormedArena
  /-- Raised by a host transaction that names a byte of `IBUF` or `OBUF` at or beyond the capacity: R25, R26 and R40 give
  the buffers no such byte. Safe: the model stops, whatever a bus does there (`REGMAP` is open, R6). -/
  | noSuchByte
  deriving DecidableEq, Repr

/-- Why the model has no meaning for a command. -/
inductive Refusal where
  /-- Answered by `exec` for a command that has no meaning yet (none is left). Safe: nothing is claimed of it. -/
  | notModelled (mnemonic : String)
  deriving DecidableEq, Repr

/-- What one step, and one command, answers; `σ` is the state. -/
abbrev Result (σ : Type) := Host.Outcome σ Fault Refusal

/-- A buffer: the bytes that have a value, by strictly rising index. A byte that is not listed has no value the
spec gives (R31, U3, U4); reading it draws a free value (log entry 3). -/
abbrev Memory := List Host.Cell

/-- The canonical form of a buffer: indices strictly rising. No listed byte could be left out, since an unlisted
byte reads as no fixed value. -/
abbrev Memory.wf (m : Memory) : Prop := m.Pairwise (fun x y => x.1 < y.1)

/-- One entry of the node arena (R16). -/
structure Node where
  /-- `LEAF`: the node's control bit -/
  leaf : Bool
  /-- `SYM` -/
  sym : Byte
  /-- `LEFT` -/
  left : NodeIdx
  /-- `RIGHT` -/
  right : NodeIdx
  /-- `W` -/
  weight : Weight
  deriving DecidableEq, Repr

/-- One entry of the code book (R20). -/
structure Code where
  /-- `CB_PRESENT` -/
  present : Bool
  /-- `CB_LEN` -/
  len : Byte
  /-- `CB_BITS`: bit `j` is the `j`-th bit of the code counted from the root -/
  bits : CodeBits
  deriving DecidableEq, Repr

/-- The fields of an arena entry, as the host names them in a read (R27). -/
inductive NodeField where
  | leaf
  | sym
  | left
  | right
  | weight
  deriving DecidableEq, Repr

/-- The locations a host transaction can name (R27). The binding to bus addresses is the open parameter
`REGMAP`, which no rule reads (R6). -/
inductive Loc where
  | freq (s : Byte)
  | total
  | ilen
  | ipos
  | olen
  | cmd
  | status
  | nnode
  | root
  | node (i : Fin 511) (f : NodeField)
  | cbPresent (s : Byte)
  | cbLen (s : Byte)
  | cbBits (s : Byte)
  | ibuf (a : Nat)
  | obuf (a : Nat)
  deriving DecidableEq, Repr

/-- What the outside world does to the block: the transactions of R9 (a write to `CMD` is a command issue, R22), and
hardware reset (R215), however it is signalled. -/
inductive HostEvent where
  | write (l : Loc) (v : Nat)
  | read (l : Loc)
  | hardwareReset
  deriving DecidableEq, Repr

/-- The state. Everything of R10, then four fields of the model's own, marked so. -/
structure State where
  /-- `FREQ[0..255]` (R11) -/
  freq : Vector Word 256
  /-- `TOTAL` (R12) -/
  total : Word
  /-- `ILEN` (R13) -/
  ilen : Word
  /-- `IPOS` (R14) -/
  ipos : Word
  /-- `OLEN` (R15) -/
  olen : Word
  /-- `NODE[0..510]` (R16) -/
  arena : Vector Node 511
  /-- `NNODE` (R17) -/
  nnode : NodeCount
  /-- `ROOT` (R17) -/
  root : NodeIdx
  /-- `TREE_VALID` (R19) -/
  treeValid : Bool
  /-- `CB_PRESENT`, `CB_LEN`, `CB_BITS` for every symbol (R20) -/
  codeBook : Vector Code 256
  /-- `CB_VALID` (R21) -/
  cbValid : Bool
  /-- `STATUS.BUSY` (R23) -/
  busy : Bool
  /-- `STATUS.ERR` (R23) -/
  err : Bool
  /-- `STATUS.CORRUPT` (R23) -/
  corrupt : Bool
  /-- `STATUS.ECODE` (R23, R24) -/
  ecode : BitVec 4
  /-- `IBUF` (R25) -/
  ibuf : Memory
  /-- `OBUF` (R26) -/
  obuf : Memory
  /-- THE MODEL'S OWN: the parameters `IBUF_CAP` and `OBUF_CAP` (R6, R32), which no step changes (log entry 1) -/
  caps : Config.Capacities
  /-- THE MODEL'S OWN: how many unspecified values have been drawn (log entry 2) -/
  draws : Nat
  /-- THE MODEL'S OWN: the host's transactions still to come, the next one first (log entry 4). `CMD` has no storage of
  its own (R22, R190): a command word is here until it is issued -/
  host : List HostEvent
  /-- THE MODEL'S OWN: what the host's last read returned, widened with zeros (log entry 5) -/
  hostRead : CodeBits
  deriving DecidableEq, Repr

/-- `IBUF_CAP`. -/
def State.ibufCap (s : State) : Nat := s.caps.ibuf.val

/-- `OBUF_CAP`. -/
def State.obufCap (s : State) : Nat := s.caps.obuf.val

/-- What the arena's storage holds right after reset: DESIGN CHOICE (log entry 6), the spec leaves it unspecified. -/
def Node.zero : Node := { leaf := false, sym := 0, left := 0, right := 0, weight := 0 }

/-- A code book entry without a code (R20: length 0 and bits 0 when absent); and, DESIGN CHOICE (log entry 6), what the
code book's storage holds right after reset. -/
def Code.absent : Code := { present := false, len := 0, bits := 0 }

/-- The state after hardware reset of a block with the given capacities (R31). -/
def State.resetWith (caps : Config.Capacities) : State where
  freq := Vector.replicate 256 0
  total := 0
  ilen := 0
  ipos := 0
  olen := 0
  arena := Vector.replicate 511 Node.zero
  nnode := 0
  root := 0
  treeValid := false
  codeBook := Vector.replicate 256 Code.absent
  cbValid := false
  busy := false
  err := false
  corrupt := false
  ecode := 0
  ibuf := []
  obuf := []
  caps := caps
  draws := 0
  host := []
  hostRead := 0

/-- The machine right after reset (R31, R215), idle (R216). -/
def State.reset : State := State.resetWith Config.defaultCapacities

end Sys2Proof.Machine
end

