-- ==== Sys2Proof/Machine/Flags.lean ====
section
/-! DEFINITION. The flags of the block: the error codes (10_state R24), the corrupt class (60_exceptions R187), what an error writes into STATUS (R188), and STATUS as the host reads it (R23). The block has no condition codes (R29). -/

namespace Sys2Proof.Machine

/-- The nine errors (R24). -/
inductive ErrorCode where
  | cmd
  | seq
  | range
  | trunc
  | hdr
  | treeOvf
  | badCode
  | noCode
  | ovf
  deriving DecidableEq, Repr

/-- `code(E)`: the value of `ECODE` (R24). -/
def errorCode : ErrorCode → BitVec 4
  | .cmd => 1
  | .seq => 2
  | .range => 3
  | .trunc => 4
  | .hdr => 5
  | .treeOvf => 6
  | .badCode => 7
  | .noCode => 8
  | .ovf => 9

/-- The corrupt class (R187). -/
def isCorruptClass : ErrorCode → Bool
  | .cmd => false
  | .seq => false
  | .range => false
  | .trunc => true
  | .hdr => true
  | .treeOvf => true
  | .badCode => true
  | .noCode => false
  | .ovf => false

/-- The `STATUS` part of raising an error (R188). -/
def setError (e : ErrorCode) (s : State) : State :=
  { s with err := true, corrupt := isCorruptClass e, ecode := errorCode e }

/-- The `STATUS` part of CLR (R176). -/
def clearError (s : State) : State :=
  { s with err := false, corrupt := false, ecode := 0 }

/-- The completion of a command that wrote the whole tree: the code book belonged to the old one (R95). -/
def setTreeValid (s : State) : State := { s with treeValid := true, cbValid := false }

/-- Both validity flags cleared (R127, R171, R174). -/
def clearValid (s : State) : State := { s with treeValid := false, cbValid := false }

/-- One flag at its bit of `STATUS`. -/
def statusBit (b : Bool) (n : Nat) : BitVec 16 := (BitVec.ofBool b).setWidth 16 <<< n

/-- `STATUS` as the host reads it; bits 7:5 and 15:12 read as 0 (R23). -/
def statusWord (s : State) : BitVec 16 :=
  statusBit s.busy 0 ||| statusBit s.err 1 ||| statusBit s.corrupt 2 ||| statusBit s.treeValid 3 |||
    statusBit s.cbValid 4 ||| s.ecode.setWidth 16 <<< 8

end Sys2Proof.Machine
end

