-- ==== Sys2Proof/Machine/Operands.lean ====
section
/-! DEFINITION. The register files the commands take their operands from: FREQ (R11), the node arena (R16, R17) and the code book (R20). A command word has no operand fields (R75), so these accessors are all the operand forms there are. -/

namespace Sys2Proof.Machine

/-- `FREQ[s]`. -/
def State.freqAt (s : State) (x : Byte) : Word := s.freq[x.toNat]'(x.isLt)

/-- `FREQ[x] <- v`. -/
def setFreq (x : Byte) (v : Word) (s : State) : State :=
  { s with freq := s.freq.set x.toNat v x.isLt }

/-- `FREQ[s] <- 0` for every `s`. -/
def clearFreq (s : State) : State := { s with freq := Vector.replicate 256 0 }

/-- Every bit of the arena entry: what is at index `i`, if the arena has that index. -/
def State.node? (s : State) (i : Nat) : Option Node := s.arena[i]?

/-- `NODE[i]` as a traversal reads it: an entry in use (R17: entries at `NNODE` and beyond hold unspecified values). -/
def State.usedNode? (s : State) (i : NodeIdx) : Option Node :=
  if i.toNat < s.nnode.toNat then s.node? i.toNat else none

/-- `NODE[i].W` of an entry BUILD has written. -/
def State.weightAt (s : State) (i : Nat) : Weight :=
  match s.node? i with
  | some n => n.weight
  | none => 0

/-- `NODE[i] <- n`. -/
def setNode (i : Nat) (n : Node) (s : State) : State :=
  { s with arena := s.arena.setIfInBounds i n }

/-- `NODE[NNODE] <- n`, `NNODE <- NNODE + 1`. -/
def pushNode (n : Node) (s : State) : State :=
  { setNode s.nnode.toNat n s with nnode := s.nnode + 1 }

/-- A leaf entry: `LEFT = RIGHT = 0` (R16). -/
def leafNode (x : Byte) (w : Weight) : Node :=
  { leaf := true, sym := x, left := 0, right := 0, weight := w }

/-- An internal entry: `SYM = 0` (R16). -/
def innerNode (l r : NodeIdx) (w : Weight) : Node :=
  { leaf := false, sym := 0, left := l, right := r, weight := w }

/-- The code book's entry of a symbol. -/
def State.codeAt (s : State) (x : Byte) : Code := s.codeBook[x.toNat]'(x.isLt)

/-- The code book's entry of symbol `x` replaced. -/
def setCodeEntry (x : Byte) (c : Code) (s : State) : State :=
  { s with codeBook := s.codeBook.set x.toNat c x.isLt }

/-- Every entry absent (R111). -/
def clearCodeBook (s : State) : State := { s with codeBook := Vector.replicate 256 Code.absent }

/-- A path as the 255-bit value of `CB_BITS`: bit `j` is `p_j`, and 0 beyond the path (R20, R111). -/
def pathBits : List Bool → CodeBits
  | [] => 0
  | b :: p => (pathBits p <<< 1) ||| (BitVec.ofBool b).setWidth 255

/-- The code whose bit-string is `p`. -/
def codeOfPath (p : List Bool) : Code :=
  { present := true, len := BitVec.ofNat 8 p.length, bits := pathBits p }

/-- The bit-string a code book entry stands for: `CB_BITS[j]` for `j` from 0 to `CB_LEN - 1` (R20). -/
def Code.path (c : Code) : List Bool := (List.range c.len.toNat).map (fun j => c.bits.getLsbD j)

end Sys2Proof.Machine
end

