-- ==== Sys2Proof/Machine/Ops.lean ====
section
/-! DEFINITION. The shared operations: buffer bytes (20_memory R42, R43), `append` and `next_byte` (R44, R45), bits of a byte (00_scope R7), free draws (93 U1, U3), and how a command is checked, run and ended: raising an error (60_exceptions R188, R199) and the return from one (R205, 46 R176). -/

namespace Sys2Proof.Machine

/-! ### Buffers -/

/-- The byte at index `a`, if it has a value. -/
def Memory.byte? : Memory → Nat → Option Byte
  | [], _ => none
  | (b, v) :: m, a => if a = b then some v else Memory.byte? m a

/-- Byte `v` stored at index `a`, in canonical form. -/
def Memory.store : Memory → Nat → Byte → Memory
  | [], a, v => [(a, v)]
  | (b, w) :: m, a, v =>
    if a < b then (a, v) :: (b, w) :: m
    else if a = b then (a, v) :: m
    else (b, w) :: Memory.store m a v

/-- The bytes below index `n`; those from `n` up lose their value. -/
def Memory.keepBelow (m : Memory) (n : Nat) : Memory := m.filter (fun c => decide (c.1 < n))

/-- The bytes `bs` stored from index `a` upward, in order. -/
def Memory.storeAll (m : Memory) (a : Nat) : List Byte → Memory
  | [] => m
  | b :: bs => Memory.storeAll (m.store a b) (a + 1) bs

/-! ### Free draws -/

/-- A free value of width `w` (U1, U3). -/
def freeBits (w : Nat) (n : Nat) (slot : Config.FreeSlot) : BitVec w :=
  BitVec.ofNat w (Config.freeValue n slot)

/-- A free value not above `top` (R199: `OLEN <= OBUF_CAP`, `IPOS <= ILEN`). -/
def freeUpTo (top : Nat) (n : Nat) (slot : Config.FreeSlot) : Word :=
  BitVec.ofNat 64 (Config.freeValue n slot % (top + 1))

/-- A flag that is free. -/
def freeFlag (n : Nat) (slot : Config.FreeSlot) : Bool := (freeBits 1 n slot).getLsbD 0

/-- `FREQ` with every register free. -/
def freeFreq (n : Nat) : Vector Word 256 := Vector.ofFn (fun x => freeBits 64 n (.freq x.val))

/-- An arena with every field of every entry free. -/
def freeArena (n : Nat) : Vector Node 511 :=
  Vector.ofFn (fun i =>
    { leaf := freeFlag n (.nodeLeaf i.val)
      sym := freeBits 8 n (.nodeSym i.val)
      left := freeBits 9 n (.nodeLeft i.val)
      right := freeBits 9 n (.nodeRight i.val)
      weight := freeBits 72 n (.nodeWeight i.val) })

/-- A code book with every field of every entry free. -/
def freeCodeBook (n : Nat) : Vector Code 256 :=
  Vector.ofFn (fun x =>
    { present := freeFlag n (.codePresent x.val)
      len := freeBits 8 n (.codeLen x.val)
      bits := freeBits 255 n (.codeBits x.val) })

/-- The state after one more draw. -/
def countDraw (s : State) : State := { s with draws := s.draws + 1 }

/-! ### Errors -/

/-- How a command's body ends early. -/
inductive Stop where
  /-- `raise e`: the error, and how many draws the body had made -/
  | raise (e : ErrorCode) (draws : Nat)
  /-- the traversal left the tree (`Fault.illFormedArena`) -/
  | stuck
  deriving DecidableEq, Repr

/-- `raise e` at state `s` of a command's body. Of the state the body had reached only the draw count goes on:
what the write set holds afterwards is unspecified (R199). -/
def raiseIn {α : Type} (e : ErrorCode) (s : State) : Except Stop α := .error (.raise e s.draws)

/-- The parts of the state a command's rule names as its write set. -/
structure WriteSet where
  freq : Bool
  total : Bool
  ipos : Bool
  /-- `NODE[]`, `NNODE`, `ROOT`, `TREE_VALID` -/
  tree : Bool
  /-- `CB_PRESENT`, `CB_LEN`, `CB_BITS`, `CB_VALID` -/
  codeBook : Bool
  /-- `OBUF[OLEN0..]`, `OLEN` -/
  output : Bool
  deriving DecidableEq, Repr

/-- Nothing: what an error of an entry check may change besides `STATUS` (R199 (1)). -/
def noWrites : WriteSet :=
  { freq := false, total := false, ipos := false, tree := false, codeBook := false, output := false }

/-- The union of two write sets (R169). -/
def unionWrites (a b : WriteSet) : WriteSet :=
  { freq := a.freq || b.freq, total := a.total || b.total, ipos := a.ipos || b.ipos, tree := a.tree || b.tree,
    codeBook := a.codeBook || b.codeBook, output := a.output || b.output }

/-- The write set becomes unspecified within the bounds of R199: each register and each stored entry takes a free value,
`OBUF` bytes from `from` up lose theirs, the validity flags of what was being written are 0. -/
def forget (ws : WriteSet) (from_ : Nat) (s : State) : State :=
  { s with
    freq := if ws.freq then freeFreq s.draws else s.freq
    total := if ws.total then freeBits 64 s.draws .total else s.total
    ipos := if ws.ipos then freeUpTo s.ilen.toNat s.draws .ipos else s.ipos
    olen := if ws.output then freeUpTo s.obufCap s.draws .olen else s.olen
    arena := if ws.tree then freeArena s.draws else s.arena
    nnode := if ws.tree then freeBits 10 s.draws .nnode else s.nnode
    root := if ws.tree then freeBits 9 s.draws .root else s.root
    treeValid := s.treeValid && !ws.tree
    codeBook := if ws.codeBook then freeCodeBook s.draws else s.codeBook
    cbValid := s.cbValid && !(ws.tree || ws.codeBook)
    obuf := if ws.output then s.obuf.keepBelow from_ else s.obuf
    draws := s.draws + 1 }

/-- TAKING AN ERROR (R188, R199), the block's only exception: `STATUS.ERR`, `ECODE` and `CORRUPT` are set and the write set
becomes unspecified; everything else keeps the value it had at issue. There is no handler and no vector (R185). -/
def takeError (e : ErrorCode) (ws : WriteSet) (from_ : Nat) (s : State) : State :=
  setError e (forget ws from_ s)

/-- THE RETURN FROM AN ERROR, and the block's whole recovery (R176, R205): every register at its reset value, the
buffers' contents left as they are, arena entries and code book unspecified. -/
def clearAll (s : State) : State :=
  clearError
    { s with
      freq := Vector.replicate 256 0
      total := 0
      ilen := 0
      ipos := 0
      olen := 0
      arena := freeArena s.draws
      nnode := 0
      root := 0
      treeValid := false
      codeBook := freeCodeBook s.draws
      cbValid := false
      draws := s.draws + 1 }

/-! ### The access primitives -/

/-- `MemRead(IBUF, a, 1)` (R42): the byte the host wrote, or a draw of its own for a byte it never wrote (U3, D28). -/
def memRead (a : Nat) (s : State) : Byte × State :=
  match s.ibuf.byte? a with
  | some v => (v, s)
  | none => (freeBits 8 s.draws .blockRead, countDraw s)

/-- `MemWrite(OBUF, a, 1, v)` (R43). -/
def memWrite (a : Nat) (v : Byte) (s : State) : State := { s with obuf := s.obuf.store a v }

/-- `append(v)` (R44): the check comes before the write. -/
def append (v : Byte) (s : State) : Except Stop State :=
  if s.obufCap ≤ s.olen.toNat then raiseIn .ovf s
  else .ok { memWrite s.olen.toNat v s with olen := s.olen + 1 }

/-- `next_byte()` (R45). -/
def nextByte (s : State) : Except Stop (Byte × State) :=
  if s.ilen.toNat ≤ s.ipos.toNat then raiseIn .trunc s
  else
    let (v, s') := memRead s.ipos.toNat s
    .ok (v, { s' with ipos := s'.ipos + 1 })

/-! ### Bits of a byte, MSB-first (R7, R47) -/

/-- `b << (7 - nb)`: bit number `nb` of a byte, counted from the most significant. -/
def bitInByte (b : Bool) (nb : Nat) : Byte := (BitVec.ofBool b).setWidth 8 <<< (7 - nb)

/-- The transient bit cursor of TDES and UNPK (R30): `nb` bits of `cur` are taken. -/
structure BitCursor where
  nb : Nat
  cur : Byte
  deriving DecidableEq, Repr

/-- Where `get_bit` starts: no bit taken, so the next call takes a byte. -/
def freshCursor : BitCursor := { nb := 0, cur := 0 }

/-- `get_bit()` (R128, R152). -/
def getBit (r : BitCursor) (s : State) : Except Stop (Bool × BitCursor × State) :=
  if r.nb = 0 then do
    let (v, s') ← nextByte s
    .ok (v.getLsbD 7, { nb := 1, cur := v }, s')
  else
    .ok (r.cur.getLsbD (7 - r.nb), { r with nb := (r.nb + 1) % 8 }, s)

/-! ### Running a command -/

/-- A command as its rule gives it: the entry checks in their order (the first that fails names the error), the body
after them, the write set, and `OLEN0`, from where an error of the body leaves `OBUF` unspecified (R199). -/
structure Command where
  entry : State → Option ErrorCode
  body : State → Except Stop State
  writes : WriteSet
  outputFrom : State → Nat

/-- A command issued by the host. While `ERR = 1` it is ignored whole (R189); an entry check's error changes only
`STATUS` (R199 (1)); an error of the body leaves the write set unspecified (R199 (2)), from the state at issue. -/
def runCommand (c : Command) (s : State) : Result State :=
  if s.err then .next s
  else
    match c.entry s with
    | some e => .next (setError e s)
    | none =>
      match c.body s with
      | .ok s' => .next s'
      | .error (.raise e n) => .next (takeError e c.writes (c.outputFrom s) { s with draws := n })
      | .error .stuck => .fault .illFormedArena

/-- A command run inside a composite one, its entry checks included; its first error is the composite's (R169). -/
def subCommand (c : Command) (s : State) : Except Stop State :=
  match c.entry s with
  | some e => raiseIn e s
  | none => c.body s

end Sys2Proof.Machine
end

