-- ==== Sys2Proof/Machine/BitPacker.lean ====
section
/-! DEFINITION. PACK, the bit-packer (44_bit_packer R140 to R146). -/

namespace Sys2Proof.Machine

/-- PACK's entry checks, in order: `CB_VALID = 1`, then the ranges (R140, R200). -/
def packEntry (s : State) : Option ErrorCode :=
  if s.cbValid = false then some .seq
  else if s.ibufCap < s.ilen.toNat ∨ s.obufCap < s.olen.toNat then some .range
  else none

/-- PACK's transient state (R30): the accumulator and the bits held in it, 0 to 7. -/
structure Packer where
  acc : Byte
  nb : Nat
  deriving DecidableEq, Repr

/-- An empty accumulator. -/
def emptyPacker : Packer := { acc := 0, nb := 0 }

/-- One code bit into the accumulator, which is appended when it is full (R141). -/
def packBit (b : Bool) (p : Packer) (s : State) : Except Stop (Packer × State) :=
  let acc := p.acc ||| bitInByte b p.nb
  if p.nb + 1 = 8 then do
    let s' ← append acc s
    .ok (emptyPacker, s')
  else .ok ({ acc := acc, nb := p.nb + 1 }, s)

/-- The bits of one code, first bit first (R141). -/
def packBits : List Bool → Packer → State → Except Stop (Packer × State)
  | [], p, s => .ok (p, s)
  | b :: bits, p, s => do
    let (p', s') ← packBit b p s
    packBits bits p' s'

/-- One turn of the packing loop: the lookup comes before any bit (R141, R200). -/
def packSymbol (p : Packer) (s : State) (k : Nat) : Except Stop (Packer × State) :=
  let (x, s') := memRead k s
  if (s'.codeAt x).present then packBits (s'.codeAt x).path p s' else raiseIn .noCode s'

/-- A partial byte is appended; its low bits are the zero pad bits (R141, R142). -/
def packEnd (p : Packer) (s : State) : Except Stop State :=
  if p.nb = 0 then .ok s else append p.acc s

/-- The body of PACK (R141). -/
def packBody (s : State) : Except Stop State := do
  let (p, s') ← (List.range s.ilen.toNat).foldlM (fun q k => packSymbol q.1 q.2 k) (emptyPacker, s)
  packEnd p s'

/-- PACK's write set: `OBUF[OLEN0..]`, `OLEN` (R140). -/
def packWrites : WriteSet := { noWrites with output := true }

/-- PACK as a command. -/
def packCommand : Command where
  entry := packEntry
  body := packBody
  writes := packWrites
  outputFrom := fun s => s.olen.toNat

/-- PACK, opcode `0x06` (R140). -/
def execPack (s : State) : Result State := runCommand packCommand s

end Sys2Proof.Machine
end

