-- ==== Sys2Proof/Machine/BitReader.lean ====
section
/-! DEFINITION. UNPK, the bit-reader and tree walk (45_bit_reader R150 to R159). -/

namespace Sys2Proof.Machine

/-- UNPK's entry checks, in order: the ranges; `TOTAL = 0` needs no tree; else a tree with a node (R151, R200). -/
def unpkEntry (s : State) : Option ErrorCode :=
  if s.ibufCap < s.ilen.toNat ∨ s.ilen.toNat < s.ipos.toNat ∨ s.obufCap < s.olen.toNat ∨
      Config.totalMax < s.total.toNat then some .range
  else if s.total = 0 then none
  else if s.treeValid = false ∨ s.nnode = 0 then some .seq
  else none

/-- One bit of the walk from an internal node: `LEFT` on 0, `RIGHT` on 1 (R152). -/
def childOf (n : Node) (b : Bool) : NodeIdx := if b then n.right else n.left

/-- The walk (R152). `left` counts `TOTAL - decoded`; the test for its end is made before a bit is taken (R154). Under
a root that is a leaf a symbol costs one bit, which must be 0 (R153). The first argument bounds the turns: each takes
one bit, and there are no more than the input holds (R228). -/
def unpkLoop : Nat → Nat → NodeIdx → BitCursor → State → Except Stop State
  | 0, _, _, _, _ => .error .stuck
  | _ + 1, 0, _, _, s => .ok s
  | turns + 1, left + 1, cur, r, s => do
    let (b, r', s') ← getBit r s
    match s'.usedNode? cur with
    | none => .error .stuck
    | some n =>
      if n.leaf then
        if b then raiseIn .badCode s'
        else do
          let s'' ← append n.sym s'
          unpkLoop turns left cur r' s''
      else
        match s'.usedNode? (childOf n b) with
        | none => .error .stuck
        | some m =>
          if m.leaf then do
            let s'' ← append m.sym s'
            unpkLoop turns left s'.root r' s''
          else unpkLoop turns (left + 1) (childOf n b) r' s'

/-- The turns that suffice: eight for each byte of input left, and the one that raises or ends (R228). -/
def unpkTurns (s : State) : Nat := 8 * (s.ilen.toNat - s.ipos.toNat) + 1

/-- The body of UNPK (R151 (2), R152). -/
def unpkBody (s : State) : Except Stop State :=
  if s.total = 0 then .ok s
  else unpkLoop (unpkTurns s) s.total.toNat s.root freshCursor s

/-- UNPK's write set: `OBUF[OLEN0..]`, `OLEN`, `IPOS` (R150). -/
def unpkWrites : WriteSet := { noWrites with output := true, ipos := true }

/-- UNPK as a command. -/
def unpkCommand : Command where
  entry := unpkEntry
  body := unpkBody
  writes := unpkWrites
  outputFrom := fun s => s.olen.toNat

/-- UNPK, opcode `0x09` (R150). -/
def execUnpk (s : State) : Result State := runCommand unpkCommand s

end Sys2Proof.Machine
end

