-- ==== Sys2Proof/Machine/CodeGenerator.lean ====
section
/-! DEFINITION. GENC, the code generator: tree traversal (42_code_generator R110 to R117). -/

namespace Sys2Proof.Machine

/-- GENC's entry check: `TREE_VALID = 1` (R110, R192). -/
def gencEntry (s : State) : Option ErrorCode := if s.treeValid then none else some .seq

/-- `set_code(s, p)` (R111). A later leaf of the same symbol overwrites an earlier one (R116). -/
def setCode (x : Byte) (p : List Bool) (s : State) : State := setCodeEntry x (codeOfPath p) s

/-- `walk(i, p)`: left subtree first, `0` for left and `1` for right (R111). The first argument bounds the depth:
no well-formed tree is deeper (R30). -/
def walk : Nat → NodeIdx → List Bool → State → Except Stop State
  | 0, _, _, _ => .error .stuck
  | depth + 1, i, p, s =>
    match s.usedNode? i with
    | none => .error .stuck
    | some n =>
      if n.leaf then .ok (setCode n.sym p s)
      else do
        let s' ← walk depth n.left (p ++ [false]) s
        walk depth n.right (p ++ [true]) s'

/-- The codes of the current tree into a cleared code book; a root that is a leaf has the code `"0"` (R111, R113). -/
def gencCodes (s : State) : Except Stop State :=
  if s.nnode = 0 then .ok s
  else
    match s.usedNode? s.root with
    | none => .error .stuck
    | some n => if n.leaf then .ok (setCode n.sym [false] s) else walk Config.depthMax s.root [] s

/-- The body of GENC (R111). -/
def gencBody (s : State) : Except Stop State := do
  let s' ← gencCodes (clearCodeBook s)
  .ok { s' with cbValid := true }

/-- GENC's write set: the code book (R110). -/
def gencWrites : WriteSet := { noWrites with codeBook := true }

/-- GENC as a command. -/
def gencCommand : Command where
  entry := gencEntry
  body := gencBody
  writes := gencWrites
  outputFrom := fun s => s.olen.toNat

/-- GENC, opcode `0x03` (R110). -/
def execGenc (s : State) : Result State := runCommand gencCommand s

end Sys2Proof.Machine
end

