-- ==== Sys2Proof/Machine/FrequencyCount.lean ====
section
/-! DEFINITION. FCNT, the frequency counter (40_frequency_count R90 to R92). -/

namespace Sys2Proof.Machine

/-- FCNT's entry check: `ILEN <= IBUF_CAP` (R90, R193). -/
def fcntEntry (s : State) : Option ErrorCode :=
  if s.ibufCap < s.ilen.toNat then some .range else none

/-- One turn of the counting loop: `s <- MemRead(IBUF, k, 1)`, `FREQ[s] <- FREQ[s] + 1` (R90). -/
def countByte (s : State) (k : Nat) : State :=
  let (x, s') := memRead k s
  setFreq x (s'.freqAt x + 1) s'

/-- The body of FCNT (R90). -/
def fcntBody (s : State) : Except Stop State :=
  let s' := (List.range s.ilen.toNat).foldl countByte (clearFreq s)
  .ok { s' with total := s'.ilen }

/-- FCNT's write set: `FREQ`, `TOTAL` (R90). -/
def fcntWrites : WriteSet := { noWrites with freq := true, total := true }

/-- FCNT as a command. -/
def fcntCommand : Command where
  entry := fcntEntry
  body := fcntBody
  writes := fcntWrites
  outputFrom := fun s => s.olen.toNat

/-- FCNT, opcode `0x01` (R90). -/
def execFcnt (s : State) : Result State := runCommand fcntCommand s

end Sys2Proof.Machine
end

