-- ==== Sys2Proof/Machine/Header.lean ====
section
/-! DEFINITION. WHDR and RHDR, the header commands (46_orchestration R165 to R168; 30_encoding R61, R62). -/

namespace Sys2Proof.Machine

/-- Byte `k` of the header: `TOTAL[8k+7 : 8k]` (R61, R46). -/
def headerByte (v : Word) (k : Nat) : Byte := v.extractLsb' (8 * k) 8

/-- The 8 header bytes, least significant first (R61). -/
def headerBytes (v : Word) : List Byte := (List.range 8).map (headerByte v)

/-- WHDR's entry check: `OLEN <= OBUF_CAP` and `TOTAL <= TOTAL_MAX` (R166). -/
def whdrEntry (s : State) : Option ErrorCode :=
  if s.obufCap < s.olen.toNat ∨ Config.totalMax < s.total.toNat then some .range else none

/-- The body of WHDR (R166). -/
def whdrBody (s : State) : Except Stop State :=
  (List.range 8).foldlM (fun s' k => append (headerByte s.total k) s') s

/-- WHDR's write set: `OBUF[OLEN0..]`, `OLEN` (R166). -/
def whdrWrites : WriteSet := { noWrites with output := true }

/-- WHDR as a command. -/
def whdrCommand : Command where
  entry := whdrEntry
  body := whdrBody
  writes := whdrWrites
  outputFrom := fun s => s.olen.toNat

/-- WHDR, opcode `0x04` (R166). -/
def execWhdr (s : State) : Result State := runCommand whdrCommand s

/-- RHDR's entry check: `ILEN <= IBUF_CAP` and `IPOS <= ILEN` (R168). -/
def rhdrEntry (s : State) : Option ErrorCode :=
  if s.ibufCap < s.ilen.toNat ∨ s.ilen.toNat < s.ipos.toNat then some .range else none

/-- One turn of RHDR's loop: `v <- v + next_byte() * 2^(8k)` (R168). -/
def rhdrByte (v : Word) (s : State) (k : Nat) : Except Stop (Word × State) := do
  let (b, s') ← nextByte s
  .ok (v + b.setWidth 64 <<< (8 * k), s')

/-- The body of RHDR: all 8 bytes are read before bit 63 is tested (R168, R200). -/
def rhdrBody (s : State) : Except Stop State := do
  let (v, s') ← (List.range 8).foldlM (fun q k => rhdrByte q.1 q.2 k) ((0 : Word), s)
  if v.getLsbD 63 then raiseIn .hdr s' else .ok { s' with total := v }

/-- RHDR's write set: `TOTAL`, `IPOS` (R168). -/
def rhdrWrites : WriteSet := { noWrites with total := true, ipos := true }

/-- RHDR as a command. -/
def rhdrCommand : Command where
  entry := rhdrEntry
  body := rhdrBody
  writes := rhdrWrites
  outputFrom := fun s => s.olen.toNat

/-- RHDR, opcode `0x07` (R168). -/
def execRhdr (s : State) : Result State := runCommand rhdrCommand s

end Sys2Proof.Machine
end

