-- ==== Sys2Proof/Machine/TreeBuilder.lean ====
section
/-! DEFINITION. BUILD, the tree builder: greedy minimum-merge (41_tree_builder R95 to R104). -/

namespace Sys2Proof.Machine

/-- One turn of the seeding loop: a leaf for symbol `k` when `FREQ[k] != 0` (R96, R97). -/
def seedSymbol (s : State) (k : Nat) : State :=
  let x : Byte := BitVec.ofNat 8 k
  if s.freqAt x = 0 then s else pushNode (leafNode x ((s.freqAt x).setWidth 72)) s

/-- `NNODE <- 0`, then the leaves in increasing order of symbol (R96, R97). -/
def seedLeaves (s : State) : State :=
  (List.range 256).foldl seedSymbol { s with nnode := 0 }

/-- The order of the keys `(NODE[i].W, i)`: smaller weight first, among equals the smaller index (R98). -/
def keyBefore (s : State) (i j : Nat) : Bool :=
  decide (s.weightAt i < s.weightAt j) || (decide (s.weightAt i = s.weightAt j) && decide (i < j))

/-- The element of a live set with the least key (R98). -/
def leastKey (s : State) : List Nat → Option Nat
  | [] => none
  | i :: live =>
    match leastKey s live with
    | none => some i
    | some j => if keyBefore s i j then some i else some j

/-- One pop of the priority queue: the element with the least key, and the live set without it (R97, R98). -/
def popLeast (s : State) (live : List Nat) : Option (Nat × List Nat) :=
  match leastKey s live with
  | none => none
  | some i => some (i, live.erase i)

/-- The internal node made of the first and the second pop: left is the first (R99); its weight is the sum (R100). -/
def mergedNode (s : State) (a b : Nat) : Node :=
  innerNode (BitVec.ofNat 9 a) (BitVec.ofNat 9 b) (s.weightAt a + s.weightAt b)

/-- The merging loop: while more than one node is live, merge the two least (R97). The first argument bounds the turns,
one for each leaf (R97: exactly `n - 1`). -/
def mergeLoop : Nat → List Nat → State → List Nat × State
  | 0, live, s => (live, s)
  | turns + 1, live, s =>
    match popLeast s live with
    | none => (live, s)
    | some (a, live₁) =>
      match popLeast s live₁ with
      | none => (live, s)
      | some (b, live₂) =>
        mergeLoop turns (live₂ ++ [s.nnode.toNat]) (pushNode (mergedNode s a b) s)

/-- `ROOT`: 0 for the empty tree, else the one element of the live set (R97). -/
def rootOf : List Nat → NodeIdx
  | [] => 0
  | i :: _ => BitVec.ofNat 9 i

/-- The algorithm, whole (R97). It has no way to fail. -/
def buildTree (s : State) : State :=
  let s₁ := seedLeaves s
  let n := s₁.nnode.toNat
  let (live, s₂) := mergeLoop n (List.range n) s₁
  setTreeValid { s₂ with root := rootOf live }

/-- BUILD has no entry check (R95). -/
def buildEntry (_ : State) : Option ErrorCode := none

/-- The body of BUILD (R97). -/
def buildBody (s : State) : Except Stop State := .ok (buildTree s)

/-- BUILD's write set: the arena and the flags (R95). -/
def buildWrites : WriteSet := { noWrites with tree := true }

/-- BUILD as a command. -/
def buildCommand : Command where
  entry := buildEntry
  body := buildBody
  writes := buildWrites
  outputFrom := fun s => s.olen.toNat

/-- BUILD, opcode `0x02` (R95). -/
def execBuild (s : State) : Result State := runCommand buildCommand s

end Sys2Proof.Machine
end

