-- ==== Sys2Proof/Machine/TreeCodec.lean ====
section
/-! DEFINITION. TSER and TDES, the tree codec (43_tree_codec R120 to R134). -/

namespace Sys2Proof.Machine

/-! ### TSER -/

/-- TSER's entry checks, in order: `TREE_VALID = 1`, then `OLEN <= OBUF_CAP` (R120, R200). -/
def tserEntry (s : State) : Option ErrorCode :=
  if s.treeValid = false then some .seq
  else if s.obufCap < s.olen.toNat then some .range
  else none

/-- TSER's transient state (R30): the open control byte's index and value, and the control bits in it. -/
structure ControlByte where
  nb : Nat
  cpos : Nat
  cval : Byte
  deriving DecidableEq, Repr

/-- Where TSER starts: no control byte is open. -/
def noControlByte : ControlByte := { nb := 0, cpos := 0, cval := 0 }

/-- The bit put into the open control byte, which is rewritten in place (R122). -/
def putOpen (b : Bool) (c : ControlByte) (s : State) : ControlByte × State :=
  let cval := c.cval ||| bitInByte b c.nb
  ({ nb := (c.nb + 1) % 8, cpos := c.cpos, cval := cval }, memWrite c.cpos cval s)

/-- `put_bit(b)` (R122). -/
def putBit (b : Bool) (c : ControlByte) (s : State) : Except Stop (ControlByte × State) :=
  if c.nb = 0 then do
    let s' ← append 0 s
    .ok (putOpen b { nb := 0, cpos := s.olen.toNat, cval := 0 } s')
  else .ok (putOpen b c s)

/-- `ser(i)`, pre-order (R122). The first argument bounds the depth: no well-formed tree is deeper (R30). -/
def serialize : Nat → NodeIdx → ControlByte → State → Except Stop (ControlByte × State)
  | 0, _, _, _ => .error .stuck
  | depth + 1, i, c, s =>
    match s.usedNode? i with
    | none => .error .stuck
    | some n =>
      if n.leaf then do
        let (c₁, s₁) ← putBit true c s
        let s₂ ← append n.sym s₁
        .ok (c₁, s₂)
      else do
        let (c₁, s₁) ← putBit false c s
        let (c₂, s₂) ← serialize depth n.left c₁ s₁
        serialize depth n.right c₂ s₂

/-- The body of TSER; the empty tree appends nothing (R122, R125). -/
def tserBody (s : State) : Except Stop State :=
  if s.nnode = 0 then .ok s
  else do
    let (_, s') ← serialize Config.depthMax s.root noControlByte s
    .ok s'

/-- TSER's write set: `OBUF[OLEN0..]`, `OLEN` (R120). -/
def tserWrites : WriteSet := { noWrites with output := true }

/-- TSER as a command. -/
def tserCommand : Command where
  entry := tserEntry
  body := tserBody
  writes := tserWrites
  outputFrom := fun s => s.olen.toNat

/-- TSER, opcode `0x05` (R120). -/
def execTser (s : State) : Result State := runCommand tserCommand s

/-! ### TDES -/

/-- TDES's entry check: `ILEN <= IBUF_CAP` and `IPOS <= ILEN` (R127, R193). -/
def tdesEntry (s : State) : Option ErrorCode :=
  if s.ibufCap < s.ilen.toNat ∨ s.ilen.toNat < s.ipos.toNat then some .range else none

/-- `des()`: reads one subtree and answers its arena index (R128). A node's entry is written after its children's. The
node limit is tested before anything is read (R129). The first argument bounds the depth: each call below it has taken
an arena entry, and there are 511 (R30). -/
def deserialize : Nat → BitCursor → State → Except Stop (Nat × BitCursor × State)
  | 0, _, _ => .error .stuck
  | depth + 1, r, s =>
    if s.nnode.toNat = Config.nodeMax then raiseIn .treeOvf s
    else do
      let i := s.nnode.toNat
      let (b, r₁, s₁) ← getBit r { s with nnode := s.nnode + 1 }
      if b then do
        let (x, s₂) ← nextByte s₁
        .ok (i, r₁, setNode i (leafNode x 0) s₂)
      else do
        let (l, r₂, s₂) ← deserialize depth r₁ s₁
        let (r', r₃, s₃) ← deserialize depth r₂ s₂
        .ok (i, r₃, setNode i (innerNode (BitVec.ofNat 9 l) (BitVec.ofNat 9 r') 0) s₃)

/-- How many nested calls of `des` there can be: 511 that take an entry and one that raises (R228). -/
def desDepth : Nat := 512

/-- The body of TDES; the pad bits of the last control byte are dropped unread (R128, R131). -/
def tdesBody (s : State) : Except Stop State := do
  let (root, _, s') ← deserialize desDepth freshCursor { clearValid s with nnode := 0 }
  .ok { s' with root := BitVec.ofNat 9 root, treeValid := true }

/-- TDES's write set: the arena, the flags, `IPOS` (R127). -/
def tdesWrites : WriteSet := { noWrites with tree := true, ipos := true }

/-- TDES as a command. -/
def tdesCommand : Command where
  entry := tdesEntry
  body := tdesBody
  writes := tdesWrites
  outputFrom := fun s => s.olen.toNat

/-- TDES, opcode `0x08` (R127). -/
def execTdes (s : State) : Result State := runCommand tdesCommand s

end Sys2Proof.Machine
end

