-- ==== Sys2Proof/Machine/Composite.lean ====
section
/-! DEFINITION. COMP and DECO, the composite commands (46_orchestration R169 to R175). -/

namespace Sys2Proof.Machine

/-- COMP's own entry check: `ILEN <= IBUF_CAP` (R171). -/
def compEntry (s : State) : Option ErrorCode :=
  if s.ibufCap < s.ilen.toNat then some .range else none

/-- COMP's preamble: a fresh run (R171). -/
def compPreamble (s : State) : State := { clearValid s with olen := 0 }

/-- The body of COMP: the six primitives in the order of R170, R171. -/
def compBody (s : State) : Except Stop State := do
  let s₁ ← subCommand fcntCommand (compPreamble s)
  let s₂ ← subCommand buildCommand s₁
  let s₃ ← subCommand gencCommand s₂
  let s₄ ← subCommand whdrCommand s₃
  let s₅ ← subCommand tserCommand s₄
  subCommand packCommand s₅

/-- COMP's write set: the union of its sub-commands' (R169, R171). -/
def compWrites : WriteSet :=
  unionWrites fcntWrites (unionWrites buildWrites (unionWrites gencWrites (unionWrites whdrWrites
    (unionWrites tserWrites packWrites))))

/-- COMP as a command; it writes `OBUF` from 0 (R199: `OLEN0` is 0 for COMP and DECO). -/
def compCommand : Command where
  entry := compEntry
  body := compBody
  writes := compWrites
  outputFrom := fun _ => 0

/-- COMP, opcode `0x0A` (R171). -/
def execComp (s : State) : Result State := runCommand compCommand s

/-- DECO's own entry check: `ILEN <= IBUF_CAP` (R174). -/
def decoEntry (s : State) : Option ErrorCode :=
  if s.ibufCap < s.ilen.toNat then some .range else none

/-- DECO's preamble: a fresh run (R174). -/
def decoPreamble (s : State) : State := { clearValid s with ipos := 0, olen := 0 }

/-- The body of DECO: with a count of 0 nothing after the header is read (R174, R175). -/
def decoBody (s : State) : Except Stop State := do
  let s₁ ← subCommand rhdrCommand (decoPreamble s)
  if s₁.total = 0 then .ok s₁
  else do
    let s₂ ← subCommand tdesCommand s₁
    subCommand unpkCommand s₂

/-- DECO's write set: the union of its sub-commands' (R169, R174). -/
def decoWrites : WriteSet := unionWrites rhdrWrites (unionWrites tdesWrites unpkWrites)

/-- DECO as a command; it writes `OBUF` from 0 (R199). -/
def decoCommand : Command where
  entry := decoEntry
  body := decoBody
  writes := decoWrites
  outputFrom := fun _ => 0

/-- DECO, opcode `0x0B` (R174). -/
def execDeco (s : State) : Result State := runCommand decoCommand s

end Sys2Proof.Machine
end

