-- ==== Sys2Proof/Machine/Control.lean ====
section
/-! DEFINITION. CLR, the control command (46_orchestration R176), and the write of an illegal opcode (60_exceptions R190). -/

namespace Sys2Proof.Machine

/-- CLR, opcode `0x0C` (R176): no entry check, no error, the only command accepted while `ERR = 1` (R189). -/
def execClr (s : State) : Result State := .next (clearAll s)

/-- A write to `CMD` of a value that is no opcode: `E_CMD`, which changes only `STATUS` (R76, R190), and nothing at all
while `ERR = 1` (R189). -/
def rejectOpcode (s : State) : Result State := if s.err then .next s else .next (setError .cmd s)

end Sys2Proof.Machine
end

