-- ==== Sys2Proof/Machine/Dispatch.lean ====
section
/-! DEFINITION. One arm per command: its meaning. -/

namespace Sys2Proof.Machine

/-- What issuing a command does (30_encoding R75). -/
def exec (i : Instr) (s : State) : Host.Outcome State Fault Refusal :=
  match i with
  | .fcnt => Sys2Proof.Machine.execFcnt s
  | .build => Sys2Proof.Machine.execBuild s
  | .genc => Sys2Proof.Machine.execGenc s
  | .whdr => Sys2Proof.Machine.execWhdr s
  | .tser => Sys2Proof.Machine.execTser s
  | .pack => Sys2Proof.Machine.execPack s
  | .rhdr => Sys2Proof.Machine.execRhdr s
  | .tdes => Sys2Proof.Machine.execTdes s
  | .unpk => Sys2Proof.Machine.execUnpk s
  | .comp => Sys2Proof.Machine.execComp s
  | .deco => Sys2Proof.Machine.execDeco s
  | .clr => Sys2Proof.Machine.execClr s

end Sys2Proof.Machine
end

