-- ==== Sys2Proof/Machine/HostPort.lean ====
section
/-! DEFINITION. The host's side of the block: reads and writes of locations (10_state R22, R27), command issue (R22), hardware reset (70 R215), and the host script's pseudo-instructions (30_encoding R79, R80). -/

namespace Sys2Proof.Machine

/-! ### Reads -/

/-- The field of an arena entry, widened. -/
def nodeFieldBits (n : Node) : NodeField → CodeBits
  | .leaf => (BitVec.ofBool n.leaf).setWidth 255
  | .sym => n.sym.setWidth 255
  | .left => n.left.setWidth 255
  | .right => n.right.setWidth 255
  | .weight => n.weight.setWidth 255

/-- The width of a location, in bits (R11 to R26). -/
def locWidth : Loc → Nat
  | .freq _ => 64
  | .total => 64
  | .ilen => 64
  | .ipos => 64
  | .olen => 64
  | .cmd => 8
  | .status => 16
  | .nnode => 10
  | .root => 9
  | .node _ .leaf => 1
  | .node _ .sym => 8
  | .node _ .left => 9
  | .node _ .right => 9
  | .node _ .weight => 72
  | .cbPresent _ => 1
  | .cbLen _ => 8
  | .cbBits _ => 255
  | .ibuf _ => 8
  | .obuf _ => 8

/-- The value a location has, widened with zeros; none where the spec gives it no value: an arena entry at or beyond
`NNODE` or with `TREE_VALID = 0`, a code book entry with `CB_VALID = 0`, an `OBUF` byte at or beyond `OLEN`, a buffer
byte never written (R27, U3). `CMD` reads as 0 (R22). -/
def locValue? (l : Loc) (s : State) : Option CodeBits :=
  match l with
  | .freq x => some ((s.freqAt x).setWidth 255)
  | .total => some (s.total.setWidth 255)
  | .ilen => some (s.ilen.setWidth 255)
  | .ipos => some (s.ipos.setWidth 255)
  | .olen => some (s.olen.setWidth 255)
  | .cmd => some 0
  | .status => some ((statusWord s).setWidth 255)
  | .nnode => some (s.nnode.setWidth 255)
  | .root => some (s.root.setWidth 255)
  | .node i f => if s.treeValid ∧ i.val < s.nnode.toNat then some (nodeFieldBits s.arena[i] f) else none
  | .cbPresent x => if s.cbValid then some ((BitVec.ofBool (s.codeAt x).present).setWidth 255) else none
  | .cbLen x => if s.cbValid then some ((s.codeAt x).len.setWidth 255) else none
  | .cbBits x => if s.cbValid then some (s.codeAt x).bits else none
  | .ibuf a => (s.ibuf.byte? a).map (·.setWidth 255)
  | .obuf a => if a < s.olen.toNat then (s.obuf.byte? a).map (·.setWidth 255) else none

/-- Whether a location exists: a buffer has the bytes below its capacity (R25, R26). -/
def locExists (l : Loc) (s : State) : Bool :=
  match l with
  | .freq _ => true
  | .total => true
  | .ilen => true
  | .ipos => true
  | .olen => true
  | .cmd => true
  | .status => true
  | .nnode => true
  | .root => true
  | .node _ _ => true
  | .cbPresent _ => true
  | .cbLen _ => true
  | .cbBits _ => true
  | .ibuf a => decide (a < s.ibufCap)
  | .obuf a => decide (a < s.obufCap)

/-- A host read: the location's value, or a draw of its width where it has none (R27, U3). It never raises an error. -/
def hostReadLoc (l : Loc) (s : State) : State :=
  match locValue? l s with
  | some v => { s with hostRead := v }
  | none => { countDraw s with hostRead := (freeBits (locWidth l) s.draws .hostRead).setWidth 255 }

/-! ### Writes -/

/-- A host write to a location other than `CMD`: a read-write location stores the value truncated to its width, with no
check and no side effect; a read-only one ignores it (R27). -/
def hostWriteLoc (l : Loc) (v : Nat) (s : State) : State :=
  match l with
  | .freq x => setFreq x (BitVec.ofNat 64 v) s
  | .total => { s with total := BitVec.ofNat 64 v }
  | .ilen => { s with ilen := BitVec.ofNat 64 v }
  | .ipos => { s with ipos := BitVec.ofNat 64 v }
  | .olen => { s with olen := BitVec.ofNat 64 v }
  | .cmd => s
  | .status => s
  | .nnode => s
  | .root => s
  | .node _ _ => s
  | .cbPresent _ => s
  | .cbLen _ => s
  | .cbBits _ => s
  | .ibuf a => { s with ibuf := s.ibuf.store a (BitVec.ofNat 8 v) }
  | .obuf _ => s

/-- A host write to `CMD` issues the command whose opcode is the value, truncated to 8 bits (R22, R75, R76). -/
def issue (v : Byte) (s : State) : Result State :=
  match decode [v] with
  | .ok (i, _) => exec i s
  | .error _ => rejectOpcode s

/-! ### Hardware reset -/

/-- Hardware reset (R31, R215): the registers and flags of `State.resetWith`; arena, code book and both buffers
unspecified. The parameters, the draw count, the host's coming transactions and what it last read are not the block's. -/
def hardwareReset (s : State) : State :=
  { State.resetWith s.caps with
    arena := freeArena s.draws
    codeBook := freeCodeBook s.draws
    draws := s.draws + 1
    host := s.host
    hostRead := s.hostRead }

/-! ### One transaction -/

/-- What a host transaction does (R9, R22, R27, R215). -/
def perform (e : HostEvent) (s : State) : Result State :=
  match e with
  | .write .cmd v => issue (BitVec.ofNat 8 v) s
  | .write l v => if locExists l s then .next (hostWriteLoc l v s) else .fault .noSuchByte
  | .read l => if locExists l s then .next (hostReadLoc l s) else .fault .noSuchByte
  | .hardwareReset => .next (hardwareReset s)

/-! ### The host script (R79, R80) -/

/-- `WRB <index>, <b0> <b1> ...`. -/
def scriptWrb (a : Nat) : List Byte → List HostEvent
  | [] => []
  | b :: bs => .write (.ibuf a) b.toNat :: scriptWrb (a + 1) bs

/-- `RDB <index>, <n>`. -/
def scriptRdb (a n : Nat) : List HostEvent := (List.range n).map (fun k => .read (.obuf (a + k)))

/-- `CMD <mnemonic>`. -/
def scriptCmd (i : Instr) : List HostEvent := [.write .cmd (opcode i).toNat]

/-- `LOAD <b0> <b1> ...`. -/
def scriptLoad (bs : List Byte) : List HostEvent := scriptWrb 0 bs ++ [.write .ilen bs.length]

/-- `LOOPBACK` as the host performs it once it has read `OBUF[0..OLEN-1]` as `bs`: the reads, then `LOAD` of the same
bytes. The host is outside the block, so the bytes it writes are its own. -/
def scriptLoopback (bs : List Byte) : List HostEvent :=
  .read .olen :: scriptRdb 0 bs.length ++ scriptLoad bs

/-- `compress`: `LOAD`, `CMD COMP`, `RD STATUS`, `RDB 0, n`, where `n` is the `OLEN` the host finds. -/
def scriptCompress (bs : List Byte) (n : Nat) : List HostEvent :=
  scriptLoad bs ++ scriptCmd .comp ++ [.read .status, .read .olen] ++ scriptRdb 0 n

/-- `decompress`: `LOAD`, `CMD DECO`, `RD STATUS`, `RDB 0, n`, where `n` is the `OLEN` the host finds. -/
def scriptDecompress (bs : List Byte) (n : Nat) : List HostEvent :=
  scriptLoad bs ++ scriptCmd .deco ++ [.read .status, .read .olen] ++ scriptRdb 0 n

end Sys2Proof.Machine
end

