-- ==== Sys2Proof/Machine/Step.lean ====
section
/-! DEFINITION. One step: the next host transaction (00_scope R9, 20_memory R51). -/

namespace Sys2Proof.Machine

/-- One step performs the host's next transaction, a command as one indivisible step (R9); with none to come the block is
idle and stays as it is (R216, R231). -/
def step (s : State) : Host.Outcome State Fault Refusal :=
  match s.host with
  | [] => .next s
  | e :: rest => perform e { s with host := rest }

/-- The command word `w` placed where the step takes its next command from: the host's next transaction is a write of it
to `CMD` (R22, R75). The block has no instruction memory (R28). -/
def State.withFetchWord (s : State) (nbits w : Nat) : State :=
  { s with host := .write .cmd (w % 2 ^ nbits % 256) :: s.host }

end Sys2Proof.Machine
end

