-- ==== Sys2Proof/Safety.lean ====
section
/-! DEFINITION. The terms the claims are stated in: the abstract tree an arena stands for (10_state R18), the artifact's three regions (30_encoding R60 to R73), codes and their decoding (42 R112, 45 R152), what a buffer holds, and what a good state is (10_state R18 to R24). -/

namespace Sys2Proof.Machine

/-! ### The abstract tree (R18) -/

/-- `Tree = Leaf(s) | Node(l, r)` (R18). -/
inductive HuffmanTree where
  | leaf (x : Byte)
  | node (l r : HuffmanTree)
  deriving DecidableEq, Repr

/-- The symbols of the leaves, in pre-order. -/
def HuffmanTree.symbols : HuffmanTree → List Byte
  | .leaf x => [x]
  | .node l r => l.symbols ++ r.symbols

/-- The number of nodes. -/
def HuffmanTree.size : HuffmanTree → Nat
  | .leaf _ => 1
  | .node l r => 1 + l.size + r.size

/-- The nodes on the longest path from the root to a leaf. -/
def HuffmanTree.height : HuffmanTree → Nat
  | .leaf _ => 1
  | .node l r => 1 + max l.height r.height

/-- The reading function `tree(i)` (R18), on entries in use and to a bounded depth. -/
def State.treeAt (s : State) : Nat → NodeIdx → Option HuffmanTree
  | 0, _ => none
  | depth + 1, i =>
    match s.usedNode? i with
    | none => none
    | some n =>
      if n.leaf then some (.leaf n.sym)
      else
        match State.treeAt s depth n.left, State.treeAt s depth n.right with
        | some l, some r => some (.node l r)
        | _, _ => none

/-- The current tree: `tree(ROOT)` when `NNODE > 0`, the empty tree (`none`) when `NNODE = 0` (R18). -/
def State.currentTree (s : State) : Option HuffmanTree :=
  if s.nnode = 0 then none else s.treeAt Config.depthMax s.root

/-- The indices of the entries below entry `i`, in pre-order, entry `i` first. -/
def State.preorderAt (s : State) : Nat → NodeIdx → Option (List Nat)
  | 0, _ => none
  | depth + 1, i =>
    match s.usedNode? i with
    | none => none
    | some n =>
      if n.leaf then some [i.toNat]
      else
        match State.preorderAt s depth n.left, State.preorderAt s depth n.right with
        | some l, some r => some (i.toNat :: (l ++ r))
        | _, _ => none

/-- A well-formed arena (R18): no tree, or a traversal from `ROOT` that meets every index below `NNODE` exactly once. -/
def arenaWf (s : State) : Prop :=
  (s.nnode = 0 ∧ s.root = 0) ∨
    ∃ visited, s.preorderAt Config.depthMax s.root = some visited ∧ visited.Perm (List.range s.nnode.toNat)

/-- The fields without meaning are 0: `SYM` of an internal node, `LEFT` and `RIGHT` of a leaf (R16, U5). -/
def fieldsWf (s : State) : Prop :=
  ∀ i n, i < s.nnode.toNat → s.node? i = some n →
    if n.leaf then n.left = 0 ∧ n.right = 0 else n.sym = 0

/-- Entry `i` is a child of the internal entry `p` on the left (`false`) or the right (`true`) side. -/
def isChildOn (s : State) (p : Nat) (side : Bool) (i : Nat) : Prop :=
  p < s.nnode.toNat ∧ ∃ n, s.node? p = some n ∧ n.leaf = false ∧ (childOf n side).toNat = i

/-! ### The tree region (R63, R65) -/

/-- One item of the tree region before layout (R63). -/
inductive Item where
  | bit (b : Bool)
  | byte (x : Byte)
  deriving DecidableEq, Repr

/-- The pre-order walk (R63). -/
def items : HuffmanTree → List Item
  | .leaf x => [.bit true, .byte x]
  | .node l r => .bit false :: (items l ++ items r)

/-- The items of the first `n` nodes of a walk: `n` control bits, each with the symbol byte that follows it. -/
def firstNodes : Nat → List Item → List Item
  | _, [] => []
  | n, .byte x :: l => .byte x :: firstNodes n l
  | 0, .bit _ :: _ => []
  | n + 1, .bit b :: l => .bit b :: firstNodes n l

/-- The layout's variables (R65). -/
structure LayoutState where
  out : List Byte
  nb : Nat
  cpos : Nat
  deriving DecidableEq, Repr

/-- The control bit put into the open control byte (R65). -/
def layoutOpenBit (b : Bool) (q : LayoutState) : LayoutState :=
  { q with out := q.out.set q.cpos (q.out.getD q.cpos 0 ||| bitInByte b q.nb), nb := (q.nb + 1) % 8 }

/-- One turn of the layout loop (R65). -/
def layoutItem (q : LayoutState) : Item → LayoutState
  | .bit b =>
    if q.nb = 0 then layoutOpenBit b { out := q.out ++ [0], nb := 0, cpos := q.out.length }
    else layoutOpenBit b q
  | .byte x => { q with out := q.out ++ [x] }

/-- `layout(items)` (R65). -/
def layout (l : List Item) : List Byte := (l.foldl layoutItem { out := [], nb := 0, cpos := 0 }).out

/-- How many bytes of a tree region TDES reads for the first 511 nodes, as many as the arena holds (R129). -/
def arenaBytes (t : HuffmanTree) : Nat := (layout (firstNodes Config.nodeMax (items t))).length

/-- The tree region of the current tree: nothing for the empty tree (R69). -/
def treeRegion : Option HuffmanTree → List Byte
  | none => []
  | some t => layout (items t)

/-! ### Codes (R112, R113) -/

/-- `codes(t, p)` (R112), in pre-order. -/
def codes : HuffmanTree → List Bool → List (Byte × List Bool)
  | .leaf x, p => [(x, p)]
  | .node l r, p => codes l (p ++ [false]) ++ codes r (p ++ [true])

/-- The codes GENC records: none for the empty tree (R114), `"0"` for a tree of one leaf (R113), else the paths (R112). -/
def treeCodes : Option HuffmanTree → List (Byte × List Bool)
  | none => []
  | some (.leaf x) => [(x, [false])]
  | some (.node l r) => codes (.node l r) []

/-- The code book that holds these codes; of two codes for one symbol the later one (R116). -/
def codeBookOf (t : Option HuffmanTree) : Vector Code 256 :=
  (treeCodes t).foldl (fun book c => book.set c.1.toNat (codeOfPath c.2) c.1.isLt) (Vector.replicate 256 Code.absent)

/-! ### The code region (R70) -/

/-- The bits of a byte, most significant first (R7, R47). -/
def bitsOfByte (v : Byte) : List Bool := (List.range 8).map (fun j => v.getLsbD (7 - j))

/-- The bits of a byte sequence, MSB-first. -/
def bitsOfBytes (bs : List Byte) : List Bool := bs.flatMap bitsOfByte

/-- The byte that holds the bits `8m` to `8m+7` of a sequence, zeros where there is no bit (R70). -/
def byteOfBits (bits : List Bool) (m : Nat) : Byte :=
  (List.range 8).foldl (fun acc j => acc ||| bitInByte (bits.getD (8 * m + j) false) j) 0

/-- A bit sequence laid MSB-first into `ceil(B/8)` bytes, padded with zeros (R70). -/
def bytesOfBits (bits : List Bool) : List Byte := (List.range ((bits.length + 7) / 8)).map (byteOfBits bits)

/-- The bits PACK packs for an input: the codes of its symbols in order (R70). -/
def codeBits (book : Byte → Code) (input : List Byte) : List Bool := input.flatMap (fun x => (book x).path)

/-! ### Decoding (R152, R153) -/

/-- The walk from a node to a leaf: `0` left, `1` right; none when the bits run out. -/
def HuffmanTree.readSymbol : HuffmanTree → List Bool → Option (Byte × List Bool)
  | .leaf x, bits => some (x, bits)
  | .node _ _, [] => none
  | .node l r, b :: bits => if b then r.readSymbol bits else l.readSymbol bits

/-- One symbol from the root: under a tree of one leaf it is one bit, which must be 0 (R153). -/
def HuffmanTree.decodeSymbol (t : HuffmanTree) (bits : List Bool) : Option (Byte × List Bool) :=
  match t with
  | .leaf x =>
    match bits with
    | [] => none
    | b :: rest => if b then none else some (x, rest)
  | .node l r => (HuffmanTree.node l r).readSymbol bits

/-- Exactly `n` symbols, and the bits left over (R152, R154). -/
def HuffmanTree.decodeSymbols (t : HuffmanTree) : Nat → List Bool → Option (List Byte × List Bool)
  | 0, bits => some ([], bits)
  | n + 1, bits =>
    match t.decodeSymbol bits with
    | none => none
    | some (x, rest) =>
      match HuffmanTree.decodeSymbols t n rest with
      | none => none
      | some (xs, rest') => some (x :: xs, rest')

/-! ### What a buffer holds -/

/-- The bytes `bs` stand in a buffer from index `a` upward. -/
def holdsAt (m : Memory) (a : Nat) (bs : List Byte) : Prop :=
  ∀ k, (h : k < bs.length) → m.byte? (a + k) = some bs[k]

/-- The input is `bs`: `ILEN` bytes, all written, within the buffer (R218). -/
def inputIs (s : State) (bs : List Byte) : Prop :=
  s.ilen.toNat = bs.length ∧ bs.length ≤ s.ibufCap ∧ holdsAt s.ibuf 0 bs

/-- The stream from `IPOS` on is `bs`: it ends at `ILEN`, all written, within the buffer (R218). -/
def streamIs (s : State) (bs : List Byte) : Prop :=
  s.ipos.toNat + bs.length = s.ilen.toNat ∧ s.ilen.toNat ≤ s.ibufCap ∧ holdsAt s.ibuf s.ipos.toNat bs

/-- `n` more bytes fit into `OBUF` (R44). -/
def outputFits (s : State) (n : Nat) : Prop := s.olen.toNat + n ≤ s.obufCap

/-- The state after `bs` was appended (R44). -/
def appended (s : State) (bs : List Byte) : State :=
  { s with obuf := s.obuf.storeAll s.olen.toNat bs, olen := s.olen + BitVec.ofNat 64 bs.length }

/-- The output is `bs`: `OLEN` bytes, each with its value. -/
def outputIs (s : State) (bs : List Byte) : Prop :=
  s.olen.toNat = bs.length ∧ holdsAt s.obuf 0 bs

/-- The symbols with a non-zero frequency, in increasing order (R96). -/
def presentSymbols (s : State) : List Byte :=
  ((List.range 256).map (BitVec.ofNat 8)).filter (fun x => s.freqAt x != 0)

/-- The sum of all frequencies. -/
def freqSum (s : State) : Nat := (s.freq.toList.map BitVec.toNat).sum

/-! ### Good states -/

/-- `STATUS` is consistent: no code and no corrupt class without an error; with one, a code from 1 to 9, and `CORRUPT` exactly
for 4 to 7 (R23, R24, R187). -/
def statusWf (s : State) : Prop :=
  if s.err then
    1 ≤ s.ecode.toNat ∧ s.ecode.toNat ≤ 9 ∧ s.corrupt = (decide (4 ≤ s.ecode.toNat) && decide (s.ecode.toNat ≤ 7))
  else s.ecode = 0 ∧ s.corrupt = false

/-- Every byte a buffer lists lies below its capacity (R40). -/
def bufferWithin (m : Memory) (cap : Nat) : Prop := ∀ c ∈ m, c.1 < cap

/-- THE INVARIANT: what every state between two host transactions is like. -/
structure Inv (s : State) : Prop where
  /-- the canonical form of `IBUF` -/
  ibufWf : s.ibuf.wf
  /-- the canonical form of `OBUF` -/
  obufWf : s.obuf.wf
  /-- `IBUF` has `IBUF_CAP` bytes (R25) -/
  ibufWithin : bufferWithin s.ibuf s.ibufCap
  /-- `OBUF` has `OBUF_CAP` bytes (R26) -/
  obufWithin : bufferWithin s.obuf s.obufCap
  /-- every state between two transactions is quiescent (R231) -/
  quiescent : s.busy = false
  /-- R23, R24, R187 -/
  status : statusWf s
  /-- `CB_VALID = 1` implies `TREE_VALID = 1` (R21) -/
  codeNeedsTree : s.cbValid = true → s.treeValid = true
  /-- the arena is well formed whenever `TREE_VALID = 1` (R18) -/
  arena : s.treeValid = true → arenaWf s
  /-- R16, U5 -/
  fields : s.treeValid = true → fieldsWf s
  /-- the code book is derived from the current tree (R21) -/
  codeBook : s.cbValid = true → s.codeBook = codeBookOf s.currentTree

/-- The errors each command can raise (the table of R201). -/
def mayRaise : Instr → List ErrorCode
  | .fcnt => [.range]
  | .build => []
  | .genc => [.seq]
  | .whdr => [.range, .ovf]
  | .tser => [.seq, .range, .ovf]
  | .pack => [.seq, .range, .noCode, .ovf]
  | .rhdr => [.range, .trunc, .hdr]
  | .tdes => [.range, .trunc, .treeOvf]
  | .unpk => [.seq, .range, .trunc, .badCode, .ovf]
  | .comp => [.range, .ovf]
  | .deco => [.range, .trunc, .hdr, .treeOvf, .badCode, .ovf]
  | .clr => []

/-- The artifact of an input whose tree and code book are given (R60). -/
def artifact (input : List Byte) (t : Option HuffmanTree) : List Byte :=
  headerBytes (BitVec.ofNat 64 input.length) ++ treeRegion t ++
    bytesOfBits (codeBits (fun x => (codeBookOf t)[x.toNat]'(x.isLt)) input)

/-- The number a header's bytes assemble to: the sum of `byte k * 2^(8k)` (R61). -/
def headerValue : List Byte → Nat
  | [] => 0
  | b :: bs => b.toNat + 256 * headerValue bs

/-! ### What a command may change -/

/-- The write set each command's rule names (R90, R95, R110, R166, R120, R140, R168, R127, R150, R171, R174); CLR writes every
register (R176). -/
def ruleWrites : Instr → WriteSet
  | .fcnt => { freq := true, total := true, ipos := false, tree := false, codeBook := false, output := false }
  | .build => { freq := false, total := false, ipos := false, tree := true, codeBook := false, output := false }
  | .genc => { freq := false, total := false, ipos := false, tree := false, codeBook := true, output := false }
  | .whdr => { freq := false, total := false, ipos := false, tree := false, codeBook := false, output := true }
  | .tser => { freq := false, total := false, ipos := false, tree := false, codeBook := false, output := true }
  | .pack => { freq := false, total := false, ipos := false, tree := false, codeBook := false, output := true }
  | .rhdr => { freq := false, total := true, ipos := true, tree := false, codeBook := false, output := false }
  | .tdes => { freq := false, total := false, ipos := true, tree := true, codeBook := false, output := false }
  | .unpk => { freq := false, total := false, ipos := true, tree := false, codeBook := false, output := true }
  | .comp => { freq := true, total := true, ipos := false, tree := true, codeBook := true, output := true }
  | .deco => { freq := false, total := true, ipos := true, tree := true, codeBook := false, output := true }
  | .clr => { freq := true, total := true, ipos := true, tree := true, codeBook := true, output := true }

/-- The two composite commands, whose output starts at `OBUF[0]` (R199). -/
def isComposite : Instr → Bool
  | .fcnt => false
  | .build => false
  | .genc => false
  | .whdr => false
  | .tser => false
  | .pack => false
  | .rhdr => false
  | .tdes => false
  | .unpk => false
  | .comp => true
  | .deco => true
  | .clr => false

/-- Every register and every flag outside the write set is as before, and so is every byte of `IBUF`; a command that writes
no output leaves every byte of `OBUF`. The error bits of `STATUS` are left out: what they become is said beside it. -/
def unchangedOutside (w : WriteSet) (s t : State) : Prop :=
  (w.freq = false → t.freq = s.freq) ∧
  (w.total = false → t.total = s.total) ∧
  (w.ipos = false → t.ipos = s.ipos) ∧
  (w.tree = false → t.arena = s.arena ∧ t.nnode = s.nnode ∧ t.root = s.root ∧ t.treeValid = s.treeValid) ∧
  (w.codeBook = false → t.codeBook = s.codeBook) ∧
  (w.tree = false → w.codeBook = false → t.cbValid = s.cbValid) ∧
  (w.output = false → t.olen = s.olen ∧ ∀ a, t.obuf.byte? a = s.obuf.byte? a) ∧
  t.ilen = s.ilen ∧ (∀ a, t.ibuf.byte? a = s.ibuf.byte? a) ∧ t.busy = s.busy ∧ t.caps = s.caps ∧ t.host = s.host ∧
  t.hostRead = s.hostRead

/-- The error bits of `STATUS` are as before. -/
def sameErrorBits (s t : State) : Prop := t.err = s.err ∧ t.corrupt = s.corrupt ∧ t.ecode = s.ecode

/-- The state with the error `e` reported (R188) and nothing else changed. -/
def withError (s : State) (e : ErrorCode) : State :=
  { s with err := true, corrupt := isCorruptClass e, ecode := errorCode e }

/-- `STATUS` reports the error `e` (R188). -/
def reports (t : State) (e : ErrorCode) : Prop :=
  t.err = true ∧ t.ecode = errorCode e ∧ t.corrupt = isCorruptClass e

/-- Commands issued one after the other, up to the first that ends in an error (R169). -/
def runToError : List Instr → State → Result State
  | [], s => .next s
  | i :: rest, s =>
    match exec i s with
    | .next t => if t.err then .next t else runToError rest t
    | .fault r => .fault r
    | .refused r => .refused r

/-- A host read of `l` gives `v` and changes nothing else (R27). -/
def readGives (s : State) (l : Loc) (v : CodeBits) : Prop :=
  ∀ rest : List HostEvent, step { s with host := .read l :: rest } = .next { s with host := rest, hostRead := v }

/-- The key of an entry comes before another's (R98): the pair of weight and index, in lexicographic order. -/
def keyLt (s : State) (i j : Nat) : Prop :=
  s.weightAt i < s.weightAt j ∨ (s.weightAt i = s.weightAt j ∧ i < j)

/-- Entry `i` is in the live set when entry `k` is about to be made: it exists and no internal entry made so far has it as a
child (R97). -/
def liveBefore (s : State) (k i : Nat) : Prop :=
  i < k ∧ ∀ p side, p < k → ¬ isChildOn s p side i

end Sys2Proof.Machine
end

