-- ==== Sys2Proof/Certificates/Slice0/Obligations.lean ====
section
/-! DEFINITION. The statements about the HTB block, each from a rule of the spec its docstring names. -/

open Sys2Proof Sys2Proof.Machine

/-! ## Command words -/

/-- R75, R76: the twelve opcodes decode to their commands, every other byte to none. -/
def Obligations.OpcodeMapDecodes : Prop :=
  decode [0x01] = .ok (.fcnt, []) ∧ decode [0x02] = .ok (.build, []) ∧ decode [0x03] = .ok (.genc, []) ∧
  decode [0x04] = .ok (.whdr, []) ∧ decode [0x05] = .ok (.tser, []) ∧ decode [0x06] = .ok (.pack, []) ∧
  decode [0x07] = .ok (.rhdr, []) ∧ decode [0x08] = .ok (.tdes, []) ∧ decode [0x09] = .ok (.unpk, []) ∧
  decode [0x0A] = .ok (.comp, []) ∧ decode [0x0B] = .ok (.deco, []) ∧ decode [0x0C] = .ok (.clr, []) ∧
  ∀ v : Byte, v = 0 ∨ 0x0D ≤ v.toNat → decode [v] = .error (.illegalOpcode v)

/-- R75: decoding the word of a command gives the command and what follows it, and a byte that decodes to a command is
that command's word. -/
def Obligations.DecodeAndEncodeAgree : Prop :=
  (∀ (i : Instr) (rest : List Byte), decode (encode i ++ rest) = .ok (i, rest)) ∧
  ∀ (v : Byte) (rest rest' : List Byte) (i : Instr), decode (v :: rest) = .ok (i, rest') → encode i = [v] ∧ rest' = rest

/-! ## A step -/

/-- R9, R22: when the host's next transaction writes to `CMD` a value that decodes to a command, the step is that command
at the state from which the transaction is taken.
The list of transactions is the model's form (log entry 4). -/
def Obligations.StepRunsTheDecodedCommand : Prop :=
  ∀ (s : State) (v : Nat) (rest : List HostEvent) (i : Instr),
    s.host = .write .cmd v :: rest → decode [BitVec.ofNat 8 v] = .ok (i, []) → i.wf = true →
      step s = exec i { s with host := rest }

/-- R190: an illegal opcode raises `E_CMD` and changes `STATUS` only.
The transaction is the head of the model's list (log entry 4). -/
def Obligations.IllegalOpcodeRaisesECmd : Prop :=
  ∀ (s : State) (v : Nat) (rest : List HostEvent),
    s.host = .write .cmd v :: rest → (v % 256 = 0 ∨ 13 ≤ v % 256) → s.err = false →
      step s = .next { s with host := rest, err := true, corrupt := false, ecode := 1 }

/-- R189: while `ERR = 1` a write to `CMD` of any value but `0x0C` changes nothing; only CLR and hardware reset clear `ERR`;
the host's other reads and writes work as usual.
Transactions are the model's list (log entry 4). -/
def Obligations.ErrorIsSticky : Prop :=
  (∀ (s : State) (v : Nat) (rest : List HostEvent),
    s.err = true → s.host = .write .cmd v :: rest → v % 256 ≠ 0x0C → step s = .next { s with host := rest }) ∧
  (∀ s t : State, step s = .next t → s.err = true → t.err = false →
    (∃ v rest, s.host = .write .cmd v :: rest ∧ v % 256 = 0x0C) ∨ ∃ rest, s.host = .hardwareReset :: rest) ∧
  (∀ (s : State) (l : Loc) (v : Nat) (rest : List HostEvent), s.err = true → s.host = .write l v :: rest → l ≠ .cmd →
    locExists l s = true → step s = .next (hostWriteLoc l v { s with host := rest })) ∧
  (∀ (s : State) (l : Loc) (rest : List HostEvent), s.err = true → s.host = .read l :: rest → locExists l s = true →
    step s = .next (hostReadLoc l { s with host := rest }))

/-! ## Host accesses -/

/-- R27: a host write stores the value truncated to the register's width and changes nothing else; one to a read-only
location changes nothing. -/
def Obligations.HostWritesFollowTheAccessRights : Prop :=
  ∀ (s : State) (v : Nat) (rest : List HostEvent),
    (∀ x : Byte, step { s with host := .write (.freq x) v :: rest } =
      .next { s with host := rest, freq := s.freq.set x.toNat (BitVec.ofNat 64 v) x.isLt }) ∧
    step { s with host := .write .total v :: rest } = .next { s with host := rest, total := BitVec.ofNat 64 v } ∧
    step { s with host := .write .ilen v :: rest } = .next { s with host := rest, ilen := BitVec.ofNat 64 v } ∧
    step { s with host := .write .ipos v :: rest } = .next { s with host := rest, ipos := BitVec.ofNat 64 v } ∧
    step { s with host := .write .olen v :: rest } = .next { s with host := rest, olen := BitVec.ofNat 64 v } ∧
    (∀ a, a < s.ibufCap → ∃ t, step { s with host := .write (.ibuf a) v :: rest } = .next t ∧
      t = { s with host := rest, ibuf := t.ibuf } ∧ t.ibuf.byte? a = some (BitVec.ofNat 8 v) ∧
      ∀ b, b ≠ a → t.ibuf.byte? b = s.ibuf.byte? b) ∧
    (∀ l : Loc, l = .status ∨ l = .nnode ∨ l = .root ∨ (∃ i f, l = .node i f) ∨
        (∃ x, l = .cbPresent x ∨ l = .cbLen x ∨ l = .cbBits x) ∨ (∃ a, l = .obuf a ∧ a < s.obufCap) →
      step { s with host := .write l v :: rest } = .next { s with host := rest })

/-- R27, R22, U3: a host read gives each location's value where it has one, some value of its width, drawn afresh, where it has
none, and changes nothing but what the host read. No value: a `NODE` field with `TREE_VALID = 0` or at or beyond `NNODE`, a code
book field with `CB_VALID = 0`, an `OBUF` byte at or beyond `OLEN`, a buffer byte without one. Reading `CMD` gives 0.
`hostRead` is the model's own field (log entry 5). -/
def Obligations.HostReadsChangeNothing : Prop :=
  ∀ s : State,
    (∀ (l : Loc) (rest : List HostEvent), locExists l s = true →
      ∃ (value : CodeBits) (n : Nat),
        step { s with host := .read l :: rest } = .next { s with host := rest, hostRead := value, draws := n } ∧
        (∀ v, locValue? l s = some v → value = v ∧ n = s.draws) ∧ (locValue? l s = none → n = s.draws + 1) ∧
        value.toNat < 2 ^ locWidth l ∧ (l = .cmd → value = 0)) ∧
    (∀ x : Byte, readGives s (.freq x) ((s.freq[x.toNat]'(x.isLt)).setWidth 255)) ∧
    readGives s .total (s.total.setWidth 255) ∧ readGives s .ilen (s.ilen.setWidth 255) ∧
    readGives s .ipos (s.ipos.setWidth 255) ∧ readGives s .olen (s.olen.setWidth 255) ∧ readGives s .cmd 0 ∧
    readGives s .status ((statusWord s).setWidth 255) ∧ readGives s .nnode (s.nnode.setWidth 255) ∧
    readGives s .root (s.root.setWidth 255) ∧
    (∀ i : Fin 511, s.treeValid = true → i.val < s.nnode.toNat →
      readGives s (.node i .leaf) ((BitVec.ofBool s.arena[i].leaf).setWidth 255) ∧
      readGives s (.node i .sym) (s.arena[i].sym.setWidth 255) ∧
      readGives s (.node i .left) (s.arena[i].left.setWidth 255) ∧
      readGives s (.node i .right) (s.arena[i].right.setWidth 255) ∧
      readGives s (.node i .weight) (s.arena[i].weight.setWidth 255)) ∧
    (∀ x : Byte, s.cbValid = true →
      readGives s (.cbPresent x) ((BitVec.ofBool (s.codeBook[x.toNat]'(x.isLt)).present).setWidth 255) ∧
      readGives s (.cbLen x) ((s.codeBook[x.toNat]'(x.isLt)).len.setWidth 255) ∧
      readGives s (.cbBits x) (s.codeBook[x.toNat]'(x.isLt)).bits) ∧
    (∀ a v, a < s.ibufCap → s.ibuf.byte? a = some v → readGives s (.ibuf a) (v.setWidth 255)) ∧
    (∀ a v, a < s.obufCap → a < s.olen.toNat → s.obuf.byte? a = some v → readGives s (.obuf a) (v.setWidth 255)) ∧
    (∀ i f, s.treeValid = false ∨ s.nnode.toNat ≤ i.val → locValue? (.node i f) s = none) ∧
    (∀ x, s.cbValid = false →
      locValue? (.cbPresent x) s = none ∧ locValue? (.cbLen x) s = none ∧ locValue? (.cbBits x) s = none) ∧
    (∀ a, s.ibuf.byte? a = none → locValue? (.ibuf a) s = none) ∧
    ∀ a, s.olen.toNat ≤ a ∨ s.obuf.byte? a = none → locValue? (.obuf a) s = none

/-- R23, R24: the fields of `STATUS`, the bits that read as 0, and the nine codes `ECODE` holds. -/
def Obligations.StatusWordLayout : Prop :=
  (∀ s : State,
    (statusWord s).getLsbD 0 = s.busy ∧ (statusWord s).getLsbD 1 = s.err ∧ (statusWord s).getLsbD 2 = s.corrupt ∧
    (statusWord s).getLsbD 3 = s.treeValid ∧ (statusWord s).getLsbD 4 = s.cbValid ∧
    (statusWord s).extractLsb' 5 3 = 0 ∧ (statusWord s).extractLsb' 8 4 = s.ecode ∧
    (statusWord s).extractLsb' 12 4 = 0) ∧
  errorCode .cmd = 1 ∧ errorCode .seq = 2 ∧ errorCode .range = 3 ∧ errorCode .trunc = 4 ∧ errorCode .hdr = 5 ∧
  errorCode .treeOvf = 6 ∧ errorCode .badCode = 7 ∧ errorCode .noCode = 8 ∧ errorCode .ovf = 9

/-- R80: `LOAD` leaves the given bytes at the start of `IBUF` and their number in `ILEN`.
The script as a list of transactions is the model's form (log entries 4 and 13). -/
def Obligations.LoadScriptLoadsTheInput : Prop :=
  ∀ (s : State) (bs : List Byte) (rest : List HostEvent),
    bs.length ≤ s.ibufCap → s.host = scriptLoad bs ++ rest →
      ∃ t, Host.Core.run Sys2Proof.core (bs.length + 1) s = .next t ∧ inputIs t bs ∧
        t = { s with host := rest, ilen := t.ilen, ibuf := t.ibuf }

/-! ## Reset and CLR -/

/-- R31: the registers and flags after reset, whatever the capacities; the arena, the code book and both buffers have no
value. -/
def Obligations.ResetValues : Prop :=
  ∀ caps : Config.Capacities,
    (∀ x, (State.resetWith caps).freqAt x = 0) ∧ (State.resetWith caps).total = 0 ∧ (State.resetWith caps).ilen = 0 ∧
    (State.resetWith caps).ipos = 0 ∧ (State.resetWith caps).olen = 0 ∧ (State.resetWith caps).nnode = 0 ∧
    (State.resetWith caps).root = 0 ∧ (State.resetWith caps).treeValid = false ∧ (State.resetWith caps).cbValid = false ∧
    (State.resetWith caps).busy = false ∧ (State.resetWith caps).err = false ∧ (State.resetWith caps).corrupt = false ∧
    (State.resetWith caps).ecode = 0 ∧
    (∀ i f, locValue? (.node i f) (State.resetWith caps) = none) ∧
    (∀ x, locValue? (.cbPresent x) (State.resetWith caps) = none ∧ locValue? (.cbLen x) (State.resetWith caps) = none ∧
      locValue? (.cbBits x) (State.resetWith caps) = none) ∧
    ∀ a, locValue? (.ibuf a) (State.resetWith caps) = none ∧ locValue? (.obuf a) (State.resetWith caps) = none

/-- R215: hardware reset, at any time, gives the registers, flags and buffers their reset values.
Reset as one event of the host's list, and what it leaves of the model's own fields, is the model's choice (log entries 1, 4 and 11). -/
def Obligations.HardwareResetRestoresResetValues : Prop :=
  ∀ (s : State) (rest : List HostEvent), s.host = .hardwareReset :: rest →
    ∃ t, step s = .next t ∧ t.host = rest ∧
      (∀ x, t.freqAt x = 0) ∧ t.total = 0 ∧ t.ilen = 0 ∧ t.ipos = 0 ∧ t.olen = 0 ∧ t.nnode = 0 ∧ t.root = 0 ∧
      t.treeValid = false ∧ t.cbValid = false ∧ t.busy = false ∧ t.err = false ∧ t.corrupt = false ∧ t.ecode = 0 ∧
      (∀ a, t.ibuf.byte? a = none ∧ t.obuf.byte? a = none) ∧ t.caps = s.caps

/-- R176: CLR completes in every state, with an error pending too, and gives every register its reset value; the contents of
the buffers are left as they are, and the arena and the code book have no value afterwards; it is the only command that does
anything while an error is pending. -/
def Obligations.ClrClearsAllButTheBuffers : Prop :=
  (∀ (i : Instr) (s : State), s.err = true → i ≠ .clr → exec i s = .next s) ∧
  ∀ s : State, ∃ t, exec .clr s = .next t ∧
    (∀ x, t.freqAt x = 0) ∧ t.total = 0 ∧ t.ilen = 0 ∧ t.ipos = 0 ∧ t.olen = 0 ∧ t.nnode = 0 ∧ t.root = 0 ∧
    t.treeValid = false ∧ t.cbValid = false ∧ t.err = false ∧ t.corrupt = false ∧ t.ecode = 0 ∧
    (∀ a, t.ibuf.byte? a = s.ibuf.byte? a ∧ t.obuf.byte? a = s.obuf.byte? a) ∧ t.busy = s.busy ∧ t.caps = s.caps ∧
    t.host = s.host ∧ t.hostRead = s.hostRead ∧
    (∀ i f, locValue? (.node i f) t = none) ∧
    ∀ x, locValue? (.cbPresent x) t = none ∧ locValue? (.cbLen x) t = none ∧ locValue? (.cbBits x) t = none

/-! ## Entry checks -/

/-- R192: the commands that find the derived state they need missing raise `E_SEQ` and change `STATUS` only. -/
def Obligations.MissingTreeOrCodeBookRaisesESeq : Prop :=
  ∀ s : State, s.err = false →
    (s.treeValid = false → exec .genc s = .next (withError s .seq)) ∧
    (s.treeValid = false → exec .tser s = .next (withError s .seq)) ∧
    (s.cbValid = false → exec .pack s = .next (withError s .seq)) ∧
    (s.ilen.toNat ≤ s.ibufCap → s.ipos.toNat ≤ s.ilen.toNat → s.olen.toNat ≤ s.obufCap → s.total.toNat ≤ Config.totalMax →
      0 < s.total.toNat → s.treeValid = false ∨ s.nnode = 0 → exec .unpk s = .next (withError s .seq)) ∧
    (withError s .seq).ecode = 2 ∧ (withError s .seq).corrupt = false

/-- R193: a length, cursor or count register outside its legal range raises `E_RANGE` in the commands that need it, and
changes `STATUS` only; TSER and PACK test for it after `E_SEQ` (R200). -/
def Obligations.RegisterOutOfRangeRaisesERange : Prop :=
  ∀ s : State, s.err = false →
    (s.ibufCap < s.ilen.toNat → exec .fcnt s = .next (withError s .range)) ∧
    (s.treeValid = true → s.obufCap < s.olen.toNat → exec .tser s = .next (withError s .range)) ∧
    (s.cbValid = true → s.ibufCap < s.ilen.toNat ∨ s.obufCap < s.olen.toNat → exec .pack s = .next (withError s .range)) ∧
    (s.obufCap < s.olen.toNat ∨ Config.totalMax < s.total.toNat → exec .whdr s = .next (withError s .range)) ∧
    (s.ibufCap < s.ilen.toNat ∨ s.ilen.toNat < s.ipos.toNat → exec .rhdr s = .next (withError s .range)) ∧
    (s.ibufCap < s.ilen.toNat ∨ s.ilen.toNat < s.ipos.toNat → exec .tdes s = .next (withError s .range)) ∧
    (s.ibufCap < s.ilen.toNat ∨ s.ilen.toNat < s.ipos.toNat ∨ s.obufCap < s.olen.toNat ∨ Config.totalMax < s.total.toNat →
      exec .unpk s = .next (withError s .range)) ∧
    (s.ibufCap < s.ilen.toNat → exec .comp s = .next (withError s .range)) ∧
    (s.ibufCap < s.ilen.toNat → exec .deco s = .next (withError s .range)) ∧
    (withError s .range).ecode = 3 ∧ (withError s .range).corrupt = false

/-! ## FCNT -/

/-- R90: on an input the host has written, FCNT leaves in each `FREQ[s]` the number of bytes equal to `s` and in `TOTAL` the
length, and changes nothing else; its one error is `E_RANGE` at entry. -/
def Obligations.FcntCountsTheInput : Prop :=
  ∀ s : State, s.err = false →
    (∀ input : List Byte, inputIs s input →
      exec .fcnt s =
        .next { s with
          freq := Vector.ofFn (fun x => BitVec.ofNat 64 (input.count (BitVec.ofNat 8 x.val)))
          total := s.ilen }) ∧
    (s.ibufCap < s.ilen.toNat → exec .fcnt s = .next (withError s .range))

/-- R90, U3: FCNT completes on bytes the host never wrote too, and its counts then sum to `ILEN`, whatever those bytes are
read as. -/
def Obligations.FcntCountsSumToTheLength : Prop :=
  ∀ s : State, s.err = false → s.ilen.toNat ≤ s.ibufCap →
    ∃ t, exec .fcnt s = .next t ∧ t.err = false ∧ t.total = s.ilen ∧ freqSum t = s.ilen.toNat

/-! ## BUILD -/

/-- R95: BUILD completes in every state without an error, whatever `FREQ` holds; it makes the tree valid and the code book
invalid, and changes nothing outside the arena and the two flags. -/
def Obligations.BuildAlwaysCompletes : Prop :=
  ∀ s : State, s.err = false →
    ∃ a n r, exec .build s =
      .next { s with arena := a, nnode := n, root := r, treeValid := true, cbValid := false }

/-- R96: one leaf for every symbol with a non-zero frequency, in increasing order of symbol, from index 0, with its frequency
as weight and its unused fields 0; the entries after them in use are internal. -/
def Obligations.BuildSeedsOneLeafPerSymbol : Prop :=
  ∀ s t : State, s.err = false → exec .build s = .next t →
    (∀ k, (h : k < (presentSymbols s).length) →
      t.node? k = some (leafNode (presentSymbols s)[k] ((s.freqAt (presentSymbols s)[k]).setWidth 72))) ∧
    ∀ k n, (presentSymbols s).length ≤ k → k < t.nnode.toNat → t.node? k = some n → n.leaf = false

/-- R97 to R100: every internal entry was made from the two live entries of least key, the first as left child and the second
as right child, and weighs their sum, without wrapping. -/
def Obligations.BuildMergesTheTwoLeastLiveNodes : Prop :=
  ∀ (s t : State) (k : Nat) (n : Node), s.err = false → exec .build s = .next t → k < t.nnode.toNat →
    t.node? k = some n → n.leaf = false →
      liveBefore t k n.left.toNat ∧ liveBefore t k n.right.toNat ∧ keyLt t n.left.toNat n.right.toNat ∧
      (∀ i, liveBefore t k i → i = n.left.toNat ∨ i = n.right.toNat ∨ keyLt t n.right.toNat i) ∧
      n.weight.toNat = (t.weightAt n.left.toNat).toNat + (t.weightAt n.right.toNat).toNat

/-- R102: the shape of the tree BUILD makes: `2n - 1` entries with the root last, well formed, children before parents, the
leaves the present symbols, the root's weight the sum of the frequencies; and the arena is a function of `FREQ`. -/
def Obligations.BuildMakesAWellFormedTree : Prop :=
  (∀ s t : State, s.err = false → exec .build s = .next t →
    t.nnode.toNat = 2 * (presentSymbols s).length - 1 ∧ t.root.toNat = t.nnode.toNat - 1 ∧ arenaWf t ∧ fieldsWf t ∧
    (∀ p side i, isChildOn t p side i → i < p) ∧
    (presentSymbols s = [] → t.currentTree = none) ∧
    (presentSymbols s ≠ [] → ∃ tree, t.currentTree = some tree ∧ tree.symbols.Perm (presentSymbols s) ∧
      (t.weightAt t.root.toNat).toNat = freqSum s)) ∧
  ∀ s s' t t' : State, s.err = false → s'.err = false → s.freq = s'.freq → exec .build s = .next t →
    exec .build s' = .next t' →
      t.nnode = t'.nnode ∧ t.root = t'.root ∧ ∀ i, i < t.nnode.toNat → t.node? i = t'.node? i

/-! ## GENC -/

/-- R111, R112, R114: GENC replaces the code book by the codes of the current tree (none for the empty tree) and changes
nothing else but `CB_VALID`. -/
def Obligations.GencRecordsTheTreePaths : Prop :=
  ∀ s : State, s.err = false → s.treeValid = true →
    (s.nnode = 0 → exec .genc s = .next { s with codeBook := Vector.replicate 256 Code.absent, cbValid := true }) ∧
    ∀ t : HuffmanTree, s.currentTree = some t →
      exec .genc s = .next { s with codeBook := codeBookOf (some t), cbValid := true }

/-- R113: under a tree of one leaf the one symbol gets the code `"0"` of length 1, and no other symbol a code. -/
def Obligations.GencGivesTheOnlySymbolOneZeroBit : Prop :=
  ∀ (s t : State) (x : Byte), s.err = false → s.treeValid = true → s.currentTree = some (.leaf x) →
    exec .genc s = .next t →
      (t.codeAt x).present = true ∧ (t.codeAt x).len = 1 ∧ (t.codeAt x).bits = 0 ∧
      ∀ y, y ≠ x → t.codeAt y = Code.absent

/-- R116: of several leaves with one symbol, the path of the one visited last in pre-order is recorded. -/
def Obligations.GencKeepsTheLastLeafOfASymbol : Prop :=
  ∀ (s t : State) (l r : HuffmanTree) (x : Byte) (p : List Bool) (before after : List (Byte × List Bool)),
    s.err = false → s.treeValid = true → s.currentTree = some (.node l r) →
    codes (.node l r) [] = before ++ (x, p) :: after → x ∉ after.map Prod.fst → exec .genc s = .next t →
      t.codeAt x = codeOfPath p ∧ (t.codeAt x).path = p

/-- R115: when no symbol is repeated among two or more leaves, every leaf's symbol has a code, no other symbol has, and no
code is a prefix of another. -/
def Obligations.GencCodesArePrefixFree : Prop :=
  ∀ (s t : State) (l r : HuffmanTree), s.err = false → s.treeValid = true → s.currentTree = some (.node l r) →
    (HuffmanTree.node l r).symbols.Nodup → exec .genc s = .next t →
      (∀ x, (t.codeAt x).present = true ↔ x ∈ (HuffmanTree.node l r).symbols) ∧
      ∀ x y, (t.codeAt x).present = true → (t.codeAt y).present = true → x ≠ y →
        ¬ (t.codeAt x).path <+: (t.codeAt y).path

/-- R20: after GENC a code has 1 to 255 bits, its bits beyond the length are 0, and a symbol without a code has length 0 and
bits 0. -/
def Obligations.CodeBookEntriesAreWellFormed : Prop :=
  ∀ (s t : State) (x : Byte), s.err = false → exec .genc s = .next t → t.err = false →
    if (t.codeAt x).present then
      1 ≤ (t.codeAt x).len.toNat ∧ ∀ j, (t.codeAt x).len.toNat ≤ j → (t.codeAt x).bits.getLsbD j = false
    else (t.codeAt x).len = 0 ∧ (t.codeAt x).bits = 0

/-! ## TSER and TDES -/

/-- R121, R125: TSER appends the layout of the current tree's items, and nothing for the empty tree, and changes nothing
else. -/
def Obligations.TserAppendsTheLayout : Prop :=
  ∀ s : State, s.err = false → s.treeValid = true → s.obuf.wf → s.olen.toNat ≤ s.obufCap →
    (s.nnode = 0 → exec .tser s = .next s) ∧
    ∀ t : HuffmanTree, s.currentTree = some t → outputFits s (layout (items t)).length →
      exec .tser s = .next (appended s (layout (items t)))

/-- R74, R124: the length of a tree region of `L` leaves is `ceil((2L - 1)/8) + L`. -/
def Obligations.TreeRegionSize : Prop :=
  ∀ t : HuffmanTree, (layout (items t)).length = (2 * t.symbols.length - 1 + 7) / 8 + t.symbols.length

/-- R132, R66: TDES, reading a stream that begins with the layout of a tree of at most 511 nodes, completes with that tree in
a well-formed arena, numbered in pre-order from root 0 (a left child stands right after its parent), having consumed exactly the tree region, and changes nothing else. -/
def Obligations.TdesRebuildsTheTree : Prop :=
  ∀ (s : State) (t : HuffmanTree) (rest : List Byte), s.err = false → t.size ≤ 511 → streamIs s (layout (items t) ++ rest) →
    ∃ a, exec .tdes s =
        .next { s with
          arena := a
          nnode := BitVec.ofNat 10 t.size
          root := 0
          treeValid := true
          cbValid := false
          ipos := s.ipos + BitVec.ofNat 64 (layout (items t)).length } ∧
      ∀ u, exec .tdes s = .next u →
        u.currentTree = some t ∧ arenaWf u ∧ fieldsWf u ∧
        u.preorderAt Config.depthMax u.root = some (List.range u.nnode.toNat) ∧
        (∀ p side i, isChildOn u p side i → p < i) ∧ (∀ p i, isChildOn u p false i → i = p + 1) ∧
        ∀ i n, i < u.nnode.toNat → u.node? i = some n → n.weight = 0

/-- R130: a stream that ends inside a tree region, before its 511th node is complete if there are as many, raises `E_TRUNC`, and
no tree is valid afterwards. The region may be that of a tree of more than 511 nodes (R134: 63 bytes of `00`). -/
def Obligations.TdesOfATruncatedTreeRaisesETrunc : Prop :=
  ∀ (s : State) (t : HuffmanTree) (k : Nat), s.err = false → k < arenaBytes t → streamIs s ((layout (items t)).take k) →
    ∃ u, exec .tdes s = .next u ∧ reports u .trunc ∧ u.ecode = 4 ∧ u.treeValid = false ∧ u.cbValid = false

/-- R129, R130: a stream that holds the first 511 nodes of a tree of more than 511 raises `E_TREEOVF`, whatever follows them and
though nothing may follow (R134: 64 bytes of `00`), and no tree is valid afterwards. -/
def Obligations.TdesOfTooManyNodesRaisesETreeOvf : Prop :=
  ∀ (s : State) (t : HuffmanTree) (rest : List Byte), s.err = false → 511 < t.size →
    streamIs s ((layout (items t)).take (arenaBytes t) ++ rest) →
    ∃ u, exec .tdes s = .next u ∧ reports u .treeOvf ∧ u.ecode = 6 ∧ u.treeValid = false ∧ u.cbValid = false

/-! ## PACK -/

/-- R141, R70, R143: PACK appends the codes of the input's symbols in order, MSB-first, the last byte padded with zeros:
exactly `ceil(B/8)` bytes; it changes nothing else. -/
def Obligations.PackAppendsTheCodeBits : Prop :=
  ∀ (s : State) (input : List Byte), s.err = false → s.cbValid = true → inputIs s input →
    (∀ x ∈ input, (s.codeAt x).present = true) → outputFits s (((codeBits s.codeAt input).length + 7) / 8) →
      exec .pack s = .next (appended s (bytesOfBits (codeBits s.codeAt input)))

/-- R198: PACK raises `E_NOCODE` at the first input symbol without a code, and leaves both validity flags as they are. -/
def Obligations.PackOfASymbolWithoutCodeRaisesENoCode : Prop :=
  ∀ (s : State) (before after : List Byte) (x : Byte), s.err = false → s.cbValid = true →
    inputIs s (before ++ x :: after) → (∀ y ∈ before, (s.codeAt y).present = true) → (s.codeAt x).present = false →
    outputFits s ((codeBits s.codeAt before).length / 8) →
      ∃ t, exec .pack s = .next t ∧ reports t .noCode ∧ t.ecode = 8 ∧ t.treeValid = s.treeValid ∧ t.cbValid = s.cbValid

/-! ## UNPK -/

/-- R152, R154, R156: UNPK appends exactly the `TOTAL` symbols the walk decodes and moves `IPOS` past the byte of the last code
bit; with `TOTAL = 0` it needs no tree and changes nothing. -/
def Obligations.UnpkDecodesTotalSymbols : Prop :=
  ∀ s : State, s.err = false → s.olen.toNat ≤ s.obufCap →
    (s.total = 0 → s.ilen.toNat ≤ s.ibufCap → s.ipos.toNat ≤ s.ilen.toNat → exec .unpk s = .next s) ∧
    ∀ (t : HuffmanTree) (stream symbols : List Byte) (rest : List Bool),
      streamIs s stream → 0 < s.total.toNat → s.total.toNat ≤ Config.totalMax → s.treeValid = true →
      s.currentTree = some t → t.decodeSymbols s.total.toNat (bitsOfBytes stream) = some (symbols, rest) →
      outputFits s s.total.toNat →
        exec .unpk s =
          .next { appended s symbols with ipos := s.ipos + BitVec.ofNat 64 ((8 * stream.length - rest.length + 7) / 8) }

/-- R158: UNPK undoes PACK: on the packed codes of an input, under the tree the codes were read from, it appends exactly the
input and consumes exactly the packed bytes, whatever follows them. -/
def Obligations.UnpkUndoesPack : Prop :=
  ∀ (s : State) (t : HuffmanTree) (input rest : List Byte), s.err = false → s.treeValid = true → s.currentTree = some t →
    (∀ x ∈ input, x ∈ t.symbols) → s.total.toNat = input.length → input.length ≤ Config.totalMax →
    streamIs s (bytesOfBits (codeBits (fun x => (codeBookOf (some t))[x.toNat]'(x.isLt)) input) ++ rest) →
    outputFits s input.length →
      exec .unpk s =
        .next { appended s input with
          ipos := s.ipos + BitVec.ofNat 64
            (bytesOfBits (codeBits (fun x => (codeBookOf (some t))[x.toNat]'(x.isLt)) input)).length }

/-- R155, R153: when the bits end after `n` symbols and `n < TOTAL`, UNPK raises `E_TRUNC` and the tree stays valid: under a tree
of two or more leaves, between two codes or inside one; under a tree of one leaf, when the bits, all 0, are fewer than
`TOTAL`. -/
def Obligations.UnpkOfTooFewBitsRaisesETrunc : Prop :=
  ∀ (s : State) (stream : List Byte), s.err = false → streamIs s stream → s.treeValid = true →
    s.total.toNat ≤ Config.totalMax →
    (∀ (l r : HuffmanTree) (n : Nat) (symbols : List Byte) (rest : List Bool), s.currentTree = some (.node l r) →
      n < s.total.toNat → outputFits s n →
      (HuffmanTree.node l r).decodeSymbols n (bitsOfBytes stream) = some (symbols, rest) →
      (HuffmanTree.node l r).decodeSymbols (n + 1) (bitsOfBytes stream) = none →
        ∃ t, exec .unpk s = .next t ∧ reports t .trunc ∧ t.ecode = 4 ∧ t.treeValid = true) ∧
    ∀ x : Byte, s.currentTree = some (.leaf x) → 8 * stream.length < s.total.toNat → outputFits s (8 * stream.length) →
      (∀ b ∈ bitsOfBytes stream, b = false) →
        ∃ t, exec .unpk s = .next t ∧ reports t .trunc ∧ t.ecode = 4 ∧ t.treeValid = true

/-- R153, R197: under a tree of one leaf, a code bit of 1 before the count is reached raises `E_BADCODE`. -/
def Obligations.UnpkOfAOneBitUnderALeafRaisesEBadCode : Prop :=
  ∀ (s : State) (x : Byte) (stream : List Byte) (n : Nat), s.err = false → streamIs s stream → s.treeValid = true →
    s.currentTree = some (.leaf x) → n < s.total.toNat → s.total.toNat ≤ Config.totalMax → outputFits s n →
    (bitsOfBytes stream).take (n + 1) = List.replicate n false ++ [true] →
      ∃ t, exec .unpk s = .next t ∧ reports t .badCode ∧ t.ecode = 7 ∧ t.treeValid = true

/-! ## WHDR and RHDR -/

/-- R166: WHDR appends the 8 bytes of `TOTAL`, least significant first, and changes nothing else; it raises `E_RANGE` before
anything is written, and `E_OVF` when fewer than 8 bytes are free, which leaves everything but the bytes from the old `OLEN` up
and `OLEN` as it was. -/
def Obligations.WhdrAppendsTheCount : Prop :=
  ∀ s : State, s.err = false →
    (s.obufCap < s.olen.toNat ∨ Config.totalMax < s.total.toNat → exec .whdr s = .next (withError s .range)) ∧
    (s.total.toNat ≤ Config.totalMax → outputFits s 8 →
      ∃ bytes : List Byte, exec .whdr s = .next (appended s bytes) ∧ bytes.length = 8 ∧
        ∀ k, k < 8 → bytes[k]? = some (BitVec.ofNat 8 (s.total.toNat / 2 ^ (8 * k)))) ∧
    (s.total.toNat ≤ Config.totalMax → s.olen.toNat ≤ s.obufCap → ¬ outputFits s 8 →
      ∃ t, exec .whdr s = .next t ∧ reports t .ovf ∧ t.ecode = 9 ∧ unchangedOutside (ruleWrites .whdr) s t ∧
        t.olen.toNat ≤ s.obufCap ∧ ∀ a, a < s.olen.toNat → t.obuf.byte? a = s.obuf.byte? a)

/-- R168: RHDR assembles the next 8 bytes, least significant first, into `TOTAL`, moves `IPOS` past them, and changes nothing
else; a count with bit 63 set raises `E_HDR`, fewer than 8 bytes `E_TRUNC`, both leaving everything but `TOTAL` and `IPOS` as it
was; a register out of range raises `E_RANGE`. -/
def Obligations.RhdrReadsTheCount : Prop :=
  ∀ s : State, s.err = false →
    (s.ibufCap < s.ilen.toNat ∨ s.ilen.toNat < s.ipos.toNat → exec .rhdr s = .next (withError s .range)) ∧
    (∀ header rest : List Byte, header.length = 8 → streamIs s (header ++ rest) → headerValue header < 2 ^ 63 →
      exec .rhdr s = .next { s with total := BitVec.ofNat 64 (headerValue header), ipos := s.ipos + 8 }) ∧
    (∀ header rest : List Byte, header.length = 8 → streamIs s (header ++ rest) → 2 ^ 63 ≤ headerValue header →
      ∃ t, exec .rhdr s = .next t ∧ reports t .hdr ∧ t.ecode = 5 ∧ unchangedOutside (ruleWrites .rhdr) s t ∧
        t.ipos.toNat ≤ s.ilen.toNat) ∧
    ∀ stream : List Byte, stream.length < 8 → streamIs s stream →
      ∃ t, exec .rhdr s = .next t ∧ reports t .trunc ∧ t.ecode = 4 ∧ unchangedOutside (ruleWrites .rhdr) s t ∧
        t.ipos.toNat ≤ s.ilen.toNat

/-- R61, R62: what WHDR writes for a legal count, RHDR reads back as the count. -/
def Obligations.HeaderRoundTrip : Prop :=
  ∀ (s : State) (count : Word) (rest : List Byte), s.err = false → count.toNat ≤ Config.totalMax →
    streamIs s (headerBytes count ++ rest) → exec .rhdr s = .next { s with total := count, ipos := s.ipos + 8 }

/-! ## COMP and DECO -/

/-- R169, R171, R220: COMP leaves exactly what the six primitives leave, issued one after the other from the fresh run its
preamble makes, when none of them ends in an error, and when it ends without one, so does each of them; the first error of one of
them ends COMP with that error's code and class. That the preamble lowers `OLEN` and leaves the storage of `OBUF` is the model's
reading (log entry 7). -/
def Obligations.CompIsTheSixPrimitives : Prop :=
  ∀ s t : State, s.err = false → s.ilen.toNat ≤ s.ibufCap →
    ((exec .comp s = .next t ∧ t.err = false) ↔
      ∃ s₁ s₂ s₃ s₄ s₅ : State,
        exec .fcnt { s with olen := 0, treeValid := false, cbValid := false } = .next s₁ ∧ s₁.err = false ∧
        exec .build s₁ = .next s₂ ∧ s₂.err = false ∧ exec .genc s₂ = .next s₃ ∧ s₃.err = false ∧
        exec .whdr s₃ = .next s₄ ∧ s₄.err = false ∧ exec .tser s₄ = .next s₅ ∧ s₅.err = false ∧
        exec .pack s₅ = .next t ∧ t.err = false) ∧
    ∀ u : State,
      runToError [.fcnt, .build, .genc, .whdr, .tser, .pack] { s with olen := 0, treeValid := false, cbValid := false } =
        .next u → u.err = true → ∃ v, exec .comp s = .next v ∧ sameErrorBits u v

/-- R169, R174, R221: DECO leaves exactly what RHDR and, when the count is not 0, TDES and UNPK leave; the first error of one of
them ends DECO with that error's code and class. On a corrupt input (R77) that is `E_TRUNC` for fewer than 8 bytes, `E_HDR` for a
count with bit 63 set, `E_TREEOVF` for more than 511 nodes, `E_BADCODE` for a 1 bit under a tree of one leaf. That the preamble
lowers `OLEN` and leaves the storage of `OBUF` is the model's reading (log entry 7). -/
def Obligations.DecoIsTheThreePrimitives : Prop :=
  ∀ s t : State, s.err = false → s.ilen.toNat ≤ s.ibufCap →
    ((exec .deco s = .next t ∧ t.err = false) ↔
      ∃ s₁ : State,
        exec .rhdr { s with ipos := 0, olen := 0, treeValid := false, cbValid := false } = .next s₁ ∧ s₁.err = false ∧
        ((s₁.total = 0 ∧ t = s₁) ∨
          (s₁.total ≠ 0 ∧ ∃ s₂ : State, exec .tdes s₁ = .next s₂ ∧ s₂.err = false ∧ exec .unpk s₂ = .next t ∧
            t.err = false))) ∧
    (∀ u : State, exec .rhdr { s with ipos := 0, olen := 0, treeValid := false, cbValid := false } = .next u →
      (u.err = true → ∃ v, exec .deco s = .next v ∧ sameErrorBits u v) ∧
      (u.err = false → u.total ≠ 0 → ∀ w : State, runToError [.tdes, .unpk] u = .next w → w.err = true →
        ∃ v, exec .deco s = .next v ∧ sameErrorBits w v)) ∧
    ∀ input : List Byte, inputIs s input →
      (input.length < 8 → ∃ v, exec .deco s = .next v ∧ reports v .trunc ∧ v.ecode = 4) ∧
      (8 ≤ input.length → 2 ^ 63 ≤ headerValue (input.take 8) →
        ∃ v, exec .deco s = .next v ∧ reports v .hdr ∧ v.ecode = 5) ∧
      (∀ (n : Nat) (tree : HuffmanTree) (rest : List Byte), 0 < n → n ≤ Config.totalMax → 511 < tree.size →
        input = headerBytes (BitVec.ofNat 64 n) ++ (layout (items tree)).take (arenaBytes tree) ++ rest →
          ∃ v, exec .deco s = .next v ∧ reports v .treeOvf ∧ v.ecode = 6) ∧
      ∀ (n k : Nat) (x : Byte) (stream : List Byte), k < n → n ≤ Config.totalMax → k ≤ s.obufCap →
        (bitsOfBytes stream).take (k + 1) = List.replicate k false ++ [true] →
        input = headerBytes (BitVec.ofNat 64 n) ++ layout (items (.leaf x)) ++ stream →
          ∃ v, exec .deco s = .next v ∧ reports v .badCode ∧ v.ecode = 7

/-- R171, R60: on an input the host has written, with room for any artifact of its length (R6), COMP completes without an
error, both flags set, and the output is the artifact: header, tree region and code region of the input. -/
def Obligations.CompWritesTheArtifact : Prop :=
  ∀ (s : State) (input : List Byte), s.err = false → s.obuf.wf → inputIs s input →
    8 + 320 + (255 * input.length + 7) / 8 ≤ s.obufCap →
      ∃ t, exec .comp s = .next t ∧ t.err = false ∧ t.treeValid = true ∧ t.cbValid = true ∧ t.total = s.ilen ∧
        t.ipos = s.ipos ∧ t.codeBook = codeBookOf t.currentTree ∧
        (∀ x, (t.codeAt x).present = true ↔ x ∈ input) ∧ outputIs t (artifact input t.currentTree)

/-- R172: the same input gives the same artifact, whatever state the block was in before. -/
def Obligations.CompDependsOnTheInputAlone : Prop :=
  ∀ (s s' t t' : State) (input : List Byte), s.err = false → s'.err = false → s.obuf.wf → s'.obuf.wf → inputIs s input →
    inputIs s' input → exec .comp s = .next t → exec .comp s' = .next t' → t.err = false → t'.err = false →
      t.olen = t'.olen ∧ t.freq = t'.freq ∧ t.total = t'.total ∧ t.currentTree = t'.currentTree ∧
      t.codeBook = t'.codeBook ∧ ∀ a, a < t.olen.toNat → t.obuf.byte? a = t'.obuf.byte? a

/-- R174, R175: DECO, on a header with count `n`, the tree region of a tree of at most 511 nodes and a code region that decodes
to `n` symbols under it, whatever follows, completes with those symbols as output; with a count of 0 it reads the header
alone. The count-0 clause equates whole states, and so says too that `OBUF` keeps its storage when `OLEN` drops to 0: that part is
the model's reading and no rule's (log entry 7, DEDUCED, unsafe; R26 calls those bytes unspecified). -/
def Obligations.DecoDecodesTheArtifact : Prop :=
  ∀ (s : State) (input : List Byte), s.err = false → inputIs s input →
    (∀ rest : List Byte, input = headerBytes 0 ++ rest →
      exec .deco s =
        .next { s with total := 0, ipos := 8, olen := 0, treeValid := false, cbValid := false }) ∧
    ∀ (n : Nat) (t : HuffmanTree) (stream symbols : List Byte) (rest : List Bool),
      0 < n → n ≤ s.obufCap → t.size ≤ 511 →
      input = headerBytes (BitVec.ofNat 64 n) ++ layout (items t) ++ stream →
      t.decodeSymbols n (bitsOfBytes stream) = some (symbols, rest) →
        ∃ u, exec .deco s = .next u ∧ u.err = false ∧ u.treeValid = true ∧ u.cbValid = false ∧ u.freq = s.freq ∧
          u.total.toNat = n ∧ u.currentTree = some t ∧ outputIs u symbols ∧
          u.ipos.toNat = 8 + (layout (items t)).length + (8 * stream.length - rest.length + 7) / 8

/-- R175, THE ROUND-TRIP LAW: what COMP wrote for an input, loaded into any block with room for the input, DECO turns back into
exactly the input, consuming the whole artifact. -/
def Obligations.DecompressUndoesCompress : Prop :=
  ∀ (s t u : State) (input art : List Byte), s.err = false → s.obuf.wf → inputIs s input → exec .comp s = .next t →
    t.err = false → outputIs t art → u.err = false → inputIs u art → input.length ≤ u.obufCap →
      ∃ v, exec .deco u = .next v ∧ v.err = false ∧ outputIs v input ∧ v.ipos = v.ilen

/-- R155: an artifact COMP wrote, cut at any length short of its own, makes DECO report a corrupt artifact, `E_TRUNC`. -/
def Obligations.TruncatedArtifactIsReported : Prop :=
  ∀ (s t u : State) (input art : List Byte) (k : Nat), s.err = false → s.obuf.wf → inputIs s input →
    exec .comp s = .next t → t.err = false → outputIs t art → k < art.length → u.err = false → inputIs u (art.take k) →
    input.length ≤ u.obufCap → ∃ v, exec .deco u = .next v ∧ reports v .trunc ∧ v.ecode = 4

/-! ## Errors -/

/-- R191, R44, R200: an output that does not fit raises `E_OVF`, which is not of the corrupt class: WHDR without 8 bytes of room;
TSER; PACK, also when the room ends before the input does; UNPK, also when the room ends before the bits do; COMP when the
artifact of the tree BUILD makes is longer than `OBUF`; DECO when more symbols decode than `OBUF` holds. -/
def Obligations.OutputThatDoesNotFitRaisesEOvf : Prop :=
  ∀ s : State, s.err = false →
    (s.olen.toNat ≤ s.obufCap →
      (s.total.toNat ≤ Config.totalMax → ¬ outputFits s 8 → ∃ u, exec .whdr s = .next u ∧ reports u .ovf ∧ u.ecode = 9) ∧
      (∀ t : HuffmanTree, s.treeValid = true → s.currentTree = some t → ¬ outputFits s (layout (items t)).length →
        ∃ u, exec .tser s = .next u ∧ reports u .ovf ∧ u.ecode = 9) ∧
      (∀ input : List Byte, s.cbValid = true → inputIs s input → (∀ x ∈ input, (s.codeAt x).present = true) →
        ¬ outputFits s (((codeBits s.codeAt input).length + 7) / 8) →
          ∃ u, exec .pack s = .next u ∧ reports u .ovf ∧ u.ecode = 9) ∧
      (∀ before after : List Byte, s.cbValid = true → inputIs s (before ++ after) →
        (∀ x ∈ before, (s.codeAt x).present = true) → ¬ outputFits s ((codeBits s.codeAt before).length / 8) →
          ∃ u, exec .pack s = .next u ∧ reports u .ovf ∧ u.ecode = 9) ∧
      ∀ (t : HuffmanTree) (n : Nat) (stream symbols : List Byte) (rest : List Bool), s.treeValid = true →
        s.currentTree = some t → streamIs s stream → s.total.toNat ≤ Config.totalMax → n ≤ s.total.toNat →
        t.decodeSymbols n (bitsOfBytes stream) = some (symbols, rest) → ¬ outputFits s n →
          ∃ u, exec .unpk s = .next u ∧ reports u .ovf ∧ u.ecode = 9) ∧
    ∀ input : List Byte, inputIs s input →
      (∀ s₁ s₂ : State, exec .fcnt s = .next s₁ → exec .build s₁ = .next s₂ →
        s.obufCap < (artifact input s₂.currentTree).length →
          ∃ u, exec .comp s = .next u ∧ reports u .ovf ∧ u.ecode = 9) ∧
      ∀ (n k : Nat) (t : HuffmanTree) (stream symbols : List Byte) (rest : List Bool), k ≤ n → n ≤ Config.totalMax →
        t.size ≤ 511 → input = headerBytes (BitVec.ofNat 64 n) ++ layout (items t) ++ stream →
        t.decodeSymbols k (bitsOfBytes stream) = some (symbols, rest) → s.obufCap < k →
          ∃ u, exec .deco s = .next u ∧ reports u .ovf ∧ u.ecode = 9

/-- R188, R199: a command that ends in an error either changed `STATUS` only, or left what its rule names as its write set
within the stated bounds and everything else as it was at issue.
The form of the free values is log entry 10. -/
def Obligations.ErrorsStayWithinTheWriteSet : Prop :=
  ∀ (i : Instr) (s t : State), s.err = false → exec i s = .next t → t.err = true →
    (∃ e, t = withError s e ∧ (e = .seq ∨ e = .range)) ∨
      ((∃ e, reports t e) ∧ unchangedOutside (ruleWrites i) s t ∧
        ((ruleWrites i).output = true → t.olen.toNat ≤ s.obufCap) ∧
        ((ruleWrites i).output = true → isComposite i = false →
          ∀ a, a < s.olen.toNat → t.obuf.byte? a = s.obuf.byte? a) ∧
        ((ruleWrites i).ipos = true → t.ipos.toNat ≤ s.ilen.toNat) ∧
        ((ruleWrites i).tree = true → t.treeValid = false) ∧
        ((ruleWrites i).tree = true ∨ (ruleWrites i).codeBook = true → t.cbValid = false))

/-- R201: each command raises no error but those of its row of the table, COMP on an input the host has written. -/
def Obligations.EachCommandRaisesOnlyItsErrors : Prop :=
  ∀ (i : Instr) (s t : State), s.err = false →
    (i = .comp → s.ilen.toNat ≤ s.ibufCap → ∃ input, inputIs s input) →
    exec i s = .next t → t.err = true → ∃ e ∈ mayRaise i, reports t e

/-! ## Frames -/

/-- The frame of the commands that write registers only (R90, R95, R110, R168, R127): FCNT changes `FREQ` and `TOTAL`; BUILD the
arena and the flags; GENC the code book and its flag; RHDR `TOTAL` and `IPOS`; TDES the arena, the flags and `IPOS`. -/
def Obligations.RegisterCommandsFrame : Prop :=
  ∀ (i : Instr) (s t : State), i = .fcnt ∨ i = .build ∨ i = .genc ∨ i = .rhdr ∨ i = .tdes → exec i s = .next t →
    unchangedOutside (ruleWrites i) s t ∧ (t.err = s.err → sameErrorBits s t)

/-- The frame of the commands that write output (R166, R120, R140, R150): WHDR, TSER and PACK change `OBUF` and `OLEN`, UNPK
`IPOS` besides; the bytes stored are those from the old `OLEN` up to the new one, and with an error no byte below the old
`OLEN` changes.
That bytes at and beyond `OLEN` keep their storage is the model's reading (log entry 7). -/
def Obligations.OutputCommandsFrame : Prop :=
  ∀ (i : Instr) (s t : State), i = .whdr ∨ i = .tser ∨ i = .pack ∨ i = .unpk → exec i s = .next t →
    unchangedOutside (ruleWrites i) s t ∧ (t.err = s.err → sameErrorBits s t) ∧
    (t.err = s.err → s.olen.toNat ≤ t.olen.toNat ∧
      ∀ a, a < s.olen.toNat ∨ t.olen.toNat ≤ a → t.obuf.byte? a = s.obuf.byte? a) ∧
    ∀ a, a < s.olen.toNat → t.obuf.byte? a = s.obuf.byte? a

/-- The frame of the composite commands (R171, R174): COMP leaves `IPOS`; DECO leaves `FREQ` and the code book's entries; both
store, without an error, the bytes from 0 up to the new `OLEN`.
That bytes at and beyond `OLEN` keep their storage is the model's reading (log entry 7). -/
def Obligations.CompositeCommandsFrame : Prop :=
  ∀ (i : Instr) (s t : State), i = .comp ∨ i = .deco → s.err = false → exec i s = .next t →
    unchangedOutside (ruleWrites i) s t ∧ (t.err = false → sameErrorBits s t) ∧
    (t.err = false → ∀ a, t.olen.toNat ≤ a → t.obuf.byte? a = s.obuf.byte? a)

/-! ## Invariants -/

/-- R31: the state after reset meets the invariant, whatever the capacities.
The storage of arena and code book, which log entry 6 chooses, plays no part. -/
def Obligations.ResetMeetsTheInvariant : Prop :=
  ∀ caps : Config.Capacities, Inv (State.resetWith caps)

/-- R18, R21, R23, R40, R231: every step keeps the invariant: canonical buffers within their capacities, a consistent `STATUS`, a
well-formed arena whenever the tree is valid, and a code book that belongs to the tree in the arena.
The canonical form of the buffers is the model's representation (log entry 3). -/
def Obligations.StepKeepsTheInvariant : Prop :=
  ∀ s t : State, Inv s → step s = .next t → Inv t

/-- R228, S4 of 93: from a state that meets the invariant every command terminates with a next state, and no walk leaves the
tree; a step stops only where the host names a byte the buffer does not have.
The two faults are the model's (log entries 8 and 9). -/
def Obligations.EveryCommandTerminates : Prop :=
  (∀ (i : Instr) (s : State), Inv s → ∃ t, exec i s = .next t) ∧
  ∀ s : State, Inv s → (∀ e ∈ s.host.head?, ∀ l v, e = .write l v ∨ e = .read l → locExists l s = true) →
    ∃ t, step s = .next t

/-- R40: every step keeps the canonical form of both buffers, in every state.
The canonical form is the model's representation (log entry 3). -/
def Obligations.StepKeepsBuffersCanonical : Prop :=
  ∀ s t : State, s.ibuf.wf → s.obuf.wf → step s = .next t → t.ibuf.wf ∧ t.obuf.wf

/-- R23, R24, R187: every step keeps `STATUS` consistent, in every state. -/
def Obligations.StepKeepsStatusConsistent : Prop :=
  ∀ s t : State, statusWf s → step s = .next t → statusWf t

/-- R21: every step keeps that a valid code book implies a valid tree, in every state. -/
def Obligations.StepKeepsCodeBookNeedsTree : Prop :=
  ∀ s t : State, (s.cbValid = true → s.treeValid = true) → step s = .next t → t.cbValid = true → t.treeValid = true

/-- R18: what a well-formed arena is, clause by clause: `NNODE` odd, the root and every child below it, every other entry the
child of exactly one entry on exactly one side, the root of none. -/
def Obligations.WellFormedArenaClauses : Prop :=
  ∀ s : State, arenaWf s → s.nnode ≠ 0 →
    s.nnode.toNat % 2 = 1 ∧ s.root.toNat < s.nnode.toNat ∧
    (∀ p side i, isChildOn s p side i → i < s.nnode.toNat) ∧
    (∀ i, i < s.nnode.toNat → i ≠ s.root.toNat →
      ∃ p side, isChildOn s p side i ∧ ∀ p' side', isChildOn s p' side' i → p' = p ∧ side' = side) ∧
    (∀ p side, ¬ isChildOn s p side s.root.toNat) ∧ ∃ t : HuffmanTree, s.currentTree = some t ∧ t.size = s.nnode.toNat

/-- R25, R13, R41: no command changes `IBUF`, and none but CLR changes `ILEN`. -/
def Obligations.CommandsNeverChangeTheInput : Prop :=
  ∀ (i : Instr) (s t : State), exec i s = .next t →
    (∀ a, t.ibuf.byte? a = s.ibuf.byte? a) ∧ (i ≠ .clr → t.ilen = s.ilen)
end

