-- ==== Sys2Proof/Laws/Memory.lean ====
section
/-! SUPPORT. What the buffer operations do to each byte, and that each keeps the canonical form. -/

namespace Sys2Proof.Machine

@[simp] theorem Memory.byte?_nil (a : Nat) : Memory.byte? [] a = none := rfl

/-! ### One store -/

theorem Memory.byte?_store_same (m : Memory) (a : Nat) (v : Byte) : (m.store a v).byte? a = some v := by
  induction m with
  | nil => simp [Memory.store, Memory.byte?]
  | cons c m ih =>
    obtain ⟨b, w⟩ := c
    unfold Memory.store
    split
    · simp [Memory.byte?]
    · split
      · simp [Memory.byte?]
      · rename_i h
        simp [Memory.byte?, h, ih]

theorem Memory.byte?_store_other (m : Memory) {a b : Nat} (v : Byte) (h : b ≠ a) :
    (m.store a v).byte? b = m.byte? b := by
  induction m with
  | nil => simp [Memory.store, Memory.byte?, h]
  | cons c m ih =>
    obtain ⟨d, w⟩ := c
    unfold Memory.store
    split
    · simp [Memory.byte?, h]
    · split
      · rename_i h2
        subst h2
        simp [Memory.byte?, h]
      · simp [Memory.byte?, ih]

/-- A read after a write: the value written at its index, every other byte as before. -/
theorem Memory.byte?_store (m : Memory) (a b : Nat) (v : Byte) :
    (m.store a v).byte? b = if b = a then some v else m.byte? b := by
  split
  · rename_i h
    rw [h, Memory.byte?_store_same]
  · rename_i h
    rw [Memory.byte?_store_other m v h]

theorem Memory.mem_store {m : Memory} {a : Nat} {v : Byte} {c : Host.Cell} (h : c ∈ m.store a v) :
    c = (a, v) ∨ c ∈ m := by
  induction m with
  | nil => simpa [Memory.store] using h
  | cons d m ih =>
    obtain ⟨b, w⟩ := d
    unfold Memory.store at h
    split at h
    · simpa using h
    · split at h
      · rcases List.mem_cons.mp h with h | h
        · exact .inl h
        · exact .inr (List.mem_cons_of_mem _ h)
      · rcases List.mem_cons.mp h with h | h
        · exact .inr (h ▸ List.mem_cons_self)
        · exact (ih h).imp id (List.mem_cons_of_mem _)

/-- A store keeps the canonical form. -/
theorem Memory.wf_store {m : Memory} (hm : m.wf) (a : Nat) (v : Byte) : (m.store a v).wf := by
  induction m with
  | nil => simp [Memory.store, Memory.wf]
  | cons c m ih =>
    obtain ⟨b, w⟩ := c
    obtain ⟨hc, hrest⟩ := List.pairwise_cons.mp hm
    unfold Memory.store
    split
    · rename_i hab
      refine List.pairwise_cons.mpr ⟨fun d hd => ?_, hm⟩
      rcases List.mem_cons.mp hd with rfl | hd
      · exact hab
      · exact Nat.lt_trans hab (hc d hd)
    · split
      · rename_i h
        subst h
        exact List.pairwise_cons.mpr ⟨hc, hrest⟩
      · refine List.pairwise_cons.mpr ⟨fun d hd => ?_, ih hrest⟩
        rcases Memory.mem_store hd with rfl | hd
        · simp only
          omega
        · exact hc d hd

/-- A store within a capacity keeps a buffer within it. -/
theorem bufferWithin_store {m : Memory} {cap : Nat} (hm : bufferWithin m cap) {a : Nat} (h : a < cap) (v : Byte) :
    bufferWithin (m.store a v) cap := by
  intro c hc
  rcases Memory.mem_store hc with rfl | hc
  · exact h
  · exact hm c hc

/-! ### Bytes that lose their value -/

theorem Memory.byte?_keepBelow (m : Memory) (n a : Nat) :
    (Memory.keepBelow m n).byte? a = if a < n then m.byte? a else none := by
  induction m with
  | nil => simp [Memory.keepBelow, Memory.byte?]
  | cons c m ih =>
    obtain ⟨b, w⟩ := c
    have split_below : Memory.keepBelow ((b, w) :: m) n = if b < n then (b, w) :: Memory.keepBelow m n else Memory.keepBelow m n := by
      by_cases hb : b < n <;> simp [Memory.keepBelow, hb]
    rw [split_below]
    by_cases hb : b < n
    · simp only [hb, if_true, Memory.byte?, ih]
      split
      · rename_i h
        simp [h, hb]
      · rfl
    · simp only [hb, if_false, ih, Memory.byte?]
      by_cases h : a < n
      · have : a ≠ b := by omega
        simp [h, this]
      · simp [h]

theorem Memory.wf_keepBelow {m : Memory} (hm : m.wf) (n : Nat) : (Memory.keepBelow m n).wf := List.Pairwise.filter _ hm

theorem bufferWithin_keepBelow {m : Memory} {cap : Nat} (hm : bufferWithin m cap) (n : Nat) : bufferWithin (Memory.keepBelow m n) cap :=
  fun c hc => hm c (List.mem_filter.mp hc).1

/-! ### Several stores -/

@[simp] theorem Memory.storeAll_nil (m : Memory) (a : Nat) : m.storeAll a [] = m := rfl

@[simp] theorem Memory.storeAll_cons (m : Memory) (a : Nat) (b : Byte) (bs : List Byte) :
    m.storeAll a (b :: bs) = (m.store a b).storeAll (a + 1) bs := rfl

theorem Memory.storeAll_append (m : Memory) (a : Nat) (bs cs : List Byte) :
    m.storeAll a (bs ++ cs) = (m.storeAll a bs).storeAll (a + bs.length) cs := by
  induction bs generalizing m a with
  | nil => simp
  | cons b bs ih =>
    simp only [List.cons_append, Memory.storeAll_cons, ih, List.length_cons]
    congr 1
    omega

/-- Each byte after several stores. -/
theorem Memory.byte?_storeAll (m : Memory) (a : Nat) (bs : List Byte) (b : Nat) :
    (m.storeAll a bs).byte? b = if a ≤ b ∧ b < a + bs.length then bs[b - a]? else m.byte? b := by
  induction bs generalizing m a with
  | nil => simp
  | cons v bs ih =>
    rw [Memory.storeAll_cons, ih, Memory.byte?_store, List.length_cons]
    by_cases h : b = a
    · subst h
      simp
    · by_cases h1 : a + 1 ≤ b ∧ b < a + 1 + bs.length
      · have h2 : a ≤ b ∧ b < a + (bs.length + 1) := by omega
        have h3 : b - a = b - (a + 1) + 1 := by omega
        simp [h1, h2, h3]
      · have h2 : ¬ (a ≤ b ∧ b < a + (bs.length + 1)) := by omega
        rw [if_neg h1, if_neg h, if_neg h2]

theorem Memory.wf_storeAll {m : Memory} (hm : m.wf) (a : Nat) (bs : List Byte) : (m.storeAll a bs).wf := by
  induction bs generalizing m a with
  | nil => exact hm
  | cons b bs ih => exact ih (Memory.wf_store hm a b) (a + 1)

/-- The bytes just stored are there. -/
theorem holdsAt_storeAll (m : Memory) (a : Nat) (bs : List Byte) : holdsAt (m.storeAll a bs) a bs := by
  intro k hk
  rw [Memory.byte?_storeAll, if_pos (by omega)]
  simp [hk]

/-! ### Canonical form -/

theorem Memory.byte?_eq_some_of_mem {m : Memory} (hm : m.wf) {a : Nat} {v : Byte} (h : (a, v) ∈ m) :
    m.byte? a = some v := by
  induction m with
  | nil => simp at h
  | cons c m ih =>
    obtain ⟨b, w⟩ := c
    obtain ⟨hc, hm⟩ := List.pairwise_cons.mp hm
    rcases List.mem_cons.mp h with h | h
    · cases h
      simp [Memory.byte?]
    · have := hc _ h
      have hne : a ≠ b := by
        simp only at this
        omega
      simp [Memory.byte?, hne, ih hm h]

theorem Memory.mem_of_byte?_eq_some {m : Memory} {a : Nat} {v : Byte} (h : m.byte? a = some v) : (a, v) ∈ m := by
  induction m with
  | nil => simp at h
  | cons c m ih =>
    obtain ⟨b, w⟩ := c
    unfold Memory.byte? at h
    split at h
    · rename_i hab
      cases h
      simp [hab]
    · exact List.mem_cons_of_mem _ (ih h)

/-- Equal bytes are equal buffers: the canonical form has one list for each content. -/
theorem Memory.ext_of_wf {m n : Memory} (hm : m.wf) (hn : n.wf) (h : ∀ a, m.byte? a = n.byte? a) : m = n := by
  have key : ∀ {m n : Memory}, m.wf → n.wf → (∀ a, m.byte? a = n.byte? a) → m ⊆ n := by
    intro m n hm _ h c hc
    obtain ⟨a, v⟩ := c
    exact Memory.mem_of_byte?_eq_some (h a ▸ Memory.byte?_eq_some_of_mem hm hc)
  have nodup : ∀ {m : Memory}, m.wf → m.Nodup := fun hm =>
    List.Pairwise.imp (fun {x y} hxy he => by subst he; exact Nat.lt_irrefl _ hxy) hm
  have hp : m.Perm n :=
    (List.perm_ext_iff_of_nodup (nodup hm) (nodup hn)).mpr fun c =>
      ⟨fun hc => key hm hn h hc, fun hc => key hn hm (fun a => (h a).symm) hc⟩
  exact hp.eq_of_pairwise (fun x y _ _ hxy hyx => absurd hxy (Nat.lt_asymm hyx)) hm hn

end Sys2Proof.Machine
end

