-- ==== Sys2Proof/Laws/State.lean ====
section
/-! SUPPORT. Each field of the state after each named update, one lemma a field, true by definition: later proofs rewrite with these and unfold no record update. -/

namespace Sys2Proof.Machine

@[simp] theorem setError_freq (e : ErrorCode) (s : State) : (setError e s).freq = s.freq := rfl
@[simp] theorem setError_total (e : ErrorCode) (s : State) : (setError e s).total = s.total := rfl
@[simp] theorem setError_ilen (e : ErrorCode) (s : State) : (setError e s).ilen = s.ilen := rfl
@[simp] theorem setError_ipos (e : ErrorCode) (s : State) : (setError e s).ipos = s.ipos := rfl
@[simp] theorem setError_olen (e : ErrorCode) (s : State) : (setError e s).olen = s.olen := rfl
@[simp] theorem setError_arena (e : ErrorCode) (s : State) : (setError e s).arena = s.arena := rfl
@[simp] theorem setError_nnode (e : ErrorCode) (s : State) : (setError e s).nnode = s.nnode := rfl
@[simp] theorem setError_root (e : ErrorCode) (s : State) : (setError e s).root = s.root := rfl
@[simp] theorem setError_treeValid (e : ErrorCode) (s : State) : (setError e s).treeValid = s.treeValid := rfl
@[simp] theorem setError_codeBook (e : ErrorCode) (s : State) : (setError e s).codeBook = s.codeBook := rfl
@[simp] theorem setError_cbValid (e : ErrorCode) (s : State) : (setError e s).cbValid = s.cbValid := rfl
@[simp] theorem setError_busy (e : ErrorCode) (s : State) : (setError e s).busy = s.busy := rfl
@[simp] theorem setError_err (e : ErrorCode) (s : State) : (setError e s).err = true := rfl
@[simp] theorem setError_corrupt (e : ErrorCode) (s : State) : (setError e s).corrupt = isCorruptClass e := rfl
@[simp] theorem setError_ecode (e : ErrorCode) (s : State) : (setError e s).ecode = errorCode e := rfl
@[simp] theorem setError_ibuf (e : ErrorCode) (s : State) : (setError e s).ibuf = s.ibuf := rfl
@[simp] theorem setError_obuf (e : ErrorCode) (s : State) : (setError e s).obuf = s.obuf := rfl
@[simp] theorem setError_caps (e : ErrorCode) (s : State) : (setError e s).caps = s.caps := rfl
@[simp] theorem setError_draws (e : ErrorCode) (s : State) : (setError e s).draws = s.draws := rfl
@[simp] theorem setError_host (e : ErrorCode) (s : State) : (setError e s).host = s.host := rfl
@[simp] theorem setError_hostRead (e : ErrorCode) (s : State) : (setError e s).hostRead = s.hostRead := rfl

@[simp] theorem clearError_freq (s : State) : (clearError s).freq = s.freq := rfl
@[simp] theorem clearError_total (s : State) : (clearError s).total = s.total := rfl
@[simp] theorem clearError_ilen (s : State) : (clearError s).ilen = s.ilen := rfl
@[simp] theorem clearError_ipos (s : State) : (clearError s).ipos = s.ipos := rfl
@[simp] theorem clearError_olen (s : State) : (clearError s).olen = s.olen := rfl
@[simp] theorem clearError_arena (s : State) : (clearError s).arena = s.arena := rfl
@[simp] theorem clearError_nnode (s : State) : (clearError s).nnode = s.nnode := rfl
@[simp] theorem clearError_root (s : State) : (clearError s).root = s.root := rfl
@[simp] theorem clearError_treeValid (s : State) : (clearError s).treeValid = s.treeValid := rfl
@[simp] theorem clearError_codeBook (s : State) : (clearError s).codeBook = s.codeBook := rfl
@[simp] theorem clearError_cbValid (s : State) : (clearError s).cbValid = s.cbValid := rfl
@[simp] theorem clearError_busy (s : State) : (clearError s).busy = s.busy := rfl
@[simp] theorem clearError_err (s : State) : (clearError s).err = false := rfl
@[simp] theorem clearError_corrupt (s : State) : (clearError s).corrupt = false := rfl
@[simp] theorem clearError_ecode (s : State) : (clearError s).ecode = 0 := rfl
@[simp] theorem clearError_ibuf (s : State) : (clearError s).ibuf = s.ibuf := rfl
@[simp] theorem clearError_obuf (s : State) : (clearError s).obuf = s.obuf := rfl
@[simp] theorem clearError_caps (s : State) : (clearError s).caps = s.caps := rfl
@[simp] theorem clearError_draws (s : State) : (clearError s).draws = s.draws := rfl
@[simp] theorem clearError_host (s : State) : (clearError s).host = s.host := rfl
@[simp] theorem clearError_hostRead (s : State) : (clearError s).hostRead = s.hostRead := rfl

@[simp] theorem setTreeValid_freq (s : State) : (setTreeValid s).freq = s.freq := rfl
@[simp] theorem setTreeValid_total (s : State) : (setTreeValid s).total = s.total := rfl
@[simp] theorem setTreeValid_ilen (s : State) : (setTreeValid s).ilen = s.ilen := rfl
@[simp] theorem setTreeValid_ipos (s : State) : (setTreeValid s).ipos = s.ipos := rfl
@[simp] theorem setTreeValid_olen (s : State) : (setTreeValid s).olen = s.olen := rfl
@[simp] theorem setTreeValid_arena (s : State) : (setTreeValid s).arena = s.arena := rfl
@[simp] theorem setTreeValid_nnode (s : State) : (setTreeValid s).nnode = s.nnode := rfl
@[simp] theorem setTreeValid_root (s : State) : (setTreeValid s).root = s.root := rfl
@[simp] theorem setTreeValid_treeValid (s : State) : (setTreeValid s).treeValid = true := rfl
@[simp] theorem setTreeValid_codeBook (s : State) : (setTreeValid s).codeBook = s.codeBook := rfl
@[simp] theorem setTreeValid_cbValid (s : State) : (setTreeValid s).cbValid = false := rfl
@[simp] theorem setTreeValid_busy (s : State) : (setTreeValid s).busy = s.busy := rfl
@[simp] theorem setTreeValid_err (s : State) : (setTreeValid s).err = s.err := rfl
@[simp] theorem setTreeValid_corrupt (s : State) : (setTreeValid s).corrupt = s.corrupt := rfl
@[simp] theorem setTreeValid_ecode (s : State) : (setTreeValid s).ecode = s.ecode := rfl
@[simp] theorem setTreeValid_ibuf (s : State) : (setTreeValid s).ibuf = s.ibuf := rfl
@[simp] theorem setTreeValid_obuf (s : State) : (setTreeValid s).obuf = s.obuf := rfl
@[simp] theorem setTreeValid_caps (s : State) : (setTreeValid s).caps = s.caps := rfl
@[simp] theorem setTreeValid_draws (s : State) : (setTreeValid s).draws = s.draws := rfl
@[simp] theorem setTreeValid_host (s : State) : (setTreeValid s).host = s.host := rfl
@[simp] theorem setTreeValid_hostRead (s : State) : (setTreeValid s).hostRead = s.hostRead := rfl

@[simp] theorem clearValid_freq (s : State) : (clearValid s).freq = s.freq := rfl
@[simp] theorem clearValid_total (s : State) : (clearValid s).total = s.total := rfl
@[simp] theorem clearValid_ilen (s : State) : (clearValid s).ilen = s.ilen := rfl
@[simp] theorem clearValid_ipos (s : State) : (clearValid s).ipos = s.ipos := rfl
@[simp] theorem clearValid_olen (s : State) : (clearValid s).olen = s.olen := rfl
@[simp] theorem clearValid_arena (s : State) : (clearValid s).arena = s.arena := rfl
@[simp] theorem clearValid_nnode (s : State) : (clearValid s).nnode = s.nnode := rfl
@[simp] theorem clearValid_root (s : State) : (clearValid s).root = s.root := rfl
@[simp] theorem clearValid_treeValid (s : State) : (clearValid s).treeValid = false := rfl
@[simp] theorem clearValid_codeBook (s : State) : (clearValid s).codeBook = s.codeBook := rfl
@[simp] theorem clearValid_cbValid (s : State) : (clearValid s).cbValid = false := rfl
@[simp] theorem clearValid_busy (s : State) : (clearValid s).busy = s.busy := rfl
@[simp] theorem clearValid_err (s : State) : (clearValid s).err = s.err := rfl
@[simp] theorem clearValid_corrupt (s : State) : (clearValid s).corrupt = s.corrupt := rfl
@[simp] theorem clearValid_ecode (s : State) : (clearValid s).ecode = s.ecode := rfl
@[simp] theorem clearValid_ibuf (s : State) : (clearValid s).ibuf = s.ibuf := rfl
@[simp] theorem clearValid_obuf (s : State) : (clearValid s).obuf = s.obuf := rfl
@[simp] theorem clearValid_caps (s : State) : (clearValid s).caps = s.caps := rfl
@[simp] theorem clearValid_draws (s : State) : (clearValid s).draws = s.draws := rfl
@[simp] theorem clearValid_host (s : State) : (clearValid s).host = s.host := rfl
@[simp] theorem clearValid_hostRead (s : State) : (clearValid s).hostRead = s.hostRead := rfl

@[simp] theorem setFreq_freq (x : Byte) (v : Word) (s : State) : (setFreq x v s).freq = s.freq.set x.toNat v x.isLt := rfl
@[simp] theorem setFreq_total (x : Byte) (v : Word) (s : State) : (setFreq x v s).total = s.total := rfl
@[simp] theorem setFreq_ilen (x : Byte) (v : Word) (s : State) : (setFreq x v s).ilen = s.ilen := rfl
@[simp] theorem setFreq_ipos (x : Byte) (v : Word) (s : State) : (setFreq x v s).ipos = s.ipos := rfl
@[simp] theorem setFreq_olen (x : Byte) (v : Word) (s : State) : (setFreq x v s).olen = s.olen := rfl
@[simp] theorem setFreq_arena (x : Byte) (v : Word) (s : State) : (setFreq x v s).arena = s.arena := rfl
@[simp] theorem setFreq_nnode (x : Byte) (v : Word) (s : State) : (setFreq x v s).nnode = s.nnode := rfl
@[simp] theorem setFreq_root (x : Byte) (v : Word) (s : State) : (setFreq x v s).root = s.root := rfl
@[simp] theorem setFreq_treeValid (x : Byte) (v : Word) (s : State) : (setFreq x v s).treeValid = s.treeValid := rfl
@[simp] theorem setFreq_codeBook (x : Byte) (v : Word) (s : State) : (setFreq x v s).codeBook = s.codeBook := rfl
@[simp] theorem setFreq_cbValid (x : Byte) (v : Word) (s : State) : (setFreq x v s).cbValid = s.cbValid := rfl
@[simp] theorem setFreq_busy (x : Byte) (v : Word) (s : State) : (setFreq x v s).busy = s.busy := rfl
@[simp] theorem setFreq_err (x : Byte) (v : Word) (s : State) : (setFreq x v s).err = s.err := rfl
@[simp] theorem setFreq_corrupt (x : Byte) (v : Word) (s : State) : (setFreq x v s).corrupt = s.corrupt := rfl
@[simp] theorem setFreq_ecode (x : Byte) (v : Word) (s : State) : (setFreq x v s).ecode = s.ecode := rfl
@[simp] theorem setFreq_ibuf (x : Byte) (v : Word) (s : State) : (setFreq x v s).ibuf = s.ibuf := rfl
@[simp] theorem setFreq_obuf (x : Byte) (v : Word) (s : State) : (setFreq x v s).obuf = s.obuf := rfl
@[simp] theorem setFreq_caps (x : Byte) (v : Word) (s : State) : (setFreq x v s).caps = s.caps := rfl
@[simp] theorem setFreq_draws (x : Byte) (v : Word) (s : State) : (setFreq x v s).draws = s.draws := rfl
@[simp] theorem setFreq_host (x : Byte) (v : Word) (s : State) : (setFreq x v s).host = s.host := rfl
@[simp] theorem setFreq_hostRead (x : Byte) (v : Word) (s : State) : (setFreq x v s).hostRead = s.hostRead := rfl

@[simp] theorem clearFreq_freq (s : State) : (clearFreq s).freq = Vector.replicate 256 0 := rfl
@[simp] theorem clearFreq_total (s : State) : (clearFreq s).total = s.total := rfl
@[simp] theorem clearFreq_ilen (s : State) : (clearFreq s).ilen = s.ilen := rfl
@[simp] theorem clearFreq_ipos (s : State) : (clearFreq s).ipos = s.ipos := rfl
@[simp] theorem clearFreq_olen (s : State) : (clearFreq s).olen = s.olen := rfl
@[simp] theorem clearFreq_arena (s : State) : (clearFreq s).arena = s.arena := rfl
@[simp] theorem clearFreq_nnode (s : State) : (clearFreq s).nnode = s.nnode := rfl
@[simp] theorem clearFreq_root (s : State) : (clearFreq s).root = s.root := rfl
@[simp] theorem clearFreq_treeValid (s : State) : (clearFreq s).treeValid = s.treeValid := rfl
@[simp] theorem clearFreq_codeBook (s : State) : (clearFreq s).codeBook = s.codeBook := rfl
@[simp] theorem clearFreq_cbValid (s : State) : (clearFreq s).cbValid = s.cbValid := rfl
@[simp] theorem clearFreq_busy (s : State) : (clearFreq s).busy = s.busy := rfl
@[simp] theorem clearFreq_err (s : State) : (clearFreq s).err = s.err := rfl
@[simp] theorem clearFreq_corrupt (s : State) : (clearFreq s).corrupt = s.corrupt := rfl
@[simp] theorem clearFreq_ecode (s : State) : (clearFreq s).ecode = s.ecode := rfl
@[simp] theorem clearFreq_ibuf (s : State) : (clearFreq s).ibuf = s.ibuf := rfl
@[simp] theorem clearFreq_obuf (s : State) : (clearFreq s).obuf = s.obuf := rfl
@[simp] theorem clearFreq_caps (s : State) : (clearFreq s).caps = s.caps := rfl
@[simp] theorem clearFreq_draws (s : State) : (clearFreq s).draws = s.draws := rfl
@[simp] theorem clearFreq_host (s : State) : (clearFreq s).host = s.host := rfl
@[simp] theorem clearFreq_hostRead (s : State) : (clearFreq s).hostRead = s.hostRead := rfl

@[simp] theorem setNode_freq (i : Nat) (n : Node) (s : State) : (setNode i n s).freq = s.freq := rfl
@[simp] theorem setNode_total (i : Nat) (n : Node) (s : State) : (setNode i n s).total = s.total := rfl
@[simp] theorem setNode_ilen (i : Nat) (n : Node) (s : State) : (setNode i n s).ilen = s.ilen := rfl
@[simp] theorem setNode_ipos (i : Nat) (n : Node) (s : State) : (setNode i n s).ipos = s.ipos := rfl
@[simp] theorem setNode_olen (i : Nat) (n : Node) (s : State) : (setNode i n s).olen = s.olen := rfl
@[simp] theorem setNode_arena (i : Nat) (n : Node) (s : State) : (setNode i n s).arena = s.arena.setIfInBounds i n := rfl
@[simp] theorem setNode_nnode (i : Nat) (n : Node) (s : State) : (setNode i n s).nnode = s.nnode := rfl
@[simp] theorem setNode_root (i : Nat) (n : Node) (s : State) : (setNode i n s).root = s.root := rfl
@[simp] theorem setNode_treeValid (i : Nat) (n : Node) (s : State) : (setNode i n s).treeValid = s.treeValid := rfl
@[simp] theorem setNode_codeBook (i : Nat) (n : Node) (s : State) : (setNode i n s).codeBook = s.codeBook := rfl
@[simp] theorem setNode_cbValid (i : Nat) (n : Node) (s : State) : (setNode i n s).cbValid = s.cbValid := rfl
@[simp] theorem setNode_busy (i : Nat) (n : Node) (s : State) : (setNode i n s).busy = s.busy := rfl
@[simp] theorem setNode_err (i : Nat) (n : Node) (s : State) : (setNode i n s).err = s.err := rfl
@[simp] theorem setNode_corrupt (i : Nat) (n : Node) (s : State) : (setNode i n s).corrupt = s.corrupt := rfl
@[simp] theorem setNode_ecode (i : Nat) (n : Node) (s : State) : (setNode i n s).ecode = s.ecode := rfl
@[simp] theorem setNode_ibuf (i : Nat) (n : Node) (s : State) : (setNode i n s).ibuf = s.ibuf := rfl
@[simp] theorem setNode_obuf (i : Nat) (n : Node) (s : State) : (setNode i n s).obuf = s.obuf := rfl
@[simp] theorem setNode_caps (i : Nat) (n : Node) (s : State) : (setNode i n s).caps = s.caps := rfl
@[simp] theorem setNode_draws (i : Nat) (n : Node) (s : State) : (setNode i n s).draws = s.draws := rfl
@[simp] theorem setNode_host (i : Nat) (n : Node) (s : State) : (setNode i n s).host = s.host := rfl
@[simp] theorem setNode_hostRead (i : Nat) (n : Node) (s : State) : (setNode i n s).hostRead = s.hostRead := rfl

@[simp] theorem pushNode_freq (n : Node) (s : State) : (pushNode n s).freq = s.freq := rfl
@[simp] theorem pushNode_total (n : Node) (s : State) : (pushNode n s).total = s.total := rfl
@[simp] theorem pushNode_ilen (n : Node) (s : State) : (pushNode n s).ilen = s.ilen := rfl
@[simp] theorem pushNode_ipos (n : Node) (s : State) : (pushNode n s).ipos = s.ipos := rfl
@[simp] theorem pushNode_olen (n : Node) (s : State) : (pushNode n s).olen = s.olen := rfl
@[simp] theorem pushNode_arena (n : Node) (s : State) : (pushNode n s).arena = s.arena.setIfInBounds s.nnode.toNat n := rfl
@[simp] theorem pushNode_nnode (n : Node) (s : State) : (pushNode n s).nnode = s.nnode + 1 := rfl
@[simp] theorem pushNode_root (n : Node) (s : State) : (pushNode n s).root = s.root := rfl
@[simp] theorem pushNode_treeValid (n : Node) (s : State) : (pushNode n s).treeValid = s.treeValid := rfl
@[simp] theorem pushNode_codeBook (n : Node) (s : State) : (pushNode n s).codeBook = s.codeBook := rfl
@[simp] theorem pushNode_cbValid (n : Node) (s : State) : (pushNode n s).cbValid = s.cbValid := rfl
@[simp] theorem pushNode_busy (n : Node) (s : State) : (pushNode n s).busy = s.busy := rfl
@[simp] theorem pushNode_err (n : Node) (s : State) : (pushNode n s).err = s.err := rfl
@[simp] theorem pushNode_corrupt (n : Node) (s : State) : (pushNode n s).corrupt = s.corrupt := rfl
@[simp] theorem pushNode_ecode (n : Node) (s : State) : (pushNode n s).ecode = s.ecode := rfl
@[simp] theorem pushNode_ibuf (n : Node) (s : State) : (pushNode n s).ibuf = s.ibuf := rfl
@[simp] theorem pushNode_obuf (n : Node) (s : State) : (pushNode n s).obuf = s.obuf := rfl
@[simp] theorem pushNode_caps (n : Node) (s : State) : (pushNode n s).caps = s.caps := rfl
@[simp] theorem pushNode_draws (n : Node) (s : State) : (pushNode n s).draws = s.draws := rfl
@[simp] theorem pushNode_host (n : Node) (s : State) : (pushNode n s).host = s.host := rfl
@[simp] theorem pushNode_hostRead (n : Node) (s : State) : (pushNode n s).hostRead = s.hostRead := rfl

@[simp] theorem setCodeEntry_freq (x : Byte) (c : Code) (s : State) : (setCodeEntry x c s).freq = s.freq := rfl
@[simp] theorem setCodeEntry_total (x : Byte) (c : Code) (s : State) : (setCodeEntry x c s).total = s.total := rfl
@[simp] theorem setCodeEntry_ilen (x : Byte) (c : Code) (s : State) : (setCodeEntry x c s).ilen = s.ilen := rfl
@[simp] theorem setCodeEntry_ipos (x : Byte) (c : Code) (s : State) : (setCodeEntry x c s).ipos = s.ipos := rfl
@[simp] theorem setCodeEntry_olen (x : Byte) (c : Code) (s : State) : (setCodeEntry x c s).olen = s.olen := rfl
@[simp] theorem setCodeEntry_arena (x : Byte) (c : Code) (s : State) : (setCodeEntry x c s).arena = s.arena := rfl
@[simp] theorem setCodeEntry_nnode (x : Byte) (c : Code) (s : State) : (setCodeEntry x c s).nnode = s.nnode := rfl
@[simp] theorem setCodeEntry_root (x : Byte) (c : Code) (s : State) : (setCodeEntry x c s).root = s.root := rfl
@[simp] theorem setCodeEntry_treeValid (x : Byte) (c : Code) (s : State) : (setCodeEntry x c s).treeValid = s.treeValid := rfl
@[simp] theorem setCodeEntry_codeBook (x : Byte) (c : Code) (s : State) : (setCodeEntry x c s).codeBook = s.codeBook.set x.toNat c x.isLt := rfl
@[simp] theorem setCodeEntry_cbValid (x : Byte) (c : Code) (s : State) : (setCodeEntry x c s).cbValid = s.cbValid := rfl
@[simp] theorem setCodeEntry_busy (x : Byte) (c : Code) (s : State) : (setCodeEntry x c s).busy = s.busy := rfl
@[simp] theorem setCodeEntry_err (x : Byte) (c : Code) (s : State) : (setCodeEntry x c s).err = s.err := rfl
@[simp] theorem setCodeEntry_corrupt (x : Byte) (c : Code) (s : State) : (setCodeEntry x c s).corrupt = s.corrupt := rfl
@[simp] theorem setCodeEntry_ecode (x : Byte) (c : Code) (s : State) : (setCodeEntry x c s).ecode = s.ecode := rfl
@[simp] theorem setCodeEntry_ibuf (x : Byte) (c : Code) (s : State) : (setCodeEntry x c s).ibuf = s.ibuf := rfl
@[simp] theorem setCodeEntry_obuf (x : Byte) (c : Code) (s : State) : (setCodeEntry x c s).obuf = s.obuf := rfl
@[simp] theorem setCodeEntry_caps (x : Byte) (c : Code) (s : State) : (setCodeEntry x c s).caps = s.caps := rfl
@[simp] theorem setCodeEntry_draws (x : Byte) (c : Code) (s : State) : (setCodeEntry x c s).draws = s.draws := rfl
@[simp] theorem setCodeEntry_host (x : Byte) (c : Code) (s : State) : (setCodeEntry x c s).host = s.host := rfl
@[simp] theorem setCodeEntry_hostRead (x : Byte) (c : Code) (s : State) : (setCodeEntry x c s).hostRead = s.hostRead := rfl

@[simp] theorem clearCodeBook_freq (s : State) : (clearCodeBook s).freq = s.freq := rfl
@[simp] theorem clearCodeBook_total (s : State) : (clearCodeBook s).total = s.total := rfl
@[simp] theorem clearCodeBook_ilen (s : State) : (clearCodeBook s).ilen = s.ilen := rfl
@[simp] theorem clearCodeBook_ipos (s : State) : (clearCodeBook s).ipos = s.ipos := rfl
@[simp] theorem clearCodeBook_olen (s : State) : (clearCodeBook s).olen = s.olen := rfl
@[simp] theorem clearCodeBook_arena (s : State) : (clearCodeBook s).arena = s.arena := rfl
@[simp] theorem clearCodeBook_nnode (s : State) : (clearCodeBook s).nnode = s.nnode := rfl
@[simp] theorem clearCodeBook_root (s : State) : (clearCodeBook s).root = s.root := rfl
@[simp] theorem clearCodeBook_treeValid (s : State) : (clearCodeBook s).treeValid = s.treeValid := rfl
@[simp] theorem clearCodeBook_codeBook (s : State) : (clearCodeBook s).codeBook = Vector.replicate 256 Code.absent := rfl
@[simp] theorem clearCodeBook_cbValid (s : State) : (clearCodeBook s).cbValid = s.cbValid := rfl
@[simp] theorem clearCodeBook_busy (s : State) : (clearCodeBook s).busy = s.busy := rfl
@[simp] theorem clearCodeBook_err (s : State) : (clearCodeBook s).err = s.err := rfl
@[simp] theorem clearCodeBook_corrupt (s : State) : (clearCodeBook s).corrupt = s.corrupt := rfl
@[simp] theorem clearCodeBook_ecode (s : State) : (clearCodeBook s).ecode = s.ecode := rfl
@[simp] theorem clearCodeBook_ibuf (s : State) : (clearCodeBook s).ibuf = s.ibuf := rfl
@[simp] theorem clearCodeBook_obuf (s : State) : (clearCodeBook s).obuf = s.obuf := rfl
@[simp] theorem clearCodeBook_caps (s : State) : (clearCodeBook s).caps = s.caps := rfl
@[simp] theorem clearCodeBook_draws (s : State) : (clearCodeBook s).draws = s.draws := rfl
@[simp] theorem clearCodeBook_host (s : State) : (clearCodeBook s).host = s.host := rfl
@[simp] theorem clearCodeBook_hostRead (s : State) : (clearCodeBook s).hostRead = s.hostRead := rfl

@[simp] theorem setCode_freq (x : Byte) (p : List Bool) (s : State) : (setCode x p s).freq = s.freq := rfl
@[simp] theorem setCode_total (x : Byte) (p : List Bool) (s : State) : (setCode x p s).total = s.total := rfl
@[simp] theorem setCode_ilen (x : Byte) (p : List Bool) (s : State) : (setCode x p s).ilen = s.ilen := rfl
@[simp] theorem setCode_ipos (x : Byte) (p : List Bool) (s : State) : (setCode x p s).ipos = s.ipos := rfl
@[simp] theorem setCode_olen (x : Byte) (p : List Bool) (s : State) : (setCode x p s).olen = s.olen := rfl
@[simp] theorem setCode_arena (x : Byte) (p : List Bool) (s : State) : (setCode x p s).arena = s.arena := rfl
@[simp] theorem setCode_nnode (x : Byte) (p : List Bool) (s : State) : (setCode x p s).nnode = s.nnode := rfl
@[simp] theorem setCode_root (x : Byte) (p : List Bool) (s : State) : (setCode x p s).root = s.root := rfl
@[simp] theorem setCode_treeValid (x : Byte) (p : List Bool) (s : State) : (setCode x p s).treeValid = s.treeValid := rfl
@[simp] theorem setCode_codeBook (x : Byte) (p : List Bool) (s : State) : (setCode x p s).codeBook = s.codeBook.set x.toNat (codeOfPath p) x.isLt := rfl
@[simp] theorem setCode_cbValid (x : Byte) (p : List Bool) (s : State) : (setCode x p s).cbValid = s.cbValid := rfl
@[simp] theorem setCode_busy (x : Byte) (p : List Bool) (s : State) : (setCode x p s).busy = s.busy := rfl
@[simp] theorem setCode_err (x : Byte) (p : List Bool) (s : State) : (setCode x p s).err = s.err := rfl
@[simp] theorem setCode_corrupt (x : Byte) (p : List Bool) (s : State) : (setCode x p s).corrupt = s.corrupt := rfl
@[simp] theorem setCode_ecode (x : Byte) (p : List Bool) (s : State) : (setCode x p s).ecode = s.ecode := rfl
@[simp] theorem setCode_ibuf (x : Byte) (p : List Bool) (s : State) : (setCode x p s).ibuf = s.ibuf := rfl
@[simp] theorem setCode_obuf (x : Byte) (p : List Bool) (s : State) : (setCode x p s).obuf = s.obuf := rfl
@[simp] theorem setCode_caps (x : Byte) (p : List Bool) (s : State) : (setCode x p s).caps = s.caps := rfl
@[simp] theorem setCode_draws (x : Byte) (p : List Bool) (s : State) : (setCode x p s).draws = s.draws := rfl
@[simp] theorem setCode_host (x : Byte) (p : List Bool) (s : State) : (setCode x p s).host = s.host := rfl
@[simp] theorem setCode_hostRead (x : Byte) (p : List Bool) (s : State) : (setCode x p s).hostRead = s.hostRead := rfl

@[simp] theorem countDraw_freq (s : State) : (countDraw s).freq = s.freq := rfl
@[simp] theorem countDraw_total (s : State) : (countDraw s).total = s.total := rfl
@[simp] theorem countDraw_ilen (s : State) : (countDraw s).ilen = s.ilen := rfl
@[simp] theorem countDraw_ipos (s : State) : (countDraw s).ipos = s.ipos := rfl
@[simp] theorem countDraw_olen (s : State) : (countDraw s).olen = s.olen := rfl
@[simp] theorem countDraw_arena (s : State) : (countDraw s).arena = s.arena := rfl
@[simp] theorem countDraw_nnode (s : State) : (countDraw s).nnode = s.nnode := rfl
@[simp] theorem countDraw_root (s : State) : (countDraw s).root = s.root := rfl
@[simp] theorem countDraw_treeValid (s : State) : (countDraw s).treeValid = s.treeValid := rfl
@[simp] theorem countDraw_codeBook (s : State) : (countDraw s).codeBook = s.codeBook := rfl
@[simp] theorem countDraw_cbValid (s : State) : (countDraw s).cbValid = s.cbValid := rfl
@[simp] theorem countDraw_busy (s : State) : (countDraw s).busy = s.busy := rfl
@[simp] theorem countDraw_err (s : State) : (countDraw s).err = s.err := rfl
@[simp] theorem countDraw_corrupt (s : State) : (countDraw s).corrupt = s.corrupt := rfl
@[simp] theorem countDraw_ecode (s : State) : (countDraw s).ecode = s.ecode := rfl
@[simp] theorem countDraw_ibuf (s : State) : (countDraw s).ibuf = s.ibuf := rfl
@[simp] theorem countDraw_obuf (s : State) : (countDraw s).obuf = s.obuf := rfl
@[simp] theorem countDraw_caps (s : State) : (countDraw s).caps = s.caps := rfl
@[simp] theorem countDraw_draws (s : State) : (countDraw s).draws = s.draws + 1 := rfl
@[simp] theorem countDraw_host (s : State) : (countDraw s).host = s.host := rfl
@[simp] theorem countDraw_hostRead (s : State) : (countDraw s).hostRead = s.hostRead := rfl

@[simp] theorem memWrite_freq (a : Nat) (v : Byte) (s : State) : (memWrite a v s).freq = s.freq := rfl
@[simp] theorem memWrite_total (a : Nat) (v : Byte) (s : State) : (memWrite a v s).total = s.total := rfl
@[simp] theorem memWrite_ilen (a : Nat) (v : Byte) (s : State) : (memWrite a v s).ilen = s.ilen := rfl
@[simp] theorem memWrite_ipos (a : Nat) (v : Byte) (s : State) : (memWrite a v s).ipos = s.ipos := rfl
@[simp] theorem memWrite_olen (a : Nat) (v : Byte) (s : State) : (memWrite a v s).olen = s.olen := rfl
@[simp] theorem memWrite_arena (a : Nat) (v : Byte) (s : State) : (memWrite a v s).arena = s.arena := rfl
@[simp] theorem memWrite_nnode (a : Nat) (v : Byte) (s : State) : (memWrite a v s).nnode = s.nnode := rfl
@[simp] theorem memWrite_root (a : Nat) (v : Byte) (s : State) : (memWrite a v s).root = s.root := rfl
@[simp] theorem memWrite_treeValid (a : Nat) (v : Byte) (s : State) : (memWrite a v s).treeValid = s.treeValid := rfl
@[simp] theorem memWrite_codeBook (a : Nat) (v : Byte) (s : State) : (memWrite a v s).codeBook = s.codeBook := rfl
@[simp] theorem memWrite_cbValid (a : Nat) (v : Byte) (s : State) : (memWrite a v s).cbValid = s.cbValid := rfl
@[simp] theorem memWrite_busy (a : Nat) (v : Byte) (s : State) : (memWrite a v s).busy = s.busy := rfl
@[simp] theorem memWrite_err (a : Nat) (v : Byte) (s : State) : (memWrite a v s).err = s.err := rfl
@[simp] theorem memWrite_corrupt (a : Nat) (v : Byte) (s : State) : (memWrite a v s).corrupt = s.corrupt := rfl
@[simp] theorem memWrite_ecode (a : Nat) (v : Byte) (s : State) : (memWrite a v s).ecode = s.ecode := rfl
@[simp] theorem memWrite_ibuf (a : Nat) (v : Byte) (s : State) : (memWrite a v s).ibuf = s.ibuf := rfl
@[simp] theorem memWrite_obuf (a : Nat) (v : Byte) (s : State) : (memWrite a v s).obuf = s.obuf.store a v := rfl
@[simp] theorem memWrite_caps (a : Nat) (v : Byte) (s : State) : (memWrite a v s).caps = s.caps := rfl
@[simp] theorem memWrite_draws (a : Nat) (v : Byte) (s : State) : (memWrite a v s).draws = s.draws := rfl
@[simp] theorem memWrite_host (a : Nat) (v : Byte) (s : State) : (memWrite a v s).host = s.host := rfl
@[simp] theorem memWrite_hostRead (a : Nat) (v : Byte) (s : State) : (memWrite a v s).hostRead = s.hostRead := rfl

@[simp] theorem forget_freq (ws : WriteSet) (o : Nat) (s : State) : (forget ws o s).freq = if ws.freq then freeFreq s.draws else s.freq := rfl
@[simp] theorem forget_total (ws : WriteSet) (o : Nat) (s : State) : (forget ws o s).total = if ws.total then freeBits 64 s.draws .total else s.total := rfl
@[simp] theorem forget_ilen (ws : WriteSet) (o : Nat) (s : State) : (forget ws o s).ilen = s.ilen := rfl
@[simp] theorem forget_ipos (ws : WriteSet) (o : Nat) (s : State) : (forget ws o s).ipos = if ws.ipos then freeUpTo s.ilen.toNat s.draws .ipos else s.ipos := rfl
@[simp] theorem forget_olen (ws : WriteSet) (o : Nat) (s : State) : (forget ws o s).olen = if ws.output then freeUpTo s.obufCap s.draws .olen else s.olen := rfl
@[simp] theorem forget_arena (ws : WriteSet) (o : Nat) (s : State) : (forget ws o s).arena = if ws.tree then freeArena s.draws else s.arena := rfl
@[simp] theorem forget_nnode (ws : WriteSet) (o : Nat) (s : State) : (forget ws o s).nnode = if ws.tree then freeBits 10 s.draws .nnode else s.nnode := rfl
@[simp] theorem forget_root (ws : WriteSet) (o : Nat) (s : State) : (forget ws o s).root = if ws.tree then freeBits 9 s.draws .root else s.root := rfl
@[simp] theorem forget_treeValid (ws : WriteSet) (o : Nat) (s : State) : (forget ws o s).treeValid = (s.treeValid && !ws.tree) := rfl
@[simp] theorem forget_codeBook (ws : WriteSet) (o : Nat) (s : State) : (forget ws o s).codeBook = if ws.codeBook then freeCodeBook s.draws else s.codeBook := rfl
@[simp] theorem forget_cbValid (ws : WriteSet) (o : Nat) (s : State) : (forget ws o s).cbValid = (s.cbValid && !(ws.tree || ws.codeBook)) := rfl
@[simp] theorem forget_busy (ws : WriteSet) (o : Nat) (s : State) : (forget ws o s).busy = s.busy := rfl
@[simp] theorem forget_err (ws : WriteSet) (o : Nat) (s : State) : (forget ws o s).err = s.err := rfl
@[simp] theorem forget_corrupt (ws : WriteSet) (o : Nat) (s : State) : (forget ws o s).corrupt = s.corrupt := rfl
@[simp] theorem forget_ecode (ws : WriteSet) (o : Nat) (s : State) : (forget ws o s).ecode = s.ecode := rfl
@[simp] theorem forget_ibuf (ws : WriteSet) (o : Nat) (s : State) : (forget ws o s).ibuf = s.ibuf := rfl
@[simp] theorem forget_obuf (ws : WriteSet) (o : Nat) (s : State) : (forget ws o s).obuf = if ws.output then s.obuf.keepBelow o else s.obuf := rfl
@[simp] theorem forget_caps (ws : WriteSet) (o : Nat) (s : State) : (forget ws o s).caps = s.caps := rfl
@[simp] theorem forget_draws (ws : WriteSet) (o : Nat) (s : State) : (forget ws o s).draws = s.draws + 1 := rfl
@[simp] theorem forget_host (ws : WriteSet) (o : Nat) (s : State) : (forget ws o s).host = s.host := rfl
@[simp] theorem forget_hostRead (ws : WriteSet) (o : Nat) (s : State) : (forget ws o s).hostRead = s.hostRead := rfl

@[simp] theorem compPreamble_freq (s : State) : (compPreamble s).freq = s.freq := rfl
@[simp] theorem compPreamble_total (s : State) : (compPreamble s).total = s.total := rfl
@[simp] theorem compPreamble_ilen (s : State) : (compPreamble s).ilen = s.ilen := rfl
@[simp] theorem compPreamble_ipos (s : State) : (compPreamble s).ipos = s.ipos := rfl
@[simp] theorem compPreamble_olen (s : State) : (compPreamble s).olen = 0 := rfl
@[simp] theorem compPreamble_arena (s : State) : (compPreamble s).arena = s.arena := rfl
@[simp] theorem compPreamble_nnode (s : State) : (compPreamble s).nnode = s.nnode := rfl
@[simp] theorem compPreamble_root (s : State) : (compPreamble s).root = s.root := rfl
@[simp] theorem compPreamble_treeValid (s : State) : (compPreamble s).treeValid = false := rfl
@[simp] theorem compPreamble_codeBook (s : State) : (compPreamble s).codeBook = s.codeBook := rfl
@[simp] theorem compPreamble_cbValid (s : State) : (compPreamble s).cbValid = false := rfl
@[simp] theorem compPreamble_busy (s : State) : (compPreamble s).busy = s.busy := rfl
@[simp] theorem compPreamble_err (s : State) : (compPreamble s).err = s.err := rfl
@[simp] theorem compPreamble_corrupt (s : State) : (compPreamble s).corrupt = s.corrupt := rfl
@[simp] theorem compPreamble_ecode (s : State) : (compPreamble s).ecode = s.ecode := rfl
@[simp] theorem compPreamble_ibuf (s : State) : (compPreamble s).ibuf = s.ibuf := rfl
@[simp] theorem compPreamble_obuf (s : State) : (compPreamble s).obuf = s.obuf := rfl
@[simp] theorem compPreamble_caps (s : State) : (compPreamble s).caps = s.caps := rfl
@[simp] theorem compPreamble_draws (s : State) : (compPreamble s).draws = s.draws := rfl
@[simp] theorem compPreamble_host (s : State) : (compPreamble s).host = s.host := rfl
@[simp] theorem compPreamble_hostRead (s : State) : (compPreamble s).hostRead = s.hostRead := rfl

@[simp] theorem decoPreamble_freq (s : State) : (decoPreamble s).freq = s.freq := rfl
@[simp] theorem decoPreamble_total (s : State) : (decoPreamble s).total = s.total := rfl
@[simp] theorem decoPreamble_ilen (s : State) : (decoPreamble s).ilen = s.ilen := rfl
@[simp] theorem decoPreamble_ipos (s : State) : (decoPreamble s).ipos = 0 := rfl
@[simp] theorem decoPreamble_olen (s : State) : (decoPreamble s).olen = 0 := rfl
@[simp] theorem decoPreamble_arena (s : State) : (decoPreamble s).arena = s.arena := rfl
@[simp] theorem decoPreamble_nnode (s : State) : (decoPreamble s).nnode = s.nnode := rfl
@[simp] theorem decoPreamble_root (s : State) : (decoPreamble s).root = s.root := rfl
@[simp] theorem decoPreamble_treeValid (s : State) : (decoPreamble s).treeValid = false := rfl
@[simp] theorem decoPreamble_codeBook (s : State) : (decoPreamble s).codeBook = s.codeBook := rfl
@[simp] theorem decoPreamble_cbValid (s : State) : (decoPreamble s).cbValid = false := rfl
@[simp] theorem decoPreamble_busy (s : State) : (decoPreamble s).busy = s.busy := rfl
@[simp] theorem decoPreamble_err (s : State) : (decoPreamble s).err = s.err := rfl
@[simp] theorem decoPreamble_corrupt (s : State) : (decoPreamble s).corrupt = s.corrupt := rfl
@[simp] theorem decoPreamble_ecode (s : State) : (decoPreamble s).ecode = s.ecode := rfl
@[simp] theorem decoPreamble_ibuf (s : State) : (decoPreamble s).ibuf = s.ibuf := rfl
@[simp] theorem decoPreamble_obuf (s : State) : (decoPreamble s).obuf = s.obuf := rfl
@[simp] theorem decoPreamble_caps (s : State) : (decoPreamble s).caps = s.caps := rfl
@[simp] theorem decoPreamble_draws (s : State) : (decoPreamble s).draws = s.draws := rfl
@[simp] theorem decoPreamble_host (s : State) : (decoPreamble s).host = s.host := rfl
@[simp] theorem decoPreamble_hostRead (s : State) : (decoPreamble s).hostRead = s.hostRead := rfl

@[simp] theorem clearAll_freq (s : State) : (clearAll s).freq = Vector.replicate 256 0 := rfl
@[simp] theorem clearAll_total (s : State) : (clearAll s).total = 0 := rfl
@[simp] theorem clearAll_ilen (s : State) : (clearAll s).ilen = 0 := rfl
@[simp] theorem clearAll_ipos (s : State) : (clearAll s).ipos = 0 := rfl
@[simp] theorem clearAll_olen (s : State) : (clearAll s).olen = 0 := rfl
@[simp] theorem clearAll_arena (s : State) : (clearAll s).arena = freeArena s.draws := rfl
@[simp] theorem clearAll_nnode (s : State) : (clearAll s).nnode = 0 := rfl
@[simp] theorem clearAll_root (s : State) : (clearAll s).root = 0 := rfl
@[simp] theorem clearAll_treeValid (s : State) : (clearAll s).treeValid = false := rfl
@[simp] theorem clearAll_codeBook (s : State) : (clearAll s).codeBook = freeCodeBook s.draws := rfl
@[simp] theorem clearAll_cbValid (s : State) : (clearAll s).cbValid = false := rfl
@[simp] theorem clearAll_busy (s : State) : (clearAll s).busy = s.busy := rfl
@[simp] theorem clearAll_err (s : State) : (clearAll s).err = false := rfl
@[simp] theorem clearAll_corrupt (s : State) : (clearAll s).corrupt = false := rfl
@[simp] theorem clearAll_ecode (s : State) : (clearAll s).ecode = 0 := rfl
@[simp] theorem clearAll_ibuf (s : State) : (clearAll s).ibuf = s.ibuf := rfl
@[simp] theorem clearAll_obuf (s : State) : (clearAll s).obuf = s.obuf := rfl
@[simp] theorem clearAll_caps (s : State) : (clearAll s).caps = s.caps := rfl
@[simp] theorem clearAll_draws (s : State) : (clearAll s).draws = s.draws + 1 := rfl
@[simp] theorem clearAll_host (s : State) : (clearAll s).host = s.host := rfl
@[simp] theorem clearAll_hostRead (s : State) : (clearAll s).hostRead = s.hostRead := rfl

@[simp] theorem hardwareReset_freq (s : State) : (hardwareReset s).freq = Vector.replicate 256 0 := rfl
@[simp] theorem hardwareReset_total (s : State) : (hardwareReset s).total = 0 := rfl
@[simp] theorem hardwareReset_ilen (s : State) : (hardwareReset s).ilen = 0 := rfl
@[simp] theorem hardwareReset_ipos (s : State) : (hardwareReset s).ipos = 0 := rfl
@[simp] theorem hardwareReset_olen (s : State) : (hardwareReset s).olen = 0 := rfl
@[simp] theorem hardwareReset_arena (s : State) : (hardwareReset s).arena = freeArena s.draws := rfl
@[simp] theorem hardwareReset_nnode (s : State) : (hardwareReset s).nnode = 0 := rfl
@[simp] theorem hardwareReset_root (s : State) : (hardwareReset s).root = 0 := rfl
@[simp] theorem hardwareReset_treeValid (s : State) : (hardwareReset s).treeValid = false := rfl
@[simp] theorem hardwareReset_codeBook (s : State) : (hardwareReset s).codeBook = freeCodeBook s.draws := rfl
@[simp] theorem hardwareReset_cbValid (s : State) : (hardwareReset s).cbValid = false := rfl
@[simp] theorem hardwareReset_busy (s : State) : (hardwareReset s).busy = false := rfl
@[simp] theorem hardwareReset_err (s : State) : (hardwareReset s).err = false := rfl
@[simp] theorem hardwareReset_corrupt (s : State) : (hardwareReset s).corrupt = false := rfl
@[simp] theorem hardwareReset_ecode (s : State) : (hardwareReset s).ecode = 0 := rfl
@[simp] theorem hardwareReset_ibuf (s : State) : (hardwareReset s).ibuf = [] := rfl
@[simp] theorem hardwareReset_obuf (s : State) : (hardwareReset s).obuf = [] := rfl
@[simp] theorem hardwareReset_caps (s : State) : (hardwareReset s).caps = s.caps := rfl
@[simp] theorem hardwareReset_draws (s : State) : (hardwareReset s).draws = s.draws + 1 := rfl
@[simp] theorem hardwareReset_host (s : State) : (hardwareReset s).host = s.host := rfl
@[simp] theorem hardwareReset_hostRead (s : State) : (hardwareReset s).hostRead = s.hostRead := rfl

@[simp] theorem takeError_freq (e : ErrorCode) (ws : WriteSet) (o : Nat) (s : State) : (takeError e ws o s).freq = if ws.freq then freeFreq s.draws else s.freq := rfl
@[simp] theorem takeError_total (e : ErrorCode) (ws : WriteSet) (o : Nat) (s : State) : (takeError e ws o s).total = if ws.total then freeBits 64 s.draws .total else s.total := rfl
@[simp] theorem takeError_ilen (e : ErrorCode) (ws : WriteSet) (o : Nat) (s : State) : (takeError e ws o s).ilen = s.ilen := rfl
@[simp] theorem takeError_ipos (e : ErrorCode) (ws : WriteSet) (o : Nat) (s : State) : (takeError e ws o s).ipos = if ws.ipos then freeUpTo s.ilen.toNat s.draws .ipos else s.ipos := rfl
@[simp] theorem takeError_olen (e : ErrorCode) (ws : WriteSet) (o : Nat) (s : State) : (takeError e ws o s).olen = if ws.output then freeUpTo s.obufCap s.draws .olen else s.olen := rfl
@[simp] theorem takeError_arena (e : ErrorCode) (ws : WriteSet) (o : Nat) (s : State) : (takeError e ws o s).arena = if ws.tree then freeArena s.draws else s.arena := rfl
@[simp] theorem takeError_nnode (e : ErrorCode) (ws : WriteSet) (o : Nat) (s : State) : (takeError e ws o s).nnode = if ws.tree then freeBits 10 s.draws .nnode else s.nnode := rfl
@[simp] theorem takeError_root (e : ErrorCode) (ws : WriteSet) (o : Nat) (s : State) : (takeError e ws o s).root = if ws.tree then freeBits 9 s.draws .root else s.root := rfl
@[simp] theorem takeError_treeValid (e : ErrorCode) (ws : WriteSet) (o : Nat) (s : State) : (takeError e ws o s).treeValid = (s.treeValid && !ws.tree) := rfl
@[simp] theorem takeError_codeBook (e : ErrorCode) (ws : WriteSet) (o : Nat) (s : State) : (takeError e ws o s).codeBook = if ws.codeBook then freeCodeBook s.draws else s.codeBook := rfl
@[simp] theorem takeError_cbValid (e : ErrorCode) (ws : WriteSet) (o : Nat) (s : State) : (takeError e ws o s).cbValid = (s.cbValid && !(ws.tree || ws.codeBook)) := rfl
@[simp] theorem takeError_busy (e : ErrorCode) (ws : WriteSet) (o : Nat) (s : State) : (takeError e ws o s).busy = s.busy := rfl
@[simp] theorem takeError_err (e : ErrorCode) (ws : WriteSet) (o : Nat) (s : State) : (takeError e ws o s).err = true := rfl
@[simp] theorem takeError_corrupt (e : ErrorCode) (ws : WriteSet) (o : Nat) (s : State) : (takeError e ws o s).corrupt = isCorruptClass e := rfl
@[simp] theorem takeError_ecode (e : ErrorCode) (ws : WriteSet) (o : Nat) (s : State) : (takeError e ws o s).ecode = errorCode e := rfl
@[simp] theorem takeError_ibuf (e : ErrorCode) (ws : WriteSet) (o : Nat) (s : State) : (takeError e ws o s).ibuf = s.ibuf := rfl
@[simp] theorem takeError_obuf (e : ErrorCode) (ws : WriteSet) (o : Nat) (s : State) : (takeError e ws o s).obuf = if ws.output then s.obuf.keepBelow o else s.obuf := rfl
@[simp] theorem takeError_caps (e : ErrorCode) (ws : WriteSet) (o : Nat) (s : State) : (takeError e ws o s).caps = s.caps := rfl
@[simp] theorem takeError_draws (e : ErrorCode) (ws : WriteSet) (o : Nat) (s : State) : (takeError e ws o s).draws = s.draws + 1 := rfl
@[simp] theorem takeError_host (e : ErrorCode) (ws : WriteSet) (o : Nat) (s : State) : (takeError e ws o s).host = s.host := rfl
@[simp] theorem takeError_hostRead (e : ErrorCode) (ws : WriteSet) (o : Nat) (s : State) : (takeError e ws o s).hostRead = s.hostRead := rfl

@[simp] theorem appended_freq (bs : List Byte) (s : State) : (appended s bs).freq = s.freq := rfl
@[simp] theorem appended_total (bs : List Byte) (s : State) : (appended s bs).total = s.total := rfl
@[simp] theorem appended_ilen (bs : List Byte) (s : State) : (appended s bs).ilen = s.ilen := rfl
@[simp] theorem appended_ipos (bs : List Byte) (s : State) : (appended s bs).ipos = s.ipos := rfl
@[simp] theorem appended_olen (bs : List Byte) (s : State) : (appended s bs).olen = s.olen + BitVec.ofNat 64 bs.length := rfl
@[simp] theorem appended_arena (bs : List Byte) (s : State) : (appended s bs).arena = s.arena := rfl
@[simp] theorem appended_nnode (bs : List Byte) (s : State) : (appended s bs).nnode = s.nnode := rfl
@[simp] theorem appended_root (bs : List Byte) (s : State) : (appended s bs).root = s.root := rfl
@[simp] theorem appended_treeValid (bs : List Byte) (s : State) : (appended s bs).treeValid = s.treeValid := rfl
@[simp] theorem appended_codeBook (bs : List Byte) (s : State) : (appended s bs).codeBook = s.codeBook := rfl
@[simp] theorem appended_cbValid (bs : List Byte) (s : State) : (appended s bs).cbValid = s.cbValid := rfl
@[simp] theorem appended_busy (bs : List Byte) (s : State) : (appended s bs).busy = s.busy := rfl
@[simp] theorem appended_err (bs : List Byte) (s : State) : (appended s bs).err = s.err := rfl
@[simp] theorem appended_corrupt (bs : List Byte) (s : State) : (appended s bs).corrupt = s.corrupt := rfl
@[simp] theorem appended_ecode (bs : List Byte) (s : State) : (appended s bs).ecode = s.ecode := rfl
@[simp] theorem appended_ibuf (bs : List Byte) (s : State) : (appended s bs).ibuf = s.ibuf := rfl
@[simp] theorem appended_obuf (bs : List Byte) (s : State) : (appended s bs).obuf = s.obuf.storeAll s.olen.toNat bs := rfl
@[simp] theorem appended_caps (bs : List Byte) (s : State) : (appended s bs).caps = s.caps := rfl
@[simp] theorem appended_draws (bs : List Byte) (s : State) : (appended s bs).draws = s.draws := rfl
@[simp] theorem appended_host (bs : List Byte) (s : State) : (appended s bs).host = s.host := rfl
@[simp] theorem appended_hostRead (bs : List Byte) (s : State) : (appended s bs).hostRead = s.hostRead := rfl

/-! ### Register files -/

@[simp] theorem setFreq_freqAt_same (x : Byte) (v : Word) (s : State) : (setFreq x v s).freqAt x = v := by
  simp [State.freqAt]

theorem setFreq_freqAt_other (x y : Byte) (v : Word) (s : State) (h : y ≠ x) :
    (setFreq x v s).freqAt y = s.freqAt y := by
  have : x.toNat ≠ y.toNat := fun e => h (BitVec.eq_of_toNat_eq e.symm)
  simp [State.freqAt, this]

@[simp] theorem setCodeEntry_codeAt_same (x : Byte) (c : Code) (s : State) : (setCodeEntry x c s).codeAt x = c := by
  simp [State.codeAt]

theorem setCodeEntry_codeAt_other (x y : Byte) (c : Code) (s : State) (h : y ≠ x) :
    (setCodeEntry x c s).codeAt y = s.codeAt y := by
  have : x.toNat ≠ y.toNat := fun e => h (BitVec.eq_of_toNat_eq e.symm)
  simp [State.codeAt, this]

theorem setNode_node?_same (i : Nat) (n : Node) (s : State) (h : i < 511) : (setNode i n s).node? i = some n := by
  simp [State.node?, h]

theorem setNode_node?_other (i j : Nat) (n : Node) (s : State) (h : i ≠ j) : (setNode i n s).node? j = s.node? j := by
  simp [State.node?, h]

/-- An entry exists exactly below `NODE_MAX`. -/
theorem node?_isSome (s : State) (i : Nat) : (s.node? i).isSome = true ↔ i < 511 := by
  simp [State.node?]

/-- What a traversal reads is an entry below `NNODE`. -/
theorem usedNode?_eq_some (s : State) (i : NodeIdx) (n : Node) :
    s.usedNode? i = some n ↔ i.toNat < s.nnode.toNat ∧ s.node? i.toNat = some n := by
  unfold State.usedNode?
  split <;> simp_all

/-- A traversal's reads depend on the arena and `NNODE` alone. -/
theorem usedNode?_congr {s t : State} (ha : t.arena = s.arena) (hn : t.nnode = s.nnode) (i : NodeIdx) :
    t.usedNode? i = s.usedNode? i := by
  simp [State.usedNode?, State.node?, ha, hn]

end Sys2Proof.Machine
end

