-- ==== Sys2Proof/Laws/Ops.lean ====
section
/-! SUPPORT. For each shared operation, once, everything it can do: the access primitives (20_memory R42 to R45), a bit taken (R128), an error taken (60_exceptions R199), a command run and a command run inside another. -/

namespace Sys2Proof.Machine

/-- A chain of steps that may stop ended well exactly when each part did. -/
theorem Except.bind_eq_ok {ε α β : Type} {x : Except ε α} {f : α → Except ε β} {b : β} :
    (x >>= f) = .ok b ↔ ∃ a, x = .ok a ∧ f a = .ok b := by
  cases x <;> simp [bind, Except.bind]

/-- A chain stopped exactly when its first part did, or its second after it. -/
theorem Except.bind_eq_error {ε α β : Type} {x : Except ε α} {f : α → Except ε β} {e : ε} :
    (x >>= f) = .error e ↔ x = .error e ∨ ∃ a, x = .ok a ∧ f a = .error e := by
  cases x <;> simp [bind, Except.bind]

@[simp] theorem Except.ok_bind {ε α β : Type} (a : α) (f : α → Except ε β) :
    ((Except.ok a : Except ε α) >>= f) = f a := rfl

@[simp] theorem Except.error_bind {ε α β : Type} (e : ε) (f : α → Except ε β) :
    ((Except.error e : Except ε α) >>= f) = .error e := rfl

/-! ### Reading IBUF -/

/-- A written byte is read as it is, and nothing changes (R42). -/
theorem memRead_written {a : Nat} {s : State} {v : Byte} (h : s.ibuf.byte? a = some v) : memRead a s = (v, s) := by
  simp [memRead, h]

/-- A byte never written is one draw (R42, U3). -/
theorem memRead_unwritten {a : Nat} {s : State} (h : s.ibuf.byte? a = none) :
    memRead a s = (freeBits 8 s.draws .blockRead, countDraw s) := by
  simp [memRead, h]

/-- A read of `IBUF` changes the draw count at most. -/
theorem memRead_state (a : Nat) (s : State) : (memRead a s).2 = s ∨ (memRead a s).2 = countDraw s := by
  unfold memRead
  split <;> simp

/-- A read leaves every field but the draw count. -/
theorem memRead_eq (a : Nat) (s : State) : ∃ n, (memRead a s).2 = { s with draws := n } := by
  rcases memRead_state a s with h | h
  · exact ⟨s.draws, h⟩
  · exact ⟨s.draws + 1, h⟩

/-- `next_byte` at a written byte. -/
theorem nextByte_written {s : State} {v : Byte} (h : s.ipos.toNat < s.ilen.toNat)
    (hv : s.ibuf.byte? s.ipos.toNat = some v) : nextByte s = .ok (v, { s with ipos := s.ipos + 1 }) := by
  simp [nextByte, memRead_written hv, Nat.not_le.mpr h]

/-- `next_byte` at the end of the input (R45). -/
theorem nextByte_end {s : State} (h : s.ilen.toNat ≤ s.ipos.toNat) : nextByte s = .error (.raise .trunc s.draws) := by
  simp [nextByte, raiseIn, h]

/-- Everything `next_byte` can do when it answers a byte. -/
theorem nextByte_ok {s t : State} {v : Byte} (h : nextByte s = .ok (v, t)) :
    s.ipos.toNat < s.ilen.toNat ∧ ∃ n, t = { s with ipos := s.ipos + 1, draws := n } := by
  unfold nextByte at h
  split at h
  · simp [raiseIn] at h
  · rename_i hlt
    obtain ⟨n, hn⟩ := memRead_eq s.ipos.toNat s
    simp only [Except.ok.injEq, Prod.mk.injEq] at h
    refine ⟨by omega, n, ?_⟩
    rw [← h.2, hn]

/-- The one way `next_byte` stops. -/
theorem nextByte_error {s : State} {e : Stop} (h : nextByte s = .error e) :
    s.ilen.toNat ≤ s.ipos.toNat ∧ e = .raise .trunc s.draws := by
  unfold nextByte at h
  split at h
  · rename_i hle
    simp only [raiseIn, Except.error.injEq] at h
    exact ⟨hle, h.symm⟩
  · simp at h

/-! ### Writing OBUF -/

theorem appended_nil (s : State) : appended s [] = s := by
  simp [appended]

/-- `append` with room appends its byte (R44). -/
theorem append_room {v : Byte} {s : State} (h : s.olen.toNat < s.obufCap) : append v s = .ok (appended s [v]) := by
  simp [append, appended, memWrite, Nat.not_le.mpr h]

/-- `append` without room raises `E_OVF` (R44, R191). -/
theorem append_full {v : Byte} {s : State} (h : s.obufCap ≤ s.olen.toNat) : append v s = .error (.raise .ovf s.draws) := by
  simp [append, raiseIn, h]

/-- Everything `append` can do when it goes on. -/
theorem append_ok {v : Byte} {s t : State} (h : append v s = .ok t) : s.olen.toNat < s.obufCap ∧ t = appended s [v] := by
  by_cases hc : s.obufCap ≤ s.olen.toNat
  · simp [append_full hc] at h
  · have hc := Nat.not_le.mp hc
    rw [append_room hc] at h
    exact ⟨hc, (Except.ok.inj h).symm⟩

/-- The one way `append` stops. -/
theorem append_error {v : Byte} {s : State} {e : Stop} (h : append v s = .error e) :
    s.obufCap ≤ s.olen.toNat ∧ e = .raise .ovf s.draws := by
  by_cases hc : s.obufCap ≤ s.olen.toNat
  · rw [append_full hc] at h
    exact ⟨hc, (Except.error.inj h).symm⟩
  · simp [append_room (Nat.not_le.mp hc)] at h

/-- `OLEN` after an append that does not leave the 64-bit range. -/
theorem appended_olen_toNat {s : State} {bs : List Byte} (h : s.olen.toNat + bs.length < 2 ^ 64) :
    (appended s bs).olen.toNat = s.olen.toNat + bs.length := by
  simp only [appended_olen, BitVec.toNat_add, BitVec.toNat_ofNat]
  omega

/-- Appending twice is appending both. -/
theorem appended_appended {s : State} {as bs : List Byte} (h : s.olen.toNat + as.length < 2 ^ 64) :
    appended (appended s as) bs = appended s (as ++ bs) := by
  have hlen := appended_olen_toNat h
  simp only [appended, List.length_append, Memory.storeAll_append] at hlen ⊢
  rw [hlen]
  congr 1
  rw [BitVec.add_assoc, BitVec.ofNat_add]

/-- A capacity is below `2^63` (R6). -/
theorem obufCap_lt (s : State) : s.obufCap < 9223372036854775808 := s.caps.obuf.isLt

theorem ibufCap_lt (s : State) : s.ibufCap < 9223372036854775808 := s.caps.ibuf.isLt

/-! ### Bits -/

/-- The eight bits of a byte, most significant first (R7). -/
theorem bitsOfByte_eq (v : Byte) :
    bitsOfByte v = [v.getLsbD 7, v.getLsbD 6, v.getLsbD 5, v.getLsbD 4, v.getLsbD 3, v.getLsbD 2, v.getLsbD 1, v.getLsbD 0] :=
  rfl

@[simp] theorem bitsOfByte_length (v : Byte) : (bitsOfByte v).length = 8 := rfl

@[simp] theorem bitsOfBytes_length (bs : List Byte) : (bitsOfBytes bs).length = 8 * bs.length := by
  induction bs with
  | nil => rfl
  | cons b bs ih =>
    simp only [bitsOfBytes, List.flatMap_cons, List.length_append, bitsOfByte_length, List.length_cons] at ih ⊢
    omega

/-- A bit from the byte already taken changes no state (R128). -/
theorem getBit_open {r : BitCursor} {s : State} (h : r.nb ≠ 0) :
    getBit r s = .ok (r.cur.getLsbD (7 - r.nb), { r with nb := (r.nb + 1) % 8 }, s) := by
  simp [getBit, h]

/-- A bit from a fresh byte takes that byte (R128). -/
theorem getBit_fresh {r : BitCursor} {s t : State} {v : Byte} (h : r.nb = 0) (hv : nextByte s = .ok (v, t)) :
    getBit r s = .ok (v.getLsbD 7, { nb := 1, cur := v }, t) := by
  simp [getBit, h, hv]

/-- Everything `get_bit` can do when it answers a bit: `IPOS` moves by one byte or not at all. -/
theorem getBit_ok {r r' : BitCursor} {s t : State} {b : Bool} (h : getBit r s = .ok (b, r', t)) :
    (r.nb ≠ 0 ∧ t = s ∧ r' = { r with nb := (r.nb + 1) % 8 }) ∨
      (r.nb = 0 ∧ r'.nb = 1 ∧ s.ipos.toNat < s.ilen.toNat ∧ ∃ n, t = { s with ipos := s.ipos + 1, draws := n }) := by
  by_cases hr : r.nb = 0
  · simp only [getBit, hr, if_true, Except.bind_eq_ok] at h
    obtain ⟨⟨v, u⟩, hv, h⟩ := h
    obtain ⟨hlt, n, hu⟩ := nextByte_ok hv
    simp only [Except.ok.injEq, Prod.mk.injEq] at h
    exact .inr ⟨hr, by rw [← h.2.1], hlt, n, by rw [← h.2.2, hu]⟩
  · rw [getBit_open hr] at h
    simp only [Except.ok.injEq, Prod.mk.injEq] at h
    exact .inl ⟨hr, h.2.2.symm, h.2.1.symm⟩

/-- The one way `get_bit` stops: no byte is left (R155). -/
theorem getBit_error {r : BitCursor} {s : State} {e : Stop} (h : getBit r s = .error e) :
    r.nb = 0 ∧ s.ilen.toNat ≤ s.ipos.toNat ∧ e = .raise .trunc s.draws := by
  by_cases hr : r.nb = 0
  · simp only [getBit, hr, if_true, Except.bind_eq_error] at h
    rcases h with h | ⟨a, _, h⟩
    · exact ⟨hr, nextByte_error h⟩
    · simp at h
  · simp [getBit_open hr] at h

/-! ### Errors -/

/-- A free value with a bound keeps it (R199). -/
theorem freeUpTo_le {top : Nat} (n : Nat) (slot : Config.FreeSlot) : (freeUpTo top n slot).toNat ≤ top := by
  have hlt : Config.freeValue n slot % (top + 1) < top + 1 := Nat.mod_lt _ (Nat.succ_pos top)
  simp only [freeUpTo, BitVec.toNat_ofNat]
  have := Nat.mod_le (Config.freeValue n slot % (top + 1)) (2 ^ 64)
  omega

/-- `OLEN` after an error in a command that writes output: some value not above `OBUF_CAP` (R199). -/
theorem takeError_olen_le (e : ErrorCode) (ws : WriteSet) (o : Nat) (s : State) (h : ws.output = true) :
    (takeError e ws o s).olen.toNat ≤ s.obufCap := by
  simp only [takeError_olen, h, if_true]
  exact freeUpTo_le _ _

/-- `IPOS` after an error in a command that moves it: some value not above `ILEN` (R199). -/
theorem takeError_ipos_le (e : ErrorCode) (ws : WriteSet) (o : Nat) (s : State) (h : ws.ipos = true) :
    (takeError e ws o s).ipos.toNat ≤ s.ilen.toNat := by
  simp only [takeError_ipos, h, if_true]
  exact freeUpTo_le _ _

/-- `OBUF` bytes below `OLEN0` are unchanged by an error (R199). -/
theorem takeError_byte?_below (e : ErrorCode) (ws : WriteSet) (o : Nat) (s : State) {a : Nat} (h : a < o) :
    (takeError e ws o s).obuf.byte? a = s.obuf.byte? a := by
  rw [takeError_obuf]
  split
  · rw [Memory.byte?_keepBelow, if_pos h]
  · rfl

/-! ### Running a command -/

/-- While `ERR = 1` a command is ignored whole (R189). -/
theorem runCommand_sticky {c : Command} {s : State} (h : s.err = true) : runCommand c s = .next s := by
  simp [runCommand, h]

/-- An entry check that fails changes only `STATUS` (R199 (1)). -/
theorem runCommand_entry {c : Command} {s : State} {e : ErrorCode} (h : s.err = false) (he : c.entry s = some e) :
    runCommand c s = .next (setError e s) := by
  simp [runCommand, h, he]

/-- A command whose body ends well. -/
theorem runCommand_ok {c : Command} {s t : State} (h : s.err = false) (he : c.entry s = none) (hb : c.body s = .ok t) :
    runCommand c s = .next t := by
  simp [runCommand, h, he, hb]

/-- A command whose body raises (R199 (2)). -/
theorem runCommand_raise {c : Command} {s : State} {e : ErrorCode} {n : Nat} (h : s.err = false)
    (he : c.entry s = none) (hb : c.body s = .error (.raise e n)) :
    runCommand c s = .next (takeError e c.writes (c.outputFrom s) { s with draws := n }) := by
  simp [runCommand, h, he, hb]

/-- Everything a command can do when it answers a next state. -/
theorem runCommand_next {c : Command} {s t : State} (h : runCommand c s = .next t) :
    (s.err = true ∧ t = s) ∨
      (s.err = false ∧ ∃ e, c.entry s = some e ∧ t = setError e s) ∨
      (s.err = false ∧ c.entry s = none ∧ c.body s = .ok t) ∨
      (s.err = false ∧ c.entry s = none ∧ ∃ e n, c.body s = .error (.raise e n) ∧
        t = takeError e c.writes (c.outputFrom s) { s with draws := n }) := by
  unfold runCommand at h
  cases herr : s.err with
  | true =>
    simp only [herr, if_true, Host.Outcome.next.injEq] at h
    exact .inl ⟨rfl, h.symm⟩
  | false =>
    simp only [herr, Bool.false_eq_true, if_false] at h
    cases he : c.entry s with
    | some e =>
      simp only [he, Host.Outcome.next.injEq] at h
      exact .inr (.inl ⟨rfl, e, rfl, h.symm⟩)
    | none =>
      simp only [he] at h
      cases hb : c.body s with
      | ok u =>
        simp only [hb, Host.Outcome.next.injEq] at h
        exact .inr (.inr (.inl ⟨rfl, rfl, by rw [h]⟩))
      | error e =>
        cases e with
        | raise e n =>
          simp only [hb, Host.Outcome.next.injEq] at h
          exact .inr (.inr (.inr ⟨rfl, rfl, e, n, rfl, h.symm⟩))
        | stuck => simp [hb] at h

/-- A command's only fault: its traversal left the tree. -/
theorem runCommand_fault {c : Command} {s : State} {f : Fault} (h : runCommand c s = .fault f) :
    s.err = false ∧ c.entry s = none ∧ c.body s = .error .stuck ∧ f = .illFormedArena := by
  unfold runCommand at h
  cases herr : s.err with
  | true => simp [herr] at h
  | false =>
    simp only [herr, Bool.false_eq_true, if_false] at h
    cases he : c.entry s with
    | some e => simp [he] at h
    | none =>
      simp only [he] at h
      cases hb : c.body s with
      | ok u => simp [hb] at h
      | error e =>
        cases e with
        | raise e n => simp [hb] at h
        | stuck =>
          simp only [hb, Host.Outcome.fault.injEq] at h
          exact ⟨rfl, rfl, rfl, h.symm⟩

/-- No command refuses. -/
theorem runCommand_refused {c : Command} {s : State} {r : Refusal} : runCommand c s ≠ .refused r := by
  unfold runCommand
  split
  · simp
  · split
    · simp
    · split <;> simp

/-- A sub-command that ends well passed its entry checks (R169). -/
theorem subCommand_ok {c : Command} {s t : State} (h : subCommand c s = .ok t) : c.entry s = none ∧ c.body s = .ok t := by
  unfold subCommand at h
  split at h
  · simp [raiseIn] at h
  · rename_i he
    exact ⟨he, h⟩

/-- A sub-command is the command itself, as the host would have issued it (R169). -/
theorem subCommand_eq_ok {c : Command} {s t : State} (he : s.err = false) (h : subCommand c s = .ok t) :
    runCommand c s = .next t :=
  runCommand_ok he (subCommand_ok h).1 (subCommand_ok h).2

end Sys2Proof.Machine
end

