-- ==== Sys2Proof/Laws/PerInstr.lean ====
section
/-! SUPPORT. Statements made once for each command (30_encoding R75, R76): its word is a legal command word and is read back as the command, with whatever follows it left over. -/

namespace Sys2Proof.Laws.WordIsReadBack

/-- The word of `i` is legal, and decoding it and any bytes after it gives `i` and those bytes. -/
def Statement (i : Instr) : Prop :=
  commandWordWf (opcode i) = true ∧ i.wf = true ∧ ∀ rest, decode (encode i ++ rest) = .ok (i, rest)

theorem fcnt : Statement .fcnt := ⟨by decide, rfl, fun _ => rfl⟩

theorem build : Statement .build := ⟨by decide, rfl, fun _ => rfl⟩

theorem genc : Statement .genc := ⟨by decide, rfl, fun _ => rfl⟩

theorem whdr : Statement .whdr := ⟨by decide, rfl, fun _ => rfl⟩

theorem tser : Statement .tser := ⟨by decide, rfl, fun _ => rfl⟩

theorem pack : Statement .pack := ⟨by decide, rfl, fun _ => rfl⟩

theorem rhdr : Statement .rhdr := ⟨by decide, rfl, fun _ => rfl⟩

theorem tdes : Statement .tdes := ⟨by decide, rfl, fun _ => rfl⟩

theorem unpk : Statement .unpk := ⟨by decide, rfl, fun _ => rfl⟩

theorem comp : Statement .comp := ⟨by decide, rfl, fun _ => rfl⟩

theorem deco : Statement .deco := ⟨by decide, rfl, fun _ => rfl⟩

theorem clr : Statement .clr := ⟨by decide, rfl, fun _ => rfl⟩

end Sys2Proof.Laws.WordIsReadBack
end

