-- ==== Sys2Proof/Laws/Step.lean ====
section
/-! SUPPORT. What a step can do: the next host transaction, a command through its meaning (00_scope R9, 10_state R22). -/

namespace Sys2Proof.Machine

/-! ### The meanings as commands -/

theorem exec_fcnt (s : State) : exec .fcnt s = runCommand fcntCommand s := rfl

theorem exec_build (s : State) : exec .build s = runCommand buildCommand s := rfl

theorem exec_genc (s : State) : exec .genc s = runCommand gencCommand s := rfl

theorem exec_whdr (s : State) : exec .whdr s = runCommand whdrCommand s := rfl

theorem exec_tser (s : State) : exec .tser s = runCommand tserCommand s := rfl

theorem exec_pack (s : State) : exec .pack s = runCommand packCommand s := rfl

theorem exec_rhdr (s : State) : exec .rhdr s = runCommand rhdrCommand s := rfl

theorem exec_tdes (s : State) : exec .tdes s = runCommand tdesCommand s := rfl

theorem exec_unpk (s : State) : exec .unpk s = runCommand unpkCommand s := rfl

theorem exec_comp (s : State) : exec .comp s = runCommand compCommand s := rfl

theorem exec_deco (s : State) : exec .deco s = runCommand decoCommand s := rfl

theorem exec_clr (s : State) : exec .clr s = .next (clearAll s) := rfl

/-! ### One step -/

/-- With nothing to perform the block stays as it is (R216). -/
theorem step_idle {s : State} (h : s.host = []) : step s = .next s := by
  simp [step, h]

/-- With a transaction to come the step performs it. -/
theorem step_perform {s : State} {e : HostEvent} {rest : List HostEvent} (h : s.host = e :: rest) :
    step s = perform e { s with host := rest } := by
  simp [step, h]

/-- Everything a step can do when it answers a next state: nothing, a command, an illegal opcode, a host write, a host read,
or hardware reset. -/
theorem step_next {s t : State} (h : step s = .next t) :
    (s.host = [] ∧ t = s) ∨
      ∃ e rest, s.host = e :: rest ∧
        ((∃ v i, e = .write .cmd v ∧ decodeOpcode (BitVec.ofNat 8 v) = .ok i ∧ exec i { s with host := rest } = .next t) ∨
          (∃ v err, e = .write .cmd v ∧ decodeOpcode (BitVec.ofNat 8 v) = .error err ∧
            rejectOpcode { s with host := rest } = .next t) ∨
          (∃ l v, e = .write l v ∧ l ≠ .cmd ∧ locExists l s = true ∧ t = hostWriteLoc l v { s with host := rest }) ∨
          (∃ l, e = .read l ∧ locExists l s = true ∧ t = hostReadLoc l { s with host := rest }) ∨
          (e = .hardwareReset ∧ t = hardwareReset { s with host := rest })) := by
  cases hh : s.host with
  | nil =>
    rw [step_idle hh] at h
    exact .inl ⟨rfl, (Host.Outcome.next.inj h).symm⟩
  | cons e rest =>
    refine .inr ⟨e, rest, rfl, ?_⟩
    rw [step_perform hh] at h
    cases e with
    | write l v =>
      by_cases hl : l = .cmd
      · subst hl
        simp only [perform, issue, decode] at h
        cases hd : decodeOpcode (BitVec.ofNat 8 v) with
        | ok i =>
          simp only [hd] at h
          exact .inl ⟨v, i, rfl, hd, h⟩
        | error err =>
          simp only [hd] at h
          exact .inr (.inl ⟨v, err, rfl, hd, h⟩)
      · have hp : perform (.write l v) { s with host := rest } =
            if locExists l { s with host := rest } then .next (hostWriteLoc l v { s with host := rest })
            else .fault .noSuchByte := by
          cases l <;> first | rfl | exact absurd rfl hl
        rw [hp] at h
        split at h
        · rename_i hex
          refine .inr (.inr (.inl ⟨l, v, rfl, hl, ?_, (Host.Outcome.next.inj h).symm⟩))
          cases l <;> exact hex
        · simp at h
    | read l =>
      simp only [perform] at h
      split at h
      · rename_i hex
        refine .inr (.inr (.inr (.inl ⟨l, rfl, ?_, (Host.Outcome.next.inj h).symm⟩)))
        cases l <;> exact hex
      · simp at h
    | hardwareReset =>
      simp only [perform, Host.Outcome.next.injEq] at h
      exact .inr (.inr (.inr (.inr ⟨rfl, h.symm⟩)))

/-- A host read changes what the host read and the draw count, nothing else. -/
theorem hostReadLoc_eq (l : Loc) (s : State) :
    ∃ v n, hostReadLoc l s = { s with hostRead := v, draws := n } := by
  unfold hostReadLoc
  split
  · rename_i v _
    exact ⟨v, s.draws, rfl⟩
  · exact ⟨_, s.draws + 1, rfl⟩

/-! ### Commands up to the first error (R169) -/

@[simp] theorem runToError_nil (s : State) : runToError [] s = .next s := rfl

/-- A command that ends in an error ends the sequence. -/
theorem runToError_error {i : Instr} {s t : State} (rest : List Instr) (h : exec i s = .next t) (he : t.err = true) :
    runToError (i :: rest) s = .next t := by simp [runToError, h, he]

/-- A command without an error hands its state on. -/
theorem runToError_next {i : Instr} {s t : State} (rest : List Instr) (h : exec i s = .next t) (he : t.err = false) :
    runToError (i :: rest) s = runToError rest t := by simp [runToError, h, he]

end Sys2Proof.Machine
end

