-- ==== Sys2Proof/Laws/Tree.lean ====
section
/-! SUPPORT. The abstract tree and its reading from the arena (10_state R18): sizes, heights, and that a deeper bound reads the same tree. -/

namespace Sys2Proof.Machine

/-- A strict binary tree with `L` leaves has `2L - 1` nodes (R5). -/
theorem HuffmanTree.size_add_one (t : HuffmanTree) : t.size + 1 = 2 * t.symbols.length := by
  induction t with
  | leaf => rfl
  | node l r ihl ihr =>
    simp only [HuffmanTree.size, HuffmanTree.symbols, List.length_append]
    omega

theorem HuffmanTree.height_pos (t : HuffmanTree) : 0 < t.height := by
  cases t <;> simp [HuffmanTree.height]

/-- A strict binary tree is no deeper than it has leaves (R5: at most 256 leaves, so depth at most 255). -/
theorem HuffmanTree.height_le (t : HuffmanTree) : t.height ≤ t.symbols.length := by
  have pos : ∀ u : HuffmanTree, 0 < u.symbols.length := by
    intro u
    have := HuffmanTree.size_add_one u
    omega
  induction t with
  | leaf => simp [HuffmanTree.height, HuffmanTree.symbols]
  | node l r ihl ihr =>
    have := pos l
    have := pos r
    simp only [HuffmanTree.height, HuffmanTree.symbols, List.length_append]
    omega

/-- The codes of a tree name its symbols, in order. -/
theorem codes_symbols (t : HuffmanTree) (p : List Bool) : (codes t p).map Prod.fst = t.symbols := by
  induction t generalizing p with
  | leaf => rfl
  | node l r ihl ihr => simp [codes, HuffmanTree.symbols, ihl, ihr]

/-- Every code of a subtree extends the path to it, by no more than its height allows. -/
theorem codes_length {t : HuffmanTree} {p q : List Bool} {x : Byte} (h : (x, q) ∈ codes t p) :
    p <+: q ∧ q.length < p.length + t.height := by
  induction t generalizing p with
  | leaf y =>
    simp only [codes, List.mem_singleton, Prod.mk.injEq] at h
    simp [h.2, HuffmanTree.height]
  | node l r ihl ihr =>
    simp only [codes, List.mem_append] at h
    rcases h with h | h
    · obtain ⟨hp, hl⟩ := ihl h
      refine ⟨(List.prefix_append _ _).trans hp, ?_⟩
      simp only [List.length_append, List.length_singleton, HuffmanTree.height] at hl ⊢
      omega
    · obtain ⟨hp, hl⟩ := ihr h
      refine ⟨(List.prefix_append _ _).trans hp, ?_⟩
      simp only [List.length_append, List.length_singleton, HuffmanTree.height] at hl ⊢
      omega

/-- The tree read at an entry, one level at a time. -/
theorem treeAt_eq_some {s : State} {depth : Nat} {i : NodeIdx} {t : HuffmanTree} (h : s.treeAt (depth + 1) i = some t) :
    (∃ n, s.usedNode? i = some n ∧ n.leaf = true ∧ t = .leaf n.sym) ∨
      ∃ n l r, s.usedNode? i = some n ∧ n.leaf = false ∧ s.treeAt depth n.left = some l ∧
        s.treeAt depth n.right = some r ∧ t = .node l r := by
  unfold State.treeAt at h
  cases hn : s.usedNode? i with
  | none => simp [hn] at h
  | some n =>
    cases hl : n.leaf with
    | true =>
      simp only [hn, hl, if_true, Option.some.injEq] at h
      exact .inl ⟨n, rfl, hl, h.symm⟩
    | false =>
      simp only [hn, hl, Bool.false_eq_true, if_false] at h
      split at h
      · rename_i l r h1 h2
        exact .inr ⟨n, l, r, rfl, hl, h1, h2, (Option.some.inj h).symm⟩
      · simp at h

/-- A tree is read at any bound its height allows. -/
theorem treeAt_of_height {s : State} {depth : Nat} {i : NodeIdx} {t : HuffmanTree} (h : s.treeAt depth i = some t)
    {depth' : Nat} (hd : t.height ≤ depth') : s.treeAt depth' i = some t := by
  induction depth generalizing i t depth' with
  | zero => simp [State.treeAt] at h
  | succ depth ih =>
    cases depth' with
    | zero =>
      have := t.height_pos
      omega
    | succ depth' =>
      rcases treeAt_eq_some h with ⟨n, hn, hl, rfl⟩ | ⟨n, l, r, hn, hl, h1, h2, rfl⟩
      · simp [State.treeAt, hn, hl]
      · simp only [HuffmanTree.height] at hd
        simp [State.treeAt, hn, hl, ih h1 (by omega : l.height ≤ depth'), ih h2 (by omega : r.height ≤ depth')]

/-- A tree read at a bound is no higher than it. -/
theorem height_le_of_treeAt {s : State} {depth : Nat} {i : NodeIdx} {t : HuffmanTree} (h : s.treeAt depth i = some t) :
    t.height ≤ depth := by
  induction depth generalizing i t with
  | zero => simp [State.treeAt] at h
  | succ depth ih =>
    rcases treeAt_eq_some h with ⟨n, hn, hl, rfl⟩ | ⟨n, l, r, hn, hl, h1, h2, rfl⟩
    · simp [HuffmanTree.height]
    · have := ih h1
      have := ih h2
      simp only [HuffmanTree.height]
      omega

/-! ### The first nodes of a walk (R129) -/

@[simp] theorem firstNodes_nil (n : Nat) : firstNodes n [] = [] := by cases n <;> rfl

@[simp] theorem firstNodes_byte (n : Nat) (x : Byte) (l : List Item) :
    firstNodes n (.byte x :: l) = .byte x :: firstNodes n l := by cases n <;> rfl

@[simp] theorem firstNodes_zero_bit (b : Bool) (l : List Item) : firstNodes 0 (.bit b :: l) = [] := rfl

@[simp] theorem firstNodes_succ_bit (n : Nat) (b : Bool) (l : List Item) :
    firstNodes (n + 1) (.bit b :: l) = .bit b :: firstNodes n l := rfl

/-- A tree's walk followed by `l`: a tree of at most `n` nodes is taken whole. -/
theorem firstNodes_items_append (t : HuffmanTree) (n : Nat) (l : List Item) (h : t.size ≤ n) :
    firstNodes n (items t ++ l) = items t ++ firstNodes (n - t.size) l := by
  induction t generalizing n l with
  | leaf x =>
    obtain ⟨n, rfl⟩ : ∃ m, n = m + 1 := ⟨n - 1, by simp only [HuffmanTree.size] at h; omega⟩
    simp [items, HuffmanTree.size]
  | node a b iha ihb =>
    simp only [HuffmanTree.size] at h
    obtain ⟨n, rfl⟩ : ∃ m, n = m + 1 := ⟨n - 1, by omega⟩
    simp only [items, List.cons_append, List.append_assoc, firstNodes_succ_bit]
    rw [iha n (items b ++ l) (by omega), ihb (n - a.size) l (by omega)]
    simp only [HuffmanTree.size]
    congr 4
    omega

/-- The whole region of a tree that fits the arena. -/
theorem arenaBytes_of_size_le (t : HuffmanTree) (h : t.size ≤ 511) : arenaBytes t = (layout (items t)).length := by
  have := firstNodes_items_append t 511 [] h
  simp only [List.append_nil, firstNodes_nil] at this
  simp only [arenaBytes, Config.nodeMax, this]

/-- The traversal of indices succeeds exactly where the tree is read, and meets as many entries as it has nodes. -/
theorem preorderAt_of_treeAt {s : State} {depth : Nat} {i : NodeIdx} {t : HuffmanTree} (h : s.treeAt depth i = some t) :
    ∃ l, s.preorderAt depth i = some l ∧ l.length = t.size := by
  induction depth generalizing i t with
  | zero => simp [State.treeAt] at h
  | succ depth ih =>
    rcases treeAt_eq_some h with ⟨n, hn, hl, rfl⟩ | ⟨n, l, r, hn, hl, h1, h2, rfl⟩
    · exact ⟨[i.toNat], by simp [State.preorderAt, hn, hl], rfl⟩
    · obtain ⟨a, ha, hla⟩ := ih h1
      obtain ⟨b, hb, hlb⟩ := ih h2
      refine ⟨i.toNat :: (a ++ b), by simp [State.preorderAt, hn, hl, ha, hb], ?_⟩
      simp [hla, hlb, HuffmanTree.size]
      omega

/-- A reading depends on the arena and `NNODE` alone. -/
theorem treeAt_congr {s t : State} (ha : t.arena = s.arena) (hn : t.nnode = s.nnode) (depth : Nat) (i : NodeIdx) :
    t.treeAt depth i = s.treeAt depth i := by
  induction depth generalizing i with
  | zero => rfl
  | succ depth ih => simp only [State.treeAt, usedNode?_congr ha hn, ih]

theorem preorderAt_congr {s t : State} (ha : t.arena = s.arena) (hn : t.nnode = s.nnode) (depth : Nat) (i : NodeIdx) :
    t.preorderAt depth i = s.preorderAt depth i := by
  induction depth generalizing i with
  | zero => rfl
  | succ depth ih => simp only [State.preorderAt, usedNode?_congr ha hn, ih]

end Sys2Proof.Machine
end

