-- ==== Sys2Proof/Tests/Slice0.lean ====
section
/-! SUPPORT. Small tests: expected results from the spec's own vectors and tables (95_test_vectors, 30_encoding R75), and for every statement with hypotheses a concrete state that meets them. -/

namespace Sys2Proof.Tests

open Sys2Proof.Machine

/-! ## Helpers -/

/-- Capacities for tests: 32 bytes of input, 1024 of output. -/
def testCaps : Config.Capacities where
  ibuf := ⟨32, by decide⟩
  obuf := ⟨1024, by decide⟩

/-- Capacities with a given room for output. -/
def capsWithRoom (n : Nat) (h : n < Config.capLimit) : Config.Capacities where
  ibuf := ⟨32, by decide⟩
  obuf := ⟨n, h⟩

/-- The bytes listed from index `a`. -/
def listed (a : Nat) : List Byte → Memory
  | [] => []
  | b :: bs => (a, b) :: listed (a + 1) bs

/-- After reset and `LOAD bs` (R80). -/
def loaded (bs : List Byte) : State :=
  { State.resetWith testCaps with ibuf := listed 0 bs, ilen := BitVec.ofNat 64 bs.length }

/-- The next state of an outcome. -/
def stateOf (r : Result State) : State :=
  match r with
  | .next s => s
  | .fault _ => State.reset
  | .refused _ => State.reset

/-- Whether there is a next state. -/
def isNext (r : Result State) : Bool :=
  match r with
  | .next _ => true
  | .fault _ => false
  | .refused _ => false

theorem next_of_isNext {r : Result State} (h : isNext r = true) : r = .next (stateOf r) := by
  cases r <;> simp_all [isNext, stateOf]

/-- The first `n` bytes of `OBUF`. -/
def outputOf (n : Nat) (s : State) : List (Option Byte) := (List.range n).map s.obuf.byte?

/-- `a`, `b`, `c` of V1. -/
def treeV1 : HuffmanTree := .node (.leaf 0x61) (.node (.leaf 0x63) (.leaf 0x62))

/-- The arena of V1 after BUILD, on a given state. -/
def withV1 (s : State) : State :=
  { pushNode (innerNode 0 3 6) (pushNode (innerNode 2 1 3) (pushNode (leafNode 0x63 1) (pushNode (leafNode 0x62 2)
      (pushNode (leafNode 0x61 3) { s with nnode := 0 })))) with
    root := 4
    treeValid := true }

/-- The code book of V1, on a given state. -/
def withV1Codes (s : State) : State :=
  { setCode 0x62 [true, true] (setCode 0x63 [true, false] (setCode 0x61 [false] (withV1 s))) with cbValid := true }

/-- A degenerate tree, on a given state. -/
def withLeaf (x : Byte) (s : State) : State :=
  { pushNode (leafNode x 0) { s with nnode := 0 } with root := 0, treeValid := true }

/-- A state with an error pending. -/
def inError (s : State) : State := withError s .trunc

/-- `n` internal nodes down the left side, a leaf at every end. -/
def leftComb : Nat → HuffmanTree
  | 0 => .leaf 0
  | n + 1 => .node (leftComb n) (.leaf 0)

theorem leftComb_size (n : Nat) : (leftComb n).size = 2 * n + 1 := by
  induction n with
  | zero => rfl
  | succ n ih =>
    simp only [leftComb, HuffmanTree.size, ih]
    omega

/-! ## What is well formed: each check refuses an ill-formed command word (R76) -/

theorem smoke_opcode_zero_refused : commandWordWf 0x00 = false := by decide

theorem smoke_opcode_after_last_refused : commandWordWf 0x0D = false := by decide

theorem smoke_opcode_last_accepted : commandWordWf 0x0C = true := by decide

/-! ## Command words, written out bit by bit (R75) -/

theorem test_decode_fcnt : decode [0b00000001] = .ok (.fcnt, []) := by decide
theorem test_decode_build : decode [0b00000010] = .ok (.build, []) := by decide
theorem test_decode_genc : decode [0b00000011] = .ok (.genc, []) := by decide
theorem test_decode_whdr : decode [0b00000100] = .ok (.whdr, []) := by decide
theorem test_decode_tser : decode [0b00000101] = .ok (.tser, []) := by decide
theorem test_decode_pack : decode [0b00000110] = .ok (.pack, []) := by decide
theorem test_decode_rhdr : decode [0b00000111] = .ok (.rhdr, []) := by decide
theorem test_decode_tdes : decode [0b00001000] = .ok (.tdes, []) := by decide
theorem test_decode_unpk : decode [0b00001001] = .ok (.unpk, []) := by decide
theorem test_decode_comp : decode [0b00001010] = .ok (.comp, []) := by decide
theorem test_decode_deco : decode [0b00001011] = .ok (.deco, []) := by decide
theorem test_decode_clr : decode [0b00001100] = .ok (.clr, []) := by decide
theorem test_decode_illegal : decode [0b00001101] = .error (.illegalOpcode 0x0D) := by decide
theorem test_decode_zero : decode [0b00000000] = .error (.illegalOpcode 0) := by decide
theorem test_decode_no_byte : decode [] = .error .noByte := by decide

theorem witness_OpcodeMapDecodes : (0x0D : Byte) = 0 ∨ 0x0D ≤ (0x0D : Byte).toNat := by decide

/-! ## One step per command, against the vectors of 95_test_vectors -/

/-- F3: FCNT clears first. -/
theorem test_fcnt_clears_and_counts :
    (stateOf (exec .fcnt (setFreq 0x10 99 (loaded [0])))).freqAt 0x10 = 0 ∧
      (stateOf (exec .fcnt (setFreq 0x10 99 (loaded [0])))).freqAt 0 = 1 := by decide +kernel

/-- V6: leaf 2 and internal entry 3 tie at weight 2; the leaf goes left. -/
theorem test_build_tie :
    (stateOf (exec .build (setFreq 0x61 1 (setFreq 0x62 1 (setFreq 0x63 2 (loaded [])))))).node? 4 =
      some (innerNode 2 3 4) := by decide +kernel

/-- B4: weights beyond 64 bits. -/
theorem test_build_wide_weights :
    (stateOf (exec .build (setFreq 0 0xFFFFFFFFFFFFFFFF (setFreq 1 0xFFFFFFFFFFFFFFFF (setFreq 2 1 (loaded [])))))).node? 4 =
      some (innerNode 1 3 36893488147419103231) := by decide +kernel

/-- G1v: the code book of V1, as numbers. -/
theorem test_genc_codes :
    (stateOf (exec .genc (withV1 (loaded [])))).codeAt 0x62 = { present := true, len := 2, bits := 3 } ∧
      (stateOf (exec .genc (withV1 (loaded [])))).codeAt 0x63 = { present := true, len := 2, bits := 1 } := by decide +kernel

/-- G5v: no tree. -/
theorem test_genc_without_tree : statusWord (stateOf (exec .genc (loaded []))) = 0x0202 := by decide +kernel

/-- H2v: the header, least significant byte first. -/
theorem test_whdr_order :
    outputOf 8 (stateOf (exec .whdr { loaded [] with total := 0x0102030405060708 })) =
      [some 8, some 7, some 6, some 5, some 4, some 3, some 2, some 1] := by decide +kernel

/-- H4v: room for 7 bytes only. -/
theorem test_whdr_overflow :
    statusWord (stateOf (exec .whdr (State.resetWith (capsWithRoom 7 (by decide))))) = 0x0902 := by decide +kernel

/-- T1 with `OLEN = 8` before. -/
theorem test_tser_at_eight :
    outputOf 12 (stateOf (exec .tser { withV1 (loaded []) with olen := 8 })) =
      List.replicate 8 none ++ [some 0x58, some 0x61, some 0x63, some 0x62] := by decide +kernel

/-- R67: the tree of V7 needs two control bytes. -/
theorem test_layout_two_control_bytes :
    layout (items (.node (.node (.leaf 0x63) (.leaf 0x64)) (.node (.leaf 0x65) (.node (.leaf 0x61) (.leaf 0x62))))) =
      [0x35, 0x63, 0x64, 0x65, 0x61, 0x80, 0x62] := by decide +kernel

/-- K1: the codes of V1 with pad bits. -/
theorem test_pack_v1 :
    outputOf 3 (stateOf (exec .pack (withV1Codes (loaded [0x61, 0x61, 0x61, 0x62, 0x62, 0x63])))) =
      [some 0x1F, some 0x00, none] := by decide +kernel

/-- K5: a symbol without a code. -/
theorem test_pack_no_code : statusWord (stateOf (exec .pack (withV1Codes (loaded [0x61, 0x64])))) = 0x081A := by
  decide +kernel

/-- H5v. -/
theorem test_rhdr_six : (stateOf (exec .rhdr (loaded [6, 0, 0, 0, 0, 0, 0, 0]))).total = 6 := by decide +kernel

/-- H6v: bit 63 set. -/
theorem test_rhdr_bit_63 : statusWord (stateOf (exec .rhdr (loaded [0, 0, 0, 0, 0, 0, 0, 0x80]))) = 0x0506 := by decide +kernel

/-- T7: pad bits are not checked. -/
theorem test_tdes_pad_bits :
    (stateOf (exec .tdes (loaded [0x5F, 0x61, 0x63, 0x62]))).currentTree = some treeV1 := by decide +kernel

/-- T10: the third leaf's symbol is missing. -/
theorem test_tdes_truncated : statusWord (stateOf (exec .tdes (loaded [0x58, 0x61, 0x63]))) = 0x0406 := by decide +kernel

/-- U2v: three symbols, and the rest of the byte is never looked at. -/
theorem test_unpk_stops_at_total :
    outputOf 4 (stateOf (exec .unpk { withV1 (loaded [0x1F, 0x00]) with total := 3 })) =
        [some 0x61, some 0x61, some 0x61, none] ∧
      (stateOf (exec .unpk { withV1 (loaded [0x1F, 0x00]) with total := 3 })).ipos = 1 := by decide +kernel

/-- U4v: a 1 bit under a leaf. -/
theorem test_unpk_bad_code :
    statusWord (stateOf (exec .unpk { withLeaf 0x41 (loaded [0x40]) with total := 2 })) = 0x070E := by decide +kernel

/-- V9 of COMP: one zero byte. -/
theorem test_comp_one_zero_byte :
    outputOf 12 (stateOf (exec .comp (loaded [0x00]))) =
      [some 1, some 0, some 0, some 0, some 0, some 0, some 0, some 0, some 0x80, some 0x00, some 0x00, none] := by
  decide +kernel

/-- X14 of DECO: pad bits set and trailing bytes are tolerated. -/
theorem test_deco_tolerates_pad_and_trailing :
    outputOf 7 (stateOf (exec .deco
        (loaded [6, 0, 0, 0, 0, 0, 0, 0, 0x5F, 0x61, 0x63, 0x62, 0x1F, 0x7F, 0xAA, 0xBB]))) =
      [some 0x61, some 0x61, some 0x61, some 0x62, some 0x62, some 0x63, none] := by
  decide +kernel

/-- X2: CLR after an error. -/
theorem test_clr_after_error : statusWord (stateOf (exec .clr (inError (withV1Codes (loaded [1]))))) = 0 := by decide +kernel

/-- X1: an illegal opcode, through a step. -/
theorem test_step_illegal_opcode :
    statusWord (stateOf (step { State.reset with host := [.write .cmd 0x80] })) = 0x0102 := by decide +kernel

/-- A never-written byte of `IBUF` is read as a draw, and does not stop FCNT (U3). -/
theorem test_fcnt_on_unwritten_byte :
    isNext (exec .fcnt { State.resetWith testCaps with ilen := 1 }) = true := by decide +kernel

/-! ## Witnesses: for every statement with hypotheses, a state that meets them -/

theorem witness_DecodeAndEncodeAgree : decode (0x0C :: [0x07]) = .ok (.clr, [0x07]) := by decide

theorem witness_StepRunsTheDecodedCommand :
    ({ State.reset with host := [.write .cmd 0x10C] } : State).host = .write .cmd 0x10C :: [] ∧
      decode [BitVec.ofNat 8 0x10C] = .ok (.clr, []) ∧ Instr.wf .clr = true := by decide

theorem witness_IllegalOpcodeRaisesECmd :
    (∃ s : State, s.host = .write .cmd 0 :: [] ∧ s.err = false) ∧
      (∃ s : State, s.host = .write .cmd 13 :: [] ∧ (13 % 256 = 0 ∨ 13 ≤ 13 % 256) ∧ s.err = false) ∧
      ∃ s : State, s.host = .write .cmd 255 :: [] ∧ (255 % 256 = 0 ∨ 13 ≤ 255 % 256) ∧ s.err = false :=
  ⟨⟨{ State.reset with host := [.write .cmd 0] }, rfl, rfl⟩,
   ⟨{ State.reset with host := [.write .cmd 13] }, rfl, by decide, rfl⟩,
   ⟨{ State.reset with host := [.write .cmd 255] }, rfl, by decide, rfl⟩⟩

theorem witness_ErrorIsSticky_ignored :
    ∃ s : State, s.err = true ∧ s.host = .write .cmd 0x0B :: [] ∧ 0x0B % 256 ≠ 0x0C :=
  ⟨{ inError State.reset with host := [.write .cmd 0x0B] }, rfl, rfl, by decide⟩

theorem witness_ErrorIsSticky_cleared :
    ∃ s t : State, step s = .next t ∧ s.err = true ∧ t.err = false :=
  ⟨{ inError State.reset with host := [.write .cmd 0x0C] }, _, rfl, rfl, rfl⟩

theorem witness_ErrorIsSticky_accesses :
    ∃ s : State, s.err = true ∧ s.host = .write (.ibuf 31) 7 :: [] ∧ locExists (.ibuf 31) s = true ∧
      ∃ s' : State, s'.err = true ∧ s'.host = .read .status :: [] ∧ locExists .status s' = true :=
  ⟨{ inError (loaded []) with host := [.write (.ibuf 31) 7] }, rfl, rfl, by decide,
   { inError (loaded []) with host := [.read .status] }, rfl, rfl, rfl⟩

theorem witness_HostWritesFollowTheAccessRights : 31 < (loaded []).ibufCap ∧ 1023 < (loaded []).obufCap := by decide

/-- A block in which every kind of location has a value. -/
def readable : State := { withV1Codes (loaded [0xFF]) with obuf := [(1023, 7)], olen := 1024 }

theorem witness_HostReadsChangeNothing :
    locExists (.ibuf 31) (loaded []) = true ∧ locValue? (.ibuf 31) (loaded []) = none ∧
      readable.treeValid = true ∧ 4 < readable.nnode.toNat ∧ readable.cbValid = true ∧
      0 < readable.ibufCap ∧ readable.ibuf.byte? 0 = some 0xFF ∧
      1023 < readable.obufCap ∧ 1023 < readable.olen.toNat ∧ readable.obuf.byte? 1023 = some 7 ∧
      (loaded []).treeValid = false ∧ readable.nnode.toNat ≤ 510 ∧ (loaded []).cbValid = false ∧
      (loaded []).ibuf.byte? 31 = none ∧ (loaded []).olen.toNat ≤ 0 ∧ readable.obuf.byte? 0 = none := by decide +kernel

theorem witness_LoadScriptLoadsTheInput :
    ∃ (s : State) (bs : List Byte), bs.length ≤ s.ibufCap ∧ s.host = scriptLoad bs ++ [.read .olen] ∧ bs.length = 2 :=
  ⟨{ loaded [] with host := scriptLoad [1, 2] ++ [.read .olen] }, [1, 2], by decide, rfl, rfl⟩

theorem witness_HardwareResetRestoresResetValues :
    ∃ s : State, s.host = .hardwareReset :: [] ∧ s.err = true :=
  ⟨{ inError (loaded [1]) with host := [.hardwareReset] }, rfl, rfl⟩

theorem witness_MissingTreeOrCodeBookRaisesESeq :
    (loaded []).err = false ∧ (loaded []).treeValid = false ∧ (loaded []).cbValid = false ∧
      ∃ s : State, s.err = false ∧ s.ilen.toNat ≤ s.ibufCap ∧ s.ipos.toNat ≤ s.ilen.toNat ∧ s.olen.toNat ≤ s.obufCap ∧
        s.total.toNat ≤ Config.totalMax ∧ 0 < s.total.toNat ∧ s.treeValid = true ∧ s.nnode = 0 :=
  ⟨rfl, rfl, rfl, { loaded [] with total := 1, treeValid := true }, by decide⟩

theorem witness_RegisterOutOfRangeRaisesERange_ilen :
    ∃ s : State, s.err = false ∧ s.ibufCap < s.ilen.toNat ∧ s.cbValid = true :=
  ⟨{ withV1Codes (loaded []) with ilen := 33 }, rfl, by decide, rfl⟩

theorem witness_RegisterOutOfRangeRaisesERange_olen :
    ∃ s : State, s.err = false ∧ s.treeValid = true ∧ s.obufCap < s.olen.toNat ∧ s.ilen.toNat < s.ipos.toNat ∧
      Config.totalMax < s.total.toNat :=
  ⟨{ withV1Codes (loaded []) with olen := 1025, ipos := 1, total := 0x8000000000000000 }, rfl, rfl, by decide, by decide, by decide⟩

/-- `inputIs` and `streamIs` on the small states of this file. -/
theorem inputIs_loaded_two : inputIs (loaded [0x61, 0x62]) [0x61, 0x62] := by
  unfold inputIs holdsAt
  decide

theorem witness_FcntCountsTheInput :
    (loaded [0x61, 0x62]).err = false ∧ inputIs (loaded [0x61, 0x62]) [0x61, 0x62] ∧
      ∃ s : State, s.err = false ∧ s.ilen.toNat = s.ibufCap + 1 :=
  ⟨rfl, inputIs_loaded_two, { loaded [] with ilen := 33 }, rfl, by decide⟩

theorem witness_ClrClearsAllButTheBuffers : (inError (loaded [])).err = true ∧ Instr.fcnt ≠ Instr.clr := by decide

theorem witness_FcntCountsSumToTheLength :
    ∃ s : State, s.err = false ∧ s.ilen.toNat ≤ s.ibufCap ∧ s.ibuf.byte? 0 = none ∧ s.ilen = 32 :=
  ⟨{ loaded [] with ilen := 32 }, rfl, by decide, rfl, rfl⟩

theorem witness_BuildAlwaysCompletes : (loaded []).err = false := rfl

/-- A frequency table with three symbols. -/
def freqV1 : State := setFreq 0x61 3 (setFreq 0x62 2 (setFreq 0x63 1 (loaded [])))

theorem build_freqV1 : exec .build freqV1 = .next (stateOf (exec .build freqV1)) := next_of_isNext (by decide +kernel)

theorem witness_BuildSeedsOneLeafPerSymbol :
    freqV1.err = false ∧ exec .build freqV1 = .next (stateOf (exec .build freqV1)) ∧
      2 < (presentSymbols freqV1).length ∧ 4 < (stateOf (exec .build freqV1)).nnode.toNat :=
  ⟨rfl, build_freqV1, by decide +kernel, by decide +kernel⟩

theorem witness_BuildMergesTheTwoLeastLiveNodes :
    freqV1.err = false ∧ exec .build freqV1 = .next (stateOf (exec .build freqV1)) ∧
      4 < (stateOf (exec .build freqV1)).nnode.toNat ∧
      (stateOf (exec .build freqV1)).node? 4 = some (innerNode 0 3 6) ∧ (innerNode 0 3 6).leaf = false :=
  ⟨rfl, build_freqV1, by decide +kernel, by decide +kernel, rfl⟩

theorem witness_BuildMakesAWellFormedTree :
    freqV1.err = false ∧ exec .build freqV1 = .next (stateOf (exec .build freqV1)) ∧ presentSymbols freqV1 ≠ [] ∧
      presentSymbols (loaded []) = [] :=
  ⟨rfl, build_freqV1, by decide +kernel, by decide +kernel⟩

theorem witness_GencRecordsTheTreePaths :
    (withV1 (loaded [])).err = false ∧ (withV1 (loaded [])).treeValid = true ∧
      (withV1 (loaded [])).currentTree = some treeV1 ∧
      ∃ s : State, s.err = false ∧ s.treeValid = true ∧ s.nnode = 0 :=
  ⟨rfl, rfl, by decide +kernel, { loaded [] with treeValid := true }, rfl, rfl, rfl⟩

theorem witness_GencGivesTheOnlySymbolOneZeroBit :
    (withLeaf 0x41 (loaded [])).err = false ∧ (withLeaf 0x41 (loaded [])).treeValid = true ∧
      (withLeaf 0x41 (loaded [])).currentTree = some (.leaf 0x41) ∧
      exec .genc (withLeaf 0x41 (loaded [])) = .next (stateOf (exec .genc (withLeaf 0x41 (loaded [])))) :=
  ⟨rfl, rfl, by decide +kernel, next_of_isNext (by decide +kernel)⟩

/-- The arena of G4v: two leaves with the symbol `61`. -/
def repeated : State :=
  { pushNode (leafNode 0x61 0) (pushNode (leafNode 0x61 0) (pushNode (innerNode 1 2 0) (loaded []))) with
    root := 0
    treeValid := true }

theorem witness_GencKeepsTheLastLeafOfASymbol :
    repeated.err = false ∧ repeated.treeValid = true ∧
      repeated.currentTree = some (.node (.leaf 0x61) (.leaf 0x61)) ∧
      codes (.node (.leaf 0x61) (.leaf 0x61)) [] = [(0x61, [false])] ++ (0x61, [true]) :: [] ∧
      0x61 ∉ ([] : List (Byte × List Bool)).map Prod.fst ∧
      exec .genc repeated = .next (stateOf (exec .genc repeated)) :=
  ⟨rfl, rfl, by decide +kernel, by decide, by decide, next_of_isNext (by decide +kernel)⟩

theorem witness_GencCodesArePrefixFree :
    (withV1 (loaded [])).currentTree = some (.node (.leaf 0x61) (.node (.leaf 0x63) (.leaf 0x62))) ∧
      (HuffmanTree.node (.leaf 0x61) (.node (.leaf 0x63) (.leaf 0x62))).symbols.Nodup ∧
      exec .genc (withV1 (loaded [])) = .next (stateOf (exec .genc (withV1 (loaded [])))) :=
  ⟨by decide +kernel, by decide, next_of_isNext (by decide +kernel)⟩

theorem witness_CodeBookEntriesAreWellFormed :
    exec .genc (withV1 (loaded [])) = .next (stateOf (exec .genc (withV1 (loaded [])))) ∧
      (stateOf (exec .genc (withV1 (loaded [])))).err = false ∧
      ((stateOf (exec .genc (withV1 (loaded [])))).codeAt 0x61).present = true ∧
      ((stateOf (exec .genc (withV1 (loaded [])))).codeAt 0x64).present = false :=
  ⟨next_of_isNext (by decide +kernel), by decide +kernel, by decide +kernel, by decide +kernel⟩

theorem witness_TserAppendsTheLayout :
    (withV1 (loaded [])).obuf.wf ∧ (withV1 (loaded [])).olen.toNat ≤ (withV1 (loaded [])).obufCap ∧
      (withV1 (loaded [])).currentTree = some treeV1 ∧
      outputFits (withV1 (loaded [])) (layout (items treeV1)).length := by
  unfold outputFits
  decide +kernel

theorem witness_TdesRebuildsTheTree :
    treeV1.size ≤ 511 ∧ streamIs (loaded [0x58, 0x61, 0x63, 0x62, 0xAA]) (layout (items treeV1) ++ [0xAA]) := by
  unfold streamIs holdsAt
  decide +kernel

theorem streamIs_of_listed (s : State) (bs : List Byte) (hb : s.ibuf = listed 0 bs) (hi : s.ipos = 0)
    (hl : s.ilen.toNat = bs.length) (hc : bs.length ≤ s.ibufCap) : streamIs s bs := by
  have key : ∀ (bs : List Byte) (a k : Nat) (h : k < bs.length), (listed a bs).byte? (a + k) = some bs[k] := by
    intro bs
    induction bs with
    | nil => intro a k h; simp at h
    | cons b bs ih =>
      intro a k h
      cases k with
      | zero => simp [listed, Memory.byte?]
      | succ k =>
        have := ih (a + 1) k (by simpa using h)
        simp only [listed, Memory.byte?]
        rw [if_neg (by omega)]
        simpa [Nat.add_assoc, Nat.add_comm 1 k] using this
  refine ⟨by simp [hi, hl], by omega, fun k h => ?_⟩
  have := key bs 0 k h
  simpa [hb, hi] using this

/-- A block whose input is `bs`, with room for 1000 bytes. -/
def streamState (bs : List Byte) : State :=
  { State.resetWith { ibuf := ⟨1000, by decide⟩, obuf := ⟨0, by decide⟩ } with
    ibuf := listed 0 bs
    ilen := BitVec.ofNat 64 bs.length }

theorem streamState_streamIs (bs : List Byte) (h : bs.length ≤ 1000) : streamIs (streamState bs) bs := by
  refine streamIs_of_listed (streamState bs) bs rfl rfl ?_ h
  simp only [streamState, BitVec.toNat_ofNat]
  omega

theorem leftComb_items (n : Nat) : ∃ rest, items (leftComb n) = List.replicate n (.bit false) ++ rest := by
  induction n with
  | zero => exact ⟨_, rfl⟩
  | succ n ih =>
    obtain ⟨rest, h⟩ := ih
    exact ⟨rest ++ items (.leaf 0), by simp [leftComb, items, h, List.replicate_succ]⟩

theorem firstNodes_zeros (n : Nat) (rest : List Item) :
    firstNodes n (List.replicate (n + 1) (.bit false) ++ rest) = List.replicate n (.bit false) := by
  induction n with
  | zero => rfl
  | succ n ih =>
    rw [List.replicate_succ, List.cons_append, firstNodes_succ_bit, ih, List.replicate_succ]

/-- What is laid out after a full control byte leaves the bytes before it alone. -/
theorem layout_fold_keeps (out : List Byte) (l : List Item) (q : LayoutState)
    (h : ∃ more, q.out = out ++ more) (hq : q.nb = 0 ∨ out.length ≤ q.cpos) :
    ∃ more, (l.foldl layoutItem q).out = out ++ more := by
  induction l generalizing q with
  | nil => exact h
  | cons i l ih =>
    obtain ⟨more, h⟩ := h
    have keep : ∀ (c : Nat) (b : Byte) (m : List Byte), out.length ≤ c → (out ++ m).set c b = out ++ m.set (c - out.length) b :=
      fun c b m hc => List.set_append_right _ _ hc
    cases i with
    | byte x => exact ih _ ⟨more ++ [x], by simp [layoutItem, h]⟩ hq
    | bit b =>
      by_cases hn : q.nb = 0
      · refine ih _ ⟨(more ++ [0]).set more.length (bitInByte b 0), ?_⟩ (.inr (by simp [layoutItem, layoutOpenBit, hn, h]))
        simp [layoutItem, layoutOpenBit, hn, h, keep]
      · have hc := hq.resolve_left hn
        refine ih _ ⟨more.set (q.cpos - out.length) (q.out.getD q.cpos 0 ||| bitInByte b q.nb), ?_⟩
          (.inr (by simpa [layoutItem, layoutOpenBit, hn] using hc))
        rw [← keep _ _ _ hc, ← h]
        simp [layoutItem, layoutOpenBit, hn]

theorem zeros_layout :
    (List.replicate 512 (Item.bit false)).foldl layoutItem { out := [], nb := 0, cpos := 0 } =
      { out := List.replicate 64 0, nb := 0, cpos := 63 } ∧
    (layout (List.replicate 511 (Item.bit false))).length = 64 := by decide +kernel

/-- R134: 63 and 64 bytes of `00` are the beginning of this tree's region. -/
theorem leftComb_region :
    arenaBytes (leftComb 512) = 64 ∧ (layout (items (leftComb 512))).take 63 = List.replicate 63 0 ∧
      (layout (items (leftComb 512))).take 64 = List.replicate 64 0 := by
  obtain ⟨rest, h⟩ := leftComb_items 512
  have h64 : (layout (items (leftComb 512))).take 64 = List.replicate 64 0 := by
    obtain ⟨more, hm⟩ := layout_fold_keeps (List.replicate 64 0) rest
      { out := List.replicate 64 0, nb := 0, cpos := 63 } ⟨[], (List.append_nil _).symm⟩ (.inl rfl)
    rw [h, layout, List.foldl_append, zeros_layout.1, hm]
    exact List.take_left' (List.length_replicate ..)
  refine ⟨?_, ?_, h64⟩
  · rw [arenaBytes, h, firstNodes_zeros 511 rest]
    exact zeros_layout.2
  · have := congrArg (List.take 63) h64
    rwa [List.take_take, List.take_replicate] at this

theorem witness_TdesOfATruncatedTreeRaisesETrunc :
    3 < arenaBytes treeV1 ∧ streamIs (loaded [0x58, 0x61, 0x63]) ((layout (items treeV1)).take 3) ∧
      streamIs (loaded []) ((layout (items treeV1)).take 0) ∧
      63 < arenaBytes (leftComb 512) ∧
      streamIs (streamState (List.replicate 63 0)) ((layout (items (leftComb 512))).take 63) := by
  rw [leftComb_region.1, leftComb_region.2.1]
  refine ⟨by decide, ?_, ?_, by decide, streamState_streamIs _ (by simp)⟩ <;>
  · unfold streamIs holdsAt
    decide +kernel

theorem witness_TdesOfTooManyNodesRaisesETreeOvf :
    (streamState (List.replicate 64 0)).err = false ∧ 511 < (leftComb 512).size ∧
      streamIs (streamState (List.replicate 64 0)) ((layout (items (leftComb 512))).take (arenaBytes (leftComb 512)) ++ []) := by
  rw [leftComb_region.1, leftComb_region.2.2, List.append_nil]
  exact ⟨rfl, by rw [leftComb_size]; decide, streamState_streamIs _ (by simp)⟩

/-- R134: 63 bytes of `00` end in `E_TRUNC`, 64 in `E_TREEOVF`. -/
theorem test_tdes_zeros :
    (stateOf (exec .tdes (streamState (List.replicate 63 0)))).ecode = 4 ∧
      (stateOf (exec .tdes (streamState (List.replicate 64 0)))).ecode = 6 := by decide +kernel

/-- The input of V1 after GENC. -/
def packV1 : State := withV1Codes (loaded [0x61, 0x61, 0x61, 0x62, 0x62, 0x63])

theorem witness_PackAppendsTheCodeBits :
    packV1.err = false ∧ packV1.cbValid = true ∧ inputIs packV1 [0x61, 0x61, 0x61, 0x62, 0x62, 0x63] ∧
      (∀ x ∈ ([0x61, 0x61, 0x61, 0x62, 0x62, 0x63] : List Byte), (packV1.codeAt x).present = true) ∧
      outputFits packV1 (((codeBits packV1.codeAt [0x61, 0x61, 0x61, 0x62, 0x62, 0x63]).length + 7) / 8) := by
  unfold inputIs holdsAt outputFits
  decide +kernel

theorem witness_PackOfASymbolWithoutCodeRaisesENoCode :
    (withV1Codes (loaded [0x61, 0x64])).cbValid = true ∧ inputIs (withV1Codes (loaded [0x61, 0x64])) ([0x61] ++ 0x64 :: []) ∧
      (∀ y ∈ ([0x61] : List Byte), ((withV1Codes (loaded [0x61, 0x64])).codeAt y).present = true) ∧
      ((withV1Codes (loaded [0x61, 0x64])).codeAt 0x64).present = false ∧
      outputFits (withV1Codes (loaded [0x61, 0x64])) ((codeBits (withV1Codes (loaded [0x61, 0x64])).codeAt [0x61]).length / 8) := by
  unfold inputIs holdsAt outputFits
  decide +kernel

/-- The code region of V1, with a tree in the arena and the count set. -/
def unpkV1 (n : Word) : State := { withV1 (loaded [0x1F, 0x00]) with total := n }

theorem witness_UnpkDecodesTotalSymbols :
    (unpkV1 6).err = false ∧ (unpkV1 6).olen.toNat ≤ (unpkV1 6).obufCap ∧ streamIs (unpkV1 6) [0x1F, 0x00] ∧
      0 < (unpkV1 6).total.toNat ∧ (unpkV1 6).total.toNat ≤ Config.totalMax ∧ (unpkV1 6).treeValid = true ∧
      (unpkV1 6).currentTree = some treeV1 ∧
      treeV1.decodeSymbols (unpkV1 6).total.toNat (bitsOfBytes [0x1F, 0x00]) =
        some ([0x61, 0x61, 0x61, 0x62, 0x62, 0x63], List.replicate 7 false) ∧
      outputFits (unpkV1 6) (unpkV1 6).total.toNat ∧ (unpkV1 0).total = 0 := by
  unfold streamIs holdsAt outputFits
  decide +kernel

theorem witness_UnpkUndoesPack :
    (unpkV1 6).treeValid = true ∧ (unpkV1 6).currentTree = some treeV1 ∧
      (∀ x ∈ ([0x61, 0x61, 0x61, 0x62, 0x62, 0x63] : List Byte), x ∈ treeV1.symbols) ∧
      (unpkV1 6).total.toNat = ([0x61, 0x61, 0x61, 0x62, 0x62, 0x63] : List Byte).length ∧
      bytesOfBits (codeBits (fun x => (codeBookOf (some treeV1))[x.toNat]'(x.isLt)) [0x61, 0x61, 0x61, 0x62, 0x62, 0x63]) ++ [] =
        [0x1F, 0x00] ∧
      streamIs (unpkV1 6) [0x1F, 0x00] ∧ outputFits (unpkV1 6) 6 := by
  unfold streamIs holdsAt outputFits
  decide +kernel

/-- A degenerate tree with eight 0 bits for nine symbols (R153, R155). -/
def unpkLeafShort : State := { withLeaf 0x41 (loaded [0x00]) with total := 9 }

theorem witness_UnpkOfTooFewBitsRaisesETrunc :
    (streamIs (unpkV1 14) [0x1F, 0x00] ∧ (unpkV1 14).treeValid = true ∧ (unpkV1 14).currentTree = some treeV1 ∧
      (unpkV1 14).total.toNat ≤ Config.totalMax ∧ 13 < (unpkV1 14).total.toNat ∧ outputFits (unpkV1 14) 13 ∧
      (treeV1.decodeSymbols 13 (bitsOfBytes [0x1F, 0x00])).isSome = true ∧
      treeV1.decodeSymbols (13 + 1) (bitsOfBytes [0x1F, 0x00]) = none) ∧
    unpkLeafShort.err = false ∧ streamIs unpkLeafShort [0x00] ∧ unpkLeafShort.treeValid = true ∧
      unpkLeafShort.total.toNat ≤ Config.totalMax ∧ unpkLeafShort.currentTree = some (.leaf 0x41) ∧
      8 * ([0x00] : List Byte).length < unpkLeafShort.total.toNat ∧ outputFits unpkLeafShort 8 ∧
      ∀ b ∈ bitsOfBytes [0x00], b = false := by
  unfold streamIs holdsAt outputFits
  decide +kernel

/-- R155: nine symbols asked of eight bits under a tree of one leaf. -/
theorem test_unpk_leaf_trunc : (stateOf (exec .unpk unpkLeafShort)).ecode = 4 := by decide +kernel

/-- U4v. -/
def unpkLeaf : State := { withLeaf 0x41 (loaded [0x40]) with total := 2 }

theorem witness_UnpkOfAOneBitUnderALeafRaisesEBadCode :
    unpkLeaf.err = false ∧ streamIs unpkLeaf [0x40] ∧ unpkLeaf.treeValid = true ∧ unpkLeaf.currentTree = some (.leaf 0x41) ∧
      1 < unpkLeaf.total.toNat ∧ unpkLeaf.total.toNat ≤ Config.totalMax ∧ outputFits unpkLeaf 1 ∧
      (bitsOfBytes [0x40]).take (1 + 1) = List.replicate 1 false ++ [true] := by
  unfold streamIs holdsAt outputFits
  decide +kernel

theorem witness_WhdrAppendsTheCount :
    (∃ s : State, s.err = false ∧ s.total.toNat = Config.totalMax ∧ s.olen.toNat = 1016 ∧ outputFits s 8) ∧
      (∃ s : State, s.err = false ∧ Config.totalMax < s.total.toNat) ∧
      ∃ s : State, s.err = false ∧ s.total.toNat ≤ Config.totalMax ∧ s.olen.toNat ≤ s.obufCap ∧ ¬ outputFits s 8 :=
  ⟨⟨{ loaded [] with total := 0x7FFFFFFFFFFFFFFF, olen := 1016 }, by unfold outputFits; decide⟩,
    ⟨{ loaded [] with total := 0x8000000000000000 }, by decide⟩,
    ⟨{ loaded [] with olen := 1017 }, by unfold outputFits; decide⟩⟩

theorem witness_RhdrReadsTheCount :
    ([6, 0, 0, 0, 0, 0, 0, 0] : List Byte).length = 8 ∧
      streamIs (loaded [6, 0, 0, 0, 0, 0, 0, 0, 9]) ([6, 0, 0, 0, 0, 0, 0, 0] ++ [9]) ∧
      headerValue [6, 0, 0, 0, 0, 0, 0, 0] < 2 ^ 63 ∧
      streamIs (loaded [0, 0, 0, 0, 0, 0, 0, 0x80]) ([0, 0, 0, 0, 0, 0, 0, 0x80] ++ []) ∧
      2 ^ 63 ≤ headerValue [0, 0, 0, 0, 0, 0, 0, 0x80] ∧
      streamIs (loaded [6, 0, 0, 0, 0, 0, 0]) [6, 0, 0, 0, 0, 0, 0] := by
  unfold streamIs holdsAt
  decide +kernel

theorem witness_HeaderRoundTrip :
    (0x7FFFFFFFFFFFFFFF : Word).toNat ≤ Config.totalMax ∧
      streamIs (loaded [0xFF, 0xFF, 0xFF, 0xFF, 0xFF, 0xFF, 0xFF, 0x7F]) (headerBytes 0x7FFFFFFFFFFFFFFF ++ []) := by
  unfold streamIs holdsAt
  decide +kernel

/-- COMP of the two bytes `61 62`, whose artifact is V12's. -/
theorem comp_two_facts :
    isNext (exec .comp (loaded [0x61, 0x62])) = true ∧ (stateOf (exec .comp (loaded [0x61, 0x62]))).err = false ∧
      (stateOf (exec .comp (loaded [0x61, 0x62]))).olen = 12 ∧
      outputOf 12 (stateOf (exec .comp (loaded [0x61, 0x62]))) =
        [some 2, some 0, some 0, some 0, some 0, some 0, some 0, some 0, some 0x60, some 0x61, some 0x62, some 0x40] := by
  decide +kernel

/-- V12's artifact. -/
def artTwo : List Byte := [2, 0, 0, 0, 0, 0, 0, 0, 0x60, 0x61, 0x62, 0x40]

theorem outputIs_of_outputOf (s : State) (bs : List Byte) (hl : s.olen.toNat = bs.length)
    (h : outputOf bs.length s = bs.map some) : outputIs s bs := by
  refine ⟨hl, fun k hk => ?_⟩
  have := congrArg (fun l => l[k]?) h
  simpa [outputOf, hk] using this

theorem outputIs_two : outputIs (stateOf (exec .comp (loaded [0x61, 0x62]))) artTwo :=
  outputIs_of_outputOf _ _ (by rw [comp_two_facts.2.2.1]; rfl) comp_two_facts.2.2.2

theorem witness_CompIsTheSixPrimitives : (loaded [0x61, 0x62]).err = false ∧ (loaded [0x61, 0x62]).ilen.toNat ≤ (loaded [0x61, 0x62]).ibufCap ∧
    exec .comp (loaded [0x61, 0x62]) = .next (stateOf (exec .comp (loaded [0x61, 0x62]))) ∧
    (stateOf (exec .comp (loaded [0x61, 0x62]))).err = false :=
  ⟨rfl, by decide, next_of_isNext comp_two_facts.1, comp_two_facts.2.1⟩

/-- A block without room for the header. -/
def compNoRoom : State := { State.resetWith (capsWithRoom 0 (by decide)) with treeValid := false }

/-- COMP's sequence on an empty input without room: WHDR raises `E_OVF`. -/
theorem witness_CompIsTheSixPrimitives_error :
    compNoRoom.err = false ∧ compNoRoom.ilen.toNat ≤ compNoRoom.ibufCap ∧
      isNext (runToError [.fcnt, .build, .genc, .whdr, .tser, .pack]
        { compNoRoom with olen := 0, treeValid := false, cbValid := false }) = true ∧
      (stateOf (runToError [.fcnt, .build, .genc, .whdr, .tser, .pack]
        { compNoRoom with olen := 0, treeValid := false, cbValid := false })).ecode = 9 := by decide +kernel

theorem witness_CompWritesTheArtifact :
    (loaded [0x61, 0x62]).obuf.wf ∧ inputIs (loaded [0x61, 0x62]) [0x61, 0x62] ∧
      8 + 320 + (255 * ([0x61, 0x62] : List Byte).length + 7) / 8 ≤ (loaded [0x61, 0x62]).obufCap :=
  ⟨by decide, inputIs_loaded_two, by decide⟩

/-- A block without room for output. -/
def noRoom : State := { State.resetWith (capsWithRoom 0 (by decide)) with ibuf := listed 0 [0x61], ilen := 1 }

theorem comp_without_room :
    noRoom.err = false ∧ inputIs noRoom [0x61] ∧ exec .comp noRoom = .next (stateOf (exec .comp noRoom)) ∧
      (stateOf (exec .comp noRoom)).err = true := by
  have h : isNext (exec .comp noRoom) = true ∧ (stateOf (exec .comp noRoom)).err = true := by decide +kernel
  refine ⟨rfl, ?_, next_of_isNext h.1, h.2⟩
  unfold inputIs holdsAt
  decide

/-- Another state with the same input. -/
def loadedTwoAgain : State := { loaded [0x61, 0x62] with hostRead := 1 }

theorem comp_again_facts :
    isNext (exec .comp loadedTwoAgain) = true ∧ (stateOf (exec .comp loadedTwoAgain)).err = false := by
  decide +kernel

theorem witness_CompDependsOnTheInputAlone :
    loaded [0x61, 0x62] ≠ loadedTwoAgain ∧ loadedTwoAgain.err = false ∧ loadedTwoAgain.obuf.wf ∧
      inputIs (loaded [0x61, 0x62]) [0x61, 0x62] ∧ inputIs loadedTwoAgain [0x61, 0x62] ∧
      exec .comp (loaded [0x61, 0x62]) = .next (stateOf (exec .comp (loaded [0x61, 0x62]))) ∧
      exec .comp loadedTwoAgain = .next (stateOf (exec .comp loadedTwoAgain)) ∧
      (stateOf (exec .comp (loaded [0x61, 0x62]))).err = false ∧ (stateOf (exec .comp loadedTwoAgain)).err = false := by
  refine ⟨fun h => absurd (congrArg State.hostRead h) (by decide), rfl, List.Pairwise.nil, inputIs_loaded_two,
    ?_, next_of_isNext comp_two_facts.1, next_of_isNext comp_again_facts.1, comp_two_facts.2.1, comp_again_facts.2⟩
  unfold inputIs holdsAt
  decide

theorem inputIs_artTwo : inputIs (loaded artTwo) artTwo := by
  unfold inputIs holdsAt
  decide

theorem witness_DecoIsTheThreePrimitives : (loaded artTwo).err = false ∧ (loaded artTwo).ilen.toNat ≤ (loaded artTwo).ibufCap ∧
    isNext (exec .deco (loaded artTwo)) = true ∧ (stateOf (exec .deco (loaded artTwo))).err = false := by
  decide +kernel

theorem streamState_inputIs (bs : List Byte) (h : bs.length ≤ 1000) : inputIs (streamState bs) bs := by
  have hs := streamState_streamIs bs h
  simp only [streamIs] at hs
  have h0 : (streamState bs).ipos.toNat = 0 := rfl
  rw [h0, Nat.zero_add] at hs
  exact ⟨hs.1.symm, h, hs.2.2⟩

/-- A count of 1 and no tree: RHDR completes and TDES raises `E_TRUNC`. -/
theorem witness_DecoIsTheThreePrimitives_error :
    (stateOf (exec .rhdr (loaded []))).err = true ∧ isNext (exec .rhdr (loaded [])) = true ∧
      isNext (exec .rhdr (loaded (headerBytes 1))) = true ∧ (stateOf (exec .rhdr (loaded (headerBytes 1)))).err = false ∧
      (stateOf (exec .rhdr (loaded (headerBytes 1)))).total = 1 ∧
      isNext (runToError [.tdes, .unpk] (stateOf (exec .rhdr (loaded (headerBytes 1))))) = true ∧
      (stateOf (runToError [.tdes, .unpk] (stateOf (exec .rhdr (loaded (headerBytes 1)))))).ecode = 4 := by decide +kernel

/-- The four kinds of corrupt input (R77). -/
theorem witness_DecoIsTheThreePrimitives_corrupt :
    inputIs (loaded [1, 2, 3, 4, 5, 6, 7]) [1, 2, 3, 4, 5, 6, 7] ∧
      inputIs (loaded [0, 0, 0, 0, 0, 0, 0, 0x80]) [0, 0, 0, 0, 0, 0, 0, 0x80] ∧
      2 ^ 63 ≤ headerValue (([0, 0, 0, 0, 0, 0, 0, 0x80] : List Byte).take 8) ∧
      511 < (leftComb 512).size ∧
      inputIs (streamState (headerBytes 1 ++ (layout (items (leftComb 512))).take (arenaBytes (leftComb 512)) ++ []))
        (headerBytes (BitVec.ofNat 64 1) ++ (layout (items (leftComb 512))).take (arenaBytes (leftComb 512)) ++ []) ∧
      (bitsOfBytes [0x40]).take (1 + 1) = List.replicate 1 false ++ [true] ∧
      inputIs (loaded (headerBytes 2 ++ [0x80, 0x41] ++ [0x40]))
        (headerBytes (BitVec.ofNat 64 2) ++ layout (items (.leaf 0x41)) ++ [0x40]) := by
  rw [leftComb_region.1, leftComb_region.2.2, leftComb_size]
  refine ⟨?_, ?_, by decide, by decide, streamState_inputIs _ (by decide), by decide, ?_⟩ <;>
  · unfold inputIs holdsAt
    decide +kernel

theorem witness_DecoDecodesTheArtifact :
    (loaded artTwo).err = false ∧ inputIs (loaded artTwo) artTwo ∧ 2 ≤ (loaded artTwo).obufCap ∧
      (HuffmanTree.node (.leaf 0x61) (.leaf 0x62)).size ≤ 511 ∧
      artTwo = headerBytes (BitVec.ofNat 64 2) ++ layout (items (.node (.leaf 0x61) (.leaf 0x62))) ++ [0x40] ∧
      (HuffmanTree.node (.leaf 0x61) (.leaf 0x62)).decodeSymbols 2 (bitsOfBytes [0x40]) =
        some ([0x61, 0x62], List.replicate 6 false) ∧
      ∃ s : State, s.err = false ∧ inputIs s (headerBytes 0 ++ [0xFF]) := by
  refine ⟨rfl, inputIs_artTwo, by decide, by decide, by decide +kernel, by decide +kernel, loaded [0, 0, 0, 0, 0, 0, 0, 0, 0xFF], rfl, ?_⟩
  unfold inputIs holdsAt
  decide +kernel

theorem witness_DecompressUndoesCompress :
    (loaded [0x61, 0x62]).err = false ∧ inputIs (loaded [0x61, 0x62]) [0x61, 0x62] ∧
      exec .comp (loaded [0x61, 0x62]) = .next (stateOf (exec .comp (loaded [0x61, 0x62]))) ∧
      (stateOf (exec .comp (loaded [0x61, 0x62]))).err = false ∧
      outputIs (stateOf (exec .comp (loaded [0x61, 0x62]))) artTwo ∧ (loaded artTwo).err = false ∧
      inputIs (loaded artTwo) artTwo ∧ ([0x61, 0x62] : List Byte).length ≤ (loaded artTwo).obufCap :=
  ⟨rfl, inputIs_loaded_two, next_of_isNext comp_two_facts.1, comp_two_facts.2.1, outputIs_two, rfl, inputIs_artTwo, by decide⟩

theorem witness_TruncatedArtifactIsReported :
    11 < artTwo.length ∧ inputIs (loaded (artTwo.take 11)) (artTwo.take 11) ∧ inputIs (loaded (artTwo.take 0)) (artTwo.take 0) := by
  unfold inputIs holdsAt
  decide +kernel

/-- `UNPK` of six symbols into three bytes of room, the input ending after one byte. -/
def unpkNoRoom : State := { unpkV1 6 with ilen := 1, olen := 1021 }

theorem witness_OutputThatDoesNotFitRaisesEOvf :
    (∃ s : State, s.err = false ∧ s.olen.toNat ≤ s.obufCap ∧ s.treeValid = true ∧ s.currentTree = some treeV1 ∧
      s.total.toNat ≤ Config.totalMax ∧ ¬ outputFits s 8 ∧ ¬ outputFits s (layout (items treeV1)).length) ∧
    (∃ s : State, s.err = false ∧ s.olen.toNat ≤ s.obufCap ∧ s.cbValid = true ∧ inputIs s [0x61] ∧
      (∀ x ∈ ([0x61] : List Byte), (s.codeAt x).present = true) ∧
      ¬ outputFits s (((codeBits s.codeAt [0x61]).length + 7) / 8)) ∧
    (∃ s : State, s.err = false ∧ s.olen.toNat ≤ s.obufCap ∧ s.cbValid = true ∧
      inputIs s (List.replicate 8 0x61 ++ [0x64]) ∧ (∀ x ∈ List.replicate 8 (0x61 : Byte), (s.codeAt x).present = true) ∧
      (s.codeAt 0x64).present = false ∧ ¬ outputFits s ((codeBits s.codeAt (List.replicate 8 0x61)).length / 8)) ∧
    (unpkNoRoom.err = false ∧ unpkNoRoom.olen.toNat ≤ unpkNoRoom.obufCap ∧ unpkNoRoom.treeValid = true ∧
      unpkNoRoom.currentTree = some treeV1 ∧ streamIs unpkNoRoom [0x1F] ∧ unpkNoRoom.total.toNat ≤ Config.totalMax ∧
      4 ≤ unpkNoRoom.total.toNat ∧ treeV1.decodeSymbols 6 (bitsOfBytes [0x1F]) = none ∧
      treeV1.decodeSymbols 4 (bitsOfBytes [0x1F]) = some ([0x61, 0x61, 0x61, 0x62], [true, true, true]) ∧
      ¬ outputFits unpkNoRoom 4) := by
  refine ⟨⟨{ withV1 (loaded []) with olen := 1021 }, ?_⟩, ⟨{ withV1Codes (loaded [0x61]) with olen := 1024 }, ?_⟩,
    ⟨{ withV1Codes (loaded (List.replicate 8 0x61 ++ [0x64])) with olen := 1024 }, ?_⟩, ?_⟩ <;> unfold outputFits
  · decide +kernel
  · unfold inputIs holdsAt
    decide +kernel
  · unfold inputIs holdsAt
    decide +kernel
  · unfold streamIs holdsAt
    decide +kernel

/-- V12's artifact in a block with one byte of room. -/
def decoNoRoom : State :=
  { State.resetWith (capsWithRoom 1 (by decide)) with ibuf := listed 0 artTwo, ilen := 12 }

theorem witness_OutputThatDoesNotFitRaisesEOvf_composite :
    (noRoom.err = false ∧ inputIs noRoom [0x61] ∧
      isNext (exec .fcnt noRoom) = true ∧ isNext (exec .build (stateOf (exec .fcnt noRoom))) = true ∧
      noRoom.obufCap < (artifact [0x61] (stateOf (exec .build (stateOf (exec .fcnt noRoom)))).currentTree).length) ∧
    decoNoRoom.err = false ∧
      inputIs decoNoRoom (headerBytes (BitVec.ofNat 64 2) ++ layout (items (.node (.leaf 0x61) (.leaf 0x62))) ++ [0x40]) ∧
      ((HuffmanTree.node (.leaf 0x61) (.leaf 0x62)).decodeSymbols 2 (bitsOfBytes [0x40])).isSome = true ∧
      decoNoRoom.obufCap < 2 := by
  unfold inputIs holdsAt
  decide +kernel

theorem witness_ErrorsStayWithinTheWriteSet :
    (loaded [0x58]).err = false ∧ exec .tdes (loaded [0x58]) = .next (stateOf (exec .tdes (loaded [0x58]))) ∧
      (stateOf (exec .tdes (loaded [0x58]))).err = true :=
  ⟨rfl, next_of_isNext (by decide +kernel), by decide +kernel⟩

theorem witness_EachCommandRaisesOnlyItsErrors :
    (noRoom.err = false ∧ (∃ input, inputIs noRoom input) ∧ exec .comp noRoom = .next (stateOf (exec .comp noRoom)) ∧
      (stateOf (exec .comp noRoom)).err = true) ∧
    exec .genc (loaded []) = .next (stateOf (exec .genc (loaded []))) ∧ (stateOf (exec .genc (loaded []))).err = true :=
  ⟨⟨rfl, ⟨[0x61], comp_without_room.2.1⟩, comp_without_room.2.2.1, comp_without_room.2.2.2⟩,
   next_of_isNext (by decide +kernel), by decide +kernel⟩

theorem witness_RegisterCommandsFrame :
    exec .fcnt (loaded [0x61]) = .next (stateOf (exec .fcnt (loaded [0x61]))) ∧
      (stateOf (exec .fcnt (loaded [0x61]))).err = (loaded [0x61]).err :=
  ⟨next_of_isNext (by decide +kernel), by decide +kernel⟩

theorem witness_OutputCommandsFrame :
    exec .tser (withV1 (loaded [])) = .next (stateOf (exec .tser (withV1 (loaded [])))) ∧
      (stateOf (exec .tser (withV1 (loaded [])))).err = (withV1 (loaded [])).err :=
  ⟨next_of_isNext (by decide +kernel), by decide +kernel⟩

theorem witness_CompositeCommandsFrame :
    (loaded [0x61, 0x62]).err = false ∧
      exec .comp (loaded [0x61, 0x62]) = .next (stateOf (exec .comp (loaded [0x61, 0x62]))) ∧
      (stateOf (exec .comp (loaded [0x61, 0x62]))).err = false :=
  ⟨rfl, next_of_isNext comp_two_facts.1, comp_two_facts.2.1⟩

/-- The empty block meets the invariant, and a step from it does something. -/
theorem witness_StepKeepsTheInvariant :
    Inv { loaded [] with host := [.write .cmd 0x02] } ∧
      step { loaded [] with host := [.write .cmd 0x02] } = .next (stateOf (step { loaded [] with host := [.write .cmd 0x02] })) := by
  refine ⟨?_, next_of_isNext (by decide +kernel)⟩
  constructor
  · exact List.Pairwise.nil
  · exact List.Pairwise.nil
  · intro c h
    cases h
  · intro c h
    cases h
  · rfl
  · exact ⟨rfl, rfl⟩
  · intro h
    cases h
  · intro h
    cases h
  · intro h
    cases h
  · intro h
    cases h

theorem witness_EveryCommandTerminates :
    Inv { loaded [] with host := [.write .cmd 0x02] } ∧
      ∀ e ∈ ({ loaded [] with host := [.write .cmd 0x02] } : State).host.head?, ∀ l v, e = .write l v ∨ e = .read l →
        locExists l { loaded [] with host := [.write .cmd 0x02] } = true := by
  refine ⟨witness_StepKeepsTheInvariant.1, fun e he l v h => ?_⟩
  obtain rfl : e = .write .cmd 0x02 := by simpa [eq_comm] using he
  rcases h with h | h
  · cases h
    rfl
  · cases h

theorem witness_StepKeepsBuffersCanonical :
    (loaded [0x61, 0x62]).ibuf.wf ∧ (loaded [0x61, 0x62]).obuf.wf := by decide

theorem witness_StepKeepsStatusConsistent : statusWf (loaded []) ∧ statusWf (inError (loaded [])) :=
  ⟨⟨rfl, rfl⟩, by unfold statusWf; decide⟩

theorem witness_StepKeepsCodeBookNeedsTree :
    (withV1Codes (loaded [])).cbValid = true ∧ (withV1Codes (loaded [])).treeValid = true := ⟨rfl, rfl⟩

theorem witness_WellFormedArenaClauses : arenaWf (withV1 (loaded [])) ∧ (withV1 (loaded [])).nnode ≠ 0 :=
  ⟨.inr ⟨[4, 0, 3, 2, 1], by decide +kernel, by decide +kernel⟩, by decide⟩

theorem witness_CommandsNeverChangeTheInput :
    exec .fcnt (loaded [0x61]) = .next (stateOf (exec .fcnt (loaded [0x61]))) := next_of_isNext (by decide +kernel)

end Sys2Proof.Tests
end

section
/-! SUPPORT. A host write to `CMD`: the step issues the value's low byte, and a byte that decodes to a command runs it
(00_scope R9, 10_state R22, 30_encoding R75). -/

namespace Sys2Proof.Machine

/-- A write to `CMD` is a command issue, of the value truncated to 8 bits (R22). -/
theorem step_write_cmd {s : State} {v : Nat} {rest : List HostEvent} (h : s.host = .write .cmd v :: rest) :
    step s = issue (BitVec.ofNat 8 v) { s with host := rest } :=
  step_perform h

/-- Issuing a byte that decodes to a command runs the command (R75). -/
theorem issue_of_decode {v : Byte} {i : Instr} {rest : List Byte} (h : decode [v] = .ok (i, rest)) (s : State) :
    issue v s = exec i s := by
  simp only [issue, h]

/-- Settles O3: the step issues the value written, and what is issued decodes to the command. -/
theorem stepRunsTheDecodedCommand : Obligations.StepRunsTheDecodedCommand := by
  intro s v rest i hhost hdecode _
  calc step s = issue (BitVec.ofNat 8 v) { s with host := rest } := step_write_cmd hhost
    _ = exec i { s with host := rest } := issue_of_decode hdecode _

end Sys2Proof.Machine
end

section
/-! SUPPORT. What the body of each primitive command may change: its write set and the draw count, and of a buffer nothing
that would break its form (the rules of `ruleWrites`, 20_memory R40, 60_exceptions R199). -/

namespace Sys2Proof.Machine

/-- The state `t` comes from `s` by changes within the write set `w` and draws alone; `OBUF`, where it may change, keeps its
canonical form and stays within its capacity. -/
structure Frame (w : WriteSet) (s t : State) : Prop where
  freq : w.freq = false → t.freq = s.freq
  total : w.total = false → t.total = s.total
  ipos : w.ipos = false → t.ipos = s.ipos
  tree : w.tree = false → t.arena = s.arena ∧ t.nnode = s.nnode ∧ t.root = s.root ∧ t.treeValid = s.treeValid
  codeBook : w.codeBook = false → t.codeBook = s.codeBook
  cbValid : w.tree = false → w.codeBook = false → t.cbValid = s.cbValid
  output : w.output = false → t.olen = s.olen ∧ t.obuf = s.obuf
  errorBits : sameErrorBits s t
  ibuf : t.ibuf = s.ibuf
  ilen : t.ilen = s.ilen
  busy : t.busy = s.busy
  caps : t.caps = s.caps
  host : t.host = s.host
  hostRead : t.hostRead = s.hostRead
  obufWf : s.obuf.wf → t.obuf.wf
  obufWithin : bufferWithin s.obuf s.obufCap → bufferWithin t.obuf s.obufCap

theorem Frame.obufCap {w : WriteSet} {s t : State} (h : Frame w s t) : t.obufCap = s.obufCap :=
  congrArg (fun c => c.obuf.val) h.caps

theorem Frame.ibufCap {w : WriteSet} {s t : State} (h : Frame w s t) : t.ibufCap = s.ibufCap :=
  congrArg (fun c => c.ibuf.val) h.caps

theorem Frame.refl (w : WriteSet) (s : State) : Frame w s s := by
  constructor <;> simp [sameErrorBits]

theorem Frame.trans {w : WriteSet} {s t u : State} (h : Frame w s t) (h' : Frame w t u) : Frame w s u where
  freq hw := (h'.freq hw).trans (h.freq hw)
  total hw := (h'.total hw).trans (h.total hw)
  ipos hw := (h'.ipos hw).trans (h.ipos hw)
  tree hw := by simp only [h'.tree hw, h.tree hw, and_self]
  codeBook hw := (h'.codeBook hw).trans (h.codeBook hw)
  cbValid hw hw' := (h'.cbValid hw hw').trans (h.cbValid hw hw')
  output hw := by simp only [h'.output hw, h.output hw, and_self]
  errorBits := by
    obtain ⟨h1, h2, h3⟩ := h.errorBits
    obtain ⟨h1', h2', h3'⟩ := h'.errorBits
    exact ⟨h1'.trans h1, h2'.trans h2, h3'.trans h3⟩
  ibuf := h'.ibuf.trans h.ibuf
  ilen := h'.ilen.trans h.ilen
  busy := h'.busy.trans h.busy
  caps := h'.caps.trans h.caps
  host := h'.host.trans h.host
  hostRead := h'.hostRead.trans h.hostRead
  obufWf hs := h'.obufWf (h.obufWf hs)
  obufWithin hs := h.obufCap ▸ h'.obufWithin (h.obufCap.symm ▸ h.obufWithin hs)

/-! ### The shared operations -/

theorem frame_draws (w : WriteSet) (s : State) (n : Nat) : Frame w s { s with draws := n } := by
  constructor <;> simp [sameErrorBits]

theorem frame_memRead (w : WriteSet) (a : Nat) (s : State) : Frame w s (memRead a s).2 := by
  obtain ⟨n, hn⟩ := memRead_eq a s
  exact hn ▸ frame_draws w s n

/-- A byte of `OBUF` written below the capacity (R43). -/
theorem frame_memWrite {w : WriteSet} (hw : w.output = true) {a : Nat} (v : Byte) {s : State} (ha : a < s.obufCap) :
    Frame w s (memWrite a v s) := by
  constructor
  case obufWf => exact fun h => Memory.wf_store h a v
  case obufWithin => exact fun h => bufferWithin_store h ha v
  all_goals simp [sameErrorBits, hw]

theorem frame_append {w : WriteSet} (hw : w.output = true) {v : Byte} {s t : State} (h : append v s = .ok t) :
    Frame w s t := by
  obtain ⟨hroom, rfl⟩ := append_ok h
  constructor
  case obufWf => exact fun h => Memory.wf_storeAll h _ [v]
  case obufWithin => exact fun h => bufferWithin_store h hroom v
  all_goals simp [sameErrorBits, hw]

theorem frame_nextByte {w : WriteSet} (hw : w.ipos = true) {v : Byte} {s t : State} (h : nextByte s = .ok (v, t)) :
    Frame w s t := by
  obtain ⟨-, n, rfl⟩ := nextByte_ok h
  constructor <;> simp [sameErrorBits, hw]

theorem frame_getBit {w : WriteSet} (hw : w.ipos = true) {r r' : BitCursor} {b : Bool} {s t : State}
    (h : getBit r s = .ok (b, r', t)) : Frame w s t := by
  rcases getBit_ok h with ⟨-, rfl, -⟩ | ⟨-, -, -, n, rfl⟩
  · exact Frame.refl w _
  · constructor <;> simp [sameErrorBits, hw]

/-- What an error may leave of the write set is a change within it (R199). -/
theorem frame_forget (w : WriteSet) (o : Nat) (s : State) : Frame w s (forget w o s) := by
  constructor
  case obufWf =>
    intro h
    rw [forget_obuf]
    split
    · exact Memory.wf_keepBelow h o
    · exact h
  case obufWithin =>
    intro h
    rw [forget_obuf]
    split
    · exact bufferWithin_keepBelow h o
    · exact h
  all_goals simp +contextual [sameErrorBits]

/-- A fact that every turn of a loop keeps holds at its end. -/
theorem foldlM_keeps {α β : Type} {f : β → α → Except Stop β} {P : β → Prop}
    (hf : ∀ b a b', P b → f b a = .ok b' → P b') (l : List α) {b b' : β} (hb : P b) (h : l.foldlM f b = .ok b') :
    P b' := by
  induction l generalizing b with
  | nil =>
    obtain rfl : b = b' := by simpa [pure, Except.pure] using h
    exact hb
  | cons a l ih =>
    rw [List.foldlM_cons] at h
    obtain ⟨c, hc, h⟩ := Except.bind_eq_ok.mp h
    exact ih (hf b a c hb hc) h

/-! ### FCNT -/

theorem frame_countByte (s : State) (k : Nat) : Frame fcntWrites s (countByte s k) := by
  refine (frame_memRead fcntWrites k s).trans ?_
  constructor <;> simp [countByte, sameErrorBits, fcntWrites, State.obufCap]

theorem fcntBody_frame {s t : State} (h : fcntBody s = .ok t) : Frame fcntWrites s t := by
  obtain rfl := Except.ok.inj h
  have hclear : Frame fcntWrites s (clearFreq s) := by
    constructor <;> simp [sameErrorBits, fcntWrites]
  have hcounted := List.foldlRecOn (List.range s.ilen.toNat) countByte (motive := Frame fcntWrites s) hclear
    (fun u hu k _ => hu.trans (frame_countByte u k))
  refine hcounted.trans ?_
  constructor <;> simp [sameErrorBits, fcntWrites, State.obufCap]

/-! ### BUILD -/

theorem frame_pushNode (n : Node) (s : State) : Frame buildWrites s (pushNode n s) := by
  constructor <;> simp [sameErrorBits, buildWrites, noWrites]

theorem frame_seedLeaves (s : State) : Frame buildWrites s (seedLeaves s) := by
  have hstart : Frame buildWrites s { s with nnode := 0 } := by
    constructor <;> simp [sameErrorBits, buildWrites, noWrites]
  refine List.foldlRecOn (List.range 256) seedSymbol hstart (fun u hu k _ => hu.trans ?_)
  unfold seedSymbol
  dsimp only
  split
  · exact Frame.refl _ u
  · exact frame_pushNode _ u

theorem leastKey_eq_none {s : State} {live : List Nat} (h : leastKey s live = none) : live = [] := by
  cases live with
  | nil => rfl
  | cons i live =>
    rw [leastKey] at h
    split at h
    · simp at h
    · split at h <;> simp at h

theorem leastKey_mem {s : State} {live : List Nat} {i : Nat} (h : leastKey s live = some i) : i ∈ live := by
  induction live generalizing i with
  | nil => simp [leastKey] at h
  | cons j live ih =>
    rw [leastKey] at h
    split at h
    · simp [Option.some.inj h]
    · rename_i k hk
      split at h
      · simp [Option.some.inj h]
      · exact List.mem_cons_of_mem _ (ih (hk.trans h))

theorem popLeast_eq_none {s : State} {live : List Nat} (h : popLeast s live = none) : live = [] := by
  unfold popLeast at h
  split at h
  · rename_i hleast
    exact leastKey_eq_none hleast
  · simp at h

/-- A pop takes one element out of the live set (R97). -/
theorem popLeast_perm {s : State} {live live' : List Nat} {a : Nat} (h : popLeast s live = some (a, live')) :
    live.Perm (a :: live') := by
  unfold popLeast at h
  split at h
  · simp at h
  · rename_i i hi
    obtain ⟨rfl, rfl⟩ := Prod.mk.inj (Option.some.inj h)
    exact List.perm_cons_erase (leastKey_mem hi)

/-- A turn of the merging loop that finds two live nodes makes an entry of them and goes on; else the loop ends, with at most
one live node (R97). -/
theorem mergeLoop_succ (turns : Nat) (live : List Nat) (s : State) :
    (live.length ≤ 1 ∧ mergeLoop (turns + 1) live s = (live, s)) ∨
      ∃ a b live', live.Perm (a :: b :: live') ∧
        mergeLoop (turns + 1) live s =
          mergeLoop turns (live' ++ [s.nnode.toNat]) (pushNode (mergedNode s a b) s) := by
  cases h₁ : popLeast s live with
  | none => exact .inl ⟨by simp [popLeast_eq_none h₁], by simp [mergeLoop, h₁]⟩
  | some p =>
    obtain ⟨a, live₁⟩ := p
    have hperm := popLeast_perm h₁
    cases h₂ : popLeast s live₁ with
    | none =>
      obtain rfl := popLeast_eq_none h₂
      exact .inl ⟨hperm.length_eq.le, by simp [mergeLoop, h₁, h₂]⟩
    | some q =>
      obtain ⟨b, live₂⟩ := q
      exact .inr ⟨a, b, live₂, hperm.trans ((popLeast_perm h₂).cons a), by simp [mergeLoop, h₁, h₂]⟩

theorem frame_mergeLoop (turns : Nat) (live : List Nat) (s : State) :
    Frame buildWrites s (mergeLoop turns live s).2 := by
  induction turns generalizing live s with
  | zero => exact Frame.refl _ s
  | succ turns ih =>
    rcases mergeLoop_succ turns live s with ⟨-, h⟩ | ⟨a, b, live', -, h⟩
    · exact h ▸ Frame.refl _ s
    · exact h ▸ (frame_pushNode _ s).trans (ih _ _)

/-- The live set and the state in which BUILD's merging loop ends (R97). -/
def mergedLeaves (s : State) : List Nat × State :=
  mergeLoop (seedLeaves s).nnode.toNat (List.range (seedLeaves s).nnode.toNat) (seedLeaves s)

theorem buildTree_eq (s : State) :
    buildTree s = setTreeValid { (mergedLeaves s).2 with root := rootOf (mergedLeaves s).1 } := by
  simp only [buildTree, mergedLeaves]

theorem buildBody_ok {s t : State} (h : buildBody s = .ok t) :
    t = setTreeValid { (mergedLeaves s).2 with root := rootOf (mergedLeaves s).1 } :=
  buildTree_eq s ▸ (Except.ok.inj h).symm

theorem buildBody_frame {s t : State} (h : buildBody s = .ok t) : Frame buildWrites s t := by
  obtain rfl := buildBody_ok h
  have hmerged : Frame buildWrites s (mergedLeaves s).2 := (frame_seedLeaves s).trans (frame_mergeLoop _ _ _)
  refine hmerged.trans ?_
  constructor <;> simp [sameErrorBits, buildWrites, noWrites, State.obufCap]

/-! ### GENC -/

theorem frame_setCode (x : Byte) (p : List Bool) (s : State) : Frame gencWrites s (setCode x p s) := by
  constructor <;> simp [sameErrorBits, gencWrites, noWrites]

/-- What the walk does at an entry it meets: a leaf's path is recorded; below an internal entry the left subtree is walked
before the right (R111). -/
theorem walk_ok {depth : Nat} {i : NodeIdx} {p : List Bool} {s t : State} (h : walk (depth + 1) i p s = .ok t) :
    (∃ n, s.usedNode? i = some n ∧ n.leaf = true ∧ t = setCode n.sym p s) ∨
      ∃ n u, s.usedNode? i = some n ∧ n.leaf = false ∧ walk depth n.left (p ++ [false]) s = .ok u ∧
        walk depth n.right (p ++ [true]) u = .ok t := by
  rw [walk] at h
  cases hn : s.usedNode? i with
  | none => simp [hn] at h
  | some n =>
    cases hl : n.leaf with
    | true =>
      simp only [hn, hl, if_true, Except.ok.injEq] at h
      exact .inl ⟨n, rfl, hl, h.symm⟩
    | false =>
      simp only [hn, hl, Bool.false_eq_true, if_false] at h
      obtain ⟨u, hu, h⟩ := Except.bind_eq_ok.mp h
      exact .inr ⟨n, u, rfl, hl, hu, h⟩

theorem frame_walk {depth : Nat} {i : NodeIdx} {p : List Bool} {s t : State} (h : walk depth i p s = .ok t) :
    Frame gencWrites s t := by
  induction depth generalizing i p s t with
  | zero => simp [walk] at h
  | succ depth ih =>
    rcases walk_ok h with ⟨n, -, -, rfl⟩ | ⟨n, u, -, -, hu, h⟩
    · exact frame_setCode _ _ _
    · exact (ih hu).trans (ih h)

/-- What GENC records: nothing for the empty tree, `"0"` for a root that is a leaf, else what the walk records (R111, R113). -/
theorem gencCodes_ok {s t : State} (h : gencCodes s = .ok t) :
    (s.nnode = 0 ∧ t = s) ∨
      ∃ n, s.nnode ≠ 0 ∧ s.usedNode? s.root = some n ∧
        ((n.leaf = true ∧ t = setCode n.sym [false] s) ∨
          (n.leaf = false ∧ walk Config.depthMax s.root [] s = .ok t)) := by
  unfold gencCodes at h
  by_cases h0 : s.nnode = 0
  · simp only [h0, if_true, Except.ok.injEq] at h
    exact .inl ⟨h0, h.symm⟩
  · rw [if_neg h0] at h
    cases hn : s.usedNode? s.root with
    | none => simp [hn] at h
    | some n =>
      refine .inr ⟨n, h0, rfl, ?_⟩
      cases hl : n.leaf with
      | true =>
        simp only [hn, hl, if_true, Except.ok.injEq] at h
        exact .inl ⟨rfl, h.symm⟩
      | false =>
        simp only [hn, hl, Bool.false_eq_true, if_false] at h
        exact .inr ⟨rfl, h⟩

theorem frame_gencCodes {s t : State} (h : gencCodes s = .ok t) : Frame gencWrites s t := by
  rcases gencCodes_ok h with ⟨-, rfl⟩ | ⟨n, -, -, ⟨-, rfl⟩ | ⟨-, h⟩⟩
  · exact Frame.refl _ _
  · exact frame_setCode _ _ _
  · exact frame_walk h

theorem gencBody_frame {s t : State} (h : gencBody s = .ok t) : Frame gencWrites s t := by
  obtain ⟨u, hu, h⟩ := Except.bind_eq_ok.mp h
  obtain rfl := Except.ok.inj h
  have hclear : Frame gencWrites s (clearCodeBook s) := by
    constructor <;> simp [sameErrorBits, gencWrites, noWrites]
  refine (hclear.trans (frame_gencCodes hu)).trans ?_
  constructor <;> simp [sameErrorBits, gencWrites, noWrites, State.obufCap]

/-! ### WHDR, TSER and PACK -/

theorem whdrBody_frame {s t : State} (h : whdrBody s = .ok t) : Frame whdrWrites s t :=
  foldlM_keeps (P := Frame whdrWrites s) (fun _ _ _ hu ha => hu.trans (frame_append rfl ha)) _ (Frame.refl _ s) h

/-- The control byte being filled lies below the capacity, so it can be rewritten (R122). -/
def controlInRoom (c : ControlByte) (s : State) : Prop := c.nb ≠ 0 → c.cpos < s.obufCap

theorem controlInRoom.of_frame {c : ControlByte} {w : WriteSet} {s t : State} (hc : controlInRoom c s)
    (h : Frame w s t) : controlInRoom c t := fun hnb => h.obufCap.symm ▸ hc hnb

/-- Rewriting a control byte below the capacity. -/
theorem frame_putOpen (b : Bool) {c : ControlByte} {s : State} (hc : c.cpos < s.obufCap) :
    Frame tserWrites s (putOpen b c s).2 ∧ controlInRoom (putOpen b c s).1 (putOpen b c s).2 :=
  ⟨frame_memWrite rfl _ hc, fun _ => hc⟩

theorem frame_putBit {b : Bool} {c c' : ControlByte} {s t : State} (hc : controlInRoom c s)
    (h : putBit b c s = .ok (c', t)) : Frame tserWrites s t ∧ controlInRoom c' t := by
  unfold putBit at h
  split at h
  · obtain ⟨u, hu, h⟩ := Except.bind_eq_ok.mp h
    have hu' : Frame tserWrites s u := frame_append rfl hu
    have hopen := frame_putOpen b (c := { nb := 0, cpos := s.olen.toNat, cval := 0 }) (s := u)
      (hu'.obufCap.symm ▸ (append_ok hu).1)
    rw [Except.ok.inj h] at hopen
    exact ⟨hu'.trans hopen.1, hopen.2⟩
  · rename_i hnb
    have hopen := frame_putOpen b (hc hnb)
    rwa [Except.ok.inj h] at hopen

theorem frame_serialize {depth : Nat} {i : NodeIdx} {c c' : ControlByte} {s t : State} (hc : controlInRoom c s)
    (h : serialize depth i c s = .ok (c', t)) : Frame tserWrites s t ∧ controlInRoom c' t := by
  induction depth generalizing i c c' s t with
  | zero => simp [serialize] at h
  | succ depth ih =>
    rw [serialize] at h
    split at h
    · simp at h
    · split at h
      · obtain ⟨⟨c₁, s₁⟩, hput, h⟩ := Except.bind_eq_ok.mp h
        obtain ⟨s₂, happ, h⟩ := Except.bind_eq_ok.mp h
        obtain ⟨rfl, rfl⟩ := Prod.mk.inj (Except.ok.inj h)
        obtain ⟨hf, hroom⟩ := frame_putBit hc hput
        have happ := frame_append (w := tserWrites) rfl happ
        exact ⟨hf.trans happ, hroom.of_frame happ⟩
      · obtain ⟨⟨c₁, s₁⟩, hput, h⟩ := Except.bind_eq_ok.mp h
        obtain ⟨⟨c₂, s₂⟩, hleft, hright⟩ := Except.bind_eq_ok.mp h
        obtain ⟨hf₁, hroom₁⟩ := frame_putBit hc hput
        obtain ⟨hf₂, hroom₂⟩ := ih hroom₁ hleft
        obtain ⟨hf₃, hroom₃⟩ := ih hroom₂ hright
        exact ⟨(hf₁.trans hf₂).trans hf₃, hroom₃⟩

theorem tserBody_frame {s t : State} (h : tserBody s = .ok t) : Frame tserWrites s t := by
  unfold tserBody at h
  split at h
  · exact Except.ok.inj h ▸ Frame.refl _ s
  · obtain ⟨⟨c, u⟩, hu, h⟩ := Except.bind_eq_ok.mp h
    obtain rfl := Except.ok.inj h
    exact (frame_serialize (fun hnb => absurd rfl hnb) hu).1

theorem frame_packBit {b : Bool} {p p' : Packer} {s t : State} (h : packBit b p s = .ok (p', t)) :
    Frame packWrites s t := by
  unfold packBit at h
  dsimp only at h
  split at h
  · obtain ⟨u, hu, h⟩ := Except.bind_eq_ok.mp h
    obtain ⟨-, rfl⟩ := Prod.mk.inj (Except.ok.inj h)
    exact frame_append rfl hu
  · obtain ⟨-, rfl⟩ := Prod.mk.inj (Except.ok.inj h)
    exact Frame.refl _ s

theorem frame_packBits {bits : List Bool} {p p' : Packer} {s t : State} (h : packBits bits p s = .ok (p', t)) :
    Frame packWrites s t := by
  induction bits generalizing p s with
  | nil =>
    obtain ⟨-, rfl⟩ := Prod.mk.inj (Except.ok.inj h)
    exact Frame.refl _ s
  | cons b bits ih =>
    obtain ⟨⟨q, u⟩, hu, h⟩ := Except.bind_eq_ok.mp h
    exact (frame_packBit hu).trans (ih h)

theorem frame_packSymbol {p p' : Packer} {s t : State} {k : Nat} (h : packSymbol p s k = .ok (p', t)) :
    Frame packWrites s t := by
  unfold packSymbol at h
  dsimp only at h
  split at h
  · exact (frame_memRead _ k s).trans (frame_packBits h)
  · simp [raiseIn] at h

theorem frame_packEnd {p : Packer} {s t : State} (h : packEnd p s = .ok t) : Frame packWrites s t := by
  unfold packEnd at h
  split at h
  · exact Except.ok.inj h ▸ Frame.refl _ s
  · exact frame_append rfl h

theorem packBody_frame {s t : State} (h : packBody s = .ok t) : Frame packWrites s t := by
  obtain ⟨⟨p, u⟩, hu, h⟩ := Except.bind_eq_ok.mp h
  have hpacked := foldlM_keeps (P := fun q => Frame packWrites s q.2)
    (fun _ _ _ hq ha => hq.trans (frame_packSymbol ha)) _ (Frame.refl _ s) hu
  exact hpacked.trans (frame_packEnd h)

/-! ### RHDR, TDES and UNPK -/

theorem frame_rhdrByte {v v' : Word} {s t : State} {k : Nat} (h : rhdrByte v s k = .ok (v', t)) :
    Frame rhdrWrites s t := by
  obtain ⟨⟨b, u⟩, hu, h⟩ := Except.bind_eq_ok.mp h
  obtain ⟨-, rfl⟩ := Prod.mk.inj (Except.ok.inj h)
  exact frame_nextByte rfl hu

theorem rhdrBody_frame {s t : State} (h : rhdrBody s = .ok t) : Frame rhdrWrites s t := by
  obtain ⟨⟨v, u⟩, hu, h⟩ := Except.bind_eq_ok.mp h
  have hread := foldlM_keeps (P := fun q => Frame rhdrWrites s q.2)
    (fun _ _ _ hq ha => hq.trans (frame_rhdrByte ha)) _ (Frame.refl _ s) hu
  dsimp only at h
  split at h
  · simp [raiseIn] at h
  · obtain rfl := Except.ok.inj h
    refine hread.trans ?_
    constructor <;> simp [sameErrorBits, rhdrWrites, noWrites, State.obufCap]

/-- A call of `des` takes one entry: a leaf and its symbol, or an internal entry that is written after its two subtrees were
read (R128, R129). -/
theorem deserialize_ok {depth i : Nat} {r r' : BitCursor} {s t : State} (h : deserialize (depth + 1) r s = .ok (i, r', t)) :
    s.nnode.toNat ≠ Config.nodeMax ∧ i = s.nnode.toNat ∧
      ∃ b r₁ s₁, getBit r { s with nnode := s.nnode + 1 } = .ok (b, r₁, s₁) ∧
        ((∃ x s₂, nextByte s₁ = .ok (x, s₂) ∧ t = setNode i (leafNode x 0) s₂) ∨
          ∃ l r₂ s₂ m s₃, deserialize depth r₁ s₁ = .ok (l, r₂, s₂) ∧ deserialize depth r₂ s₂ = .ok (m, r', s₃) ∧
            t = setNode i (innerNode (BitVec.ofNat 9 l) (BitVec.ofNat 9 m) 0) s₃) := by
  rw [deserialize] at h
  split at h
  · simp [raiseIn] at h
  · rename_i hmax
    obtain ⟨⟨b, r₁, s₁⟩, hbit, h⟩ := Except.bind_eq_ok.mp h
    dsimp only at h
    split at h
    · obtain ⟨⟨x, s₂⟩, hx, h⟩ := Except.bind_eq_ok.mp h
      simp only [Except.ok.injEq, Prod.mk.injEq] at h
      obtain ⟨rfl, -, rfl⟩ := h
      exact ⟨hmax, rfl, b, r₁, s₁, hbit, .inl ⟨x, s₂, hx, rfl⟩⟩
    · obtain ⟨⟨l, r₂, s₂⟩, hl, h⟩ := Except.bind_eq_ok.mp h
      obtain ⟨⟨m, r₃, s₃⟩, hm, h⟩ := Except.bind_eq_ok.mp h
      simp only [Except.ok.injEq, Prod.mk.injEq] at h
      obtain ⟨rfl, rfl, rfl⟩ := h
      exact ⟨hmax, rfl, b, r₁, s₁, hbit, .inr ⟨l, r₂, s₂, m, s₃, hl, hm, rfl⟩⟩

theorem frame_setNode (i : Nat) (n : Node) (s : State) : Frame tdesWrites s (setNode i n s) := by
  constructor <;> simp [sameErrorBits, tdesWrites, noWrites]

theorem frame_nnode (s : State) (n : NodeCount) : Frame tdesWrites s { s with nnode := n } := by
  constructor <;> simp [sameErrorBits, tdesWrites, noWrites]

theorem frame_deserialize {depth i : Nat} {r r' : BitCursor} {s t : State} (h : deserialize depth r s = .ok (i, r', t)) :
    Frame tdesWrites s t := by
  induction depth generalizing i r r' s t with
  | zero => simp [deserialize] at h
  | succ depth ih =>
    obtain ⟨-, -, b, r₁, s₁, hbit, h⟩ := deserialize_ok h
    refine ((frame_nnode s _).trans (frame_getBit rfl hbit)).trans ?_
    rcases h with ⟨x, s₂, hx, rfl⟩ | ⟨l, r₂, s₂, m, s₃, hl, hm, rfl⟩
    · exact (frame_nextByte rfl hx).trans (frame_setNode _ _ _)
    · exact ((ih hl).trans (ih hm)).trans (frame_setNode _ _ _)

theorem tdesBody_frame {s t : State} (h : tdesBody s = .ok t) : Frame tdesWrites s t := by
  obtain ⟨⟨i, r, u⟩, hu, h⟩ := Except.bind_eq_ok.mp h
  obtain rfl := Except.ok.inj h
  have hclear : Frame tdesWrites s { clearValid s with nnode := 0 } := by
    constructor <;> simp [sameErrorBits, tdesWrites, noWrites]
  refine (hclear.trans (frame_deserialize hu)).trans ?_
  constructor <;> simp [sameErrorBits, tdesWrites, noWrites, State.obufCap]

theorem frame_unpkLoop {turns left : Nat} {cur : NodeIdx} {r : BitCursor} {s t : State}
    (h : unpkLoop turns left cur r s = .ok t) : Frame unpkWrites s t := by
  induction turns generalizing left cur r s with
  | zero => simp [unpkLoop] at h
  | succ turns ih =>
    cases left with
    | zero => exact Except.ok.inj h ▸ Frame.refl _ s
    | succ left =>
      rw [unpkLoop] at h
      obtain ⟨⟨b, r', s'⟩, hbit, h⟩ := Except.bind_eq_ok.mp h
      refine (frame_getBit rfl hbit).trans ?_
      dsimp only at h
      split at h
      · simp at h
      · split at h
        · split at h
          · simp [raiseIn] at h
          · obtain ⟨s'', happ, h⟩ := Except.bind_eq_ok.mp h
            exact (frame_append rfl happ).trans (ih h)
        · split at h
          · simp at h
          · split at h
            · obtain ⟨s'', happ, h⟩ := Except.bind_eq_ok.mp h
              exact (frame_append rfl happ).trans (ih h)
            · exact ih h

theorem unpkBody_frame {s t : State} (h : unpkBody s = .ok t) : Frame unpkWrites s t := by
  unfold unpkBody at h
  split at h
  · exact Except.ok.inj h ▸ Frame.refl _ s
  · exact frame_unpkLoop h

/-! ### The nine primitives -/

/-- The commands a composite command is made of (R169). -/
def primitives : List Command :=
  [fcntCommand, buildCommand, gencCommand, whdrCommand, tserCommand, packCommand, rhdrCommand, tdesCommand, unpkCommand]

/-- The body of a primitive command changes nothing outside its write set. -/
theorem primitive_body_frame {c : Command} (hc : c ∈ primitives) {s t : State} (h : c.body s = .ok t) :
    Frame c.writes s t := by
  simp only [primitives, List.mem_cons, List.not_mem_nil, or_false] at hc
  rcases hc with rfl | rfl | rfl | rfl | rfl | rfl | rfl | rfl | rfl
  · exact fcntBody_frame h
  · exact buildBody_frame h
  · exact gencBody_frame h
  · exact whdrBody_frame h
  · exact tserBody_frame h
  · exact packBody_frame h
  · exact rhdrBody_frame h
  · exact tdesBody_frame h
  · exact unpkBody_frame h

end Sys2Proof.Machine
end

section
/-! SUPPORT. The inductions over a command and over a step, packaged once: a property of states that the primitive bodies, the
preambles and the errors keep is kept by every command but CLR (46_orchestration R169), and one that CLR, the host's
transactions and reset keep besides is kept by every step. -/

namespace Sys2Proof.Machine

/-! ### Commands -/

/-- What a property of states must survive for every command but CLR to keep it. -/
structure CommandKeeps (P : State → Prop) : Prop where
  primitive : ∀ c ∈ primitives, ∀ s t, P s → c.entry s = none → c.body s = .ok t → P t
  preamble : ∀ s p n, P s → P { clearValid s with ipos := p, olen := n }
  error : ∀ e s, P s → P (setError e s)
  forget : ∀ w o s n, P s → P (forget w o { s with draws := n })

/-- A command other than CLR as its checks, body and write set (R75). -/
def commandOf : Instr → Option Command
  | .fcnt => some fcntCommand
  | .build => some buildCommand
  | .genc => some gencCommand
  | .whdr => some whdrCommand
  | .tser => some tserCommand
  | .pack => some packCommand
  | .rhdr => some rhdrCommand
  | .tdes => some tdesCommand
  | .unpk => some unpkCommand
  | .comp => some compCommand
  | .deco => some decoCommand
  | .clr => none

theorem exec_of_commandOf {i : Instr} {c : Command} (h : commandOf i = some c) (s : State) : exec i s = runCommand c s := by
  cases i <;> cases h <;> rfl

theorem commandOf_eq_none {i : Instr} (h : commandOf i = none) : i = .clr := by
  cases i
  case clr => rfl
  all_goals cases h

/-- A command is CLR, or one of the two composites, or one of the nine they are made of. -/
theorem commandOf_cases {i : Instr} {c : Command} (h : commandOf i = some c) :
    c ∈ primitives ∨ c = compCommand ∨ c = decoCommand := by
  cases i <;> cases h <;> simp [primitives]

theorem compBody_ok {s t : State} (h : compBody s = .ok t) :
    ∃ s₁ s₂ s₃ s₄ s₅, subCommand fcntCommand (compPreamble s) = .ok s₁ ∧ subCommand buildCommand s₁ = .ok s₂ ∧
      subCommand gencCommand s₂ = .ok s₃ ∧ subCommand whdrCommand s₃ = .ok s₄ ∧ subCommand tserCommand s₄ = .ok s₅ ∧
      subCommand packCommand s₅ = .ok t := by
  obtain ⟨s₁, h₁, h⟩ := Except.bind_eq_ok.mp h
  obtain ⟨s₂, h₂, h⟩ := Except.bind_eq_ok.mp h
  obtain ⟨s₃, h₃, h⟩ := Except.bind_eq_ok.mp h
  obtain ⟨s₄, h₄, h⟩ := Except.bind_eq_ok.mp h
  obtain ⟨s₅, h₅, h₆⟩ := Except.bind_eq_ok.mp h
  exact ⟨s₁, s₂, s₃, s₄, s₅, h₁, h₂, h₃, h₄, h₅, h₆⟩

theorem decoBody_ok {s t : State} (h : decoBody s = .ok t) :
    ∃ s₁, subCommand rhdrCommand (decoPreamble s) = .ok s₁ ∧
      ((s₁.total = 0 ∧ t = s₁) ∨
        ∃ s₂, s₁.total ≠ 0 ∧ subCommand tdesCommand s₁ = .ok s₂ ∧ subCommand unpkCommand s₂ = .ok t) := by
  obtain ⟨s₁, h₁, h⟩ := Except.bind_eq_ok.mp h
  refine ⟨s₁, h₁, ?_⟩
  split at h
  · rename_i h0
    exact .inl ⟨h0, (Except.ok.inj h).symm⟩
  · rename_i h0
    obtain ⟨s₂, h₂, h₃⟩ := Except.bind_eq_ok.mp h
    exact .inr ⟨s₂, h0, h₂, h₃⟩

section
variable {P : State → Prop} (hP : CommandKeeps P)
include hP

theorem CommandKeeps.subCommand {c : Command} (hc : c ∈ primitives) {s t : State} (hs : P s)
    (h : subCommand c s = .ok t) : P t :=
  hP.primitive c hc s t hs (subCommand_ok h).1 (subCommand_ok h).2

theorem CommandKeeps.compBody {s t : State} (hs : P s) (h : compBody s = .ok t) : P t := by
  obtain ⟨s₁, s₂, s₃, s₄, s₅, h₁, h₂, h₃, h₄, h₅, h₆⟩ := compBody_ok h
  have hs₀ : P (compPreamble s) := hP.preamble s s.ipos 0 hs
  have hs₁ := hP.subCommand (by simp [primitives]) hs₀ h₁
  have hs₂ := hP.subCommand (by simp [primitives]) hs₁ h₂
  have hs₃ := hP.subCommand (by simp [primitives]) hs₂ h₃
  have hs₄ := hP.subCommand (by simp [primitives]) hs₃ h₄
  have hs₅ := hP.subCommand (by simp [primitives]) hs₄ h₅
  exact hP.subCommand (by simp [primitives]) hs₅ h₆

theorem CommandKeeps.decoBody {s t : State} (hs : P s) (h : decoBody s = .ok t) : P t := by
  obtain ⟨s₁, h₁, h⟩ := decoBody_ok h
  have hs₀ : P (decoPreamble s) := hP.preamble s 0 0 hs
  have hs₁ := hP.subCommand (by simp [primitives]) hs₀ h₁
  rcases h with ⟨-, rfl⟩ | ⟨s₂, -, h₂, h₃⟩
  · exact hs₁
  · exact hP.subCommand (by simp [primitives]) (hP.subCommand (by simp [primitives]) hs₁ h₂) h₃

theorem CommandKeeps.body {i : Instr} {c : Command} (hc : commandOf i = some c) {s t : State} (hs : P s)
    (he : c.entry s = none) (h : c.body s = .ok t) : P t := by
  rcases commandOf_cases hc with hprim | rfl | rfl
  · exact hP.primitive c hprim s t hs he h
  · exact hP.compBody hs h
  · exact hP.decoBody hs h

/-- Every command but CLR keeps the property: it is ignored, fails at entry, ends well, or raises (R189, R199). -/
theorem CommandKeeps.exec {i : Instr} (hi : i ≠ .clr) {s t : State} (hs : P s) (h : exec i s = .next t) : P t := by
  cases hc : commandOf i with
  | none => exact absurd (commandOf_eq_none hc) hi
  | some c =>
    rw [exec_of_commandOf hc] at h
    rcases runCommand_next h with ⟨-, rfl⟩ | ⟨-, e, -, rfl⟩ | ⟨-, he, hb⟩ | ⟨-, -, e, n, -, rfl⟩
    · exact hs
    · exact hP.error e s hs
    · exact hP.body hc hs he hb
    · exact hP.error e _ (hP.forget c.writes (c.outputFrom s) s n hs)

end

/-- A property that survives every change within a write set, and a report in `STATUS`, is kept by every command but CLR. -/
theorem CommandKeeps.of_frame {P : State → Prop} (hframe : ∀ w s t, Frame w s t → P s → P t)
    (herror : ∀ e s, P s → P (setError e s)) : CommandKeeps P where
  primitive c hc s t hs _ h := hframe c.writes s t (primitive_body_frame hc h) hs
  preamble s p n hs := by
    refine hframe (ruleWrites .clr) s _ ?_ hs
    constructor <;> simp [sameErrorBits, ruleWrites]
  error := herror
  forget w o s n hs := hframe w s _ ((frame_draws w s n).trans (frame_forget w o _)) hs

/-! ### Steps -/

/-- What a property of states must survive for every step to keep it. -/
structure StepKeeps (P : State → Prop) : Prop extends CommandKeeps P where
  clear : ∀ s, P s → P (clearAll s)
  take : ∀ s rest, P s → P { s with host := rest }
  write : ∀ l v s, locExists l s = true → P s → P (hostWriteLoc l v s)
  read : ∀ s v n, P s → P { s with hostRead := v, draws := n }
  reset : ∀ s, P s → P (hardwareReset s)

/-- Which locations exist does not depend on what the host does next. -/
theorem locExists_take (l : Loc) (s : State) (rest : List HostEvent) :
    locExists l { s with host := rest } = locExists l s := by
  cases l <;> rfl

/-- A host write changes a counter, a length, a cursor or `IBUF` at most (R27). -/
theorem hostWriteLoc_eq (l : Loc) (v : Nat) (s : State) :
    ∃ f n₁ n₂ n₃ n₄ m, hostWriteLoc l v s =
        { s with freq := f, total := n₁, ilen := n₂, ipos := n₃, olen := n₄, ibuf := m } ∧
      (m = s.ibuf ∨ ∃ a, l = .ibuf a ∧ m = s.ibuf.store a (BitVec.ofNat 8 v)) := by
  cases l
  case ibuf a => exact ⟨_, _, _, _, _, _, rfl, .inr ⟨a, rfl, rfl⟩⟩
  all_goals exact ⟨_, _, _, _, _, _, rfl, .inl rfl⟩

/-- A write of an illegal opcode does nothing while `ERR = 1`, else raises `E_CMD` (R189, R190). -/
theorem rejectOpcode_next {s t : State} (h : rejectOpcode s = .next t) :
    (s.err = true ∧ t = s) ∨ (s.err = false ∧ t = setError .cmd s) := by
  unfold rejectOpcode at h
  cases he : s.err <;> simp_all

/-- Every step keeps the property. -/
theorem StepKeeps.step {P : State → Prop} (hP : StepKeeps P) {s t : State} (hs : P s) (h : step s = .next t) : P t := by
  rcases step_next h with ⟨-, rfl⟩ | ⟨e, rest, -, h⟩
  · exact hs
  · have htaken := hP.take s rest hs
    rcases h with ⟨-, i, -, -, h⟩ | ⟨-, -, -, -, h⟩ | ⟨l, v, -, -, hl, rfl⟩ | ⟨l, -, -, rfl⟩ | ⟨-, rfl⟩
    · by_cases hi : i = .clr
      · subst hi
        exact Host.Outcome.next.inj h ▸ hP.clear _ htaken
      · exact hP.toCommandKeeps.exec hi htaken h
    · rcases rejectOpcode_next h with ⟨-, rfl⟩ | ⟨-, rfl⟩
      · exact htaken
      · exact hP.error _ _ htaken
    · exact hP.write l v _ ((locExists_take l s rest).trans hl) htaken
    · obtain ⟨v, n, hread⟩ := hostReadLoc_eq l { s with host := rest }
      exact hread ▸ hP.read _ v n htaken
    · exact hP.reset _ htaken

/-! ### The input -/

/-- Settles O60: CLR leaves `IBUF`, and every other command's changes lie within a write set, which never has the input. -/
theorem commandsNeverChangeTheInput : Obligations.CommandsNeverChangeTheInput := by
  intro i s t h
  by_cases hi : i = .clr
  · subst hi
    obtain rfl := Host.Outcome.next.inj h
    exact ⟨fun _ => rfl, fun hne => absurd rfl hne⟩
  · have hkeeps : CommandKeeps (fun u => u.ibuf = s.ibuf ∧ u.ilen = s.ilen) :=
      .of_frame (fun _ _ _ hf ⟨hbuf, hlen⟩ => ⟨hf.ibuf.trans hbuf, hf.ilen.trans hlen⟩) (fun _ _ hu => hu)
    obtain ⟨hbuf, hlen⟩ := hkeeps.exec hi ⟨rfl, rfl⟩ h
    exact ⟨fun a => by rw [hbuf], fun _ => hlen⟩

/-! ### STATUS -/

/-- An error leaves `STATUS` consistent: its code is one of the nine, and the corrupt class is the codes 4 to 7 (R24, R187). -/
theorem statusWf_setError (e : ErrorCode) (s : State) : statusWf (setError e s) := by
  cases e <;> simp [statusWf, errorCode, isCorruptClass]

theorem statusWf_congr {s t : State} (h : sameErrorBits s t) (hs : statusWf s) : statusWf t := by
  obtain ⟨herr, hcorrupt, hecode⟩ := h
  unfold statusWf at hs ⊢
  rwa [herr, hcorrupt, hecode]

theorem statusWf_of_noError {s : State} (herr : s.err = false) (hecode : s.ecode = 0) (hcorrupt : s.corrupt = false) :
    statusWf s := by
  simp [statusWf, herr, hecode, hcorrupt]

/-- `STATUS` changes by an error, by CLR and by reset, and each leaves it consistent. -/
theorem statusWf_stepKeeps : StepKeeps statusWf where
  toCommandKeeps := .of_frame (fun _ _ _ hf => statusWf_congr hf.errorBits) (fun e s _ => statusWf_setError e s)
  clear _ _ := statusWf_of_noError rfl rfl rfl
  take _ _ := statusWf_congr ⟨rfl, rfl, rfl⟩
  write l v s _ hs := by
    obtain ⟨_, _, _, _, _, _, h, -⟩ := hostWriteLoc_eq l v s
    exact statusWf_congr (h ▸ ⟨rfl, rfl, rfl⟩) hs
  read _ _ _ := statusWf_congr ⟨rfl, rfl, rfl⟩
  reset _ _ := statusWf_of_noError rfl rfl rfl

/-- Settles O57: whatever changes `STATUS` leaves it consistent, and nothing else matters to it. -/
theorem stepKeepsStatusConsistent : Obligations.StepKeepsStatusConsistent :=
  fun _ _ hs h => statusWf_stepKeeps.step hs h

/-! ### The buffers -/

/-- Both buffers in canonical form and within their capacities (R25, R26, R40). -/
structure BuffersWf (s : State) : Prop where
  ibufWf : s.ibuf.wf
  obufWf : s.obuf.wf
  ibufWithin : bufferWithin s.ibuf s.ibufCap
  obufWithin : bufferWithin s.obuf s.obufCap

theorem BuffersWf.of_frame {w : WriteSet} {s t : State} (hf : Frame w s t) (hs : BuffersWf s) : BuffersWf t where
  ibufWf := hf.ibuf.symm ▸ hs.ibufWf
  obufWf := hf.obufWf hs.obufWf
  ibufWithin := by
    rw [hf.ibuf, hf.ibufCap]
    exact hs.ibufWithin
  obufWithin := hf.obufCap.symm ▸ hf.obufWithin hs.obufWithin

/-- A host write stores below `IBUF_CAP`, since the location exists (R25). -/
theorem BuffersWf.hostWriteLoc {l : Loc} {v : Nat} {s : State} (hl : locExists l s = true) (hs : BuffersWf s) :
    BuffersWf (hostWriteLoc l v s) := by
  obtain ⟨f, n₁, n₂, n₃, n₄, m, h, rfl | ⟨a, rfl, rfl⟩⟩ := hostWriteLoc_eq l v s
  · exact h ▸ ⟨hs.ibufWf, hs.obufWf, hs.ibufWithin, hs.obufWithin⟩
  · exact h ▸ ⟨Memory.wf_store hs.ibufWf _ _, hs.obufWf, bufferWithin_store hs.ibufWithin (of_decide_eq_true hl) _,
      hs.obufWithin⟩

theorem buffersWf_stepKeeps : StepKeeps BuffersWf where
  toCommandKeeps := .of_frame (fun _ _ _ => .of_frame) (fun _ _ hs =>
    ⟨hs.ibufWf, hs.obufWf, hs.ibufWithin, hs.obufWithin⟩)
  clear _ hs := ⟨hs.ibufWf, hs.obufWf, hs.ibufWithin, hs.obufWithin⟩
  take _ _ hs := ⟨hs.ibufWf, hs.obufWf, hs.ibufWithin, hs.obufWithin⟩
  write _ _ _ hl hs := hs.hostWriteLoc hl
  read _ _ _ hs := ⟨hs.ibufWf, hs.obufWf, hs.ibufWithin, hs.obufWithin⟩
  reset s _ := by constructor <;> simp [Memory.wf, bufferWithin]

/-! ### Quiescence -/

/-- No transaction leaves the block busy (R231). -/
theorem quiescent_stepKeeps : StepKeeps (fun s => s.busy = false) where
  toCommandKeeps := .of_frame (fun _ _ _ hf hs => hf.busy.trans hs) (fun _ _ hs => hs)
  clear _ hs := hs
  take _ _ hs := hs
  write l v s _ hs := by
    obtain ⟨_, _, _, _, _, _, h, -⟩ := hostWriteLoc_eq l v s
    exact h ▸ hs
  read _ _ _ hs := hs
  reset _ _ := rfl

/-! ### The tree and the code book -/

/-- The arena, its registers and its flag are as before. -/
def sameTree (s t : State) : Prop :=
  t.arena = s.arena ∧ t.nnode = s.nnode ∧ t.root = s.root ∧ t.treeValid = s.treeValid

/-- The code book and its flag are as before, or the flag is now 0. -/
def bookKeptOrInvalid (s t : State) : Prop :=
  (t.codeBook = s.codeBook ∧ t.cbValid = s.cbValid) ∨ t.cbValid = false

/-- A property of the tree and the code book that asks nothing of what is not valid, and that the three commands that make
a tree or a code book keep. -/
structure TreeProperty (P : State → Prop) : Prop where
  congr : ∀ s t, sameTree s t → bookKeptOrInvalid s t → P s → P t
  invalid : ∀ t, t.treeValid = false → t.cbValid = false → P t
  build : ∀ s t, P s → buildBody s = .ok t → P t
  genc : ∀ s t, P s → s.treeValid = true → gencBody s = .ok t → P t
  tdes : ∀ s t, P s → tdesBody s = .ok t → P t

theorem gencEntry_eq_none {s : State} : gencEntry s = none ↔ s.treeValid = true := by
  cases h : s.treeValid <;> simp [gencEntry, h]

section
variable {P : State → Prop} (hP : TreeProperty P)
include hP

/-- A change within a write set without tree and code book keeps the property. -/
theorem TreeProperty.frame {w : WriteSet} (htree : w.tree = false) (hbook : w.codeBook = false) {s t : State}
    (hf : Frame w s t) : P s → P t :=
  hP.congr s t (hf.tree htree) (.inl ⟨hf.codeBook hbook, hf.cbValid htree hbook⟩)

theorem TreeProperty.primitive {c : Command} (hc : c ∈ primitives) {s t : State} (hs : P s) (he : c.entry s = none)
    (h : c.body s = .ok t) : P t := by
  have hf := primitive_body_frame hc h
  simp only [primitives, List.mem_cons, List.not_mem_nil, or_false] at hc
  rcases hc with rfl | rfl | rfl | rfl | rfl | rfl | rfl | rfl | rfl
  · exact hP.frame rfl rfl hf hs
  · exact hP.build s t hs h
  · exact hP.genc s t hs (gencEntry_eq_none.mp he) h
  · exact hP.frame rfl rfl hf hs
  · exact hP.frame rfl rfl hf hs
  · exact hP.frame rfl rfl hf hs
  · exact hP.frame rfl rfl hf hs
  · exact hP.tdes s t hs h
  · exact hP.frame rfl rfl hf hs

/-- An error leaves the tree and the code book as they are, or invalid (R199). -/
theorem TreeProperty.forget (w : WriteSet) (o : Nat) {s : State} (hs : P s) : P (forget w o s) := by
  cases htree : w.tree with
  | true => exact hP.invalid _ (by simp [htree]) (by simp [htree])
  | false =>
    refine hP.congr s _ ((frame_forget w o s).tree htree) ?_ hs
    cases hbook : w.codeBook with
    | true => exact .inr (by simp [hbook])
    | false => exact .inl ⟨(frame_forget w o s).codeBook hbook, (frame_forget w o s).cbValid htree hbook⟩

/-- A property of the tree and the code book is kept by every step. -/
theorem TreeProperty.stepKeeps : StepKeeps P where
  primitive _ hc _ _ := hP.primitive hc
  preamble _ _ _ _ := hP.invalid _ rfl rfl
  error _ s := hP.congr s _ ⟨rfl, rfl, rfl, rfl⟩ (.inl ⟨rfl, rfl⟩)
  forget w o s n hs := hP.forget w o (hP.congr s _ ⟨rfl, rfl, rfl, rfl⟩ (.inl ⟨rfl, rfl⟩) hs)
  clear _ _ := hP.invalid _ rfl rfl
  take s _ := hP.congr s _ ⟨rfl, rfl, rfl, rfl⟩ (.inl ⟨rfl, rfl⟩)
  write l v s _ := by
    obtain ⟨_, _, _, _, _, _, h, -⟩ := hostWriteLoc_eq l v s
    exact hP.congr s _ (h ▸ ⟨rfl, rfl, rfl, rfl⟩) (.inl (h ▸ ⟨rfl, rfl⟩))
  read s _ _ := hP.congr s _ ⟨rfl, rfl, rfl, rfl⟩ (.inl ⟨rfl, rfl⟩)
  reset _ _ := hP.invalid _ rfl rfl

end

theorem buildBody_flags {s t : State} (h : buildBody s = .ok t) : t.treeValid = true ∧ t.cbValid = false := by
  obtain rfl := buildBody_ok h
  exact ⟨rfl, rfl⟩

theorem tdesBody_treeValid {s t : State} (h : tdesBody s = .ok t) : t.treeValid = true := by
  obtain ⟨⟨i, r, u⟩, -, h⟩ := Except.bind_eq_ok.mp h
  exact Except.ok.inj h ▸ rfl

/-- BUILD and TDES make the tree valid, and GENC runs only on a valid one (R95, R110, R127). -/
theorem codeNeedsTree_treeProperty : TreeProperty (fun s => s.cbValid = true → s.treeValid = true) where
  congr s t htree hbook hs ht := by
    obtain ⟨-, -, -, htv⟩ := htree
    rcases hbook with ⟨-, hcb⟩ | hcb
    · exact htv.trans (hs (hcb.symm.trans ht))
    · simp [hcb] at ht
  invalid t _ hcb ht := by simp [hcb] at ht
  build _ _ _ h _ := (buildBody_flags h).1
  genc s t _ hs h _ := by
    obtain ⟨-, -, -, htv⟩ := (gencBody_frame h).tree rfl
    exact htv.trans hs
  tdes _ _ _ h _ := tdesBody_treeValid h

/-- Settles O58: it is a property of the tree and the code book that BUILD, GENC and TDES keep. -/
theorem stepKeepsCodeBookNeedsTree : Obligations.StepKeepsCodeBookNeedsTree :=
  fun _ _ hs h => codeNeedsTree_treeProperty.stepKeeps.step hs h

end Sys2Proof.Machine
end

section
/-! SUPPORT. What a well-formed arena is (10_state R18): a tree read from the arena together with the entries it spans. The
relation does not mention `NNODE`, so it can be followed while a tree is being made. -/

namespace Sys2Proof.Machine

/-- From entry `i` the arena holds the tree, whose nodes are the listed entries in pre-order (R18). -/
inductive Spans (s : State) : Nat → HuffmanTree → List Nat → Prop
  | leaf {i : Nat} {n : Node} : s.node? i = some n → n.leaf = true → Spans s i (.leaf n.sym) [i]
  | node {i : Nat} {n : Node} {l r : HuffmanTree} {as bs : List Nat} : s.node? i = some n → n.leaf = false →
      Spans s n.left.toNat l as → Spans s n.right.toNat r bs → Spans s i (.node l r) (i :: (as ++ bs))

section
variable {s : State} {i : Nat} {t : HuffmanTree} {es : List Nat}

theorem Spans.length (h : Spans s i t es) : es.length = t.size := by
  induction h with
  | leaf => rfl
  | node _ _ _ _ ihl ihr =>
    simp only [List.length_cons, List.length_append, HuffmanTree.size, ihl, ihr]
    omega

theorem Spans.root_mem (h : Spans s i t es) : i ∈ es := by
  cases h <;> simp

/-- The relation depends on the entries it lists alone. -/
theorem Spans.congr {u : State} (h : Spans s i t es) (he : ∀ j ∈ es, u.node? j = s.node? j) : Spans u i t es := by
  induction h with
  | leaf hn hl => exact .leaf ((he _ (by simp)).trans hn) hl
  | node hn hl _ _ ihl ihr =>
    refine .node ((he _ (by simp)).trans hn) hl (ihl fun j hj => he j ?_) (ihr fun j hj => he j ?_) <;> simp [hj]

/-- The readings of R18, at any bound the tree's height allows, when the entries are in use. -/
theorem Spans.read (h : Spans s i t es) (hused : ∀ j ∈ es, j < s.nnode.toNat) {depth : Nat} (hd : t.height ≤ depth)
    {k : NodeIdx} (hk : k.toNat = i) : s.treeAt depth k = some t ∧ s.preorderAt depth k = some es := by
  induction h generalizing depth k with
  | @leaf i n hn hl =>
    obtain ⟨depth, rfl⟩ := Nat.exists_eq_add_one.mpr (Nat.lt_of_lt_of_le (HuffmanTree.height_pos _) hd)
    have hread : s.usedNode? k = some n := (usedNode?_eq_some s k n).mpr ⟨hk ▸ hused i (by simp), hk ▸ hn⟩
    simp [State.treeAt, State.preorderAt, hread, hl, hk]
  | @node i n l r as bs hn hl _ _ ihl ihr =>
    obtain ⟨depth, rfl⟩ := Nat.exists_eq_add_one.mpr (Nat.lt_of_lt_of_le (HuffmanTree.height_pos _) hd)
    have hread : s.usedNode? k = some n := (usedNode?_eq_some s k n).mpr ⟨hk ▸ hused i (by simp), hk ▸ hn⟩
    simp only [HuffmanTree.height] at hd
    obtain ⟨htl, hpl⟩ := ihl (fun j hj => hused j (by simp [hj])) (depth := depth) (by omega) rfl
    obtain ⟨htr, hpr⟩ := ihr (fun j hj => hused j (by simp [hj])) (depth := depth) (by omega) rfl
    simp [State.treeAt, State.preorderAt, hread, hl, hk, htl, hpl, htr, hpr]

end

/-- A traversal that succeeds has read a tree, of entries in use. -/
theorem spans_of_preorderAt {s : State} {depth : Nat} {k : NodeIdx} {es : List Nat} (h : s.preorderAt depth k = some es) :
    ∃ t, Spans s k.toNat t es ∧ s.treeAt depth k = some t := by
  induction depth generalizing k es with
  | zero => simp [State.preorderAt] at h
  | succ depth ih =>
    rw [State.preorderAt] at h
    cases hn : s.usedNode? k with
    | none => simp [hn] at h
    | some n =>
      obtain ⟨-, hn'⟩ := (usedNode?_eq_some s k n).mp hn
      cases hl : n.leaf with
      | true =>
        obtain rfl : [k.toNat] = es := by simpa [hn, hl] using h
        exact ⟨.leaf n.sym, .leaf hn' hl, by simp [State.treeAt, hn, hl]⟩
      | false =>
        simp only [hn, hl, Bool.false_eq_true, if_false] at h
        split at h
        · rename_i as bs has hbs
          obtain rfl := Option.some.inj h
          obtain ⟨l, hspl, htl⟩ := ih has
          obtain ⟨r, hspr, htr⟩ := ih hbs
          exact ⟨.node l r, .node hn' hl hspl hspr, by simp [State.treeAt, hn, hl, htl, htr]⟩
        · simp at h

/-- A tree of at most 511 nodes is no deeper than the traversals go (R5, R30). -/
theorem HuffmanTree.height_le_depthMax {t : HuffmanTree} (h : t.size ≤ 511) : t.height ≤ Config.depthMax := by
  have := t.size_add_one
  have := t.height_le
  show t.height ≤ 256
  omega

/-- A tree that spans exactly the entries in use makes the arena well formed. -/
theorem arenaWf_of_spans {s : State} {t : HuffmanTree} {es : List Nat} (h : Spans s s.root.toNat t es)
    (hes : es.Perm (List.range s.nnode.toNat)) (hn : s.nnode.toNat ≤ 511) : arenaWf s := by
  have hsize : t.size = s.nnode.toNat := by rw [← h.length, hes.length_eq, List.length_range]
  have hused : ∀ j ∈ es, j < s.nnode.toNat := fun j hj => List.mem_range.mp (hes.mem_iff.mp hj)
  have hread := h.read hused (HuffmanTree.height_le_depthMax (by omega)) rfl
  exact .inr ⟨es, hread.2, hes⟩

/-- In a well-formed arena that is not empty the current tree spans exactly the entries in use. -/
theorem arenaWf_spans {s : State} (h : arenaWf s) (h0 : s.nnode ≠ 0) :
    ∃ t es, Spans s s.root.toNat t es ∧ es.Perm (List.range s.nnode.toNat) ∧ s.currentTree = some t := by
  rcases h with ⟨hempty, -⟩ | ⟨es, hes, hperm⟩
  · exact absurd hempty h0
  · obtain ⟨t, hsp, ht⟩ := spans_of_preorderAt hes
    exact ⟨t, es, hsp, hperm, by rw [State.currentTree, if_neg h0, ht]⟩

/-! ### Congruence -/

theorem arenaWf_congr {s t : State} (h : sameTree s t) (hs : arenaWf s) : arenaWf t := by
  obtain ⟨ha, hn, hr, -⟩ := h
  unfold arenaWf at hs ⊢
  rwa [preorderAt_congr ha hn, hn, hr]

theorem fieldsWf_congr {s t : State} (ha : t.arena = s.arena) (hn : t.nnode = s.nnode) (hs : fieldsWf s) :
    fieldsWf t := by
  unfold fieldsWf State.node? at hs ⊢
  rwa [ha, hn]

theorem currentTree_congr {s t : State} (h : sameTree s t) : t.currentTree = s.currentTree := by
  obtain ⟨ha, hn, hr, -⟩ := h
  rw [State.currentTree, State.currentTree, treeAt_congr ha hn, hn, hr]

/-! ### Parents and children (R18) -/

/-- The children of entry `p`, left before right; none of a leaf. -/
def childrenOf (s : State) (p : Nat) : List Nat :=
  match s.node? p with
  | some n => if n.leaf then [] else [n.left.toNat, n.right.toNat]
  | none => []

theorem childrenOf_leaf {s : State} {p : Nat} {n : Node} (hn : s.node? p = some n) (hl : n.leaf = true) :
    childrenOf s p = [] := by
  simp [childrenOf, hn, hl]

theorem childrenOf_node {s : State} {p : Nat} {n : Node} (hn : s.node? p = some n) (hl : n.leaf = false) :
    childrenOf s p = [n.left.toNat, n.right.toNat] := by
  simp [childrenOf, hn, hl]

/-- A child on either side is in the list of children. -/
theorem isChildOn.mem_childrenOf {s : State} {p i : Nat} {side : Bool} (h : isChildOn s p side i) : i ∈ childrenOf s p := by
  obtain ⟨-, n, hn, hl, rfl⟩ := h
  rw [childrenOf_node hn hl]
  cases side <;> simp [childOf]

/-- What is in the list of children of an entry in use is a child on some side. -/
theorem exists_isChildOn {s : State} {p i : Nat} (hp : p < s.nnode.toNat) (h : i ∈ childrenOf s p) :
    ∃ side, isChildOn s p side i := by
  cases hn : s.node? p with
  | none => simp [childrenOf, hn] at h
  | some n =>
    cases hl : n.leaf with
    | true => simp [childrenOf_leaf hn hl] at h
    | false =>
      rw [childrenOf_node hn hl, List.mem_pair] at h
      rcases h with rfl | rfl
      · exact ⟨false, hp, n, hn, hl, rfl⟩
      · exact ⟨true, hp, n, hn, hl, rfl⟩

/-- When an entry's two children differ, one entry is its child on one side only. -/
theorem isChildOn.side_unique {s : State} {p i : Nat} {side side' : Bool} (h : isChildOn s p side i)
    (h' : isChildOn s p side' i) (hnd : (childrenOf s p).Nodup) : side' = side := by
  obtain ⟨-, n, hn, hl, hi⟩ := h
  obtain ⟨-, n', hn', -, hi'⟩ := h'
  obtain rfl : n = n' := Option.some.inj (hn.symm.trans hn')
  have hne : n.left.toNat ≠ n.right.toNat := by simpa [childrenOf_node hn hl] using hnd
  cases side <;> cases side' <;> simp [childOf] at hi hi' ⊢ <;> omega

/-- The entries a tree spans are its root and the children of its entries, each as often on the one side as on the other. -/
theorem Spans.perm_children {s : State} {i : Nat} {t : HuffmanTree} {es : List Nat} (h : Spans s i t es) :
    es.Perm (i :: es.flatMap (childrenOf s)) := by
  induction h with
  | leaf hn hl => simp [childrenOf_leaf hn hl]
  | @node i n l r as bs hn hl _ _ ihl ihr =>
    refine List.Perm.cons i ?_
    rw [List.flatMap_cons, List.flatMap_append, childrenOf_node hn hl]
    exact (ihl.append ihr).trans (List.perm_middle.cons _)

/-- Settles O59: the entries in use are the root and, each once, the children. -/
theorem wellFormedArenaClauses : Obligations.WellFormedArenaClauses := by
  intro s hwf h0
  obtain ⟨t, es, hsp, hperm, htree⟩ := arenaWf_spans hwf h0
  have hmem : ∀ j, j ∈ es ↔ j < s.nnode.toNat := fun j => by rw [hperm.mem_iff, List.mem_range]
  have hsize : t.size = s.nnode.toNat := by rw [← hsp.length, hperm.length_eq, List.length_range]
  have hnodup : (s.root.toNat :: es.flatMap (childrenOf s)).Nodup :=
    hsp.perm_children.nodup_iff.mp (hperm.nodup_iff.mpr List.nodup_range)
  obtain ⟨hroot, hkids⟩ := List.nodup_cons.mp hnodup
  obtain ⟨hsides, hparents⟩ := List.nodup_flatMap.mp hkids
  have hchild : ∀ {p side i}, isChildOn s p side i → i ∈ es.flatMap (childrenOf s) := fun {p _ _} h =>
    List.mem_flatMap.mpr ⟨p, (hmem p).mpr h.1, h.mem_childrenOf⟩
  refine ⟨?_, (hmem _).mp hsp.root_mem, fun p side i h => ?_, fun i hi hne => ?_, fun p side h => hroot (hchild h), t,
    htree, hsize⟩
  · have := t.size_add_one
    omega
  · exact (hmem i).mp (hsp.perm_children.mem_iff.mpr (List.mem_cons_of_mem _ (hchild h)))
  · have hi' : i ∈ es.flatMap (childrenOf s) :=
      (List.mem_cons.mp (hsp.perm_children.mem_iff.mp ((hmem i).mpr hi))).resolve_left hne
    obtain ⟨p, hp, hip⟩ := List.mem_flatMap.mp hi'
    obtain ⟨side, hside⟩ := exists_isChildOn ((hmem p).mp hp) hip
    refine ⟨p, side, hside, fun p' side' h' => ?_⟩
    obtain rfl : p' = p := by
      by_contra hpp
      have : Std.Symm (Function.onFun List.Disjoint (childrenOf s)) := ⟨fun _ _ h => h.symm⟩
      exact hparents.forall ((hmem p').mpr h'.1) hp hpp h'.mem_childrenOf hip
    exact ⟨rfl, hside.side_unique h' (hsides p' hp)⟩

end Sys2Proof.Machine
end

section
/-! SUPPORT. GENC, in every state: a walk that ends well has read a tree, and what it leaves is that tree's code book
(42_code_generator R111 to R116); and the form of each entry (10_state R20). -/

namespace Sys2Proof.Machine

/-! ### The code book GENC leaves -/

/-- The codes recorded one after the other, a later one of a symbol over an earlier one (R111, R116). -/
def recordCodes (cs : List (Byte × List Bool)) (s : State) : State := cs.foldl (fun u c => setCode c.1 c.2 u) s

/-- The same on the code book alone, as `codeBookOf` says it. -/
def recordedBook (cs : List (Byte × List Bool)) (book : Vector Code 256) : Vector Code 256 :=
  cs.foldl (fun b c => b.set c.1.toNat (codeOfPath c.2) c.1.isLt) book

theorem codeBookOf_eq (t : Option HuffmanTree) :
    codeBookOf t = recordedBook (treeCodes t) (Vector.replicate 256 Code.absent) := rfl

/-- Recording codes changes the code book alone. -/
theorem recordCodes_eq (cs : List (Byte × List Bool)) (s : State) :
    recordCodes cs s = { s with codeBook := recordedBook cs s.codeBook } := by
  induction cs generalizing s with
  | nil => rfl
  | cons c cs ih => exact ih (setCode c.1 c.2 s)

theorem recordCodes_append (cs ds : List (Byte × List Bool)) (s : State) :
    recordCodes (cs ++ ds) s = recordCodes ds (recordCodes cs s) :=
  List.foldl_append

theorem treeAt_recordCodes (cs : List (Byte × List Bool)) (s : State) (depth : Nat) (i : NodeIdx) :
    (recordCodes cs s).treeAt depth i = s.treeAt depth i :=
  treeAt_congr (by rw [recordCodes_eq]) (by rw [recordCodes_eq]) depth i

/-- A walk that ends well has read a tree and recorded its codes (R111, R112). -/
theorem walk_records {depth : Nat} {i : NodeIdx} {p : List Bool} {s t : State} (h : walk depth i p s = .ok t) :
    ∃ tree, s.treeAt depth i = some tree ∧ t = recordCodes (codes tree p) s := by
  induction depth generalizing i p s t with
  | zero => simp [walk] at h
  | succ depth ih =>
    rcases walk_ok h with ⟨n, hn, hl, rfl⟩ | ⟨n, u, hn, hl, hleft, hright⟩
    · exact ⟨.leaf n.sym, by simp [State.treeAt, hn, hl], rfl⟩
    · obtain ⟨l, htl, rfl⟩ := ih hleft
      obtain ⟨r, htr, rfl⟩ := ih hright
      rw [treeAt_recordCodes] at htr
      refine ⟨.node l r, by simp [State.treeAt, hn, hl, htl, htr], ?_⟩
      rw [codes, recordCodes_append]

/-- The codes of a tree whose root is internal are its paths (R112). -/
theorem treeCodes_of_walk {s : State} {n : Node} {t : HuffmanTree} (hn : s.usedNode? s.root = some n)
    (hl : n.leaf = false) (ht : s.treeAt Config.depthMax s.root = some t) : treeCodes (some t) = codes t [] := by
  rcases treeAt_eq_some ht with ⟨m, hm, hml, -⟩ | ⟨m, l, r, -, -, -, -, rfl⟩
  · rw [hn] at hm
    obtain rfl := Option.some.inj hm
    simp [hl] at hml
  · rfl

/-- What GENC records are the codes of the current tree, which it has read to a depth the arena's trees keep. -/
theorem gencCodes_records {s t : State} (h : gencCodes s = .ok t) :
    t = recordCodes (treeCodes s.currentTree) s ∧ ∀ tree, s.currentTree = some tree → tree.height ≤ Config.depthMax := by
  refine ⟨?_, fun tree htree => ?_⟩
  · rcases gencCodes_ok h with ⟨h0, rfl⟩ | ⟨n, h0, hn, ⟨hl, rfl⟩ | ⟨hl, h⟩⟩
    · simp [State.currentTree, h0, treeCodes, recordCodes]
    · have htree : s.currentTree = some (.leaf n.sym) := by
        rw [State.currentTree, if_neg h0]
        simp [State.treeAt, hn, hl]
      rw [htree]
      rfl
    · obtain ⟨tree, htree, rfl⟩ := walk_records h
      rw [State.currentTree, if_neg h0, htree, treeCodes_of_walk hn hl htree]
  · unfold State.currentTree at htree
    split at htree
    · simp at htree
    · exact height_le_of_treeAt htree

/-- GENC that ends well leaves the code book of the current tree, and changes nothing else but its flag (R111). -/
theorem gencBody_ok {s t : State} (h : gencBody s = .ok t) :
    t = { s with codeBook := codeBookOf s.currentTree, cbValid := true } ∧
      ∀ tree, s.currentTree = some tree → tree.height ≤ Config.depthMax := by
  obtain ⟨u, hu, h⟩ := Except.bind_eq_ok.mp h
  obtain rfl := Except.ok.inj h
  have hcur : (clearCodeBook s).currentTree = s.currentTree := currentTree_congr ⟨rfl, rfl, rfl, rfl⟩
  obtain ⟨rfl, hheight⟩ := gencCodes_records hu
  rw [hcur] at hheight
  refine ⟨?_, hheight⟩
  rw [hcur, recordCodes_eq, codeBookOf_eq]
  rfl

/-! ### The form of an entry (R20) -/

/-- An entry has the form R20 gives it: with a code, 1 to 255 bits and zeros beyond; without one, length and bits 0. -/
def codeWf (c : Code) : Prop :=
  if c.present then 1 ≤ c.len.toNat ∧ ∀ j, c.len.toNat ≤ j → c.bits.getLsbD j = false
  else c.len = 0 ∧ c.bits = 0

theorem codeWf_absent : codeWf Code.absent := ⟨rfl, rfl⟩

/-- Beyond the path its bits are 0 (R20). -/
theorem pathBits_getLsbD_of_length_le {p : List Bool} {j : Nat} (h : p.length ≤ j) : (pathBits p).getLsbD j = false := by
  induction p generalizing j with
  | nil => simp [pathBits]
  | cons b p ih =>
    rw [List.length_cons] at h
    have hrest : (pathBits p).getLsbD (j - 1) = false := ih (by omega)
    have hbit : (BitVec.ofBool b).getLsbD j = false := BitVec.getLsbD_of_ge _ _ (by omega)
    simp [pathBits, hrest, hbit]

theorem codeWf_codeOfPath {p : List Bool} (h1 : 1 ≤ p.length) (h255 : p.length ≤ 255) : codeWf (codeOfPath p) := by
  have hlen : (codeOfPath p).len.toNat = p.length := Nat.mod_eq_of_lt (by omega)
  unfold codeWf
  rw [hlen]
  exact ⟨h1, fun j hj => pathBits_getLsbD_of_length_le hj⟩

/-- An entry after codes were recorded is one of them or is as before. -/
theorem recordedBook_entry (cs : List (Byte × List Bool)) (book : Vector Code 256) (x : Byte) :
    (recordedBook cs book)[x.toNat]'(x.isLt) = book[x.toNat]'(x.isLt) ∨
      ∃ y p, (y, p) ∈ cs ∧ (recordedBook cs book)[x.toNat]'(x.isLt) = codeOfPath p := by
  induction cs generalizing book with
  | nil => exact .inl rfl
  | cons c cs ih =>
    rcases ih (book.set c.1.toNat (codeOfPath c.2) c.1.isLt) with h | ⟨y, p, hmem, h⟩
    · by_cases hx : c.1.toNat = x.toNat
      · exact .inr ⟨c.1, c.2, List.mem_cons_self, h.trans (by simp [hx])⟩
      · exact .inl (h.trans (by simp [hx]))
    · exact .inr ⟨y, p, List.mem_cons_of_mem _ hmem, h⟩

/-- The codes of a tree that GENC can read have 1 to 255 bits (R20, R113). -/
theorem treeCodes_length {t : HuffmanTree} (h : t.height ≤ 256) {x : Byte} {p : List Bool}
    (hp : (x, p) ∈ treeCodes (some t)) : 1 ≤ p.length ∧ p.length ≤ 255 := by
  cases t with
  | leaf y =>
    simp only [treeCodes, List.mem_singleton, Prod.mk.injEq] at hp
    simp [hp.2]
  | node l r =>
    simp only [HuffmanTree.height] at h
    rcases List.mem_append.mp hp with hp | hp <;>
    · obtain ⟨hprefix, hlen⟩ := codes_length hp
      have := hprefix.length_le
      simp only [List.nil_append, List.length_singleton] at this hlen
      omega

theorem codeWf_codeBookOf {t : Option HuffmanTree} (h : ∀ tree, t = some tree → tree.height ≤ Config.depthMax) (x : Byte) :
    codeWf ((codeBookOf t)[x.toNat]'(x.isLt)) := by
  simp only [codeBookOf_eq]
  rcases recordedBook_entry (treeCodes t) (Vector.replicate 256 Code.absent) x with hx | ⟨y, p, hmem, hx⟩
  · rw [hx, Vector.getElem_replicate]
    exact codeWf_absent
  · rw [hx]
    cases t with
    | none => simp [treeCodes] at hmem
    | some tree =>
      obtain ⟨h1, h255⟩ := treeCodes_length (h tree rfl) hmem
      exact codeWf_codeOfPath h1 h255

/-- Settles O25: without an error GENC has left the code book of a tree it could read. -/
theorem codeBookEntriesAreWellFormed : Obligations.CodeBookEntriesAreWellFormed := by
  intro s t x hs h ht
  rw [exec_genc] at h
  rcases runCommand_next h with ⟨herr, -⟩ | ⟨-, e, -, rfl⟩ | ⟨-, -, hb⟩ | ⟨-, -, e, n, -, rfl⟩
  · simp [hs] at herr
  · simp at ht
  · obtain ⟨rfl, hheight⟩ := gencBody_ok hb
    exact codeWf_codeBookOf hheight x
  · simp at ht

end Sys2Proof.Machine
end

section
/-! SUPPORT. BUILD makes a well-formed arena, whatever `FREQ` holds (41_tree_builder R95 to R102): the live set is a forest that
spans the entries made so far, each merge joins two of its trees, and one tree is left. -/

namespace Sys2Proof.Machine

/-! ### Entries made in order -/

/-- Every entry in use is such an entry. -/
def entriesAre (Q : Node → Prop) (s : State) : Prop := ∀ i n, i < s.nnode.toNat → s.node? i = some n → Q n

/-- The fields without meaning of one entry are 0 (R16). -/
def nodeFieldsWf (n : Node) : Prop := if n.leaf then n.left = 0 ∧ n.right = 0 else n.sym = 0

theorem fieldsWf_iff (s : State) : fieldsWf s ↔ entriesAre nodeFieldsWf s := Iff.rfl

theorem nodeFieldsWf_leafNode (x : Byte) (w : Weight) : nodeFieldsWf (leafNode x w) := ⟨rfl, rfl⟩

theorem nodeFieldsWf_innerNode (l r : NodeIdx) (w : Weight) : nodeFieldsWf (innerNode l r w) := rfl

theorem pushNode_node?_used (n : Node) {s : State} {j : Nat} (hj : j < s.nnode.toNat) : (pushNode n s).node? j = s.node? j :=
  setNode_node?_other _ j n s (by omega)

section
variable {s : State} (hroom : s.nnode.toNat < 511)
include hroom

theorem pushNode_nnode_toNat (n : Node) : (pushNode n s).nnode.toNat = s.nnode.toNat + 1 := by
  rw [pushNode_nnode, BitVec.toNat_add]
  exact Nat.mod_eq_of_lt (show s.nnode.toNat + 1 < 1024 by omega)

theorem pushNode_node?_new (n : Node) : (pushNode n s).node? s.nnode.toNat = some n :=
  setNode_node?_same _ n s hroom

theorem entriesAre_pushNode {Q : Node → Prop} (hs : entriesAre Q s) {n : Node} (hn : Q n) : entriesAre Q (pushNode n s) := by
  intro j m hj hm
  rw [pushNode_nnode_toNat hroom] at hj
  by_cases hnew : j = s.nnode.toNat
  · rw [hnew, pushNode_node?_new hroom] at hm
    exact Option.some.inj hm ▸ hn
  · have hused : j < s.nnode.toNat := by omega
    exact hs j m hused (pushNode_node?_used n hused ▸ hm)

end

/-! ### The leaves -/

/-- What BUILD's first loop makes. -/
def isLeafNode (n : Node) : Prop := ∃ x w, n = leafNode x w

theorem seedSymbol_eq (s : State) (k : Nat) : seedSymbol s k = s ∨ ∃ n, isLeafNode n ∧ seedSymbol s k = pushNode n s := by
  unfold seedSymbol
  dsimp only
  split
  · exact .inl rfl
  · exact .inr ⟨_, ⟨_, _, rfl⟩, rfl⟩

theorem seedSymbols_leaves (ks : List Nat) {s : State} (hs : entriesAre isLeafNode s) (hlen : s.nnode.toNat + ks.length ≤ 256) :
    entriesAre isLeafNode (ks.foldl seedSymbol s) ∧ (ks.foldl seedSymbol s).nnode.toNat ≤ 256 := by
  induction ks generalizing s with
  | nil => exact ⟨hs, hlen⟩
  | cons k ks ih =>
    rw [List.length_cons] at hlen
    rcases seedSymbol_eq s k with h | ⟨n, hn, h⟩ <;> rw [List.foldl_cons, h]
    · exact ih hs (by omega)
    · have hroom : s.nnode.toNat < 511 := by omega
      exact ih (entriesAre_pushNode hroom hs hn) (by rw [pushNode_nnode_toNat hroom]; omega)

/-- After the first loop every entry in use is a leaf, one for each symbol at most (R96). -/
theorem seedLeaves_leaves (s : State) : entriesAre isLeafNode (seedLeaves s) ∧ (seedLeaves s).nnode.toNat ≤ 256 :=
  seedSymbols_leaves (List.range 256) (fun _ _ hi _ => absurd hi (Nat.not_lt_zero _))
    (show 0 + (List.range 256).length ≤ 256 by rw [List.length_range])

/-! ### The forest -/

/-- The live entries are the roots of trees that span the entries in use (R97). -/
def Forest (s : State) (live : List Nat) : Prop :=
  ∃ ess : List (List Nat), List.Forall₂ (fun i es => ∃ t, Spans s i t es) live ess ∧
    ess.flatten.Perm (List.range s.nnode.toNat)

theorem Forest.perm {s : State} {live live' : List Nat} (h : Forest s live) (hperm : live'.Perm live) : Forest s live' := by
  obtain ⟨ess, htrees, hess⟩ := h
  obtain ⟨ess', htrees', hperm'⟩ := List.perm_comp_forall₂ hperm htrees
  exact ⟨ess', htrees', hperm'.flatten.trans hess⟩

/-- Leaves are a forest of trees of one node. -/
theorem forest_of_leaves {s : State} (h : entriesAre isLeafNode s) (hn : s.nnode.toNat ≤ 511) :
    Forest s (List.range s.nnode.toNat) := by
  refine ⟨(List.range s.nnode.toNat).map (fun j => [j]), ?_, by rw [← List.flatMap_def, List.flatMap_singleton']⟩
  rw [List.forall₂_map_right_iff, List.forall₂_same]
  intro j hj
  have hj := List.mem_range.mp hj
  obtain ⟨n, hjn⟩ := Option.isSome_iff_exists.mp ((node?_isSome s j).mpr (by omega))
  obtain ⟨x, w, rfl⟩ := h j n hj hjn
  exact ⟨.leaf x, .leaf hjn rfl⟩

/-- A merge joins two trees of the forest under the entry it makes (R97, R99). -/
theorem Forest.merge {s : State} {a b : Nat} {live : List Nat} (h : Forest s (a :: b :: live)) (hroom : s.nnode.toNat < 511) :
    Forest (pushNode (mergedNode s a b) s) (s.nnode.toNat :: live) := by
  obtain ⟨ess, htrees, hperm⟩ := h
  obtain _ | ⟨⟨ta, ha⟩, _ | ⟨⟨tb, hb⟩, hrest⟩⟩ := htrees
  rename_i as bs ess
  have hused : ∀ es ∈ as :: bs :: ess, ∀ j ∈ es, j < s.nnode.toNat := fun es hes j hj =>
    List.mem_range.mp (hperm.mem_iff.mp (List.mem_flatten.mpr ⟨es, hes, hj⟩))
  have hkeep : ∀ es ∈ as :: bs :: ess, ∀ i t, Spans s i t es → Spans (pushNode (mergedNode s a b) s) i t es :=
    fun es hes i t hsp => hsp.congr fun j hj => pushNode_node?_used _ (hused es hes j hj)
  have hindex : ∀ es ∈ as :: bs :: ess, ∀ i ∈ es, (BitVec.ofNat 9 i).toNat = i := fun es hes i hi => by
    have := hused es hes i hi
    exact Nat.mod_eq_of_lt (by omega)
  refine ⟨(s.nnode.toNat :: (as ++ bs)) :: ess, .cons ⟨.node ta tb, ?_⟩ ?_, ?_⟩
  · refine .node (pushNode_node?_new hroom _) rfl ?_ ?_
    · rw [show (mergedNode s a b).left.toNat = a from hindex as (by simp) a ha.root_mem]
      exact hkeep as (by simp) a ta ha
    · rw [show (mergedNode s a b).right.toNat = b from hindex bs (by simp) b hb.root_mem]
      exact hkeep bs (by simp) b tb hb
  · exact List.forall₂_iff_zip.mpr ⟨hrest.length_eq, fun {i es} hmem => by
      obtain ⟨t, ht⟩ := (List.forall₂_iff_zip.mp hrest).2 hmem
      exact ⟨t, hkeep es (by simp [(List.of_mem_zip hmem).2]) i t ht⟩⟩
  · rw [pushNode_nnode_toNat hroom, List.range_succ]
    simp only [List.flatten_cons, List.cons_append, List.append_assoc] at hperm ⊢
    exact (hperm.cons _).trans (List.perm_append_singleton _ _).symm

/-! ### The merging loop -/

/-- The state of the merging loop: a forest, entries of the form R16 gives, and for `n` leaves as many entries still to come
as there are trees to join. -/
structure Merging (n : Nat) (live : List Nat) (s : State) : Prop where
  forest : Forest s live
  fields : fieldsWf s
  count : live.length + s.nnode.toNat = 2 * n

theorem Merging.merge {n : Nat} (hn : n ≤ 256) {a b : Nat} {live live' : List Nat} {s : State} (h : Merging n live s)
    (hperm : live.Perm (a :: b :: live')) :
    Merging n (live' ++ [s.nnode.toNat]) (pushNode (mergedNode s a b) s) := by
  have hcount := h.count
  have hlen := hperm.length_eq
  simp only [List.length_cons] at hlen
  have hroom : s.nnode.toNat < 511 := by omega
  refine ⟨((h.forest.perm hperm.symm).merge hroom).perm (List.perm_append_singleton _ _),
    (fieldsWf_iff _).mpr (entriesAre_pushNode hroom ((fieldsWf_iff s).mp h.fields) (nodeFieldsWf_innerNode _ _ _)), ?_⟩
  rw [pushNode_nnode_toNat hroom, List.length_append, List.length_singleton]
  omega

/-- The loop ends with at most one tree (R97). -/
theorem mergeLoop_merging {n turns : Nat} (hn : n ≤ 256) {live : List Nat} {s : State} (h : Merging n live s)
    (hturns : live.length ≤ turns) :
    Merging n (mergeLoop turns live s).1 (mergeLoop turns live s).2 ∧ (mergeLoop turns live s).1.length ≤ 1 := by
  induction turns generalizing live s with
  | zero => exact ⟨h, hturns.trans (Nat.zero_le 1)⟩
  | succ turns ih =>
    rcases mergeLoop_succ turns live s with ⟨hend, heq⟩ | ⟨a, b, live', hperm, heq⟩ <;> rw [heq]
    · exact ⟨h, hend⟩
    · refine ih (h.merge hn hperm) ?_
      have hlen := hperm.length_eq
      simp only [List.length_cons, List.length_append, List.length_nil] at hlen ⊢
      omega

theorem mergedLeaves_merging (s : State) :
    ∃ n, n ≤ 256 ∧ Merging n (mergedLeaves s).1 (mergedLeaves s).2 ∧ (mergedLeaves s).1.length ≤ 1 := by
  obtain ⟨hleaves, hn⟩ := seedLeaves_leaves s
  refine ⟨_, hn, mergeLoop_merging hn ⟨forest_of_leaves hleaves (by omega), ?_, ?_⟩ List.length_range.le⟩
  · intro i n hi hin
    obtain ⟨x, w, rfl⟩ := hleaves i n hi hin
    exact nodeFieldsWf_leafNode x w
  · rw [List.length_range]
    omega

/-- BUILD leaves a well-formed arena whose unused fields are 0, in every state (R16, R102). -/
theorem buildBody_wf {s t : State} (h : buildBody s = .ok t) : arenaWf t ∧ fieldsWf t := by
  obtain rfl := buildBody_ok h
  obtain ⟨n, hn, ⟨⟨ess, htrees, hperm⟩, hfields, hcount⟩, hlen⟩ := mergedLeaves_merging s
  generalize (mergedLeaves s).2 = u at *
  generalize (mergedLeaves s).1 = live at *
  refine ⟨?_, fieldsWf_congr (s := u) rfl rfl hfields⟩
  obtain _ | ⟨⟨tree, htree⟩, hrest⟩ := htrees
  · have h0 : u.nnode.toNat = 0 := by simpa using hperm.length_eq.symm
    exact .inl ⟨BitVec.eq_of_toNat_eq h0, rfl⟩
  · rename_i i es live ess
    obtain rfl : live = [] := by simpa using hlen
    cases hrest
    rw [List.flatten_singleton] at hperm
    rw [List.length_singleton] at hcount
    have hi : i < u.nnode.toNat := List.mem_range.mp (hperm.mem_iff.mp htree.root_mem)
    have hroot : (BitVec.ofNat 9 i).toNat = i := Nat.mod_eq_of_lt (by omega)
    refine arenaWf_of_spans (es := es) (t := tree) ?_ hperm (show u.nnode.toNat ≤ 511 by omega)
    rw [setTreeValid_root, rootOf, hroot]
    exact htree.congr fun _ _ => rfl

end Sys2Proof.Machine
end

section
/-! SUPPORT. TDES makes a well-formed arena, whatever the stream holds (43_tree_codec R128, R129): each call of `des` appends the
entries of one tree, in pre-order. -/

namespace Sys2Proof.Machine

/-- From `s` to `t` the entries of one tree were appended, the root first; the entries before them are as they were. -/
structure TreeAppended (s t : State) : Prop where
  grows : s.nnode.toNat < t.nnode.toNat
  bound : t.nnode.toNat ≤ 511
  below : ∀ j, j < s.nnode.toNat → t.node? j = s.node? j
  spans : ∃ tree, Spans t s.nnode.toNat tree (List.range' s.nnode.toNat (t.nnode.toNat - s.nnode.toNat))
  fields : ∀ j n, s.nnode.toNat ≤ j → j < t.nnode.toNat → t.node? j = some n → nodeFieldsWf n
  cbValid : t.cbValid = s.cbValid

/-- The state `t` is `s` with one more entry taken, not yet written (R129). -/
structure EntryTaken (s t : State) : Prop where
  room : s.nnode.toNat < 511
  nnode : t.nnode.toNat = s.nnode.toNat + 1
  arena : t.arena = s.arena
  cbValid : t.cbValid = s.cbValid

/-- What reading the input changes: `IPOS`. -/
def readWrites : WriteSet := { noWrites with ipos := true }

/-- Reading the input after an entry was taken. -/
theorem EntryTaken.frame {s t u : State} (h : EntryTaken s t) (hf : Frame readWrites t u) : EntryTaken s u := by
  obtain ⟨harena, hnnode, -, -⟩ := hf.tree rfl
  exact ⟨h.room, hnnode ▸ h.nnode, harena.trans h.arena, (hf.cbValid rfl rfl).trans h.cbValid⟩

theorem entryTaken_of_room {s : State} (h : s.nnode.toNat < 511) : EntryTaken s { s with nnode := s.nnode + 1 } :=
  ⟨h, Nat.mod_eq_of_lt (show s.nnode.toNat + 1 < 1024 by omega), rfl, rfl⟩

section
variable {s t : State} {n : Node}

theorem setNode_node?_room (h : s.nnode.toNat < 511) : (setNode s.nnode.toNat n t).node? s.nnode.toNat = some n :=
  setNode_node?_same _ n t h

/-- The entry taken becomes a leaf: a tree of one node. -/
theorem treeAppended_leaf {x : Byte} {w : Weight} (h : EntryTaken s t) :
    TreeAppended s (setNode s.nnode.toNat (leafNode x w) t) := by
  have hnew := setNode_node?_room (t := t) (n := leafNode x w) h.room
  have hroom := h.room
  have hnnode : (setNode s.nnode.toNat (leafNode x w) t).nnode.toNat = s.nnode.toNat + 1 := h.nnode
  refine ⟨by omega, by omega, fun j hj => ?_, ⟨.leaf x, ?_⟩, fun j m hj hlt hm => ?_, h.cbValid⟩
  · rw [setNode_node?_other _ _ _ _ (by omega), State.node?, State.node?, h.arena]
  · rw [hnnode, Nat.add_sub_cancel_left]
    exact .leaf hnew rfl
  · obtain rfl : j = s.nnode.toNat := by omega
    obtain rfl := Option.some.inj (hnew.symm.trans hm)
    exact nodeFieldsWf_leafNode x w

/-- The entry taken becomes the parent of the two trees appended after it. -/
theorem treeAppended_node {u v : State} {w : Weight} (h : EntryTaken s t) (hl : TreeAppended t u) (hr : TreeAppended u v) :
    TreeAppended s
      (setNode s.nnode.toNat (innerNode (BitVec.ofNat 9 t.nnode.toNat) (BitVec.ofNat 9 u.nnode.toNat) w) v) := by
  obtain ⟨l, hspl⟩ := hl.spans
  obtain ⟨r, hspr⟩ := hr.spans
  have hnnode := h.nnode
  have hgl := hl.grows
  have hgr := hr.grows
  have hbound := hr.bound
  set n := innerNode (BitVec.ofNat 9 t.nnode.toNat) (BitVec.ofNat 9 u.nnode.toNat) w
  have hleft : n.left.toNat = t.nnode.toNat := Nat.mod_eq_of_lt (show t.nnode.toNat < 512 by omega)
  have hright : n.right.toNat = u.nnode.toNat := Nat.mod_eq_of_lt (show u.nnode.toNat < 512 by omega)
  have hnew := setNode_node?_room (t := v) (n := n) h.room
  have hother : ∀ j, j ≠ s.nnode.toNat → (setNode s.nnode.toNat n v).node? j = v.node? j := fun j hj =>
    setNode_node?_other _ _ _ _ hj.symm
  refine ⟨show _ < v.nnode.toNat by omega, hbound, fun j hj => ?_, ⟨.node l r, ?_⟩, fun j m hj hlt hm => ?_,
    hr.cbValid.trans (hl.cbValid.trans h.cbValid)⟩
  · rw [hother j (by omega), hr.below j (by omega), hl.below j (by omega), State.node?, State.node?, h.arena]
  · have hsplit : List.range' s.nnode.toNat (v.nnode.toNat - s.nnode.toNat) = s.nnode.toNat ::
        (List.range' t.nnode.toNat (u.nnode.toNat - t.nnode.toNat) ++
          List.range' u.nnode.toNat (v.nnode.toNat - u.nnode.toNat)) := by
      have hmid : u.nnode.toNat = t.nnode.toNat + (u.nnode.toNat - t.nnode.toNat) := by omega
      conv_rhs => rw [hmid, Nat.add_sub_cancel_left, List.range'_append_1, hnnode, ← List.range'_succ]
      congr 1
      omega
    rw [setNode_nnode, hsplit]
    refine .node hnew rfl ?_ ?_
    · rw [hleft]
      refine hspl.congr fun j hj => ?_
      obtain ⟨hge, hlt⟩ := List.mem_range'_1.mp hj
      rw [hother j (by omega), hr.below j (by omega)]
    · rw [hright]
      refine hspr.congr fun j hj => ?_
      obtain ⟨hge, hlt⟩ := List.mem_range'_1.mp hj
      rw [hother j (by omega)]
  · by_cases hjs : j = s.nnode.toNat
    · subst hjs
      obtain rfl := Option.some.inj (hnew.symm.trans hm)
      exact nodeFieldsWf_innerNode _ _ _
    · rw [hother j hjs] at hm
      by_cases hju : j < u.nnode.toNat
      · exact hl.fields j m (by omega) hju (hr.below j hju ▸ hm)
      · exact hr.fields j m (by omega) hlt hm

end

/-- Every call of `des` that ends well has appended a tree (R128). -/
theorem deserialize_appends {depth i : Nat} {r r' : BitCursor} {s t : State} (h : deserialize depth r s = .ok (i, r', t))
    (hn : s.nnode.toNat ≤ 511) : i = s.nnode.toNat ∧ TreeAppended s t := by
  induction depth generalizing i r r' s t with
  | zero => simp [deserialize] at h
  | succ depth ih =>
    obtain ⟨hmax, rfl, b, r₁, s₁, hbit, h⟩ := deserialize_ok h
    have hroom : s.nnode.toNat < 511 := Nat.lt_of_le_of_ne hn hmax
    have htaken : EntryTaken s s₁ := (entryTaken_of_room hroom).frame (frame_getBit rfl hbit)
    refine ⟨rfl, ?_⟩
    rcases h with ⟨x, s₂, hx, rfl⟩ | ⟨l, r₂, s₂, m, s₃, hl, hm, rfl⟩
    · exact treeAppended_leaf (htaken.frame (frame_nextByte rfl hx))
    · obtain ⟨rfl, happ₁⟩ := ih hl (htaken.nnode ▸ hroom)
      obtain ⟨rfl, happ₂⟩ := ih hm happ₁.bound
      exact treeAppended_node htaken happ₁ happ₂

/-- TDES that ends well leaves a well-formed arena whose unused fields are 0, a valid tree and no valid code book (R127, R128). -/
theorem tdesBody_wf {s t : State} (h : tdesBody s = .ok t) : arenaWf t ∧ fieldsWf t ∧ t.cbValid = false := by
  obtain ⟨⟨i, r, u⟩, hu, h⟩ := Except.bind_eq_ok.mp h
  obtain rfl := Except.ok.inj h
  obtain ⟨rfl, happ⟩ := deserialize_appends hu (Nat.zero_le 511)
  obtain ⟨tree, hspans⟩ := happ.spans
  refine ⟨?_, fun j n hj hn => happ.fields j n (Nat.zero_le j) hj hn, happ.cbValid⟩
  refine arenaWf_of_spans (t := tree) (hspans.congr fun _ _ => rfl) ?_ happ.bound
  rw [List.range_eq_range']
  exact List.Perm.refl _

end Sys2Proof.Machine
end

section
/-! SUPPORT. The invariant: its four parts, each kept by every step (10_state R18 to R24, 20_memory R40, 70 R231). -/

namespace Sys2Proof.Machine

/-- The part of the invariant that speaks of the tree and the code book (R18, R21). -/
structure DerivedWf (s : State) : Prop where
  codeNeedsTree : s.cbValid = true → s.treeValid = true
  arena : s.treeValid = true → arenaWf s
  fields : s.treeValid = true → fieldsWf s
  codeBook : s.cbValid = true → s.codeBook = codeBookOf s.currentTree

theorem inv_iff (s : State) : Inv s ↔ BuffersWf s ∧ s.busy = false ∧ statusWf s ∧ DerivedWf s where
  mp h := ⟨⟨h.ibufWf, h.obufWf, h.ibufWithin, h.obufWithin⟩, h.quiescent, h.status,
    ⟨h.codeNeedsTree, h.arena, h.fields, h.codeBook⟩⟩
  mpr := fun ⟨hb, hq, hs, hd⟩ => ⟨hb.ibufWf, hb.obufWf, hb.ibufWithin, hb.obufWithin, hq, hs,
    hd.codeNeedsTree, hd.arena, hd.fields, hd.codeBook⟩

/-- Nothing is asked while neither the tree nor the code book is valid. -/
theorem DerivedWf.of_invalid {s : State} (htree : s.treeValid = false) (hbook : s.cbValid = false) : DerivedWf s := by
  constructor <;> simp [htree, hbook]

/-- A new tree that is well formed, without a code book. -/
theorem DerivedWf.of_tree {s : State} (harena : arenaWf s) (hfields : fieldsWf s) (hbook : s.cbValid = false) : DerivedWf s where
  codeNeedsTree h := by simp [hbook] at h
  arena _ := harena
  fields _ := hfields
  codeBook h := by simp [hbook] at h

theorem DerivedWf.congr {s t : State} (htree : sameTree s t) (hbook : bookKeptOrInvalid s t) (hs : DerivedWf s) :
    DerivedWf t := by
  have ⟨harena, hnnode, _, hvalid⟩ := htree
  refine ⟨codeNeedsTree_treeProperty.congr s t htree hbook hs.codeNeedsTree, fun ht => ?_, fun ht => ?_, fun ht => ?_⟩
  · exact arenaWf_congr htree (hs.arena (hvalid ▸ ht))
  · exact fieldsWf_congr harena hnnode (hs.fields (hvalid ▸ ht))
  · rcases hbook with ⟨hbook, hcb⟩ | hcb
    · rw [hbook, currentTree_congr htree]
      exact hs.codeBook (hcb ▸ ht)
    · simp [hcb] at ht

/-- GENC leaves the tree and makes its code book (R111). -/
theorem DerivedWf.genc {s t : State} (hs : DerivedWf s) (htree : s.treeValid = true) (h : gencBody s = .ok t) :
    DerivedWf t := by
  have hsame : sameTree s t := (gencBody_frame h).tree rfl
  obtain ⟨rfl, -⟩ := gencBody_ok h
  exact {
    codeNeedsTree := fun _ => htree
    arena := fun _ => arenaWf_congr hsame (hs.arena htree)
    fields := fun _ => fieldsWf_congr rfl rfl (hs.fields htree)
    codeBook := fun _ => congrArg codeBookOf (currentTree_congr hsame).symm }

theorem derivedWf_treeProperty : TreeProperty DerivedWf where
  congr _ _ := .congr
  invalid _ := .of_invalid
  build _ _ _ h := .of_tree (buildBody_wf h).1 (buildBody_wf h).2 (buildBody_flags h).2
  genc _ _ hs := hs.genc
  tdes _ _ _ h :=
    have ⟨harena, hfields, hbook⟩ := tdesBody_wf h
    .of_tree harena hfields hbook

/-- Settles O54: each part of the invariant is kept on its own. -/
theorem stepKeepsTheInvariant : Obligations.StepKeepsTheInvariant := by
  intro s t hs h
  obtain ⟨hbuffers, hquiescent, hstatus, hderived⟩ := (inv_iff s).mp hs
  exact (inv_iff t).mpr ⟨buffersWf_stepKeeps.step hbuffers h, quiescent_stepKeeps.step hquiescent h,
    statusWf_stepKeeps.step hstatus h, derivedWf_treeProperty.stepKeeps.step hderived h⟩

/-- Settles O53: nothing is valid, no error is pending, and both buffers are empty. -/
theorem resetMeetsTheInvariant : Obligations.ResetMeetsTheInvariant := by
  intro caps
  refine (inv_iff _).mpr ⟨?_, rfl, statusWf_of_noError rfl rfl rfl, .of_invalid rfl rfl⟩
  constructor <;> simp [State.resetWith, Memory.wf, bufferWithin]

end Sys2Proof.Machine
end

section
/-! SUPPORT. The host's accesses (10_state R22, R27), `STATUS` as it reads (R23, R24), and the values after reset (R31). -/

namespace Sys2Proof.Machine

/-! ### Host writes -/

theorem perform_write {l : Loc} (hcmd : l ≠ .cmd) (v : Nat) (s : State) :
    perform (.write l v) s = if locExists l s then .next (hostWriteLoc l v s) else .fault .noSuchByte := by
  cases l
  case cmd => exact absurd rfl hcmd
  all_goals rfl

/-- A host write to a location that exists and is not `CMD` stores and does nothing else (R27). -/
theorem step_write {s : State} {l : Loc} {v : Nat} {rest : List HostEvent} (hcmd : l ≠ .cmd) (hl : locExists l s = true) :
    step { s with host := .write l v :: rest } = .next (hostWriteLoc l v { s with host := rest }) := by
  rw [step_perform rfl, perform_write hcmd]
  exact if_pos ((locExists_take l s rest).trans hl)

/-- Settles O6, location by location. -/
theorem hostWritesFollowTheAccessRights : Obligations.HostWritesFollowTheAccessRights := by
  intro s v rest
  refine ⟨fun x => step_write (by simp) rfl, step_write (by simp) rfl, step_write (by simp) rfl, step_write (by simp) rfl,
    step_write (by simp) rfl, fun a ha => ?_, fun l hl => ?_⟩
  · exact ⟨_, step_write (by simp) (decide_eq_true ha), rfl, Memory.byte?_store_same _ _ _,
      fun b hb => Memory.byte?_store_other _ _ hb⟩
  · rcases hl with rfl | rfl | rfl | ⟨i, f, rfl⟩ | ⟨x, rfl | rfl | rfl⟩ | ⟨a, rfl, ha⟩
    · exact step_write (by simp) rfl
    · exact step_write (by simp) rfl
    · exact step_write (by simp) rfl
    · exact step_write (by simp) rfl
    · exact step_write (by simp) rfl
    · exact step_write (by simp) rfl
    · exact step_write (by simp) rfl
    · exact step_write (by simp) (decide_eq_true ha)

/-! ### Host reads -/

theorem step_read {s : State} {l : Loc} {rest : List HostEvent} (hl : locExists l s = true) :
    step { s with host := .read l :: rest } = .next (hostReadLoc l { s with host := rest }) := by
  rw [step_perform rfl]
  exact if_pos ((locExists_take l s rest).trans hl)

/-- The value of a location does not depend on what the host does next. -/
theorem locValue?_take (l : Loc) (s : State) (rest : List HostEvent) :
    locValue? l { s with host := rest } = locValue? l s := by
  cases l <;> rfl

theorem hostReadLoc_some {l : Loc} {s : State} {v : CodeBits} (h : locValue? l s = some v) :
    hostReadLoc l s = { s with hostRead := v } := by
  simp [hostReadLoc, h]

theorem hostReadLoc_none {l : Loc} {s : State} (h : locValue? l s = none) :
    hostReadLoc l s =
      { s with hostRead := (freeBits (locWidth l) s.draws .hostRead).setWidth 255, draws := s.draws + 1 } := by
  simp [hostReadLoc, h, countDraw]

/-- A location with a value reads as that value. -/
theorem readGives_of_locValue? {s : State} {l : Loc} {v : CodeBits} (hl : locExists l s = true)
    (hv : locValue? l s = some v) : readGives s l v := fun rest => by
  rw [step_read hl, hostReadLoc_some ((locValue?_take l s rest).trans hv)]

/-- Widening with zeros keeps a value within its width. -/
theorem setWidth_toNat_lt {w : Nat} (x : BitVec w) (k : Nat) : (x.setWidth k).toNat < 2 ^ w := by
  rw [BitVec.toNat_setWidth]
  exact Nat.lt_of_le_of_lt (Nat.mod_le _ _) x.isLt

theorem nodeFieldBits_lt (n : Node) (i : Fin 511) (f : NodeField) : (nodeFieldBits n f).toNat < 2 ^ locWidth (.node i f) := by
  cases f <;> exact setWidth_toNat_lt _ _

/-- The value of a location has its width. -/
theorem locValue?_lt {l : Loc} {s : State} {v : CodeBits} (h : locValue? l s = some v) : v.toNat < 2 ^ locWidth l := by
  cases l
  case cmd => exact Option.some.inj h ▸ Nat.two_pow_pos _
  case node i f =>
    obtain ⟨-, h⟩ := Option.ite_none_right_eq_some.mp h
    exact Option.some.inj h ▸ nodeFieldBits_lt _ i f
  case cbBits x => exact v.isLt
  case cbPresent x =>
    obtain ⟨-, h⟩ := Option.ite_none_right_eq_some.mp h
    exact Option.some.inj h ▸ setWidth_toNat_lt _ _
  case cbLen x =>
    obtain ⟨-, h⟩ := Option.ite_none_right_eq_some.mp h
    exact Option.some.inj h ▸ setWidth_toNat_lt _ _
  case ibuf a =>
    obtain ⟨b, -, rfl⟩ := Option.map_eq_some_iff.mp h
    exact setWidth_toNat_lt _ _
  case obuf a =>
    obtain ⟨-, h⟩ := Option.ite_none_right_eq_some.mp h
    obtain ⟨b, -, rfl⟩ := Option.map_eq_some_iff.mp h
    exact setWidth_toNat_lt _ _
  all_goals exact Option.some.inj h ▸ setWidth_toNat_lt _ _

/-- What a host read of an existing location answers: its value, or one draw of its width (R27, U3). -/
theorem step_read_eq {s : State} {l : Loc} (rest : List HostEvent) (hl : locExists l s = true) :
    ∃ (value : CodeBits) (n : Nat),
      step { s with host := .read l :: rest } = .next { s with host := rest, hostRead := value, draws := n } ∧
      (∀ v, locValue? l s = some v → value = v ∧ n = s.draws) ∧ (locValue? l s = none → n = s.draws + 1) ∧
      value.toNat < 2 ^ locWidth l := by
  rw [step_read hl]
  cases hv : locValue? l s with
  | some v =>
    rw [hostReadLoc_some ((locValue?_take l s rest).trans hv)]
    exact ⟨v, s.draws, rfl, fun w hw => ⟨Option.some.inj hw, rfl⟩, fun h => (nomatch h), locValue?_lt hv⟩
  | none =>
    rw [hostReadLoc_none ((locValue?_take l s rest).trans hv)]
    exact ⟨_, _, rfl, fun w hw => (nomatch hw), fun _ => rfl, setWidth_toNat_lt _ _⟩

theorem locValue?_node {s : State} {i : Fin 511} (htree : s.treeValid = true) (hi : i.val < s.nnode.toNat) (f : NodeField) :
    locValue? (.node i f) s = some (nodeFieldBits s.arena[i] f) :=
  if_pos ⟨htree, hi⟩

/-- Settles O7: the outcome of a read in general, then the value of each location, then the locations without one. -/
theorem hostReadsChangeNothing : Obligations.HostReadsChangeNothing := by
  intro s
  refine ⟨fun l rest hl => ?_, fun x => readGives_of_locValue? rfl rfl, readGives_of_locValue? rfl rfl,
    readGives_of_locValue? rfl rfl, readGives_of_locValue? rfl rfl, readGives_of_locValue? rfl rfl,
    readGives_of_locValue? rfl rfl, readGives_of_locValue? rfl rfl, readGives_of_locValue? rfl rfl,
    readGives_of_locValue? rfl rfl, fun i htree hi => ?_, fun x hcb => ?_, fun a v ha hv => ?_, fun a v ha hlen hv => ?_,
    fun i f h => ?_, fun x hcb => ?_, fun a ha => ?_, fun a h => ?_⟩
  · obtain ⟨value, n, hstep, hsome, hnone, hlt⟩ := step_read_eq rest hl
    exact ⟨value, n, hstep, hsome, hnone, hlt, fun hcmd => (hsome 0 (hcmd ▸ rfl)).1⟩
  · exact ⟨readGives_of_locValue? rfl (locValue?_node htree hi _), readGives_of_locValue? rfl (locValue?_node htree hi _),
      readGives_of_locValue? rfl (locValue?_node htree hi _), readGives_of_locValue? rfl (locValue?_node htree hi _),
      readGives_of_locValue? rfl (locValue?_node htree hi _)⟩
  · exact ⟨readGives_of_locValue? rfl (if_pos hcb), readGives_of_locValue? rfl (if_pos hcb),
      readGives_of_locValue? rfl (if_pos hcb)⟩
  · exact readGives_of_locValue? (decide_eq_true ha) (by simp [locValue?, hv])
  · exact readGives_of_locValue? (decide_eq_true ha) (by simp [locValue?, hlen, hv])
  · exact if_neg fun ⟨htree, hi⟩ => h.elim (by simp [htree]) (by omega)
  · simp [locValue?, hcb]
  · simp [locValue?, ha]
  · rcases h with hlen | ha
    · exact if_neg (by omega)
    · simp [locValue?, ha]

/-! ### STATUS -/

theorem statusBit_getLsbD (b : Bool) (n j : Nat) :
    (statusBit b n).getLsbD j = (decide (j < 16) && (decide (j = n) && b)) := by
  simp only [statusBit, BitVec.getLsbD_shiftLeft, BitVec.getLsbD_setWidth, BitVec.getLsbD_ofBool]
  rcases Nat.lt_trichotomy j n with h | rfl | h
  · simp [h, h.ne]
  · simp
  · have hsub : j - n ≠ 0 := by omega
    simp [hsub, h.ne']

/-- The bits of `STATUS`: a flag each in bits 0 to 4, `ECODE` from bit 8 on (R23). -/
theorem statusWord_getLsbD (s : State) {j : Nat} (hj : j < 16) :
    (statusWord s).getLsbD j =
      (decide (j = 0) && s.busy || decide (j = 1) && s.err || decide (j = 2) && s.corrupt ||
        decide (j = 3) && s.treeValid || decide (j = 4) && s.cbValid || decide (8 ≤ j) && s.ecode.getLsbD (j - 8)) := by
  have hcode : (s.ecode.setWidth 16 <<< 8).getLsbD j = (decide (8 ≤ j) && s.ecode.getLsbD (j - 8)) := by
    have hsub : j - 8 < 16 := by omega
    simp only [BitVec.getLsbD_shiftLeft, BitVec.getLsbD_setWidth, hj, hsub, decide_true, Bool.true_and]
    simp only [← decide_not, Nat.not_lt]
  simp only [statusWord, BitVec.getLsbD_or, statusBit_getLsbD, hcode, hj, decide_true, Bool.true_and]

/-- Above the flags there is `ECODE` alone (R23). -/
theorem statusWord_getLsbD_high (s : State) {j : Nat} (h5 : 5 ≤ j) (hj : j < 16) :
    (statusWord s).getLsbD j = (decide (8 ≤ j) && s.ecode.getLsbD (j - 8)) := by
  have hflag : j ≠ 0 ∧ j ≠ 1 ∧ j ≠ 2 ∧ j ≠ 3 ∧ j ≠ 4 := by omega
  simp [statusWord_getLsbD s hj, hflag]

/-- A run of bits around `ECODE` reads as 0 (R23). -/
theorem statusWord_reserved (s : State) {lo n : Nat}
    (h : ∀ j, j < n → 5 ≤ lo + j ∧ lo + j < 16 ∧ (lo + j < 8 ∨ 12 ≤ lo + j)) : (statusWord s).extractLsb' lo n = 0 := by
  refine BitVec.eq_of_getLsbD_eq fun j hj => ?_
  obtain ⟨h5, h16, hgap⟩ := h j hj
  rw [BitVec.getLsbD_extractLsb', statusWord_getLsbD_high s h5 h16]
  rcases hgap with hgap | hgap
  · simp [Nat.not_le.mpr hgap]
  · simp [BitVec.getLsbD_of_ge s.ecode (lo + j - 8) (by omega)]

theorem statusWord_ecode (s : State) : (statusWord s).extractLsb' 8 4 = s.ecode := by
  refine BitVec.eq_of_getLsbD_eq fun j hj => ?_
  rw [BitVec.getLsbD_extractLsb', statusWord_getLsbD_high s (by omega) (by omega)]
  simp [hj]

/-- Settles O8, field by field. -/
theorem statusWordLayout : Obligations.StatusWordLayout := by
  refine ⟨fun s => ⟨?_, ?_, ?_, ?_, ?_, statusWord_reserved s (by omega), statusWord_ecode s,
    statusWord_reserved s (by omega)⟩, by decide⟩ <;>
  · rw [statusWord_getLsbD s (by decide)]
    simp

/-! ### Reset -/

/-- Settles O10: the registers and flags are the literals of `State.resetWith`, and no location of the rest has a value. -/
theorem resetValues : Obligations.ResetValues := by
  intro caps
  refine ⟨fun x => ?_, rfl, rfl, rfl, rfl, rfl, rfl, rfl, rfl, rfl, rfl, rfl, rfl, fun _ _ => rfl,
    fun _ => ⟨rfl, rfl, rfl⟩, fun _ => ⟨rfl, rfl⟩⟩
  rw [State.freqAt, State.resetWith, Vector.getElem_replicate]

end Sys2Proof.Machine
end

section
/-! SUPPORT. The canonical form of both buffers alone, kept in every state, whether or not they stay within their capacities
(20_memory R40, R43). -/

namespace Sys2Proof.Machine

/-- Both buffers are in canonical form; nothing is asked of their capacities (R40). -/
def buffersCanonical (s : State) : Prop := s.ibuf.wf ∧ s.obuf.wf

/-- A command leaves `IBUF` and makes of a canonical `OBUF` a canonical one. -/
theorem buffersCanonical_of_frame {w : WriteSet} {s t : State} (hf : Frame w s t) (hs : buffersCanonical s) :
    buffersCanonical t :=
  ⟨hf.ibuf.symm ▸ hs.1, hf.obufWf hs.2⟩

/-- A host write leaves both buffers or stores one byte in `IBUF`. -/
theorem buffersCanonical_hostWriteLoc (l : Loc) (v : Nat) {s : State} (hs : buffersCanonical s) :
    buffersCanonical (hostWriteLoc l v s) := by
  obtain ⟨hibuf, hobuf⟩ := hs
  obtain ⟨f, n₁, n₂, n₃, n₄, m, h, rfl | ⟨a, -, rfl⟩⟩ := hostWriteLoc_eq l v s
  · exact h ▸ ⟨hibuf, hobuf⟩
  · exact h ▸ ⟨Memory.wf_store hibuf _ _, hobuf⟩

theorem buffersCanonical_stepKeeps : StepKeeps buffersCanonical where
  toCommandKeeps := .of_frame (fun _ _ _ => buffersCanonical_of_frame) (fun _ _ hs => hs)
  clear _ hs := hs
  take _ _ hs := hs
  write l v _ _ := buffersCanonical_hostWriteLoc l v
  read _ _ _ hs := hs
  reset _ _ := ⟨.nil, .nil⟩

/-- Settles O56: commands change `OBUF` within a frame, a host write changes one byte of `IBUF`, and reset empties both. -/
theorem stepKeepsBuffersCanonical : Obligations.StepKeepsBuffersCanonical :=
  fun _ _ hibuf hobuf h => buffersCanonical_stepKeeps.step ⟨hibuf, hobuf⟩ h

end Sys2Proof.Machine
end

section
/-! SUPPORT. The opcode map and its inverse (30_encoding R75, R76). -/

namespace Sys2Proof

theorem wordIsReadBack : ∀ i : Instr, Laws.WordIsReadBack.Statement i
  | .fcnt => Laws.WordIsReadBack.fcnt
  | .build => Laws.WordIsReadBack.build
  | .genc => Laws.WordIsReadBack.genc
  | .whdr => Laws.WordIsReadBack.whdr
  | .tser => Laws.WordIsReadBack.tser
  | .pack => Laws.WordIsReadBack.pack
  | .rhdr => Laws.WordIsReadBack.rhdr
  | .tdes => Laws.WordIsReadBack.tdes
  | .unpk => Laws.WordIsReadBack.unpk
  | .comp => Laws.WordIsReadBack.comp
  | .deco => Laws.WordIsReadBack.deco
  | .clr => Laws.WordIsReadBack.clr

theorem decode_encode (i : Instr) (rest : List Byte) : decode (encode i ++ rest) = .ok (i, rest) := by
  obtain ⟨-, -, hread⟩ := wordIsReadBack i
  exact hread rest

/-- Decoding takes one byte and hands back the rest (R75). -/
theorem decode_cons_eq_ok {v : Byte} {rest rest' : List Byte} {i : Instr} :
    decode (v :: rest) = .ok (i, rest') ↔ decodeOpcode v = .ok i ∧ rest' = rest := by
  rw [decode]
  cases decodeOpcode v <;> simp [eq_comm]

/-- Only its opcode decodes to a command (R75). -/
theorem opcode_of_decodeOpcode {v : Byte} {i : Instr} (h : decodeOpcode v = .ok i) : opcode i = v := by
  unfold decodeOpcode at h
  split at h
  case h_13 => cases h
  all_goals
    cases h
    exact BitVec.eq_of_toNat_eq (Eq.symm ‹_›)

/-- A byte outside the map is no command (R76). -/
theorem decodeOpcode_illegal {v : Byte} (h : v = 0 ∨ 0x0D ≤ v.toNat) : decodeOpcode v = .error (.illegalOpcode v) := by
  have hrange : v.toNat = 0 ∨ 0x0D ≤ v.toNat := h.imp (congrArg BitVec.toNat) id
  unfold decodeOpcode
  split
  case h_13 => rfl
  all_goals omega

/-- Settles O1: each opcode is its command's word, read back with nothing after it; the rest is R76. -/
theorem opcodeMapDecodes : Obligations.OpcodeMapDecodes := by
  have word (i : Instr) : decode [opcode i] = .ok (i, []) := decode_encode i []
  refine ⟨word .fcnt, word .build, word .genc, word .whdr, word .tser, word .pack, word .rhdr, word .tdes, word .unpk,
    word .comp, word .deco, word .clr, fun v hv => ?_⟩
  rw [decode, decodeOpcode_illegal hv]

/-- Settles O2: the word of each command is read back, and only a command's opcode decodes to it. -/
theorem decodeAndEncodeAgree : Obligations.DecodeAndEncodeAgree := by
  refine ⟨decode_encode, fun v rest rest' i h => ?_⟩
  obtain ⟨hv, hrest⟩ := decode_cons_eq_ok.mp h
  exact ⟨congrArg (fun w => [w]) (opcode_of_decodeOpcode hv), hrest⟩

end Sys2Proof
end

section
/-! SUPPORT. Host scripts that write (30_encoding R79, R80): a run performs the writes one after the other, and those of `WRB`
store their bytes in `IBUF`. -/

namespace Sys2Proof.Machine

/-- A run of one more step goes on from that step's state. -/
theorem run_succ {s t : State} (h : step s = .next t) (k : Nat) :
    Host.Core.run Sys2Proof.core (k + 1) s = Host.Core.run Sys2Proof.core k t := by
  have hstep : Sys2Proof.core.step s = .next t := h
  simp only [Host.Core.run, hstep]

/-- A write that comes next stores and does nothing else (R27). -/
theorem step_write_next {s : State} {l : Loc} {v : Nat} {rest : List HostEvent} (h : s.host = .write l v :: rest)
    (hcmd : l ≠ .cmd) (hl : locExists l s = true) : step s = .next (hostWriteLoc l v { s with host := rest }) := by
  calc step s = step { s with host := .write l v :: rest } := by rw [← h]
    _ = .next (hostWriteLoc l v { s with host := rest }) := step_write hcmd hl

/-- A host write to `IBUF` stores the byte (R25, R27). -/
theorem hostWriteLoc_ibuf (a : Nat) (b : Byte) (s : State) :
    hostWriteLoc (.ibuf a) b.toNat s = { s with ibuf := s.ibuf.store a b } := by
  rw [hostWriteLoc, BitVec.ofNat_toNat, BitVec.setWidth_eq]

/-- `WRB` stores its bytes, one transaction each (R80). -/
theorem run_scriptWrb {bs : List Byte} {rest : List HostEvent} {a : Nat} {s : State}
    (hhost : s.host = scriptWrb a bs ++ rest) (hfit : a + bs.length ≤ s.ibufCap) (k : Nat) :
    Host.Core.run Sys2Proof.core (bs.length + k) s =
      Host.Core.run Sys2Proof.core k { s with host := rest, ibuf := s.ibuf.storeAll a bs } := by
  induction bs generalizing a s with
  | nil =>
    obtain rfl : rest = s.host := hhost.symm
    rw [List.length_nil, Nat.zero_add]
    rfl
  | cons b bs ih =>
    rw [List.length_cons] at hfit
    have hwrite := step_write_next hhost (by simp) (decide_eq_true (by omega))
    rw [hostWriteLoc_ibuf] at hwrite
    have hwritten := ih (a := a + 1) (s := { s with host := scriptWrb (a + 1) bs ++ rest, ibuf := s.ibuf.store a b }) rfl
      (by rw [Nat.succ_add]; exact hfit)
    rw [List.length_cons, Nat.succ_add]
    exact (run_succ hwrite _).trans hwritten

/-- Settles O9: `LOAD` is a `WRB` from index 0 and one write of `ILEN`. -/
theorem loadScriptLoadsTheInput : Obligations.LoadScriptLoadsTheInput := by
  intro s bs rest hfit hhost
  have hlen : bs.length < 2 ^ 64 := by
    have := ibufCap_lt s
    omega
  have hbytes := run_scriptWrb (hhost.trans (List.append_assoc _ _ _)) (by omega) 1
  have hcount := run_succ (step_write (s := { s with ibuf := s.ibuf.storeAll 0 bs }) (v := bs.length) (rest := rest)
    (by simp : Loc.ilen ≠ .cmd) rfl) 0
  exact ⟨_, hbytes.trans hcount, ⟨Nat.mod_eq_of_lt hlen, hfit, holdsAt_storeAll _ _ _⟩, rfl⟩

end Sys2Proof.Machine
end

section
/-! SUPPORT. Reading a stream of written bytes (20_memory R45), and the header read from one (30_encoding R61, R62). -/

namespace Sys2Proof.Machine

/-! ### A byte of the stream -/

theorem streamIs.ipos_lt {s : State} {b : Byte} {bs : List Byte} (h : streamIs s (b :: bs)) :
    s.ipos.toNat < s.ilen.toNat := by
  obtain ⟨hlen, -, -⟩ := h
  rw [List.length_cons] at hlen
  omega

/-- `next_byte` answers the stream's first byte (R45). -/
theorem streamIs.nextByte {s : State} {b : Byte} {bs : List Byte} (h : streamIs s (b :: bs)) :
    nextByte s = .ok (b, { s with ipos := s.ipos + 1 }) := by
  have hlt := h.ipos_lt
  obtain ⟨-, -, hbytes⟩ := h
  exact nextByte_written hlt (hbytes 0 (Nat.succ_pos _))

theorem holdsAt.tail {m : Memory} {a : Nat} {b : Byte} {bs : List Byte} (h : holdsAt m a (b :: bs)) :
    holdsAt m (a + 1) bs := fun k hk => by
  rw [Nat.add_assoc, Nat.add_comm 1 k]
  exact h (k + 1) (Nat.succ_lt_succ hk)

/-- What is left of the stream after a byte. -/
theorem streamIs.tail {s : State} {b : Byte} {bs : List Byte} (h : streamIs s (b :: bs)) :
    streamIs { s with ipos := s.ipos + 1 } bs := by
  have hpos : (s.ipos + 1).toNat = s.ipos.toNat + 1 :=
    BitVec.toNat_add_of_lt (Nat.lt_of_le_of_lt h.ipos_lt s.ilen.isLt)
  obtain ⟨hlen, hcap, hbytes⟩ := h
  refine ⟨?_, hcap, hpos ▸ hbytes.tail⟩
  calc (s.ipos + 1).toNat + bs.length = s.ipos.toNat + (b :: bs).length := by rw [hpos, List.length_cons]; omega
    _ = s.ilen.toNat := hlen

/-! ### The header -/

/-- A byte moved to its place in the count: `byte k * 2^(8k)` (R61). -/
theorem byte_shiftLeft (b : Byte) (n : Nat) : b.setWidth 64 <<< n = BitVec.ofNat 64 (b.toNat * 2 ^ n) := by
  apply BitVec.eq_of_toNat_eq
  simp [Nat.shiftLeft_eq]

/-- RHDR's loop over the bytes `bs` from number `k` on adds the number they assemble to, in its place (R168). -/
theorem rhdrBytes_stream {bs rest : List Byte} {s : State} (h : streamIs s (bs ++ rest)) (k : Nat) (v : Word) :
    (List.range' k bs.length).foldlM (fun q j => rhdrByte q.1 q.2 j) (v, s) =
      .ok (v + BitVec.ofNat 64 (headerValue bs * 2 ^ (8 * k)), { s with ipos := s.ipos + BitVec.ofNat 64 bs.length }) := by
  induction bs generalizing s k v with
  | nil => simp [headerValue, pure, Except.pure]
  | cons b bs ih =>
    have hbyte : rhdrByte v s k =
        .ok (v + BitVec.ofNat 64 (b.toNat * 2 ^ (8 * k)), { s with ipos := s.ipos + 1 }) := by
      rw [rhdrByte, h.nextByte, ← byte_shiftLeft]
      rfl
    have hplace : headerValue (b :: bs) * 2 ^ (8 * k) = b.toNat * 2 ^ (8 * k) + headerValue bs * 2 ^ (8 * (k + 1)) := by
      rw [headerValue, Nat.mul_succ, Nat.pow_add]
      ring
    have hpos : s.ipos + BitVec.ofNat 64 (b :: bs).length = s.ipos + 1 + BitVec.ofNat 64 bs.length := by
      rw [List.length_cons, Nat.add_comm, BitVec.ofNat_add, ← BitVec.add_assoc]
      rfl
    rw [List.length_cons, List.range'_succ, List.foldlM_cons, hbyte, Except.ok_bind, ih h.tail, hplace, BitVec.ofNat_add,
      ← BitVec.add_assoc, ← hpos, List.length_cons]

/-- RHDR's body on a stream that begins with a header: bit 63 of the number its bytes assemble to decides (R168). -/
theorem rhdrBody_stream {header rest : List Byte} {s : State} (hlen : header.length = 8)
    (h : streamIs s (header ++ rest)) :
    rhdrBody s =
      if (BitVec.ofNat 64 (headerValue header)).getLsbD 63 then raiseIn .hdr { s with ipos := s.ipos + 8 }
      else .ok { s with total := BitVec.ofNat 64 (headerValue header), ipos := s.ipos + 8 } := by
  have hread := rhdrBytes_stream h 0 0
  rw [hlen, ← List.range_eq_range'] at hread
  rw [rhdrBody, hread]
  simp

theorem streamIs.rhdrEntry {s : State} {bs : List Byte} (h : streamIs s bs) : rhdrEntry s = none := by
  obtain ⟨hlen, hcap, -⟩ := h
  exact if_neg (by omega)

/-- RHDR takes a count without bit 63 (R168). -/
theorem execRhdr_stream {header rest : List Byte} {s : State} (herr : s.err = false) (hlen : header.length = 8)
    (h : streamIs s (header ++ rest)) (hlegal : headerValue header < 2 ^ 63) :
    exec .rhdr s = .next { s with total := BitVec.ofNat 64 (headerValue header), ipos := s.ipos + 8 } := by
  have hbit : (BitVec.ofNat 64 (headerValue header)).getLsbD 63 = false := by
    rw [BitVec.getLsbD_ofNat, Nat.testBit_lt_two_pow hlegal, Bool.and_false]
  refine runCommand_ok herr h.rhdrEntry ((rhdrBody_stream hlen h).trans ?_)
  rw [hbit]
  rfl

/-- The header's bytes assemble to the count they were cut from (R61). -/
theorem headerValue_headerBytes (v : Word) : headerValue (headerBytes v) = v.toNat := by
  have hv := v.isLt
  simp only [headerBytes, List.range, List.range.loop, List.map_cons, List.map_nil, headerValue, headerByte,
    BitVec.extractLsb'_toNat, Nat.shiftRight_eq_div_pow]
  omega

/-- Settles O39: the header's bytes assemble to the count, and RHDR leaves in `TOTAL` what they assemble to. -/
theorem headerRoundTrip : Obligations.HeaderRoundTrip := by
  intro s count rest herr hlegal hstream
  have hvalue := headerValue_headerBytes count
  have hcount : headerValue (headerBytes count) < 2 ^ 63 := by
    rw [hvalue]
    exact Nat.lt_succ_of_le hlegal
  have hread := execRhdr_stream herr rfl hstream hcount
  rwa [hvalue, BitVec.ofNat_toNat, BitVec.setWidth_eq] at hread

end Sys2Proof.Machine
end

section
/-! SUPPORT. How long a layout is (30_encoding R65, R74). -/

namespace Sys2Proof.Machine

@[simp] theorem layoutOpenBit_nb (b : Bool) (q : LayoutState) : (layoutOpenBit b q).nb = (q.nb + 1) % 8 := rfl

@[simp] theorem layoutOpenBit_length (b : Bool) (q : LayoutState) : (layoutOpenBit b q).out.length = q.out.length :=
  List.length_set

/-- The layout has placed `bits` control bits, eight to a control byte, and `bytes` bytes (R65). -/
structure Placed (bits bytes : Nat) (q : LayoutState) : Prop where
  nb : q.nb = bits % 8
  length : q.out.length = (bits + 7) / 8 + bytes

/-- A control bit opens a control byte exactly when the last one is full. -/
theorem Placed.bit {bits bytes : Nat} {q : LayoutState} (h : Placed bits bytes q) (b : Bool) :
    Placed (bits + 1) bytes (layoutItem q (.bit b)) := by
  obtain ⟨hnb, hlength⟩ := h
  by_cases hfull : q.nb = 0
  · rw [layoutItem, if_pos hfull]
    constructor <;> simp only [layoutOpenBit_nb, layoutOpenBit_length, List.length_append, List.length_singleton] <;> omega
  · rw [layoutItem, if_neg hfull]
    constructor <;> simp only [layoutOpenBit_nb, layoutOpenBit_length] <;> omega

theorem Placed.byte {bits bytes : Nat} {q : LayoutState} (h : Placed bits bytes q) (x : Byte) :
    Placed bits (bytes + 1) (layoutItem q (.byte x)) where
  nb := h.nb
  length := by simp only [layoutItem, List.length_append, List.length_singleton, h.length, Nat.add_assoc]

/-- A tree's walk places a control bit for each node and a byte for each leaf (R63). -/
theorem Placed.tree (t : HuffmanTree) {bits bytes : Nat} {q : LayoutState} (h : Placed bits bytes q) :
    Placed (bits + t.size) (bytes + t.symbols.length) ((items t).foldl layoutItem q) := by
  induction t generalizing bits bytes q with
  | leaf x => exact (h.bit true).byte x
  | node l r ihl ihr =>
    have hsubtrees := ihr (ihl (h.bit false))
    simp only [items, List.foldl_cons, List.foldl_append, HuffmanTree.size, HuffmanTree.symbols,
      List.length_append]
    simpa only [Nat.add_assoc] using hsubtrees

/-- Settles O27: a tree of `L` leaves has `2L - 1` nodes, each with one control bit. -/
theorem treeRegionSize : Obligations.TreeRegionSize := by
  intro t
  have hstart : Placed 0 0 { out := [], nb := 0, cpos := 0 } := ⟨rfl, rfl⟩
  have hlength := (hstart.tree t).length
  have hnodes : t.size = 2 * t.symbols.length - 1 := by
    have := t.size_add_one
    omega
  rwa [Nat.zero_add, Nat.zero_add, hnodes] at hlength

end Sys2Proof.Machine
end

section
/-! SUPPORT. The frame of a command run by the host, from the frame of its body: on every path it changes its rule's write set
and `STATUS` at most (60_exceptions R188, R199), and without an error not even that. -/

namespace Sys2Proof.Machine

/-- The write set a command carries is the one its rule names. -/
theorem commandOf_writes {i : Instr} {c : Command} (h : commandOf i = some c) : c.writes = ruleWrites i := by
  cases i <;> cases h <;> rfl

theorem Frame.unchangedOutside {w : WriteSet} {s t : State} (h : Frame w s t) : unchangedOutside w s t :=
  ⟨h.freq, h.total, h.ipos, h.tree, h.codeBook, h.cbValid,
    fun hw => ⟨(h.output hw).1, fun a => by rw [(h.output hw).2]⟩,
    h.ilen, fun a => by rw [h.ibuf], h.busy, h.caps, h.host, h.hostRead⟩

/-- The error bits are no part of what `unchangedOutside` speaks of. -/
theorem unchangedOutside_setError {w : WriteSet} {s t : State} (h : unchangedOutside w s t) (e : ErrorCode) :
    unchangedOutside w s (setError e t) := h

/-- A command whose body keeps to its write set keeps to it on every path, and changes the error bits only when it raises. -/
theorem runCommand_frame {c : Command} {s t : State} (hbody : ∀ u, c.body s = .ok u → Frame c.writes s u)
    (h : runCommand c s = .next t) : unchangedOutside c.writes s t ∧ (t.err = s.err → sameErrorBits s t) := by
  rcases runCommand_next h with ⟨-, rfl⟩ | ⟨herr, e, -, rfl⟩ | ⟨-, -, hb⟩ | ⟨herr, -, e, n, -, rfl⟩
  · exact ⟨(Frame.refl _ _).unchangedOutside, fun _ => ⟨rfl, rfl, rfl⟩⟩
  · exact ⟨unchangedOutside_setError (Frame.refl _ _).unchangedOutside e, fun h => by simp [herr] at h⟩
  · exact ⟨(hbody t hb).unchangedOutside, fun _ => (hbody t hb).errorBits⟩
  · have hforget := (frame_draws c.writes s n).trans (frame_forget c.writes (c.outputFrom s) _)
    exact ⟨unchangedOutside_setError hforget.unchangedOutside e, fun h => by simp [herr] at h⟩

/-- A command that is neither composite nor CLR is one of the nine primitives. -/
theorem commandOf_primitive {i : Instr} (hcomp : isComposite i = false) (hclr : i ≠ .clr) :
    ∃ c, commandOf i = some c ∧ c ∈ primitives := by
  cases i
  case comp => cases hcomp
  case deco => cases hcomp
  case clr => exact absurd rfl hclr
  all_goals exact ⟨_, rfl, by simp [primitives]⟩

/-- The nine primitives keep to their rule's write set. -/
theorem exec_primitive_frame {i : Instr} (hcomp : isComposite i = false) (hclr : i ≠ .clr) {s t : State}
    (h : exec i s = .next t) : unchangedOutside (ruleWrites i) s t ∧ (t.err = s.err → sameErrorBits s t) := by
  obtain ⟨c, hi, hc⟩ := commandOf_primitive hcomp hclr
  rw [exec_of_commandOf hi] at h
  exact commandOf_writes hi ▸ runCommand_frame (fun _ hu => primitive_body_frame hc hu) h

/-- Settles O50: each of the five commands is a primitive, and a primitive keeps to its rule's write set. -/
theorem registerCommandsFrame : Obligations.RegisterCommandsFrame := by
  intro i s t hi h
  rcases hi with rfl | rfl | rfl | rfl | rfl <;> exact exec_primitive_frame rfl (by decide) h

end Sys2Proof.Machine
end

section
/-! SUPPORT. FCNT's counting loop (40_frequency_count R90): after each turn `FREQ` holds the counts of the bytes read so far,
whether the host wrote them or they were drawn (U3). -/

namespace Sys2Proof.Machine

/-- `FREQ` when each register holds how often its symbol stands in `bs` (R90). -/
def symbolCounts (bs : List Byte) : Vector Word 256 :=
  Vector.ofFn (fun x => BitVec.ofNat 64 (bs.count (BitVec.ofNat 8 x.val)))

theorem symbolCounts_getElem (bs : List Byte) {i : Nat} (hi : i < 256) :
    (symbolCounts bs)[i] = BitVec.ofNat 64 (bs.count (BitVec.ofNat 8 i)) := by
  rw [symbolCounts, Vector.getElem_ofFn]

theorem symbolCounts_nil : symbolCounts [] = Vector.replicate 256 0 := by
  ext i hi
  simp [symbolCounts]

/-- One more byte adds one to its own register (R90). -/
theorem symbolCounts_set_append (bs : List Byte) (x : Byte) :
    (symbolCounts bs).set x.toNat ((symbolCounts bs)[x.toNat] + 1) x.isLt = symbolCounts (bs ++ [x]) := by
  ext1 i hi
  simp only [Vector.getElem_set, symbolCounts_getElem, List.count_append, List.count_singleton, BitVec.ofNat_add]
  by_cases h : x.toNat = i
  · subst h
    simp
  · have hne : x ≠ BitVec.ofNat 8 i := fun hx => h (by rw [hx, BitVec.toNat_ofNat, Nat.mod_eq_of_lt hi])
    rw [if_neg h, beq_false_of_ne hne]
    simp

/-- One turn of the loop counts the byte it reads. -/
theorem countByte_of_counts {u : State} {bs : List Byte} (h : u.freq = symbolCounts bs) (k : Nat) :
    countByte u k = { (memRead k u).2 with freq := symbolCounts (bs ++ [(memRead k u).1]) } := by
  obtain ⟨n, hn⟩ := memRead_eq k u
  simp only [countByte, setFreq, State.freqAt, hn, h, symbolCounts_set_append]

/-- The state in which the loop's first `n` turns end (R90). -/
def countedTo (s : State) (n : Nat) : State := (List.range n).foldl countByte (clearFreq s)

theorem countedTo_zero (s : State) : countedTo s 0 = { s with freq := symbolCounts [] } := by
  rw [symbolCounts_nil]
  rfl

theorem countedTo_succ (s : State) (n : Nat) : countedTo s (n + 1) = countByte (countedTo s n) n := by
  simp [countedTo, List.range_succ]

theorem fcntBody_eq (s : State) :
    fcntBody s = .ok { countedTo s s.ilen.toNat with total := (countedTo s s.ilen.toNat).ilen } := rfl

/-! ### An input the host has written -/

theorem holdsAt.left {m : Memory} {a : Nat} {bs cs : List Byte} (h : holdsAt m a (bs ++ cs)) : holdsAt m a bs :=
  fun k hk => by
    rw [h k (by rw [List.length_append]; omega), List.getElem_append_left hk]

theorem holdsAt.byte?_append_cons {m : Memory} {a : Nat} {bs cs : List Byte} {x : Byte} (h : holdsAt m a (bs ++ x :: cs)) :
    m.byte? (a + bs.length) = some x := by
  rw [h bs.length (by simp), List.getElem_append_right (Nat.le_refl _)]
  simp

/-- Over written bytes the loop changes nothing but `FREQ`. -/
theorem countedTo_written {s : State} {bs : List Byte} (h : holdsAt s.ibuf 0 bs) :
    countedTo s bs.length = { s with freq := symbolCounts bs } := by
  induction bs using List.reverseRecOn with
  | nil => exact countedTo_zero s
  | append_singleton bs x ih =>
    have hbyte : s.ibuf.byte? bs.length = some x := by simpa using h.byte?_append_cons
    have hbefore := ih h.left
    have hcounts : (countedTo s bs.length).freq = symbolCounts bs := by rw [hbefore]
    have hread : memRead bs.length (countedTo s bs.length) = (x, { s with freq := symbolCounts bs }) := by
      rw [hbefore]
      exact memRead_written hbyte
    rw [List.length_append, List.length_singleton, countedTo_succ, countByte_of_counts hcounts, hread]

theorem fcntEntry_of_le {s : State} (h : s.ilen.toNat ≤ s.ibufCap) : fcntEntry s = none := if_neg (Nat.not_lt.mpr h)

/-- Settles O15: over the bytes of a written input the loop draws nothing, and a length out of range stops it at entry. -/
theorem fcntCountsTheInput : Obligations.FcntCountsTheInput := by
  intro s herr
  refine ⟨fun input hinput => ?_, fun hrange => runCommand_entry herr (if_pos hrange)⟩
  obtain ⟨hlen, hcap, hbytes⟩ := hinput
  refine runCommand_ok herr (fcntEntry_of_le (hlen ▸ hcap)) ?_
  have hbody := fcntBody_eq s
  rw [hlen, countedTo_written hbytes] at hbody
  exact hbody

/-! ### Any input -/

/-- The loop's counts are the counts of some bytes, one for each turn (R90, U3). -/
theorem countedTo_freq (s : State) (n : Nat) : ∃ bs : List Byte, bs.length = n ∧ (countedTo s n).freq = symbolCounts bs := by
  induction n with
  | zero => exact ⟨[], rfl, by rw [countedTo_zero]⟩
  | succ n ih =>
    obtain ⟨bs, hlen, hfreq⟩ := ih
    exact ⟨bs ++ [(memRead n (countedTo s n)).1], by simp [hlen], by rw [countedTo_succ, countByte_of_counts hfreq]⟩

/-- Every element of a list is counted at one value. -/
theorem sum_count_eq_length {α : Type} [Fintype α] [DecidableEq α] (l : List α) : ∑ a, l.count a = l.length := by
  simpa only [Multiset.coe_count, Multiset.coe_card] using
    Multiset.sum_count_eq_card (m := (l : Multiset α)) fun a _ => Finset.mem_univ a

/-- Every byte is counted in one register. -/
theorem sum_count_symbols (bs : List Byte) : ∑ x : Fin 256, bs.count (BitVec.ofFin x) = bs.length := by
  have hcount (x : Fin 256) : (bs.map BitVec.toFin).count x = bs.count (BitVec.ofFin x) :=
    List.count_map_of_injective bs BitVec.toFin (fun _ _ => BitVec.eq_of_toFin_eq) (BitVec.ofFin x)
  rw [← List.length_map BitVec.toFin, ← sum_count_eq_length]
  exact Finset.sum_congr rfl fun x _ => (hcount x).symm

/-- Counts of fewer than `2^64` bytes do not wrap, so they sum to the number of bytes. -/
theorem freqSum_of_counts {t : State} {bs : List Byte} (hlen : bs.length < 2 ^ 64) (h : t.freq = symbolCounts bs) :
    freqSum t = bs.length := by
  rw [freqSum, h, ← sum_count_symbols bs, ← List.sum_ofFn, symbolCounts, Vector.toList_ofFn, List.map_ofFn]
  congr 2
  funext x
  have hfits : bs.count (BitVec.ofFin x) < 2 ^ 64 := List.count_le_length.trans_lt hlen
  simpa using hfits

/-- Settles O16: FCNT's one error is at entry, and what it counted is as many bytes as the loop has turns. -/
theorem fcntCountsSumToTheLength : Obligations.FcntCountsSumToTheLength := by
  intro s herr hcap
  have hframe := fcntBody_frame (fcntBody_eq s)
  obtain ⟨hkept, -, -⟩ := hframe.errorBits
  obtain ⟨bs, hlen, hfreq⟩ := countedTo_freq s s.ilen.toNat
  exact ⟨_, runCommand_ok herr (fcntEntry_of_le hcap) (fcntBody_eq s), hkept.trans herr, hframe.ilen,
    (freqSum_of_counts (hlen ▸ s.ilen.isLt) hfreq).trans hlen⟩

end Sys2Proof.Machine
end

section
/-! SUPPORT. What BUILD's loops do to the entries in use (41_tree_builder R96 to R100): the leaves are appended in increasing order
of symbol, and each turn of the merging loop appends the entry that joins the two live entries of least key. -/

namespace Sys2Proof.Machine

/-! ### The entries in use, as a list -/

/-- The entries below `NNODE`, by rising index (R17). -/
def usedEntries (s : State) : List Node := s.arena.toList.take s.nnode.toNat

theorem usedEntries_getElem? {s : State} {k : Nat} {m : Node} :
    (usedEntries s)[k]? = some m ↔ k < s.nnode.toNat ∧ s.node? k = some m := by
  simp [usedEntries, State.node?, List.getElem?_take]

theorem usedEntries_length {s : State} (h : s.nnode.toNat ≤ 511) : (usedEntries s).length = s.nnode.toNat := by
  simp [usedEntries, h]

theorem usedEntries_pushNode {s : State} (hroom : s.nnode.toNat < 511) (n : Node) :
    usedEntries (pushNode n s) = usedEntries s ++ [n] := by
  have harena : (pushNode n s).arena.toList = s.arena.toList.set s.nnode.toNat n := Vector.toList_setIfInBounds
  rw [usedEntries, harena, pushNode_nnode_toNat hroom, List.take_add_one, List.take_set_of_le le_rfl]
  simp [usedEntries, hroom]

/-- The entries in use are what the indices below `NNODE` name. -/
theorem filterMap_node?_range (s : State) (k : Nat) : (List.range k).filterMap s.node? = s.arena.toList.take k := by
  induction k with
  | zero => simp
  | succ k ih =>
    rw [List.range_succ, List.filterMap_append, ih, List.take_add_one, Vector.getElem?_toList]
    cases h : s.node? k <;> simp_all [State.node?]

/-! ### Keys -/

/-- The key `(NODE[i].W, i)` (R98), in lexicographic order. -/
def nodeKey (s : State) (i : Nat) : ℕ ×ₗ ℕ := toLex ((s.weightAt i).toNat, i)

theorem nodeKey_injective (s : State) : Function.Injective (nodeKey s) := fun _ _ h => congrArg (fun p => (ofLex p).2) h

theorem keyLt_iff {s : State} {i j : Nat} : keyLt s i j ↔ nodeKey s i < nodeKey s j := by
  simp [keyLt, nodeKey, Prod.Lex.toLex_lt_toLex, BitVec.lt_def, BitVec.toNat_inj]

theorem keyBefore_iff {s : State} {i j : Nat} : keyBefore s i j = true ↔ nodeKey s i < nodeKey s j := by
  simp [← keyLt_iff, keyLt, keyBefore]

theorem keyLt_of_le {s : State} {i j : Nat} (h : nodeKey s i ≤ nodeKey s j) (hne : i ≠ j) : keyLt s i j :=
  keyLt_iff.mpr (h.lt_of_ne ((nodeKey_injective s).ne hne))

theorem leastKey_le {s : State} {live : List Nat} {a : Nat} (h : leastKey s live = some a) :
    ∀ i ∈ live, nodeKey s a ≤ nodeKey s i := by
  induction live generalizing a with
  | nil => simp
  | cons j live ih =>
    rw [leastKey] at h
    rw [List.forall_mem_cons]
    split at h
    · rename_i hnone
      obtain rfl := Option.some.inj h
      simp [leastKey_eq_none hnone]
    · rename_i k hk
      split at h
      · rename_i hbefore
        obtain rfl := Option.some.inj h
        exact ⟨le_rfl, fun i hi => (keyBefore_iff.mp hbefore).le.trans (ih hk i hi)⟩
      · rename_i hbefore
        obtain rfl := Option.some.inj h
        exact ⟨not_lt.mp (mt keyBefore_iff.mpr hbefore), ih hk⟩

/-- A pop takes the element of least key (R98). -/
theorem popLeast_le {s : State} {live live' : List Nat} {a : Nat} (h : popLeast s live = some (a, live')) :
    ∀ i ∈ live, nodeKey s a ≤ nodeKey s i := by
  unfold popLeast at h
  split at h
  · simp at h
  · rename_i hleast
    obtain ⟨rfl, -⟩ := Prod.mk.inj (Option.some.inj h)
    exact leastKey_le hleast

/-! ### The loops -/

/-- What every turn of the merging loop keeps holds at its end. -/
theorem mergeLoop_keeps {P : List Nat → State → Prop}
    (hmerge : ∀ live live₁ live₂ a b s, P live s → popLeast s live = some (a, live₁) → popLeast s live₁ = some (b, live₂) →
      P (live₂ ++ [s.nnode.toNat]) (pushNode (mergedNode s a b) s))
    (turns : Nat) {live : List Nat} {s : State} (h : P live s) :
    P (mergeLoop turns live s).1 (mergeLoop turns live s).2 := by
  induction turns generalizing live s with
  | zero => exact h
  | succ turns ih =>
    rw [mergeLoop]
    split
    · exact h
    · rename_i a live₁ h₁
      split
      · exact h
      · rename_i b live₂ h₂
        exact ih (hmerge live live₁ live₂ a b s h h₁ h₂)

/-- Nothing but the arena's entries and their number differs. -/
def onlyEntriesDiffer (s t : State) : Prop := ∃ a n, t = { s with arena := a, nnode := n }

theorem onlyEntriesDiffer.pushNode {s t : State} (h : onlyEntriesDiffer s t) (n : Node) :
    onlyEntriesDiffer s (pushNode n t) := by
  obtain ⟨a, k, rfl⟩ := h
  exact ⟨_, _, rfl⟩

theorem onlyEntriesDiffer_seedLeaves (s : State) : onlyEntriesDiffer s (seedLeaves s) := by
  refine List.foldlRecOn (List.range 256) seedSymbol ⟨_, _, rfl⟩ fun u hu k _ => ?_
  rcases seedSymbol_eq u k with h | ⟨n, -, h⟩ <;> rw [h]
  · exact hu
  · exact hu.pushNode n

theorem onlyEntriesDiffer_mergedLeaves (s : State) : onlyEntriesDiffer s (mergedLeaves s).2 :=
  mergeLoop_keeps (P := fun _ => onlyEntriesDiffer s) (fun _ _ _ _ _ _ hu _ _ => hu.pushNode _) _
    (onlyEntriesDiffer_seedLeaves s)

theorem exec_build_eq {s : State} (herr : s.err = false) : exec .build s = .next (buildTree s) :=
  runCommand_ok (c := buildCommand) herr rfl rfl

theorem buildTree_eq_of_exec {s t : State} (herr : s.err = false) (h : exec .build s = .next t) : buildTree s = t :=
  Host.Outcome.next.inj ((exec_build_eq herr).symm.trans h)

/-- Settles O17: the two loops change the arena alone, and what follows them writes `ROOT` and the flags. -/
theorem buildAlwaysCompletes : Obligations.BuildAlwaysCompletes := by
  intro s herr
  obtain ⟨a, n, h⟩ := onlyEntriesDiffer_mergedLeaves s
  exact ⟨a, n, rootOf (mergedLeaves s).1, by simp only [exec_build_eq herr, buildTree_eq, h, setTreeValid]⟩

/-! ### The leaves -/

/-- The leaf of a symbol with a non-zero frequency (R96). -/
def symbolLeaf (s : State) (x : Byte) : Node := leafNode x ((s.freqAt x).setWidth 72)

theorem freqAt_congr {s u : State} (h : u.freq = s.freq) (x : Byte) : u.freqAt x = s.freqAt x := by
  simp [State.freqAt, h]

theorem presentSymbols_congr {s u : State} (h : u.freq = s.freq) : presentSymbols u = presentSymbols s := by
  simp only [presentSymbols, freqAt_congr h]

theorem usedEntries_seedSymbols {s : State} (ks : List Nat) {u : State} (hfreq : u.freq = s.freq)
    (hlen : u.nnode.toNat + ks.length ≤ 256) :
    usedEntries (ks.foldl seedSymbol u) =
      usedEntries u ++ ((ks.map (BitVec.ofNat 8)).filter (fun x => s.freqAt x != 0)).map (symbolLeaf s) := by
  induction ks generalizing u with
  | nil => simp
  | cons k ks ih =>
    rw [List.length_cons] at hlen
    rw [List.foldl_cons, List.map_cons]
    by_cases h0 : s.freqAt (BitVec.ofNat 8 k) = 0
    · have hskip : seedSymbol u k = u := by simp [seedSymbol, freqAt_congr hfreq, h0]
      rw [hskip, ih hfreq (by omega), List.filter_cons_of_neg (by simp [h0])]
    · have hroom : u.nnode.toNat < 511 := by omega
      have hpush : seedSymbol u k = pushNode (symbolLeaf s (BitVec.ofNat 8 k)) u := by
        simp only [seedSymbol, freqAt_congr hfreq, h0, if_false, symbolLeaf]
      rw [hpush, ih (u := pushNode _ u) hfreq (by rw [pushNode_nnode_toNat hroom]; omega), usedEntries_pushNode hroom,
        List.filter_cons_of_pos (by simpa using h0)]
      simp

/-- The first loop leaves one leaf for each present symbol, in increasing order (R96). -/
theorem usedEntries_seedLeaves (s : State) : usedEntries (seedLeaves s) = (presentSymbols s).map (symbolLeaf s) :=
  usedEntries_seedSymbols (List.range 256) (u := { s with nnode := 0 }) rfl
    (show 0 + (List.range 256).length ≤ 256 by rw [List.length_range])

theorem seedLeaves_nnode (s : State) : (seedLeaves s).nnode.toNat = (presentSymbols s).length := by
  have hbound := (seedLeaves_leaves s).2
  rw [← usedEntries_length (s := seedLeaves s) (by omega), usedEntries_seedLeaves, List.length_map]

theorem presentSymbols_length_le (s : State) : (presentSymbols s).length ≤ 256 :=
  seedLeaves_nnode s ▸ (seedLeaves_leaves s).2

theorem node?_seedLeaves {s : State} {k : Nat} {x : Byte} (h : (presentSymbols s)[k]? = some x) :
    (seedLeaves s).node? k = some (symbolLeaf s x) :=
  (usedEntries_getElem?.mp (by simp [usedEntries_seedLeaves, h])).2

/-! ### Weights -/

theorem weightAt_of_node? {s : State} {i : Nat} {m : Node} (h : s.node? i = some m) : s.weightAt i = m.weight := by
  simp [State.weightAt, h]

theorem weightAt_congr {s u : State} {i : Nat} (h : u.node? i = s.node? i) : u.weightAt i = s.weightAt i := by
  simp [State.weightAt, h]

/-- The sum of the weights of the listed entries, unbounded. -/
def weightSum (s : State) (live : List Nat) : Nat := (live.map fun i => (s.weightAt i).toNat).sum

@[simp] theorem weightSum_cons (s : State) (i : Nat) (live : List Nat) :
    weightSum s (i :: live) = (s.weightAt i).toNat + weightSum s live := by
  simp [weightSum]

theorem weightSum_perm (s : State) {live live' : List Nat} (h : live.Perm live') : weightSum s live = weightSum s live' :=
  (h.map _).sum_eq

theorem weightSum_congr {s u : State} {live : List Nat} (h : ∀ i ∈ live, u.node? i = s.node? i) :
    weightSum u live = weightSum s live :=
  congrArg List.sum (List.map_congr_left fun i hi => congrArg BitVec.toNat (weightAt_congr (h i hi)))

/-- The elements left out of a sum are zeros. -/
theorem sum_map_filter_of_zero {α : Type} (p : α → Bool) (f : α → Nat) (hf : ∀ x, p x = false → f x = 0) (l : List α) :
    ((l.filter p).map f).sum = (l.map f).sum := by
  induction l with
  | nil => rfl
  | cons x l ih => cases hx : p x <;> simp [hx, ih, hf]

/-- The frequencies of the present symbols sum to all there is. -/
theorem sum_presentSymbols (s : State) : ((presentSymbols s).map fun x => (s.freqAt x).toNat).sum = freqSum s := by
  have hall : s.freq.toList.map BitVec.toNat =
      ((List.range 256).map (BitVec.ofNat 8)).map fun x => (s.freqAt x).toNat :=
    List.ext_getElem (by simp) fun i hi _ => by
      have hi : i < 256 := by simpa using hi
      simp [State.freqAt, Nat.mod_eq_of_lt hi]
  rw [presentSymbols, sum_map_filter_of_zero _ _ (fun x hx => by simp_all), freqSum, hall]

/-- A sum of 256 registers of 64 bits fits 72 bits (R100). -/
theorem freqSum_lt (s : State) : freqSum s < 2 ^ 72 := by
  have hle := List.sum_le_card_nsmul (s.freq.toList.map BitVec.toNat) (2 ^ 64 - 1) (by
    simp only [List.mem_map, forall_exists_index, and_imp]
    intro _ x _ rfl
    have := x.isLt
    omega)
  simp only [List.length_map, Vector.length_toList, smul_eq_mul] at hle
  unfold freqSum
  omega

theorem weightSum_seedLeaves (s : State) :
    weightSum (seedLeaves s) (List.range (seedLeaves s).nnode.toNat) = freqSum s := by
  rw [← sum_presentSymbols, seedLeaves_nnode]
  refine congrArg List.sum (List.ext_getElem (by simp) fun i hi _ => ?_)
  have hi : i < (presentSymbols s).length := by simpa using hi
  have hnode := node?_seedLeaves (List.getElem?_eq_getElem hi)
  have hfits := (s.freqAt (presentSymbols s)[i]).isLt
  simp only [List.getElem_map, List.getElem_range, weightAt_of_node? hnode, symbolLeaf, leafNode, BitVec.toNat_setWidth]
  omega

end Sys2Proof.Machine
end

section
/-! SUPPORT. What the entries of BUILD are (41_tree_builder R96 to R102): the invariant of its merging loop, from which the
obligations follow. -/

namespace Sys2Proof.Machine

/-! ### The live set of a moment depends on the entries made before it -/

section
variable {s u : State} {k : Nat} (hs : k ≤ s.nnode.toNat) (hu : k ≤ u.nnode.toNat)
  (hnodes : ∀ j, j < k → u.node? j = s.node? j)
include hs hu hnodes

theorem isChildOn_congr {p i : Nat} {side : Bool} (hp : p < k) : isChildOn u p side i ↔ isChildOn s p side i := by
  simp [isChildOn, hnodes p hp, Nat.lt_of_lt_of_le hp hs, Nat.lt_of_lt_of_le hp hu]

theorem liveBefore_congr {i : Nat} : liveBefore u k i ↔ liveBefore s k i :=
  and_congr_right fun _ => forall_congr' fun _ => forall_congr' fun _ => imp_congr_right fun hp =>
    not_congr (isChildOn_congr hs hu hnodes hp)

end

/-- The children of an entry just made. -/
theorem isChildOn_pushNode_new {s : State} (hroom : s.nnode.toNat < 511) {n : Node} (hl : n.leaf = false) {side : Bool}
    {i : Nat} : isChildOn (pushNode n s) s.nnode.toNat side i ↔ (childOf n side).toNat = i := by
  simp only [isChildOn, pushNode_nnode_toNat hroom, Nat.lt_succ_self, pushNode_node?_new hroom, Option.some.injEq,
    true_and, exists_eq_left', hl]

/-- Making entry `k` takes its children out of the live set and puts it in (R97). -/
theorem liveBefore_succ {s : State} {k : Nat} (hkids : ∀ {p side i}, isChildOn s p side i → i < p) {i : Nat} :
    liveBefore s (k + 1) i ↔ i = k ∨ (liveBefore s k i ∧ ∀ side, ¬ isChildOn s k side i) where
  mp := fun ⟨hi, hfree⟩ =>
    (Nat.lt_succ_iff_lt_or_eq.mp hi).symm.imp_right fun hlt =>
      ⟨⟨hlt, fun p side hp => hfree p side (Nat.lt_succ_of_lt hp)⟩, fun side => hfree k side (Nat.lt_succ_self k)⟩
  mpr h := by
    rcases h with rfl | ⟨⟨hi, hfree⟩, hnew⟩
    · refine ⟨Nat.lt_succ_self i, fun p side hp hchild => ?_⟩
      have := hkids hchild
      omega
    · refine ⟨Nat.lt_succ_of_lt hi, fun p side hp => ?_⟩
      rcases Nat.lt_succ_iff_lt_or_eq.mp hp with hp | rfl
      · exact hfree p side hp
      · exact hnew side

/-! ### The entry that joins the two live entries of least key -/

/-- Entry `m`, made as entry `k`, joins the two live entries of least key and weighs their sum (R97 to R100). -/
def JoinsLeast (s : State) (k : Nat) (m : Node) : Prop :=
  liveBefore s k m.left.toNat ∧ liveBefore s k m.right.toNat ∧ keyLt s m.left.toNat m.right.toNat ∧
    (∀ i, liveBefore s k i → i = m.left.toNat ∨ i = m.right.toNat ∨ keyLt s m.right.toNat i) ∧
    m.weight.toNat = (s.weightAt m.left.toNat).toNat + (s.weightAt m.right.toNat).toNat

theorem JoinsLeast.congr {s u : State} {k : Nat} {m : Node} (h : JoinsLeast s k m) (hs : k ≤ s.nnode.toNat)
    (hu : k ≤ u.nnode.toNat) (hnodes : ∀ j, j < k → u.node? j = s.node? j) : JoinsLeast u k m := by
  obtain ⟨hleft, hright, horder, hleast, hweight⟩ := h
  have hlive {i : Nat} : liveBefore u k i ↔ liveBefore s k i := liveBefore_congr hs hu hnodes
  have hw {i : Nat} (hi : liveBefore s k i) : u.weightAt i = s.weightAt i := weightAt_congr (hnodes i hi.1)
  have hkey {i j : Nat} (hi : liveBefore s k i) (hj : liveBefore s k j) : keyLt u i j ↔ keyLt s i j := by
    simp only [keyLt, hw hi, hw hj]
  refine ⟨hlive.mpr hleft, hlive.mpr hright, (hkey hleft hright).mpr horder, fun i hi => ?_, ?_⟩
  · have hi := hlive.mp hi
    exact (hleast i hi).imp_right (Or.imp_right (hkey hright hi).mpr)
  · rw [hw hleft, hw hright, hweight]

section
variable {s : State} {k : Nat} {m m' : Node} (h : JoinsLeast s k m)
include h

theorem JoinsLeast.left_le {i : Nat} (hi : liveBefore s k i) : nodeKey s m.left.toNat ≤ nodeKey s i := by
  obtain ⟨-, -, horder, hleast, -⟩ := h
  have hlr := keyLt_iff.mp horder
  rcases hleast i hi with rfl | rfl | hlt
  · exact le_rfl
  · exact hlr.le
  · exact (hlr.trans (keyLt_iff.mp hlt)).le

theorem JoinsLeast.right_le {i : Nat} (hi : liveBefore s k i) (hne : i ≠ m.left.toNat) : nodeKey s m.right.toNat ≤ nodeKey s i := by
  obtain ⟨-, -, -, hleast, -⟩ := h
  rcases (hleast i hi).resolve_left hne with rfl | hlt
  · exact le_rfl
  · exact (keyLt_iff.mp hlt).le

theorem JoinsLeast.right_ne_left : m.right.toNat ≠ m.left.toNat := by
  obtain ⟨-, -, horder, -⟩ := h
  intro heq
  rw [keyLt_iff, heq] at horder
  exact lt_irrefl _ horder

/-- The keys are all different, so there is no choice (R98). -/
theorem JoinsLeast.unique (h' : JoinsLeast s k m') : m.left = m'.left ∧ m.right = m'.right ∧ m.weight = m'.weight := by
  obtain ⟨hleft, hright, -, -, hweight⟩ := id h
  obtain ⟨hleft', hright', -, -, hweight'⟩ := id h'
  have hl : m.left.toNat = m'.left.toNat := nodeKey_injective s ((h.left_le hleft').antisymm (h'.left_le hleft))
  have hr : m.right.toNat = m'.right.toNat := nodeKey_injective s
    ((h.right_le hright' (hl ▸ h'.right_ne_left)).antisymm (h'.right_le hright (hl ▸ h.right_ne_left)))
  refine ⟨BitVec.eq_of_toNat_eq hl, BitVec.eq_of_toNat_eq hr, BitVec.eq_of_toNat_eq ?_⟩
  rw [hweight, hweight', hl, hr]

end

/-- Every internal entry in use is so made. -/
def internalsJoinLeast (s : State) : Prop :=
  ∀ k m, k < s.nnode.toNat → s.node? k = some m → m.leaf = false → JoinsLeast s k m

/-- Children stand before their parents (R102). -/
theorem internalsJoinLeast.child_lt {s : State} (h : internalsJoinLeast s) {p i : Nat} {side : Bool}
    (hchild : isChildOn s p side i) : i < p := by
  obtain ⟨hp, m, hm, hl, rfl⟩ := hchild
  obtain ⟨hleft, hright, -⟩ := h p m hp hm hl
  cases side
  · exact hleft.1
  · exact hright.1

theorem internalsJoinLeast.pushNode {s : State} (h : internalsJoinLeast s) (hroom : s.nnode.toNat < 511) {n : Node}
    (hn : JoinsLeast s s.nnode.toNat n) : internalsJoinLeast (pushNode n s) := by
  intro k m hk hm hl
  have hused : ∀ j, j < s.nnode.toNat → (Machine.pushNode n s).node? j = s.node? j := fun j hj => pushNode_node?_used n hj
  rcases Nat.lt_succ_iff_lt_or_eq.mp (pushNode_nnode_toNat hroom n ▸ hk) with hlt | rfl
  · rw [hused k hlt] at hm
    exact (h k m hlt hm hl).congr hlt.le hk.le fun j hj => hused j (hj.trans hlt)
  · obtain rfl := Option.some.inj ((pushNode_node?_new hroom n).symm.trans hm)
    exact hn.congr le_rfl hk.le hused

/-! ### The invariant of the merging loop -/

/-- What BUILD's second loop makes. -/
def isInnerNode (m : Node) : Prop := ∃ l r w, m = innerNode l r w

/-- BUILD, started at `s`, has come to `t` with the set `live`: the leaves stand first, every entry after them joined the two
least, and the live entries weigh as much as the leaves. -/
structure Building (s : State) (live : List Nat) (t : State) : Prop where
  entries : ∃ inner, (∀ m ∈ inner, isInnerNode m) ∧ usedEntries t = (presentSymbols s).map (symbolLeaf s) ++ inner
  count : live.length + t.nnode.toNat = 2 * (presentSymbols s).length
  nodup : live.Nodup
  mem_live : ∀ i, i ∈ live ↔ liveBefore t t.nnode.toNat i
  joins : internalsJoinLeast t
  weight : weightSum t live = freqSum s

section
variable {s t : State} {live : List Nat} (h : Building s live t)
include h

/-- A leaf of its own for each present symbol (R96). -/
theorem Building.node?_leaf {k : Nat} {x : Byte} (hx : (presentSymbols s)[k]? = some x) :
    t.node? k = some (symbolLeaf s x) := by
  obtain ⟨inner, -, hentries⟩ := h.entries
  refine (usedEntries_getElem?.mp ?_).2
  have hk : k < ((presentSymbols s).map (symbolLeaf s)).length := by simpa using (List.getElem?_eq_some_iff.mp hx).1
  rw [hentries, List.getElem?_append_left hk, List.getElem?_map, hx, Option.map_some]

/-- After the leaves every entry is internal (R97). -/
theorem Building.node?_inner {k : Nat} {m : Node} (hge : (presentSymbols s).length ≤ k) (hk : k < t.nnode.toNat)
    (hm : t.node? k = some m) : isInnerNode m := by
  obtain ⟨inner, hinner, hentries⟩ := h.entries
  have hget := usedEntries_getElem?.mpr ⟨hk, hm⟩
  rw [hentries, List.getElem?_append_right (by simpa using hge)] at hget
  exact hinner m (List.mem_of_getElem? hget)

/-- The entry made last is live. -/
theorem Building.last_mem_live (hpos : 0 < t.nnode.toNat) : t.nnode.toNat - 1 ∈ live := by
  refine (h.mem_live _).mpr ⟨by omega, fun p side hp hchild => ?_⟩
  have := h.joins.child_lt hchild
  omega

/-- When at most one entry is live, it is the last of `2n - 1` (R97, R101). -/
theorem Building.finished (hlen : live.length ≤ 1) :
    (presentSymbols s = [] ∧ live = [] ∧ t.nnode.toNat = 0) ∨
      (presentSymbols s ≠ [] ∧ live = [t.nnode.toNat - 1] ∧ t.nnode.toNat = 2 * (presentSymbols s).length - 1) := by
  have hcount := h.count
  by_cases hsyms : presentSymbols s = []
  · rw [hsyms, List.length_nil] at hcount
    exact .inl ⟨hsyms, List.eq_nil_of_length_eq_zero (by omega), by omega⟩
  · have hpos := List.length_pos_iff.mpr hsyms
    have hlast := h.last_mem_live (by omega)
    obtain ⟨i, rfl⟩ := List.length_eq_one_iff.mp (hlen.antisymm (List.length_pos_of_mem hlast))
    rw [List.length_singleton] at hcount
    rw [List.mem_singleton.mp hlast]
    exact .inr ⟨hsyms, rfl, by omega⟩

/-- Only the arena and `NNODE` matter. -/
theorem Building.congr {u : State} (ha : u.arena = t.arena) (hn : u.nnode = t.nnode) : Building s live u := by
  have hnodes : ∀ j, u.node? j = t.node? j := fun j => by simp only [State.node?, ha]
  refine ⟨?_, hn ▸ h.count, h.nodup, fun i => ?_, fun k m hk hm hl => ?_, ?_⟩
  · simpa only [usedEntries, ha, hn] using h.entries
  · rw [h.mem_live, hn, liveBefore_congr le_rfl (by rw [hn]) fun j _ => hnodes j]
  · rw [hn] at hk
    exact (h.joins k m hk (hnodes k ▸ hm) hl).congr hk.le (hn ▸ hk.le) fun j _ => hnodes j
  · exact (weightSum_congr fun i _ => hnodes i).trans h.weight

end

/-- The leaves alone, all of them live (R96, R97). -/
theorem building_seedLeaves (s : State) : Building s (List.range (seedLeaves s).nnode.toNat) (seedLeaves s) := by
  have hleaf : ∀ i m, i < (seedLeaves s).nnode.toNat → (seedLeaves s).node? i = some m → m.leaf = true := fun i m hi hm => by
    obtain ⟨x, w, rfl⟩ := (seedLeaves_leaves s).1 i m hi hm
    rfl
  refine ⟨⟨[], by simp, by simp [usedEntries_seedLeaves]⟩, ?_, List.nodup_range, fun i => ?_, fun k m hk hm hl => ?_,
    weightSum_seedLeaves s⟩
  · rw [List.length_range, seedLeaves_nnode]
    omega
  · rw [List.mem_range]
    refine ⟨fun hi => ⟨hi, ?_⟩, And.left⟩
    rintro p side - ⟨hp, m, hm, hl, -⟩
    simp [hleaf p m hp hm] at hl
  · simp [hleaf k m hk hm] at hl

/-- Two pops take two elements out of the live set (R97). -/
theorem pops_perm {s : State} {live live₁ live₂ : List Nat} {a b : Nat}
    (ha : popLeast s live = some (a, live₁)) (hb : popLeast s live₁ = some (b, live₂)) : live.Perm (a :: b :: live₂) :=
  (popLeast_perm ha).trans ((popLeast_perm hb).cons a)

section
variable {s t : State} {live live₁ live₂ : List Nat} {a b : Nat} (h : Building s live t)
  (ha : popLeast t live = some (a, live₁)) (hb : popLeast t live₁ = some (b, live₂))
include h ha hb

theorem Building.room : t.nnode.toNat < 511 := by
  have hcount := h.count
  have hlen := (pops_perm ha hb).length_eq
  have := presentSymbols_length_le s
  simp only [List.length_cons] at hlen
  omega

/-- A sum of live weights is no larger than the sum of the frequencies, so it does not wrap (R100). -/
theorem Building.merged_weight :
    (t.weightAt a + t.weightAt b).toNat = (t.weightAt a).toNat + (t.weightAt b).toNat := by
  have hsum : (t.weightAt a).toNat + ((t.weightAt b).toNat + weightSum t live₂) = freqSum s := by
    rw [← h.weight, weightSum_perm t (pops_perm ha hb), weightSum_cons, weightSum_cons]
  have := freqSum_lt s
  exact BitVec.toNat_add_of_lt (by omega)

/-- A live index fits the 9 bits of a child field (R16). -/
theorem Building.index_toNat {i : Nat} (hi : i ∈ live) : (BitVec.ofNat 9 i).toNat = i := by
  obtain ⟨hlt, -⟩ := (h.mem_live i).mp hi
  have := h.room ha hb
  exact Nat.mod_eq_of_lt (by omega)

theorem Building.merged_left : (mergedNode t a b).left.toNat = a :=
  h.index_toNat ha hb ((pops_perm ha hb).mem_iff.mpr (by simp))

theorem Building.merged_right : (mergedNode t a b).right.toNat = b :=
  h.index_toNat ha hb ((pops_perm ha hb).mem_iff.mpr (by simp))

/-- After the two pops the live set is what no entry, the new one included, has as a child (R97). -/
theorem Building.mem_popped {i : Nat} : i ∈ live₂ ↔ i ∈ live ∧
    ∀ side, ¬ isChildOn (pushNode (mergedNode t a b) t) t.nnode.toNat side i := by
  have hperm := pops_perm ha hb
  obtain ⟨hanot, hrest⟩ := List.nodup_cons.mp (hperm.nodup_iff.mp h.nodup)
  obtain ⟨hbnot, -⟩ := List.nodup_cons.mp hrest
  have hfree : (∀ side, ¬ isChildOn (pushNode (mergedNode t a b) t) t.nnode.toNat side i) ↔ a ≠ i ∧ b ≠ i := by
    rw [Bool.forall_bool, isChildOn_pushNode_new (h.room ha hb) rfl, isChildOn_pushNode_new (h.room ha hb) rfl]
    simp only [childOf, Bool.false_eq_true, if_false, if_true, h.merged_left ha hb, h.merged_right ha hb]
  rw [hfree, hperm.mem_iff, List.mem_cons, List.mem_cons]
  constructor
  · intro hi
    refine ⟨.inr (.inr hi), fun hai => hanot ?_, fun hbi => hbnot (hbi ▸ hi)⟩
    exact hai ▸ List.mem_cons_of_mem b hi
  · rintro ⟨rfl | rfl | hi, hne⟩
    · exact absurd rfl hne.1
    · exact absurd rfl hne.2
    · exact hi

/-- The first two pops are the two least (R98 to R100). -/
theorem Building.joinsLeast_mergedNode : JoinsLeast t t.nnode.toNat (mergedNode t a b) := by
  have hperm := pops_perm ha hb
  have hmem {i : Nat} : liveBefore t t.nnode.toNat i ↔ i = a ∨ i = b ∨ i ∈ live₂ := by
    rw [← h.mem_live, hperm.mem_iff, List.mem_cons, List.mem_cons]
  have hnodup := hperm.nodup_iff.mp h.nodup
  have hbmem : b ∈ live := hperm.mem_iff.mpr (by simp)
  have hne : a ≠ b := fun heq => by simp [heq] at hnodup
  unfold JoinsLeast
  rw [h.merged_left ha hb, h.merged_right ha hb]
  refine ⟨hmem.mpr (.inl rfl), hmem.mpr (.inr (.inl rfl)), keyLt_of_le (popLeast_le ha b hbmem) hne, fun i hi => ?_,
    h.merged_weight ha hb⟩
  by_cases hib : i = b
  · exact .inr (.inl hib)
  · refine (hmem.mp hi).imp_right fun hi => .inr (keyLt_of_le (popLeast_le hb i ?_) (Ne.symm hib))
    exact (popLeast_perm hb).mem_iff.mpr (List.mem_cons.mpr hi)

/-- A turn of the merging loop keeps the invariant. -/
theorem Building.merge : Building s (live₂ ++ [t.nnode.toNat]) (pushNode (mergedNode t a b) t) := by
  have hroom := h.room ha hb
  have hperm := pops_perm ha hb
  have hnnode := pushNode_nnode_toNat hroom (mergedNode t a b)
  have hkeep {i : Nat} (hi : i < t.nnode.toNat) : (pushNode (mergedNode t a b) t).node? i = t.node? i :=
    pushNode_node?_used _ hi
  have hlt {i : Nat} (hi : i ∈ live₂) : i < t.nnode.toNat :=
    ((h.mem_live i).mp (hperm.mem_iff.mpr (by simp [hi]))).1
  have hjoins := h.joins.pushNode hroom (h.joinsLeast_mergedNode ha hb)
  constructor
  case entries =>
    obtain ⟨inner, hinner, hentries⟩ := h.entries
    refine ⟨inner ++ [mergedNode t a b], List.forall_mem_append.mpr ⟨hinner, ?_⟩, ?_⟩
    · exact List.forall_mem_singleton.mpr ⟨_, _, _, rfl⟩
    · rw [usedEntries_pushNode hroom, hentries, List.append_assoc]
  case count =>
    have hcount := h.count
    have hlen := hperm.length_eq
    rw [hnnode, List.length_append, List.length_singleton]
    simp only [List.length_cons] at hlen
    omega
  case nodup =>
    refine (List.perm_append_singleton _ _).nodup_iff.mpr (List.nodup_cons.mpr ⟨fun hmem => (hlt hmem).false, ?_⟩)
    exact (hperm.nodup_iff.mp h.nodup).of_cons.of_cons
  case mem_live =>
    intro i
    rw [hnnode, liveBefore_succ hjoins.child_lt, liveBefore_congr le_rfl (by omega) fun _ => hkeep, ← h.mem_live]
    rw [← h.mem_popped ha hb, List.mem_append, List.mem_singleton, or_comm]
  case joins => exact hjoins
  case weight =>
    rw [weightSum_perm _ (List.perm_append_singleton _ _), weightSum_cons, weightSum_congr fun i hi => hkeep (hlt hi),
      weightAt_of_node? (pushNode_node?_new hroom _), ← h.weight, weightSum_perm t hperm, weightSum_cons, weightSum_cons,
      ← add_assoc, ← h.merged_weight ha hb]
    rfl

end

/-- BUILD ends with at most one live entry, which is `ROOT` (R97). -/
theorem building_buildTree (s : State) :
    ∃ live, live.length ≤ 1 ∧ Building s live (buildTree s) ∧ (buildTree s).root = rootOf live := by
  have hmerged : Building s (mergedLeaves s).1 (mergedLeaves s).2 :=
    mergeLoop_keeps (P := fun live => Building s live) (fun _ _ _ _ _ _ h ha hb => h.merge ha hb) _ (building_seedLeaves s)
  obtain ⟨-, -, -, hlen⟩ := mergedLeaves_merging s
  rw [buildTree_eq]
  generalize mergedLeaves s = merged at *
  exact ⟨_, hlen, hmerged.congr rfl rfl, rfl⟩

/-- Settles O19: each turn of the merging loop joins the two least, and later turns change neither the entries before an entry
nor what was live when it was made. -/
theorem buildMergesTheTwoLeastLiveNodes : Obligations.BuildMergesTheTwoLeastLiveNodes := by
  intro s t k m herr hexec hk hm hl
  obtain rfl := buildTree_eq_of_exec herr hexec
  obtain ⟨live, -, h, -⟩ := building_buildTree s
  exact h.joins k m hk hm hl

/-- Settles O18: the leaves stand first in the list of entries, and what follows them the merging loop made. -/
theorem buildSeedsOneLeafPerSymbol : Obligations.BuildSeedsOneLeafPerSymbol := by
  intro s t herr hexec
  obtain rfl := buildTree_eq_of_exec herr hexec
  obtain ⟨live, -, h, -⟩ := building_buildTree s
  refine ⟨fun k hk => h.node?_leaf (List.getElem?_eq_getElem hk), fun k m hge hk hm => ?_⟩
  obtain ⟨l, r, w, rfl⟩ := h.node?_inner hge hk hm
  rfl

/-! ### The tree -/

/-- How many entries there are and where the root is (R97, R101, R102). -/
theorem buildTree_size (s : State) :
    (buildTree s).nnode.toNat = 2 * (presentSymbols s).length - 1 ∧
      (buildTree s).root.toNat = (buildTree s).nnode.toNat - 1 := by
  obtain ⟨live, hlen, h, hroot⟩ := building_buildTree s
  have hsyms := presentSymbols_length_le s
  rcases h.finished hlen with ⟨hnil, rfl, hnnode⟩ | ⟨-, rfl, hnnode⟩
  · simp [hroot, rootOf, hnil, hnnode]
  · refine ⟨hnnode, ?_⟩
    rw [hroot, rootOf]
    exact Nat.mod_eq_of_lt (show _ < 512 by omega)

/-- The symbol of a leaf. -/
def leafSym? (m : Node) : Option Byte := if m.leaf then some m.sym else none

/-- A tree's symbols are those of the leaves among the entries it spans. -/
theorem Spans.symbols {s : State} {i : Nat} {t : HuffmanTree} {es : List Nat} (h : Spans s i t es) :
    t.symbols = (es.filterMap s.node?).filterMap leafSym? := by
  induction h with
  | leaf hn hl => simp [HuffmanTree.symbols, hn, leafSym?, hl]
  | node hn hl _ _ ihl ihr => simp [HuffmanTree.symbols, hn, leafSym?, hl, ihl, ihr]

/-- The leaves among the entries are those of the present symbols (R96). -/
theorem Building.leafSyms {s t : State} {live : List Nat} (h : Building s live t) :
    (usedEntries t).filterMap leafSym? = presentSymbols s := by
  obtain ⟨inner, hinner, hentries⟩ := h.entries
  have hnone : inner.filterMap leafSym? = [] := List.filterMap_eq_nil_iff.mpr fun m hm => by
    obtain ⟨l, r, w, rfl⟩ := hinner m hm
    rfl
  have hsome : leafSym? ∘ symbolLeaf s = some := rfl
  rw [hentries, List.filterMap_append, hnone, List.filterMap_map, hsome, List.filterMap_some, List.append_nil]

/-- With a symbol present there is a tree; its leaves are the present symbols, and its root weighs the sum (R102). -/
theorem buildTree_tree {s : State} (hsyms : presentSymbols s ≠ []) :
    ∃ tree, (buildTree s).currentTree = some tree ∧ tree.symbols.Perm (presentSymbols s) ∧
      ((buildTree s).weightAt (buildTree s).root.toNat).toNat = freqSum s := by
  obtain ⟨live, hlen, h, -⟩ := building_buildTree s
  obtain ⟨hsize, hroot⟩ := buildTree_size s
  have hpos := List.length_pos_iff.mpr hsyms
  obtain ⟨-, rfl, -⟩ := (h.finished hlen).resolve_left fun hnil => hsyms hnil.1
  have h0 : (buildTree s).nnode ≠ 0 := fun h0 => by
    rw [h0] at hsize
    have : (0 : NodeCount).toNat = 0 := rfl
    omega
  obtain ⟨tree, es, hspans, hperm, htree⟩ := arenaWf_spans (buildBody_wf (s := s) rfl).1 h0
  refine ⟨tree, htree, ?_, ?_⟩
  · rw [hspans.symbols, ← h.leafSyms, usedEntries, ← filterMap_node?_range]
    exact (hperm.filterMap _).filterMap _
  · rw [hroot, ← h.weight]
    simp [weightSum]

/-! ### A function of `FREQ` -/

/-- Two runs of BUILD on the same frequencies make the same entries: the leaves are given by R96, and each later entry by the
entries before it, since the two least are unique (R98). -/
theorem Building.node?_eq {s s' t t' : State} {live live' : List Nat} (h : Building s live t) (h' : Building s' live' t')
    (hfreq : s'.freq = s.freq) (hn : t'.nnode = t.nnode) (hbound : t.nnode.toNat ≤ 511) :
    ∀ k, k < t.nnode.toNat → t'.node? k = t.node? k := by
  intro k
  induction k using Nat.strong_induction_on with
  | _ k ih =>
    intro hk
    have hsyms := presentSymbols_congr hfreq
    by_cases hleaf : k < (presentSymbols s).length
    · have hx := List.getElem?_eq_getElem hleaf
      rw [h.node?_leaf hx, h'.node?_leaf (by rwa [hsyms]), symbolLeaf, symbolLeaf, freqAt_congr hfreq]
    · have hk' : k < t'.nnode.toNat := hn ▸ hk
      obtain ⟨m, hm⟩ := Option.isSome_iff_exists.mp ((node?_isSome t k).mpr (by omega))
      obtain ⟨m', hm'⟩ := Option.isSome_iff_exists.mp ((node?_isSome t' k).mpr (by omega))
      obtain ⟨l, r, w, rfl⟩ := h.node?_inner (by omega) hk hm
      obtain ⟨l', r', w', rfl⟩ := h'.node?_inner (hsyms ▸ by omega) hk' hm'
      have hjoins := (h.joins k _ hk hm rfl).congr hk.le hk'.le fun j hj => ih j hj (hj.trans hk)
      obtain ⟨hl, hr, hw⟩ := hjoins.unique (h'.joins k _ hk' hm' rfl)
      simp only [innerNode] at hl hr hw
      rw [hm, hm', hl, hr, hw]

theorem buildTree_of_freq {s s' : State} (hfreq : s.freq = s'.freq) :
    (buildTree s).nnode = (buildTree s').nnode ∧ (buildTree s).root = (buildTree s').root ∧
      ∀ i, i < (buildTree s).nnode.toNat → (buildTree s).node? i = (buildTree s').node? i := by
  obtain ⟨hsize, hroot⟩ := buildTree_size s
  obtain ⟨hsize', hroot'⟩ := buildTree_size s'
  have hsyms := presentSymbols_length_le s
  have hnnode : (buildTree s).nnode.toNat = (buildTree s').nnode.toNat := by
    rw [hsize, hsize', presentSymbols_congr hfreq]
  obtain ⟨live, -, h, -⟩ := building_buildTree s
  obtain ⟨live', -, h', -⟩ := building_buildTree s'
  exact ⟨BitVec.eq_of_toNat_eq hnnode, BitVec.eq_of_toNat_eq (by rw [hroot, hroot', hnnode]), fun i hi =>
    (h.node?_eq h' hfreq.symm (BitVec.eq_of_toNat_eq hnnode.symm) (by omega) i hi).symm⟩

/-- Settles O20, clause by clause. -/
theorem buildMakesAWellFormedTree : Obligations.BuildMakesAWellFormedTree := by
  refine ⟨fun s t herr hexec => ?_, fun s s' t t' herr herr' hfreq hexec hexec' => ?_⟩
  · obtain rfl := buildTree_eq_of_exec herr hexec
    obtain ⟨hsize, hroot⟩ := buildTree_size s
    obtain ⟨harena, hfields⟩ := buildBody_wf (s := s) rfl
    obtain ⟨live, -, h, -⟩ := building_buildTree s
    refine ⟨hsize, hroot, harena, hfields, fun p side i => h.joins.child_lt, fun hnil => ?_, buildTree_tree⟩
    rw [hnil] at hsize
    exact if_pos (BitVec.eq_of_toNat_eq hsize)
  · obtain rfl := buildTree_eq_of_exec herr hexec
    obtain rfl := buildTree_eq_of_exec herr' hexec'
    exact buildTree_of_freq hfreq

end Sys2Proof.Machine
end

section
/-! SUPPORT. GENC on a valid tree: it completes and leaves the tree's code book (42_code_generator R111 to R114), of several
leaves with one symbol the last one's code (R116), and the codes of distinct leaves are no prefixes of each other (R115). -/

namespace Sys2Proof.Machine

/-! ### GENC completes (R111, R114) -/

/-- Where a tree is read, the walk completes and has recorded the tree's codes (R111, R112). -/
theorem walk_of_treeAt {depth : Nat} {i : NodeIdx} {s : State} {tree : HuffmanTree} (h : s.treeAt depth i = some tree)
    (p : List Bool) : walk depth i p s = .ok (recordCodes (codes tree p) s) := by
  induction depth generalizing i s tree p with
  | zero => simp [State.treeAt] at h
  | succ depth ih =>
    rcases treeAt_eq_some h with ⟨n, hn, hl, rfl⟩ | ⟨n, l, r, hn, hl, hleft, hright, rfl⟩
    · simp [walk, hn, hl, codes, recordCodes]
    · have hright' : (recordCodes (codes l (p ++ [false])) s).treeAt depth n.right = some r :=
        (treeAt_recordCodes _ s depth n.right).trans hright
      simp [walk, hn, hl, ih hleft, ih hright', codes, recordCodes_append, bind, Except.bind]

theorem treeAt_of_currentTree {s : State} {tree : HuffmanTree} (h : s.currentTree = some tree) :
    s.nnode ≠ 0 ∧ s.treeAt Config.depthMax s.root = some tree :=
  Option.ite_none_left_eq_some.mp h

/-- GENC's body finds the codes of any tree that can be read, and none in an empty arena. -/
theorem gencCodes_completes {s : State} (h : s.nnode = 0 ∨ ∃ tree, s.currentTree = some tree) :
    ∃ t, gencCodes s = .ok t := by
  rcases h with h0 | ⟨tree, htree⟩
  · exact ⟨s, if_pos h0⟩
  · obtain ⟨h0, hread⟩ := treeAt_of_currentTree htree
    have hwalk := walk_of_treeAt hread []
    rcases treeAt_eq_some hread with ⟨n, hn, hl, -⟩ | ⟨n, l, r, hn, hl, -⟩
    · exact ⟨setCode n.sym [false] s, by rw [gencCodes, if_neg h0]; simp [hn, hl]⟩
    · exact ⟨_, by rw [gencCodes, if_neg h0]; simpa [hn, hl] using hwalk⟩

/-- Issued on a valid tree GENC completes; it leaves the tree's code book and changes nothing else but its flag. -/
theorem exec_genc_completes {s : State} (herr : s.err = false) (hvalid : s.treeValid = true)
    (h : s.nnode = 0 ∨ ∃ tree, s.currentTree = some tree) :
    exec .genc s = .next { s with codeBook := codeBookOf s.currentTree, cbValid := true } := by
  have hcur : (clearCodeBook s).currentTree = s.currentTree := currentTree_congr ⟨rfl, rfl, rfl, rfl⟩
  obtain ⟨u, hu⟩ := gencCodes_completes (s := clearCodeBook s) (by simpa [hcur] using h)
  obtain ⟨t, hbody⟩ : ∃ t, gencBody s = .ok t := ⟨_, Except.bind_eq_ok.mpr ⟨u, hu, rfl⟩⟩
  obtain ⟨rfl, -⟩ := gencBody_ok hbody
  exact runCommand_ok herr (gencEntry_eq_none.mpr hvalid) hbody

/-- Settles O21: GENC completes on the empty tree and on every tree that can be read. -/
theorem gencRecordsTheTreePaths : Obligations.GencRecordsTheTreePaths := by
  intro s herr hvalid
  refine ⟨fun h0 => ?_, fun tree htree => ?_⟩
  · have hnone : s.currentTree = none := if_pos h0
    rw [exec_genc_completes herr hvalid (.inl h0), hnone]
    rfl
  · rw [exec_genc_completes herr hvalid (.inr ⟨tree, htree⟩), htree]

/-- After GENC a symbol's entry is the one in the code book of the current tree. -/
theorem codeAt_of_exec_genc {s t : State} {tree : HuffmanTree} (herr : s.err = false) (hvalid : s.treeValid = true)
    (htree : s.currentTree = some tree) (h : exec .genc s = .next t) (x : Byte) :
    t.codeAt x = (recordedBook (treeCodes (some tree)) (Vector.replicate 256 Code.absent))[x.toNat]'(x.isLt) := by
  obtain rfl := Host.Outcome.next.inj (((gencRecordsTheTreePaths s herr hvalid).2 tree htree).symm.trans h)
  simp only [State.codeAt, codeBookOf_eq]

/-! ### Which code is recorded (R116) -/

/-- A symbol that none of the codes is for keeps its entry. -/
theorem recordedBook_of_notMem {cs : List (Byte × List Bool)} {x : Byte} (h : x ∉ cs.map Prod.fst)
    (book : Vector Code 256) : (recordedBook cs book)[x.toNat]'(x.isLt) = book[x.toNat]'(x.isLt) := by
  induction cs generalizing book with
  | nil => rfl
  | cons c cs ih =>
    obtain ⟨hne, hcs⟩ := List.ne_and_not_mem_of_not_mem_cons h
    have hidx : c.1.toNat ≠ x.toNat := fun heq => hne (BitVec.eq_of_toNat_eq heq).symm
    exact (ih hcs _).trans (by simp [hidx])

/-- A symbol's entry holds the last of the codes recorded for it (R116). -/
theorem recordedBook_last {after : List (Byte × List Bool)} {x : Byte} (h : x ∉ after.map Prod.fst)
    (before : List (Byte × List Bool)) (p : List Bool) (book : Vector Code 256) :
    (recordedBook (before ++ (x, p) :: after) book)[x.toNat]'(x.isLt) = codeOfPath p := by
  have hsplit : recordedBook (before ++ (x, p) :: after) book =
      recordedBook after ((recordedBook before book).set x.toNat (codeOfPath p) x.isLt) := List.foldl_append
  simp only [hsplit, recordedBook_of_notMem h, Vector.getElem_set_self]

/-- When each symbol has one code, the entry of a symbol holds it. -/
theorem recordedBook_of_mem {cs : List (Byte × List Bool)} (hnodup : (cs.map Prod.fst).Nodup) {x : Byte} {p : List Bool}
    (h : (x, p) ∈ cs) (book : Vector Code 256) : (recordedBook cs book)[x.toNat]'(x.isLt) = codeOfPath p := by
  obtain ⟨before, after, rfl⟩ := List.append_of_mem h
  rw [List.map_append, List.map_cons] at hnodup
  exact recordedBook_last (List.nodup_cons.mp hnodup.of_append_right).1 before p book

/-! ### An entry read back (R20) -/

/-- Bit `j` of the stored path is its `j`-th step (R20). -/
theorem pathBits_getLsbD {p : List Bool} {j : Nat} (hj : j < p.length) (h255 : p.length ≤ 255) :
    (pathBits p).getLsbD j = p[j] := by
  induction p generalizing j with
  | nil => simp at hj
  | cons b p ih =>
    rw [List.length_cons] at hj h255
    cases j with
    | zero => cases b <;> simp [pathBits]
    | succ j =>
      have hin : j + 1 < 255 := by omega
      have hrest : (pathBits p)[j]'(by omega) = p[j] := ih (j := j) (by omega) (by omega)
      simp [pathBits, hrest, hin]

/-- A path of at most 255 steps is read back from its entry as it was. -/
theorem path_codeOfPath {p : List Bool} (h255 : p.length ≤ 255) : (codeOfPath p).path = p := by
  have hlen : (codeOfPath p).len.toNat = p.length := Nat.mod_eq_of_lt (by omega)
  refine List.ext_getElem (by simp [Code.path, hlen]) fun j _ hj => ?_
  simp only [Code.path, List.getElem_map, List.getElem_range]
  exact pathBits_getLsbD hj h255

/-- The codes of the tree that the arena holds are read back from their entries. -/
theorem path_codeOfPath_of_tree {s : State} {tree : HuffmanTree} (htree : s.currentTree = some tree) {x : Byte}
    {p : List Bool} (hp : (x, p) ∈ treeCodes (some tree)) : (codeOfPath p).path = p :=
  path_codeOfPath (treeCodes_length (height_le_of_treeAt (treeAt_of_currentTree htree).2) hp).2

/-- Settles O22: the only code recorded is `"0"`, for the one leaf's symbol. -/
theorem gencGivesTheOnlySymbolOneZeroBit : Obligations.GencGivesTheOnlySymbolOneZeroBit := by
  intro s t x herr hvalid htree h
  have hbook := codeAt_of_exec_genc herr hvalid htree h
  have hx : t.codeAt x = codeOfPath [false] :=
    (hbook x).trans (recordedBook_last (after := []) List.not_mem_nil [] [false] _)
  refine ⟨?_, ?_, ?_, fun y hy => ?_⟩
  · rw [hx, codeOfPath]
  · rw [hx]
    rfl
  · rw [hx]
    rfl
  · rw [hbook y, recordedBook_of_notMem (by simpa [treeCodes] using hy), Vector.getElem_replicate]

/-- Settles O23: what is recorded after the last leaf of a symbol leaves the symbol's entry alone. -/
theorem gencKeepsTheLastLeafOfASymbol : Obligations.GencKeepsTheLastLeafOfASymbol := by
  intro s t l r x p before after herr hvalid htree hcodes hafter h
  have htc : treeCodes (some (.node l r)) = before ++ (x, p) :: after := hcodes
  have hx : t.codeAt x = codeOfPath p := by
    rw [codeAt_of_exec_genc herr hvalid htree h]
    simp only [htc, recordedBook_last hafter]
  have hmem : (x, p) ∈ treeCodes (some (.node l r)) := by simp [htc]
  exact ⟨hx, hx ▸ path_codeOfPath_of_tree htree hmem⟩

/-! ### Prefix-freeness (R115) -/

/-- Two paths that leave a node on different sides are no prefixes of each other. -/
theorem not_prefix_of_branch {p q q' : List Bool} {b : Bool} (hq : p ++ [b] <+: q) (hq' : p ++ [!b] <+: q') :
    ¬ q <+: q' := by
  intro h
  have hsame : p ++ [b] = p ++ [!b] :=
    (List.prefix_of_prefix_length_le (hq.trans h) hq' (by simp)).eq_of_length (by simp)
  simp at hsame

/-- In a tree the codes of two leaves that carry different symbols are no prefixes of each other. -/
theorem codes_prefixFree {tree : HuffmanTree} {p : List Bool} {x y : Byte} {q q' : List Bool} (hx : (x, q) ∈ codes tree p)
    (hy : (y, q') ∈ codes tree p) (hne : x ≠ y) : ¬ q <+: q' := by
  induction tree generalizing p with
  | leaf z =>
    simp only [codes, List.mem_singleton, Prod.mk.injEq] at hx hy
    exact absurd (hx.1.trans hy.1.symm) hne
  | node l r ihl ihr =>
    rcases List.mem_append.mp hx with hx | hx <;> rcases List.mem_append.mp hy with hy | hy
    · exact ihl hx hy
    · exact not_prefix_of_branch (codes_length hx).1 (codes_length hy).1
    · exact not_prefix_of_branch (codes_length hx).1 (codes_length hy).1
    · exact ihr hx hy

/-- Settles O24: each leaf's symbol has its own path recorded, and paths to distinct leaves branch. -/
theorem gencCodesArePrefixFree : Obligations.GencCodesArePrefixFree := by
  intro s t l r herr hvalid htree hnodup h
  have hbook := codeAt_of_exec_genc herr hvalid htree h
  have hsyms : (treeCodes (some (.node l r))).map Prod.fst = (HuffmanTree.node l r).symbols := codes_symbols _ []
  have hleaf : ∀ x ∈ (HuffmanTree.node l r).symbols,
      ∃ p, (x, p) ∈ codes (.node l r) [] ∧ t.codeAt x = codeOfPath p ∧ (t.codeAt x).path = p := by
    intro x hx
    obtain ⟨⟨_, p⟩, hmem, rfl⟩ := List.mem_map.mp (hsyms ▸ hx)
    have hcode := (hbook _).trans (recordedBook_of_mem (hsyms ▸ hnodup) hmem _)
    exact ⟨p, hmem, hcode, hcode ▸ path_codeOfPath_of_tree htree hmem⟩
  have hpresent : ∀ x, (t.codeAt x).present = true ↔ x ∈ (HuffmanTree.node l r).symbols := by
    refine fun x => ⟨fun hx => ?_, fun hx => ?_⟩
    · by_contra hnot
      rw [hbook x, recordedBook_of_notMem (hsyms ▸ hnot), Vector.getElem_replicate] at hx
      exact Bool.false_ne_true hx
    · obtain ⟨p, -, hcode, -⟩ := hleaf x hx
      rw [hcode, codeOfPath]
  refine ⟨hpresent, fun x y hx hy hne => ?_⟩
  obtain ⟨p, hp, -, hpath⟩ := hleaf x ((hpresent x).mp hx)
  obtain ⟨q, hq, -, hpath'⟩ := hleaf y ((hpresent y).mp hy)
  rw [hpath, hpath']
  exact codes_prefixFree hp hq hne

end Sys2Proof.Machine
end

section
/-! SUPPORT. TSER writes what the layout lays out (30_encoding R65, 43_tree_codec R122): at every turn the output beyond `OLEN0` is
the layout so far, and the open control byte TSER rewrites in place is the one the layout fills. -/

namespace Sys2Proof.Machine

/-! ### One turn of the layout -/

/-- The layout with a control byte open: a new one when the last is full (R65). -/
def LayoutState.opened (q : LayoutState) : LayoutState :=
  if q.nb = 0 then { out := q.out ++ [0], nb := 0, cpos := q.out.length } else q

theorem opened_full {q : LayoutState} (h : q.nb = 0) :
    q.opened = { out := q.out ++ [0], nb := 0, cpos := q.out.length } := if_pos h

theorem opened_filling {q : LayoutState} (h : q.nb ≠ 0) : q.opened = q := if_neg h

theorem layoutItem_byte (x : Byte) (q : LayoutState) : layoutItem q (.byte x) = { q with out := q.out ++ [x] } := rfl

@[simp] theorem opened_nb (q : LayoutState) : q.opened.nb = q.nb := by
  unfold LayoutState.opened
  split <;> simp_all

theorem layoutItem_bit (b : Bool) (q : LayoutState) : layoutItem q (.bit b) = layoutOpenBit b q.opened := by
  unfold LayoutState.opened
  split <;> rename_i h <;> simp [layoutItem, h]

/-- The layout only grows. -/
theorem length_le_layout (l : List Item) (q : LayoutState) : q.out.length ≤ (l.foldl layoutItem q).out.length := by
  induction l generalizing q with
  | nil => exact Nat.le_refl _
  | cons i l ih =>
    refine Nat.le_trans ?_ (ih _)
    cases i with
    | byte x => simp [layoutItem]
    | bit b => by_cases h : q.nb = 0 <;> simp [layoutItem, h]

/-! ### Appending to what was appended, and rewriting it -/

/-- One more byte appended (R44). -/
theorem append_appended {s : State} {bs : List Byte} (v : Byte) (h : outputFits s (bs ++ [v]).length) :
    append v (appended s bs) = .ok (appended s (bs ++ [v])) := by
  have hcap := obufCap_lt s
  rw [outputFits, List.length_append, List.length_singleton] at h
  have holen := appended_olen_toNat (s := s) (bs := bs) (by omega)
  have hroom : (appended s bs).olen.toNat < (appended s bs).obufCap := show _ < s.obufCap by omega
  rw [append_room hroom, appended_appended (by omega)]

/-- A byte appended before is rewritten in place (R122). -/
theorem memWrite_appended {s : State} (hwf : s.obuf.wf) {bs : List Byte} {k : Nat} (hk : k < bs.length) (v : Byte) :
    memWrite (s.olen.toNat + k) v (appended s bs) = appended s (bs.set k v) := by
  have hobuf : (s.obuf.storeAll s.olen.toNat bs).store (s.olen.toNat + k) v = s.obuf.storeAll s.olen.toNat (bs.set k v) := by
    refine Memory.ext_of_wf (Memory.wf_store (Memory.wf_storeAll hwf _ _) _ _) (Memory.wf_storeAll hwf _ _) fun a => ?_
    rw [Memory.byte?_store, Memory.byte?_storeAll, Memory.byte?_storeAll, List.length_set]
    by_cases ha : a = s.olen.toNat + k
    · simp [ha, hk]
    · rw [if_neg ha]
      split
      · rw [List.getElem?_set_ne (by omega)]
      · rfl
  simp only [memWrite, appended, List.length_set, hobuf]

/-! ### The control byte -/

/-- TSER's control byte is the layout's, where it stands in the output of `s` and with the value it has there. -/
structure SameOpenByte (s : State) (q : LayoutState) (c : ControlByte) : Prop where
  cpos_lt : q.cpos < q.out.length
  cpos : c.cpos = s.olen.toNat + q.cpos
  cval : c.cval = q.out.getD q.cpos 0

/-- TSER's control byte is the layout's, when one is being filled. -/
structure SameControl (s : State) (q : LayoutState) (c : ControlByte) : Prop where
  nb : c.nb = q.nb
  filling : q.nb ≠ 0 → SameOpenByte s q c

section
variable {s : State} {q : LayoutState} {c : ControlByte}

/-- A byte appended after the control byte leaves it as it is. -/
theorem SameControl.byte (h : SameControl s q c) (x : Byte) : SameControl s (layoutItem q (.byte x)) c := by
  refine ⟨h.nb, fun hnb => ?_⟩
  obtain ⟨hlt, hcpos, hcval⟩ := h.filling hnb
  refine ⟨Nat.lt_of_lt_of_le hlt (length_le_layout [.byte x] q), hcpos, ?_⟩
  rw [layoutItem_byte, List.getD_append _ _ _ _ hlt, hcval]

variable (hwf : s.obuf.wf)
include hwf

/-- Rewriting the open control byte is the layout's rewriting of it. -/
theorem putOpen_layout (b : Bool) (hnb : c.nb = q.nb) (h : SameOpenByte s q c) :
    ∃ c', putOpen b c (appended s q.out) = (c', appended s (layoutOpenBit b q).out) ∧
      SameControl s (layoutOpenBit b q) c' := by
  obtain ⟨hlt, hcpos, hcval⟩ := h
  refine ⟨⟨(c.nb + 1) % 8, c.cpos, c.cval ||| bitInByte b c.nb⟩, ?_, by simp [hnb], fun _ => ⟨?_, hcpos, ?_⟩⟩
  · rw [putOpen, hcpos, memWrite_appended hwf hlt, hcval, hnb, layoutOpenBit]
  · rwa [layoutOpenBit_length]
  · simp [layoutOpenBit, hcval, hnb, hlt]

/-- `put_bit` is the layout of a bit (R122). -/
theorem putBit_layout (b : Bool) (h : SameControl s q c) (hfits : outputFits s (layoutItem q (.bit b)).out.length) :
    ∃ c', putBit b c (appended s q.out) = .ok (c', appended s (layoutItem q (.bit b)).out) ∧
      SameControl s (layoutItem q (.bit b)) c' := by
  rw [layoutItem_bit] at hfits ⊢
  by_cases hfull : q.nb = 0
  · rw [opened_full hfull] at hfits ⊢
    rw [layoutOpenBit_length] at hfits
    have hcap := obufCap_lt s
    have hroom : s.olen.toNat + q.out.length < 2 ^ 64 := by
      rw [outputFits, List.length_append] at hfits
      omega
    have hnew : SameOpenByte s { out := q.out ++ [0], nb := 0, cpos := q.out.length }
        { nb := 0, cpos := s.olen.toNat + q.out.length, cval := 0 } := ⟨by simp, rfl, by simp⟩
    obtain ⟨c', hput, hc'⟩ := putOpen_layout hwf b rfl hnew
    refine ⟨c', ?_, hc'⟩
    rw [putBit, if_pos (h.nb.trans hfull), append_appended 0 hfits, Except.ok_bind, appended_olen_toNat hroom, hput]
  · rw [opened_filling hfull]
    obtain ⟨c', hput, hc'⟩ := putOpen_layout hwf b h.nb (h.filling hfull)
    exact ⟨c', by rw [putBit, if_neg (h.nb ▸ hfull), hput], hc'⟩

end

/-! ### The walk -/

/-- `ser` lays out the items of the tree read from its entry (R122). -/
theorem serialize_layout {s : State} (hwf : s.obuf.wf) {depth : Nat} {i : NodeIdx} {t : HuffmanTree}
    (ht : s.treeAt depth i = some t) {q : LayoutState} {c : ControlByte} (h : SameControl s q c)
    (hfits : outputFits s ((items t).foldl layoutItem q).out.length) :
    ∃ c', serialize depth i c (appended s q.out) = .ok (c', appended s ((items t).foldl layoutItem q).out) ∧
      SameControl s ((items t).foldl layoutItem q) c' := by
  induction depth generalizing i t q c with
  | zero => simp [State.treeAt] at ht
  | succ depth ih =>
    have hused : ∀ bs, (appended s bs).usedNode? i = s.usedNode? i := fun bs => usedNode?_congr rfl rfl i
    have hshort : ∀ {m n}, m ≤ n → outputFits s n → outputFits s m := fun hle hn =>
      Nat.le_trans (Nat.add_le_add_left hle _) hn
    rcases treeAt_eq_some ht with ⟨n, hn, hl, rfl⟩ | ⟨n, l, r, hn, hl, hleft, hright, rfl⟩
    · simp only [items, List.foldl_cons, List.foldl_nil] at hfits ⊢
      obtain ⟨c₁, hput, hc₁⟩ := putBit_layout hwf true h (hshort (length_le_layout [.byte n.sym] _) hfits)
      have happ := append_appended (s := s) (bs := (layoutItem q (.bit true)).out) n.sym hfits
      refine ⟨c₁, ?_, hc₁.byte n.sym⟩
      simp [serialize, hused, hn, hl, hput, happ, layoutItem_byte]
    · simp only [items, List.foldl_cons, List.foldl_append] at hfits ⊢
      have hfits₂ := hshort (length_le_layout (items r) _) hfits
      obtain ⟨c₁, hput, hc₁⟩ := putBit_layout hwf false h (hshort (length_le_layout (items l) _) hfits₂)
      obtain ⟨c₂, hser₂, hc₂⟩ := ih hleft hc₁ hfits₂
      obtain ⟨c₃, hser₃, hc₃⟩ := ih hright hc₂ hfits
      refine ⟨c₃, ?_, hc₃⟩
      simp [serialize, hused, hn, hl, hput, hser₂, hser₃]

/-- Settles O26: TSER's walk of the current tree lays its items out; the empty tree has none. -/
theorem tserAppendsTheLayout : Obligations.TserAppendsTheLayout := by
  intro s herr hvalid hwf holen
  have hentry : tserEntry s = none := by
    rw [tserEntry, if_neg (by simp [hvalid]), if_neg (by omega)]
  refine ⟨fun h0 => runCommand_ok herr hentry (if_pos h0), fun t htree hfits => runCommand_ok herr hentry ?_⟩
  obtain ⟨h0, hread⟩ := treeAt_of_currentTree htree
  have hstart : SameControl s { out := [], nb := 0, cpos := 0 } noControlByte := ⟨rfl, fun h => absurd rfl h⟩
  obtain ⟨c, hser, -⟩ := serialize_layout hwf hread hstart hfits
  rw [appended_nil] at hser
  show tserBody s = _
  rw [tserBody, if_neg h0, hser]
  rfl

end Sys2Proof.Machine
end

section
/-! SUPPORT. Where a laid-out walk stands in a stream, reading it follows the laying out of it (30_encoding R65, R66): after the same
items the reader stands at the byte the layout would append next, with the control byte open that the layout has open. -/

namespace Sys2Proof.Machine

/-! ### What a step that may stop can answer -/

/-- The step answers a value with `P` or raises an error with `E`; it does not leave the tree. -/
def Answers {α : Type} (x : Except Stop α) (P : α → Prop) (E : ErrorCode → Prop) : Prop :=
  (∃ a, x = .ok a ∧ P a) ∨ ∃ e n, x = .error (.raise e n) ∧ E e

section
variable {α β : Type} {x : Except Stop α} {P P' : α → Prop} {E E' : ErrorCode → Prop}

theorem answers_ok {a : α} (h : P a) : Answers (.ok a) P E := .inl ⟨a, rfl, h⟩

theorem Answers.mono (h : Answers x P E) (hP : ∀ a, P a → P' a) (hE : ∀ e, E e → E' e) : Answers x P' E' := by
  rcases h with ⟨a, hx, ha⟩ | ⟨e, n, hx, he⟩
  · exact .inl ⟨a, hx, hP a ha⟩
  · exact .inr ⟨e, n, hx, hE e he⟩

/-- A chain of steps, one after the other. -/
theorem Answers.bind {f : α → Except Stop β} {R : β → Prop} (h : Answers x P E)
    (hf : ∀ a, x = .ok a → P a → Answers (f a) R E) : Answers (x >>= f) R E := by
  rcases h with ⟨a, rfl, ha⟩ | ⟨e, n, rfl, he⟩
  · exact hf a rfl ha
  · exact .inr ⟨e, n, rfl, he⟩

end

/-- `next_byte`, `n` bytes into a stream (R45). -/
theorem nextByte_answers {u : State} {bs : List Byte} {n : Nat} (h : streamIs u (bs.drop n)) :
    Answers (nextByte u)
      (fun a => n < bs.length ∧ a.1 = bs.getD n 0 ∧ a.2 = { u with ipos := u.ipos + 1 } ∧ streamIs a.2 (bs.drop (n + 1)))
      (fun e => e = .trunc ∧ bs.length ≤ n) := by
  by_cases hn : n < bs.length
  · rw [List.drop_eq_getElem_cons hn] at h
    exact .inl ⟨_, h.nextByte, hn, (List.getD_eq_getElem bs 0 hn).symm, rfl, h.tail⟩
  · have hend : bs.length ≤ n := Nat.not_lt.mp hn
    rw [List.drop_eq_nil_of_le hend] at h
    exact .inr ⟨.trunc, _, nextByte_end (Nat.le_of_eq h.1.symm), rfl, hend⟩

/-! ### The open control byte -/

/-- A control byte is open: its first `nb` bits are placed, the others still 0 (R65). -/
structure OpenByte (q : LayoutState) : Prop where
  nb_lt : q.nb < 8
  cpos_lt : q.cpos < q.out.length
  free : ∀ m, m + q.nb < 8 → (q.out.getD q.cpos 0).getLsbD m = false

/-- What every layout keeps: with bits placed in it the control byte is open. -/
def controlOpen (q : LayoutState) : Prop := q.nb ≠ 0 → OpenByte q

theorem controlOpen.opened {q : LayoutState} (h : controlOpen q) : OpenByte q.opened := by
  by_cases hfull : q.nb = 0
  · rw [opened_full hfull]
    exact ⟨by simp, by simp, by simp⟩
  · rw [opened_filling hfull]
    exact h hfull

/-- Bit `m` of a byte is the one that has `7 - m` bits before it (R7). -/
theorem bitInByte_getLsbD (b : Bool) {nb : Nat} (h : nb < 8) (m : Nat) :
    (bitInByte b nb).getLsbD m = (b && decide (m + nb = 7)) := by
  have hbit : ∀ b, ∀ nb : Fin 8, ∀ m : Fin 8, (bitInByte b nb).getLsbD m = (b && decide (m.val + nb.val = 7)) := by decide
  by_cases hm : m < 8
  · exact hbit b ⟨nb, h⟩ ⟨m, hm⟩
  · rw [BitVec.getLsbD_of_ge _ _ (Nat.not_lt.mp hm), decide_eq_false (by omega), Bool.and_false]

/-- Placing a bit changes that bit alone. -/
theorem OpenByte.getLsbD_layoutOpenBit {q : LayoutState} (h : OpenByte q) (b : Bool) (k m : Nat) :
    ((layoutOpenBit b q).out.getD k 0).getLsbD m =
      if k = q.cpos ∧ m + q.nb = 7 then b else (q.out.getD k 0).getLsbD m := by
  obtain ⟨hnb, hlt, hfree⟩ := h
  by_cases hk : k = q.cpos
  · have hbyte : (layoutOpenBit b q).out.getD k 0 = q.out.getD q.cpos 0 ||| bitInByte b q.nb := by
      simp [layoutOpenBit, hk, hlt]
    rw [hbyte, BitVec.getLsbD_or, bitInByte_getLsbD b hnb]
    by_cases hm : m + q.nb = 7
    · rw [hfree m (by omega)]
      simp [hk, hm]
    · simp [hk, hm]
  · rw [if_neg (by simp [hk])]
    simp [layoutOpenBit, Ne.symm hk]

theorem OpenByte.layoutOpenBit {q : LayoutState} (h : OpenByte q) (b : Bool) : controlOpen (layoutOpenBit b q) := by
  intro hnb
  have hlt := h.nb_lt
  rw [layoutOpenBit_nb] at hnb
  have hnext : (q.nb + 1) % 8 = q.nb + 1 := Nat.mod_eq_of_lt (by omega)
  refine ⟨by rw [layoutOpenBit_nb]; omega, by rw [layoutOpenBit_length]; exact h.cpos_lt, fun m hm => ?_⟩
  rw [layoutOpenBit_nb, hnext] at hm
  rw [h.getLsbD_layoutOpenBit, if_neg (by omega)]
  exact h.free m (by omega)

theorem controlOpen.layoutItem {q : LayoutState} (h : controlOpen q) (i : Item) : controlOpen (layoutItem q i) := by
  cases i with
  | bit b =>
    rw [layoutItem_bit]
    exact h.opened.layoutOpenBit b
  | byte x =>
    intro hnb
    obtain ⟨hnb, hlt, hfree⟩ := h hnb
    rw [layoutItem_byte]
    refine ⟨hnb, ?_, fun m hm => ?_⟩
    · rw [List.length_append]
      exact Nat.lt_add_right _ hlt
    · rw [List.getD_append _ _ _ _ hlt]
      exact hfree m hm

theorem controlOpen.layout {q : LayoutState} (h : controlOpen q) (l : List Item) : controlOpen (l.foldl Machine.layoutItem q) := by
  induction l generalizing q with
  | nil => exact h
  | cons i l ih => exact ih (h.layoutItem i)

/-! ### What is settled of a layout -/

/-- Where the stream reaches, it has every byte of the layout, of an open control byte the bits placed so far. -/
def settledIn (q : LayoutState) (bs : List Byte) : Prop :=
  ∀ k m, k < q.out.length → k < bs.length → (k = q.cpos → q.nb ≠ 0 → 8 ≤ m + q.nb) →
    (bs.getD k 0).getLsbD m = (q.out.getD k 0).getLsbD m

theorem settledIn.congr {q : LayoutState} {bs cs : List Byte} (h : settledIn q bs)
    (hcs : ∀ k, k < q.out.length → k < cs.length → cs[k]? = bs[k]?) : settledIn q cs := by
  intro k m hk hlen hplaced
  have hsame := hcs k hk hlen
  have hbs : k < bs.length := (List.getElem?_eq_some_iff.mp (hsame.symm.trans (List.getElem?_eq_getElem hlen))).1
  rw [List.getD_eq_getElem?_getD, hsame, ← List.getD_eq_getElem?_getD]
  exact h k m hk hbs hplaced

section
variable {q : LayoutState} {bs : List Byte} (hq : controlOpen q)
include hq

/-- A bit placed is one that was open: what was settled before stays so. -/
theorem settledIn.of_layoutItem {i : Item} (h : settledIn (layoutItem q i) bs) : settledIn q bs := by
  intro k m hk hlen hplaced
  have hlt : k < (layoutItem q i).out.length := Nat.lt_of_lt_of_le hk (length_le_layout [i] q)
  cases i with
  | byte x =>
    have hx := h k m hlt hlen hplaced
    rwa [layoutItem_byte, List.getD_append _ _ _ _ hk] at hx
  | bit b =>
    have hopen := hq.opened
    rw [layoutItem_bit] at h hlt
    by_cases hfull : q.nb = 0
    · rw [opened_full hfull] at h hlt hopen
      have hother : k ≠ q.out.length := by omega
      rw [h k m hlt hlen (fun hk => absurd hk hother), hopen.getLsbD_layoutOpenBit, if_neg (fun hk => hother hk.1),
        List.getD_append _ _ _ _ hk]
    · rw [opened_filling hfull] at h hlt hopen
      have hsettled : k = q.cpos → 8 ≤ m + q.nb := fun hk => hplaced hk hfull
      rw [h k m hlt hlen fun hk hnb => ?_, hopen.getLsbD_layoutOpenBit, if_neg fun hk => ?_]
      · have := hsettled hk.1
        omega
      · have := hsettled hk
        have := hopen.nb_lt
        rw [layoutOpenBit_nb] at hnb ⊢
        omega

/-- The layout of more items leaves what is settled. -/
theorem settledIn.of_layout {l : List Item} (h : settledIn (l.foldl layoutItem q) bs) : settledIn q bs := by
  induction l generalizing q with
  | nil => exact h
  | cons i l ih => exact settledIn.of_layoutItem hq (ih (hq.layoutItem i) h)

/-- The bit placed last is found in the stream. -/
theorem settledIn.bit {b : Bool} (h : settledIn (layoutItem q (.bit b)) bs) (hlen : q.opened.cpos < bs.length) :
    (bs.getD q.opened.cpos 0).getLsbD (7 - q.nb) = b := by
  have hopen := hq.opened
  have hnb := opened_nb q
  have hlt := hopen.nb_lt
  rw [layoutItem_bit] at h
  rw [h _ (7 - q.nb) (by rw [layoutOpenBit_length]; exact hopen.cpos_lt) hlen fun _ hnb' => ?_, hopen.getLsbD_layoutOpenBit,
    if_pos ⟨rfl, by omega⟩]
  rw [layoutOpenBit_nb] at hnb' ⊢
  omega

/-- The byte appended last is found in the stream. -/
theorem settledIn.byte {x : Byte} (h : settledIn (layoutItem q (.byte x)) bs) (hlen : q.out.length < bs.length) :
    bs.getD q.out.length 0 = x := by
  refine BitVec.eq_of_getLsbD_eq fun m _ => ?_
  rw [layoutItem_byte] at h
  rw [h _ m (by simp) hlen fun hk hnb => absurd hk (Nat.ne_of_gt (hq hnb).cpos_lt)]
  simp

end

/-! ### The reader -/

/-- `des` stops in a stream that holds `Q`, the layout of the first nodes of a walk, as many as the arena takes: with `E_TRUNC` when
the stream ends before, else with `E_TREEOVF` when there are more nodes (R129, R130). -/
inductive StopsFor (bs : List Byte) (Q : LayoutState) (nodes : Nat) : ErrorCode → Prop
  | trunc : bs.length < Q.out.length → StopsFor bs Q nodes .trunc
  | treeOvf : Q.out.length ≤ bs.length → 511 < nodes → StopsFor bs Q nodes .treeOvf

theorem StopsFor.mono {bs : List Byte} {Q : LayoutState} {n m : Nat} {e : ErrorCode} (h : StopsFor bs Q n e) (hle : n ≤ m) :
    StopsFor bs Q m e := by
  cases h with
  | trunc h => exact .trunc h
  | treeOvf h hn => exact .treeOvf h (Nat.lt_of_lt_of_le hn hle)

/-- From state `s`, whose stream is `bs`, the reader has come as far as the layout `q` and has the items `l` before it, of which the
nodes that fit the arena complete the layout `Q`. -/
structure Reading (s : State) (bs : List Byte) (Q : LayoutState) (l : List Item) (q : LayoutState) (r : BitCursor)
    (u : State) : Prop where
  pending : (firstNodes (511 - u.nnode.toNat) l).foldl layoutItem q = Q
  control : controlOpen q
  nb : r.nb = q.nb
  cur : q.nb ≠ 0 → r.cur = bs.getD q.cpos 0
  length : q.out.length ≤ bs.length
  stream : streamIs u (bs.drop q.out.length)
  state : onlyEntriesDiffer { s with ipos := s.ipos + BitVec.ofNat 64 q.out.length } u

section
variable {s u : State} {bs : List Byte} {Q q : LayoutState} {l : List Item} {r : BitCursor}

theorem onlyEntriesDiffer.nextByte {n : Nat} (h : onlyEntriesDiffer { s with ipos := s.ipos + BitVec.ofNat 64 n } u) :
    onlyEntriesDiffer { s with ipos := s.ipos + BitVec.ofNat 64 (n + 1) } { u with ipos := u.ipos + 1 } := by
  have hpos : s.ipos + BitVec.ofNat 64 (n + 1) = s.ipos + BitVec.ofNat 64 n + 1 := by
    rw [BitVec.ofNat_add, ← BitVec.add_assoc]
    rfl
  obtain ⟨a, k, rfl⟩ := h
  rw [hpos]
  exact ⟨a, k, rfl⟩

theorem onlyEntriesDiffer.nnode {t : State} (h : onlyEntriesDiffer t u) (n : NodeCount) :
    onlyEntriesDiffer t { u with nnode := n } := by
  obtain ⟨a, k, rfl⟩ := h
  exact ⟨a, n, rfl⟩

theorem onlyEntriesDiffer.setNode {t : State} (h : onlyEntriesDiffer t u) (i : Nat) (n : Node) :
    onlyEntriesDiffer t (setNode i n u) := by
  obtain ⟨a, k, rfl⟩ := h
  exact ⟨_, k, rfl⟩

/-- Writing an entry reads nothing. -/
theorem Reading.setNode (h : Reading s bs Q l q r u) (i : Nat) (n : Node) : Reading s bs Q l q r (setNode i n u) :=
  { h with state := h.state.setNode i n }

/-- With the arena full the stream has the whole layout of the nodes that fit. -/
theorem Reading.full {b : Bool} (h : Reading s bs Q (.bit b :: l) q r u) (hn : u.nnode.toNat = 511) :
    Q.out.length ≤ bs.length := by
  have hQ := h.pending
  rw [hn, Nat.sub_self, firstNodes_zero_bit] at hQ
  exact hQ ▸ h.length

/-- Reading a symbol byte (R128). -/
theorem Reading.byte {x : Byte} (h : Reading s bs Q (.byte x :: l) q r u) (hQ : settledIn Q bs) (nodes : Nat) :
    Answers (nextByte u) (fun a => a.1 = x ∧ Reading s bs Q l (layoutItem q (.byte x)) r a.2) (StopsFor bs Q nodes) := by
  have hpending := h.pending
  rw [firstNodes_byte, List.foldl_cons] at hpending
  have hgrown := length_le_layout (firstNodes (511 - u.nnode.toNat) l) (layoutItem q (.byte x))
  have hlength : (layoutItem q (.byte x)).out.length = q.out.length + 1 := by simp [layoutItem_byte]
  have hsettled : settledIn (layoutItem q (.byte x)) bs := .of_layout (h.control.layoutItem _) (hpending ▸ hQ)
  rw [hpending] at hgrown
  refine (nextByte_answers h.stream).mono ?_ ?_
  · rintro ⟨v, t⟩ ⟨hlt, rfl, rfl, hstream⟩
    exact ⟨hsettled.byte h.control hlt, hpending, h.control.layoutItem _, h.nb, h.cur, hlength ▸ hlt, hlength ▸ hstream,
      hlength ▸ h.state.nextByte⟩
  · rintro e ⟨rfl, hend⟩
    exact .trunc (by omega)

/-- Reading a node's control bit, when its entry was taken (R128, R129). -/
theorem Reading.bit {b : Bool} (h : Reading s bs Q (.bit b :: l) q r u) (hQ : settledIn Q bs)
    (hroom : u.nnode.toNat < 511) (nodes : Nat) :
    Answers (getBit r { u with nnode := u.nnode + 1 })
      (fun a => a.1 = b ∧ Reading s bs Q l (layoutItem q (.bit b)) a.2.1 a.2.2) (StopsFor bs Q nodes) := by
  have hcount : (u.nnode + 1).toNat = u.nnode.toNat + 1 := (entryTaken_of_room hroom).nnode
  have hpending := h.pending
  rw [show 511 - u.nnode.toNat = 511 - (u.nnode + 1).toNat + 1 by omega, firstNodes_succ_bit, List.foldl_cons] at hpending
  have hgrown := length_le_layout (firstNodes (511 - (u.nnode + 1).toNat) l) (layoutItem q (.bit b))
  have hsettled : settledIn (layoutItem q (.bit b)) bs := .of_layout (h.control.layoutItem _) (hpending ▸ hQ)
  have hbit := hsettled.bit h.control
  have hcontrol := h.control.layoutItem (.bit b)
  rw [hpending] at hgrown
  rw [layoutItem_bit] at hpending hgrown hcontrol ⊢
  by_cases hfull : q.nb = 0
  · rw [opened_full hfull] at hpending hgrown hcontrol hbit ⊢
    have hlength : (layoutOpenBit b { out := q.out ++ [0], nb := 0, cpos := q.out.length }).out.length = q.out.length + 1 := by
      simp
    rw [getBit, if_pos (h.nb.trans hfull)]
    have hstream : streamIs { u with nnode := u.nnode + 1 } (bs.drop q.out.length) := h.stream
    refine ((nextByte_answers hstream).mono (fun _ => id) ?_).bind ?_
    · rintro e ⟨rfl, hend⟩
      exact .trunc (by omega)
    · rintro ⟨v, t⟩ - ⟨hlt, rfl, rfl, hstream'⟩
      rw [hfull] at hbit
      exact answers_ok ⟨hbit hlt, hpending, hcontrol, rfl, fun _ => rfl, hlength ▸ hlt, hlength ▸ hstream',
        hlength ▸ (h.state.nnode _).nextByte⟩
  · rw [opened_filling hfull] at hpending hcontrol hbit ⊢
    have hlt : q.cpos < bs.length := Nat.lt_of_lt_of_le (h.control hfull).cpos_lt h.length
    rw [getBit_open (h.nb ▸ hfull), h.cur hfull, h.nb]
    refine answers_ok ⟨hbit hlt, hpending, hcontrol, rfl, fun _ => rfl, ?_, ?_, ?_⟩
    · exact layoutOpenBit_length b q ▸ h.length
    · exact layoutOpenBit_length b q ▸ h.stream
    · exact layoutOpenBit_length b q ▸ h.state.nnode _

end

end Sys2Proof.Machine
end

section
/-! SUPPORT. TDES on a stream that begins with a laid-out tree, whole, cut short or with more nodes than the arena takes
(43_tree_codec R128 to R134). -/

namespace Sys2Proof.Machine

/-! ### The tree written -/

/-- From `s` to `t` the entries of this tree were appended in pre-order, all of weight 0 (R66, R128). -/
structure TreeWritten (tree : HuffmanTree) (s t : State) : Prop extends TreeAppended s t where
  count : t.nnode.toNat = s.nnode.toNat + tree.size
  read : Spans t s.nnode.toNat tree (List.range' s.nnode.toNat tree.size)
  weight : ∀ j n, s.nnode.toNat ≤ j → j < t.nnode.toNat → t.node? j = some n → n.weight = 0

theorem treeWritten_leaf {s t : State} (h : EntryTaken s t) (x : Byte) :
    TreeWritten (.leaf x) s (setNode s.nnode.toNat (leafNode x 0) t) := by
  have hnew := setNode_node?_room (t := t) (n := leafNode x 0) h.room
  refine ⟨treeAppended_leaf h, h.nnode, .leaf hnew rfl, fun j n hj hlt hn => ?_⟩
  rw [setNode_nnode, h.nnode] at hlt
  obtain rfl : j = s.nnode.toNat := by omega
  obtain rfl := Option.some.inj (hnew.symm.trans hn)
  rfl

theorem treeWritten_node {l r : HuffmanTree} {s t u v : State} (h : EntryTaken s t) (hl : TreeWritten l t u)
    (hr : TreeWritten r u v) :
    TreeWritten (.node l r) s
      (setNode s.nnode.toNat (innerNode (BitVec.ofNat 9 t.nnode.toNat) (BitVec.ofNat 9 u.nnode.toNat) 0) v) := by
  have happ := treeAppended_node (w := 0) h hl.toTreeAppended hr.toTreeAppended
  set n := innerNode (BitVec.ofNat 9 t.nnode.toNat) (BitVec.ofNat 9 u.nnode.toNat) 0
  have ht := h.nnode
  have hu := hl.count
  have hv := hr.count
  have hbound := hr.bound
  have hleft : n.left.toNat = t.nnode.toNat := Nat.mod_eq_of_lt (show t.nnode.toNat < 512 by omega)
  have hright : n.right.toNat = u.nnode.toNat := Nat.mod_eq_of_lt (show u.nnode.toNat < 512 by omega)
  have hnew := setNode_node?_room (t := v) (n := n) h.room
  have hother : ∀ j, j ≠ s.nnode.toNat → (setNode s.nnode.toNat n v).node? j = v.node? j := fun j hj =>
    setNode_node?_other _ _ _ _ hj.symm
  have hsize : (HuffmanTree.node l r).size = l.size + r.size + 1 := by
    rw [HuffmanTree.size]
    omega
  refine ⟨happ, ?_, ?_, fun j m hj hlt hm => ?_⟩
  · rw [setNode_nnode]
    omega
  · rw [hsize, List.range'_succ, ← List.range'_append_1, ← ht, ← hu]
    refine .node hnew rfl ?_ ?_
    · rw [hleft]
      refine hl.read.congr fun j hj => ?_
      obtain ⟨hge, hlt⟩ := List.mem_range'_1.mp hj
      rw [hother j (by omega), hr.below j (by omega)]
    · rw [hright]
      refine hr.read.congr fun j hj => ?_
      obtain ⟨hge, -⟩ := List.mem_range'_1.mp hj
      rw [hother j (by omega)]
  · by_cases hjs : j = s.nnode.toNat
    · subst hjs
      obtain rfl := Option.some.inj (hnew.symm.trans hm)
      rfl
    · rw [hother j hjs] at hm
      by_cases hju : j < u.nnode.toNat
      · exact hl.weight j m (by omega) hju (hr.below j hju ▸ hm)
      · exact hr.weight j m (by omega) hlt hm

/-- In a tree numbered in pre-order without gaps a left child stands right after its parent, a right child later (R66). -/
theorem Spans.child_after {s : State} {i : Nat} {t : HuffmanTree} {es : List Nat} (h : Spans s i t es)
    (hes : es = List.range' i es.length) {p : Nat} (hp : p ∈ es) {n : Node} (hn : s.node? p = some n) (hl : n.leaf = false) :
    n.left.toNat = p + 1 ∧ p < n.right.toNat := by
  have hhead : ∀ {i t es}, Spans s i t es → es.head? = some i := fun h => by cases h <;> rfl
  induction h with
  | leaf hm hleaf =>
    obtain rfl := List.mem_singleton.mp hp
    obtain rfl := Option.some.inj (hm.symm.trans hn)
    exact absurd hleaf (by simp [hl])
  | @node i m l r as bs hm _ hspl hspr ihl ihr =>
    rw [List.length_cons, List.length_append, List.range'_succ, ← List.range'_append_1] at hes
    obtain ⟨has, hbs⟩ := List.append_inj (List.cons.inj hes).2 (by simp)
    have hposl : 0 < as.length := List.length_pos_of_mem hspl.root_mem
    have hposr : 0 < bs.length := List.length_pos_of_mem hspr.root_mem
    have hleft : m.left.toNat = i + 1 := by
      have := hhead hspl
      rw [has, List.head?_range', if_neg (by omega)] at this
      exact (Option.some.inj this).symm
    have hright : m.right.toNat = i + 1 + as.length := by
      have := hhead hspr
      rw [hbs, List.head?_range', if_neg (by omega)] at this
      exact (Option.some.inj this).symm
    rcases List.mem_cons.mp hp with rfl | hp
    · obtain rfl := Option.some.inj (hm.symm.trans hn)
      exact ⟨hleft, by omega⟩
    · rcases List.mem_append.mp hp with hp | hp
      · exact ihl (by rwa [hleft]) hp
      · exact ihr (by rwa [hright]) hp

/-! ### The walk of a laid-out tree -/

theorem deserialize_full {depth : Nat} {r : BitCursor} {s : State} (h : s.nnode.toNat = 511) :
    deserialize (depth + 1) r s = .error (.raise .treeOvf s.draws) := if_pos h

/-- `des` on the items of a tree reads them and writes the tree, or stops as the nodes that fit the arena decide (R128 to R130). -/
theorem deserialize_reads {s : State} {bs : List Byte} {Q : LayoutState} (hQ : settledIn Q bs) {t : HuffmanTree} {depth : Nat}
    {l : List Item} {q : LayoutState} {r : BitCursor} {u : State} (h : Reading s bs Q (items t ++ l) q r u)
    (hn : u.nnode.toNat ≤ 511) (hdepth : 511 < depth + u.nnode.toNat) :
    Answers (deserialize depth r u)
      (fun a => a.1 = u.nnode.toNat ∧ TreeWritten t u a.2.2 ∧
        Reading s bs Q l ((items t).foldl layoutItem q) a.2.1 a.2.2)
      (StopsFor bs Q (u.nnode.toNat + t.size)) := by
  induction t generalizing depth l q r u with
  | leaf x =>
    obtain ⟨depth, rfl⟩ := Nat.exists_eq_add_one.mpr (show 0 < depth by omega)
    by_cases hmax : u.nnode.toNat = 511
    · exact .inr ⟨_, _, deserialize_full hmax, .treeOvf (h.full hmax) (by rw [hmax]; exact Nat.lt_succ_self 511)⟩
    have hroom : u.nnode.toNat < 511 := by omega
    rw [deserialize, if_neg hmax]
    refine (h.bit hQ hroom _).bind ?_
    rintro ⟨_, r₁, s₁⟩ hbit ⟨rfl, h₁⟩
    refine (h₁.byte hQ _).bind ?_
    rintro ⟨_, s₂⟩ hx ⟨rfl, h₂⟩
    have htaken : EntryTaken u s₂ := ((entryTaken_of_room hroom).frame (frame_getBit rfl hbit)).frame (frame_nextByte rfl hx)
    exact answers_ok ⟨rfl, treeWritten_leaf htaken _, h₂.setNode _ _⟩
  | node a b iha ihb =>
    obtain ⟨depth, rfl⟩ := Nat.exists_eq_add_one.mpr (show 0 < depth by omega)
    have hsize : (HuffmanTree.node a b).size = 1 + a.size + b.size := rfl
    rw [items, List.cons_append, List.append_assoc] at h
    by_cases hmax : u.nnode.toNat = 511
    · exact .inr ⟨_, _, deserialize_full hmax, .treeOvf (h.full hmax) (by omega)⟩
    have hroom : u.nnode.toNat < 511 := by omega
    rw [deserialize, if_neg hmax]
    refine (h.bit hQ hroom _).bind ?_
    rintro ⟨_, r₁, s₁⟩ hbit ⟨rfl, h₁⟩
    dsimp only at h₁ ⊢
    have htaken : EntryTaken u s₁ := (entryTaken_of_room hroom).frame (frame_getBit rfl hbit)
    have hcount := htaken.nnode
    refine ((iha h₁ (by omega) (by omega)).mono (fun _ => id) fun _ he => he.mono (by omega)).bind ?_
    rintro ⟨_, r₂, s₂⟩ - ⟨rfl, hwa, h₂⟩
    dsimp only at hwa h₂ ⊢
    have hcounta := hwa.count
    refine ((ihb h₂ hwa.bound (by omega)).mono (fun _ => id) fun _ he => he.mono (by omega)).bind ?_
    rintro ⟨_, r₃, s₃⟩ - ⟨rfl, hwb, h₃⟩
    refine answers_ok ⟨rfl, treeWritten_node htaken hwa hwb, ?_⟩
    rw [items, List.foldl_cons, List.foldl_append]
    exact h₃.setNode _ _

/-! ### TDES -/

/-- The layout of the first 511 nodes of a tree, as many as the arena holds (R129). -/
def arenaLayout (t : HuffmanTree) : LayoutState :=
  (firstNodes Config.nodeMax (items t)).foldl layoutItem { out := [], nb := 0, cpos := 0 }

theorem arenaLayout_length (t : HuffmanTree) : (arenaLayout t).out.length = arenaBytes t := rfl

theorem firstNodes_prefix (n : Nat) (l : List Item) : firstNodes n l <+: l := by
  induction l generalizing n with
  | nil => rw [firstNodes_nil]
  | cons i l ih =>
    cases i with
    | byte x => simpa using ih n
    | bit b =>
      cases n with
      | zero => exact List.nil_prefix
      | succ n => simpa using ih n

/-- The whole region of a tree goes on from the layout of its first 511 nodes. -/
theorem layout_eq_arenaLayout (t : HuffmanTree) : ∃ l : List Item, layout (items t) = (l.foldl layoutItem (arenaLayout t)).out := by
  obtain ⟨l, hl⟩ := firstNodes_prefix Config.nodeMax (items t)
  exact ⟨l, by rw [layout, arenaLayout, ← List.foldl_append, hl]⟩

theorem controlOpen_arenaLayout (t : HuffmanTree) : controlOpen (arenaLayout t) :=
  controlOpen.layout (fun h => absurd rfl h) _

theorem arenaBytes_le (t : HuffmanTree) : arenaBytes t ≤ (layout (items t)).length := by
  obtain ⟨l, hl⟩ := layout_eq_arenaLayout t
  exact hl ▸ length_le_layout l (arenaLayout t)

/-- A stream that holds `k` bytes of the region, and others only after its first 511 nodes. -/
theorem settledIn_take (t : HuffmanTree) {k : Nat} {rest : List Byte} (h : rest = [] ∨ arenaBytes t ≤ k) :
    settledIn (arenaLayout t) ((layout (items t)).take k ++ rest) := by
  obtain ⟨l, hl⟩ := layout_eq_arenaLayout t
  have hwhole : settledIn (arenaLayout t) (layout (items t)) :=
    hl ▸ settledIn.of_layout (controlOpen_arenaLayout t) (l := l) fun _ _ _ _ _ => rfl
  have hbytes := arenaBytes_le t
  refine hwhole.congr fun j hj hlen => ?_
  rw [arenaLayout_length] at hj
  have hin : j < ((layout (items t)).take k).length := by
    rcases h with rfl | hk
    · rwa [List.append_nil] at hlen
    · rw [List.length_take]
      omega
  rw [List.getElem?_append_left hin, List.getElem?_take_of_lt (Nat.lt_of_lt_of_le hin (List.length_take_le ..))]

/-- What TDES leaves of the state `s` when it has read the tree: the arena holds the tree, numbered in pre-order from 0, and the
region was consumed (R66, R128, R131). -/
structure TreeRebuilt (t : HuffmanTree) (s u : State) : Prop where
  size : t.size ≤ 511
  read : Spans u 0 t (List.range t.size)
  weight : ∀ i n, i < t.size → u.node? i = some n → n.weight = 0
  state : ∃ a, u = { s with
    arena := a
    nnode := BitVec.ofNat 10 t.size
    root := 0
    treeValid := true
    cbValid := false
    ipos := s.ipos + BitVec.ofNat 64 (layout (items t)).length }

section
variable {t : HuffmanTree} {s u : State} (h : TreeRebuilt t s u)
include h

theorem TreeRebuilt.nnode_toNat : u.nnode.toNat = t.size := by
  have hsize := h.size
  obtain ⟨a, rfl⟩ := h.state
  exact Nat.mod_eq_of_lt (show t.size < 1024 by omega)

theorem TreeRebuilt.root_toNat : u.root.toNat = 0 := by
  obtain ⟨a, rfl⟩ := h.state
  rfl

/-- The tree is read back, and its walk meets the indices in increasing order (R66). -/
theorem TreeRebuilt.readings :
    u.currentTree = some t ∧ u.preorderAt Config.depthMax u.root = some (List.range u.nnode.toNat) := by
  have hcount := h.nnode_toNat
  have hpos : u.nnode ≠ 0 := by
    intro h0
    have hzero : 0 = t.size := by rw [← hcount, h0]; rfl
    have := t.size_add_one
    omega
  have hread := h.read.read (fun j hj => hcount ▸ List.mem_range.mp hj) (HuffmanTree.height_le_depthMax h.size) h.root_toNat
  rwa [State.currentTree, if_neg hpos, hcount]

theorem TreeRebuilt.child_after {p : Nat} {n : Node} (hp : p < u.nnode.toNat) (hn : u.node? p = some n)
    (hl : n.leaf = false) : n.left.toNat = p + 1 ∧ p < n.right.toNat :=
  h.read.child_after (by rw [List.length_range, List.range_eq_range']) (List.mem_range.mpr (h.nnode_toNat ▸ hp)) hn hl

end

/-- TDES's body rebuilds the tree when the stream has its whole region and the arena room for it. -/
theorem tdesBody_reads {t : HuffmanTree} {s : State} {bs : List Byte} (hbs : streamIs s bs) (hQ : settledIn (arenaLayout t) bs) :
    Answers (tdesBody s) (fun u => TreeRebuilt t s u ∧ arenaBytes t ≤ bs.length) (StopsFor bs (arenaLayout t) t.size) := by
  have hstart : Reading { clearValid s with nnode := 0 } bs (arenaLayout t) (items t ++ []) { out := [], nb := 0, cpos := 0 }
      freshCursor { clearValid s with nnode := 0 } := by
    refine ⟨by rw [List.append_nil]; rfl, fun h => absurd rfl h, rfl, fun h => absurd rfl h, Nat.zero_le _, hbs, s.arena, 0, ?_⟩
    simp
  have hdes := deserialize_reads hQ (depth := desDepth) hstart (Nat.zero_le 511) (Nat.lt_succ_self 511)
  refine (hdes.mono (fun _ => id) fun _ he => he.mono (Nat.le_of_eq (Nat.zero_add _))).bind ?_
  rintro ⟨_, r, u⟩ - ⟨rfl, hwritten, hread⟩
  have hcount : u.nnode.toNat = t.size := hwritten.count.trans (Nat.zero_add _)
  have hsize : t.size ≤ 511 := hcount ▸ hwritten.bound
  have hlayout : arenaBytes t = (layout (items t)).length := arenaBytes_of_size_le t hsize
  refine answers_ok ⟨⟨hsize, ?_, fun i n hi hn => hwritten.weight i n (Nat.zero_le i) (hcount ▸ hi) hn, ?_⟩, ?_⟩
  · rw [List.range_eq_range']
    exact hwritten.read.congr fun _ _ => rfl
  · obtain ⟨a, n, rfl⟩ := hread.state
    obtain rfl : n = BitVec.ofNat 10 t.size := by rw [← hcount, BitVec.ofNat_toNat, BitVec.setWidth_eq]
    exact ⟨a, rfl⟩
  · rw [hlayout]
    exact hread.length

theorem streamIs.tdesEntry {s : State} {bs : List Byte} (h : streamIs s bs) : tdesEntry s = none := h.rhdrEntry

/-- TDES that raises leaves no valid tree and no valid code book (R130, R199). -/
theorem tdes_raises {s : State} {bs : List Byte} {e : ErrorCode} {n : Nat} (herr : s.err = false) (hbs : streamIs s bs)
    (h : tdesBody s = .error (.raise e n)) :
    ∃ u, exec .tdes s = .next u ∧ reports u e ∧ u.ecode = errorCode e ∧ u.treeValid = false ∧ u.cbValid = false :=
  ⟨_, runCommand_raise (c := tdesCommand) herr hbs.tdesEntry h, ⟨rfl, rfl, rfl⟩, rfl, Bool.and_false _, Bool.and_false _⟩

/-- Settles O29: the stream ends before the first 511 nodes are complete, so `des` neither completes nor meets the limit. -/
theorem tdesOfATruncatedTreeRaisesETrunc : Obligations.TdesOfATruncatedTreeRaisesETrunc := by
  intro s t k herr hk hbs
  have hQ := settledIn_take t (k := k) (.inl rfl)
  rw [List.append_nil] at hQ
  have hshort := List.length_take_le k (layout (items t))
  rcases tdesBody_reads hbs hQ with ⟨u, -, -, hlong⟩ | ⟨e, n, he, hstop⟩
  · omega
  · cases hstop with
    | trunc => exact tdes_raises herr hbs he
    | treeOvf hlong =>
      rw [arenaLayout_length] at hlong
      omega

/-- Settles O30: the stream has the first 511 nodes, and the tree does not fit the arena. -/
theorem tdesOfTooManyNodesRaisesETreeOvf : Obligations.TdesOfTooManyNodesRaisesETreeOvf := by
  intro s t rest herr hsize hbs
  have hlong : arenaBytes t ≤ ((layout (items t)).take (arenaBytes t) ++ rest).length := by
    have := arenaBytes_le t
    rw [List.length_append, List.length_take]
    omega
  rcases tdesBody_reads hbs (settledIn_take t (.inr (Nat.le_refl _))) with ⟨u, -, hbuilt, -⟩ | ⟨e, n, he, hstop⟩
  · exact absurd hbuilt.size (by omega)
  · cases hstop with
    | trunc hshort => exact absurd hlong (Nat.not_le.mpr hshort)
    | treeOvf => exact tdes_raises herr hbs he

/-- Settles O28: the stream has the whole region and the arena room for it, so `des` writes the tree. -/
theorem tdesRebuildsTheTree : Obligations.TdesRebuildsTheTree := by
  intro s t rest herr hsize hbs
  have hlayout := arenaBytes_of_size_le t hsize
  have hQ := settledIn_take t (k := (layout (items t)).length) (rest := rest) (.inr (Nat.le_of_eq hlayout))
  rw [List.take_length] at hQ
  rcases tdesBody_reads hbs hQ with ⟨u, hbody, hbuilt, -⟩ | ⟨e, n, he, hstop⟩
  · have hexec : exec .tdes s = .next u := runCommand_ok (c := tdesCommand) herr hbs.tdesEntry hbody
    obtain ⟨a, hu⟩ := hbuilt.state
    refine ⟨a, hu ▸ hexec, fun v hv => ?_⟩
    obtain rfl := Host.Outcome.next.inj (hexec.symm.trans hv)
    obtain ⟨harena, hfields, -⟩ := tdesBody_wf hbody
    obtain ⟨htree, hpreorder⟩ := hbuilt.readings
    refine ⟨htree, harena, hfields, hpreorder, ?_, ?_, fun i n hi => hbuilt.weight i n (hbuilt.nnode_toNat ▸ hi)⟩
    · rintro p side i ⟨hp, n, hn, hl, rfl⟩
      obtain ⟨hleft, hright⟩ := hbuilt.child_after hp hn hl
      cases side
      · exact hleft ▸ Nat.lt_succ_self p
      · exact hright
    · rintro p i ⟨hp, n, hn, hl, rfl⟩
      exact (hbuilt.child_after hp hn hl).1
  · cases hstop with
    | trunc hshort =>
      rw [arenaLayout_length, hlayout, List.length_append] at hshort
      omega
    | treeOvf _ hlarge => omega

end Sys2Proof.Machine
end

section
/-! SUPPORT. PACK's accumulator against R70 (44_bit_packer R141, R142): after any number of code bits it holds the bits of the byte
being filled, and the bytes filled before it are appended. -/

namespace Sys2Proof.Machine

/-! ### The bytes of a bit sequence (R70) -/

/-- Bits placed side by side from the most significant down are read back as they were (R7). -/
theorem foldl_bitInByte_getLsbD (f : Nat → Bool) {n : Nat} (hn : n ≤ 8) {j : Nat} (hj : j < 8) :
    ((List.range n).foldl (fun acc i => acc ||| bitInByte (f i) i) (0 : Byte)).getLsbD (7 - j) = (decide (j < n) && f j) := by
  induction n with
  | zero => simp
  | succ n ih =>
    rw [List.range_succ, List.foldl_concat, BitVec.getLsbD_or, ih (by omega), bitInByte_getLsbD _ (by omega)]
    rcases Nat.lt_trichotomy j n with h | rfl | h
    · have hother : ¬ 7 - j + n = 7 := by omega
      simp [h, hother, Nat.lt_succ_of_lt h]
    · have hsame : 7 - j + j = 7 := by omega
      simp [hsame]
    · have hother : ¬ 7 - j + n = 7 := by omega
      have hend : ¬ j < n + 1 := by omega
      simp [Nat.not_lt_of_gt h, hother, hend]

/-- Bit `j` of byte `m`, counted from the most significant, is bit `8m + j` of the sequence, or a zero pad bit (R70). -/
theorem byteOfBits_getLsbD (bits : List Bool) (m : Nat) {j : Nat} (hj : j < 8) :
    (byteOfBits bits m).getLsbD (7 - j) = bits.getD (8 * m + j) false := by
  rw [byteOfBits, foldl_bitInByte_getLsbD (fun j => bits.getD (8 * m + j) false) (Nat.le_refl 8) hj, decide_eq_true hj,
    Bool.true_and]

/-- Two bytes with the same bits from the most significant down are one. -/
theorem byte_ext {v w : Byte} (h : ∀ j < 8, v.getLsbD (7 - j) = w.getLsbD (7 - j)) : v = w :=
  BitVec.eq_of_getLsbD_eq fun i hi => by
    have hbit := h (7 - i) (by omega)
    rwa [Nat.sub_sub_self (by omega)] at hbit

/-- Where the sequence has no bits there are only pad bits. -/
theorem byteOfBits_beyond {bits : List Bool} {m : Nat} (h : bits.length ≤ 8 * m) : byteOfBits bits m = 0 :=
  byte_ext fun j hj => by
    rw [byteOfBits_getLsbD bits m hj, List.getD_eq_default _ _ (by omega)]
    exact BitVec.getLsbD_zero.symm

/-- A full byte is not changed by the bits that follow. -/
theorem byteOfBits_append_of_full {bits more : List Bool} {m : Nat} (h : 8 * m + 8 ≤ bits.length) :
    byteOfBits (bits ++ more) m = byteOfBits bits m :=
  byte_ext fun j hj => by
    rw [byteOfBits_getLsbD _ m hj, byteOfBits_getLsbD _ m hj, List.getD_append _ _ _ _ (by omega)]

/-- One more bit goes into the byte being filled, after the bits already there (R141). -/
theorem byteOfBits_snoc (bits : List Bool) (b : Bool) :
    byteOfBits (bits ++ [b]) (bits.length / 8) =
      byteOfBits bits (bits.length / 8) ||| bitInByte b (bits.length % 8) :=
  byte_ext fun j hj => by
    rw [byteOfBits_getLsbD _ _ hj, BitVec.getLsbD_or, byteOfBits_getLsbD _ _ hj, bitInByte_getLsbD b (Nat.mod_lt _ (by decide))]
    rcases Nat.lt_trichotomy j (bits.length % 8) with h | h | h
    · have hother : ¬ 7 - j + bits.length % 8 = 7 := by omega
      rw [List.getD_append _ _ _ _ (by omega), decide_eq_false hother, Bool.and_false, Bool.or_false]
    · have hend : 8 * (bits.length / 8) + j = bits.length := by omega
      have hsame : 7 - j + bits.length % 8 = 7 := by omega
      simp [hend, hsame]
    · have hother : ¬ 7 - j + bits.length % 8 = 7 := by omega
      rw [List.getD_eq_default _ _ (by simp; omega), List.getD_eq_default _ _ (by omega), decide_eq_false hother, Bool.and_false,
        Bool.or_false]

/-- The bytes that a bit sequence fills (R70). -/
def wholeBytes (bits : List Bool) : List Byte := (List.range (bits.length / 8)).map (byteOfBits bits)

@[simp] theorem wholeBytes_length (bits : List Bool) : (wholeBytes bits).length = bits.length / 8 := by simp [wholeBytes]

/-- The bytes already filled are not changed by the bits that follow. -/
theorem map_byteOfBits_append (bits more : List Bool) :
    (List.range (bits.length / 8)).map (byteOfBits (bits ++ more)) = wholeBytes bits := by
  refine List.map_congr_left fun m hm => byteOfBits_append_of_full ?_
  rw [List.mem_range] at hm
  omega

/-- A bit that leaves its byte open completes no byte. -/
theorem wholeBytes_snoc_open {bits : List Bool} (b : Bool) (h : bits.length % 8 ≠ 7) :
    wholeBytes (bits ++ [b]) = wholeBytes bits := by
  have hcount : (bits ++ [b]).length / 8 = bits.length / 8 := by simp; omega
  rw [wholeBytes, hcount, map_byteOfBits_append]

/-- The eighth bit of a byte completes it. -/
theorem wholeBytes_snoc_full {bits : List Bool} (b : Bool) (h : bits.length % 8 = 7) :
    wholeBytes (bits ++ [b]) = wholeBytes bits ++ [byteOfBits (bits ++ [b]) (bits.length / 8)] := by
  have hcount : (bits ++ [b]).length / 8 = bits.length / 8 + 1 := by simp; omega
  rw [wholeBytes, hcount, List.range_succ, List.map_append, List.map_singleton, map_byteOfBits_append]

theorem bytesOfBits_whole {bits : List Bool} (h : bits.length % 8 = 0) : bytesOfBits bits = wholeBytes bits := by
  have hcount : (bits.length + 7) / 8 = bits.length / 8 := by omega
  rw [bytesOfBits, hcount, wholeBytes]

/-- A last byte that is not full is padded with zeros (R142). -/
theorem bytesOfBits_padded {bits : List Bool} (h : bits.length % 8 ≠ 0) :
    bytesOfBits bits = wholeBytes bits ++ [byteOfBits bits (bits.length / 8)] := by
  have hcount : (bits.length + 7) / 8 = bits.length / 8 + 1 := by omega
  rw [bytesOfBits, hcount, List.range_succ, List.map_append, List.map_singleton, wholeBytes]

@[simp] theorem bytesOfBits_length (bits : List Bool) : (bytesOfBits bits).length = (bits.length + 7) / 8 := by simp [bytesOfBits]

/-! ### Packing -/

theorem outputFits.mono {s : State} {m n : Nat} (h : outputFits s n) (hle : m ≤ n) : outputFits s m :=
  Nat.le_trans (Nat.add_le_add_left hle _) h

/-- PACK issued at `s` after the code bits `bits`: the whole bytes are appended, the bits after them are in the accumulator. -/
def packed (s : State) (bits : List Bool) : Packer × State :=
  ({ acc := byteOfBits bits (bits.length / 8), nb := bits.length % 8 }, appended s (wholeBytes bits))

theorem packed_nil (s : State) : packed s [] = (emptyPacker, s) :=
  Prod.ext rfl (appended_nil s)

theorem packBit_open {b : Bool} {p : Packer} {s : State} (h : p.nb + 1 ≠ 8) :
    packBit b p s = .ok ({ acc := p.acc ||| bitInByte b p.nb, nb := p.nb + 1 }, s) := if_neg h

theorem packBit_full {b : Bool} {p : Packer} {s t : State} (h : p.nb + 1 = 8)
    (ht : append (p.acc ||| bitInByte b p.nb) s = .ok t) : packBit b p s = .ok (emptyPacker, t) := by
  simp [packBit, h, ht]

/-- One more bit packed, when there is room for the byte it may complete (R141). -/
theorem packBit_packed {s : State} {bits : List Bool} (b : Bool) (h : outputFits s ((bits ++ [b]).length / 8)) :
    packBit b (packed s bits).1 (packed s bits).2 = .ok (packed s (bits ++ [b])) := by
  by_cases hfull : bits.length % 8 = 7
  · have happend : append (byteOfBits bits (bits.length / 8) ||| bitInByte b (bits.length % 8)) (packed s bits).2 =
        .ok (appended s (wholeBytes (bits ++ [b]))) := by
      rw [← byteOfBits_snoc, wholeBytes_snoc_full b hfull]
      refine append_appended _ ?_
      rwa [← wholeBytes_snoc_full b hfull, wholeBytes_length]
    have hlast : bits.length % 8 + 1 = 8 := by omega
    have hnb : (bits ++ [b]).length % 8 = 0 := by simp; omega
    have hempty : byteOfBits (bits ++ [b]) ((bits ++ [b]).length / 8) = 0 := byteOfBits_beyond (by omega)
    rw [packBit_full (p := (packed s bits).1) hlast happend, packed, hnb, hempty, emptyPacker]
  · have hcount : (bits ++ [b]).length / 8 = bits.length / 8 := by simp; omega
    have hnb : (bits ++ [b]).length % 8 = bits.length % 8 + 1 := by simp; omega
    have hopen : bits.length % 8 + 1 ≠ 8 := by omega
    rw [packBit_open (p := (packed s bits).1) hopen, packed, packed, wholeBytes_snoc_open b hfull, hcount, hnb, byteOfBits_snoc]

/-- The bits of one code packed, when there is room for the bytes they complete (R141). -/
theorem packBits_packed {s : State} {bits more : List Bool} (h : outputFits s ((bits ++ more).length / 8)) :
    packBits more (packed s bits).1 (packed s bits).2 = .ok (packed s (bits ++ more)) := by
  induction more generalizing bits with
  | nil => rw [List.append_nil, packBits]
  | cons b more ih =>
    rw [List.append_cons] at h ⊢
    have hbit := packBit_packed b (h.mono (m := (bits ++ [b]).length / 8) (by simp; omega))
    rw [packBits, hbit]
    exact ih h

/-- A written symbol that has a code is packed as that code (R141). -/
theorem packSymbol_packed {s : State} {bits : List Bool} {k : Nat} {x : Byte} (hbyte : s.ibuf.byte? k = some x)
    (hcode : (s.codeAt x).present = true) (h : outputFits s ((bits ++ (s.codeAt x).path).length / 8)) :
    packSymbol (packed s bits).1 (packed s bits).2 k = .ok (packed s (bits ++ (s.codeAt x).path)) := by
  have hread : memRead k (packed s bits).2 = (x, (packed s bits).2) := memRead_written hbyte
  have hbook : (packed s bits).2.codeAt x = s.codeAt x := rfl
  simp only [packSymbol, hread, hbook, hcode, if_true]
  exact packBits_packed h

/-- The first `n` turns of the packing loop (R141). -/
def packLoop (s : State) (n : Nat) : Except Stop (Packer × State) :=
  (List.range n).foldlM (fun q k => packSymbol q.1 q.2 k) (emptyPacker, s)

theorem packBody_eq (s : State) : packBody s = packLoop s s.ilen.toNat >>= fun q => packEnd q.1 q.2 := rfl

theorem packLoop_zero (s : State) : packLoop s 0 = .ok (emptyPacker, s) := rfl

theorem packLoop_succ (s : State) (n : Nat) : packLoop s (n + 1) = packLoop s n >>= fun q => packSymbol q.1 q.2 n := by
  simp [packLoop, List.range_succ]

theorem codeBits_snoc (book : Byte → Code) (input : List Byte) (x : Byte) :
    codeBits book (input ++ [x]) = codeBits book input ++ (book x).path := by
  simp [codeBits]

/-- Over written symbols that have codes the loop packs these codes, when there is room for the bytes they complete (R141). -/
theorem packLoop_written {s : State} {input : List Byte} (hbytes : holdsAt s.ibuf 0 input)
    (hcodes : ∀ x ∈ input, (s.codeAt x).present = true) (h : outputFits s ((codeBits s.codeAt input).length / 8)) :
    packLoop s input.length = .ok (packed s (codeBits s.codeAt input)) := by
  induction input using List.reverseRecOn with
  | nil => rw [List.length_nil, packLoop_zero, codeBits, List.flatMap_nil, packed_nil]
  | append_singleton input x ih =>
    rw [codeBits_snoc] at h ⊢
    have hbyte : s.ibuf.byte? input.length = some x := by simpa using hbytes.byte?_append_cons
    have hbefore := ih hbytes.left (fun y hy => hcodes y (List.mem_append_left _ hy))
      (h.mono (Nat.div_le_div_right (by rw [List.length_append]; omega)))
    rw [List.length_append, List.length_singleton, packLoop_succ, hbefore]
    exact packSymbol_packed hbyte (hcodes x (by simp)) h

/-- The end of PACK appends the padded byte, if there is one (R141, R142). -/
theorem packEnd_packed {s : State} {bits : List Bool} (h : outputFits s ((bits.length + 7) / 8)) :
    packEnd (packed s bits).1 (packed s bits).2 = .ok (appended s (bytesOfBits bits)) := by
  by_cases hnb : bits.length % 8 = 0
  · rw [bytesOfBits_whole hnb]
    exact if_pos hnb
  · rw [← bytesOfBits_length, bytesOfBits_padded hnb] at h
    rw [bytesOfBits_padded hnb, ← append_appended _ h]
    exact if_neg hnb

theorem packEntry_eq_none {s : State} (hvalid : s.cbValid = true) (hilen : s.ilen.toNat ≤ s.ibufCap)
    (holen : s.olen.toNat ≤ s.obufCap) : packEntry s = none := by
  simp [packEntry, hvalid, Nat.not_lt.mpr hilen, Nat.not_lt.mpr holen]

/-- Settles O31: the loop packs the codes of the whole input, and the end appends what the accumulator still holds. -/
theorem packAppendsTheCodeBits : Obligations.PackAppendsTheCodeBits := by
  intro s input herr hvalid hinput hcodes hfits
  obtain ⟨hlen, hcap, hbytes⟩ := hinput
  have hloop := packLoop_written hbytes hcodes (hfits.mono (by omega))
  have hentry : packEntry s = none := packEntry_eq_none hvalid (hlen ▸ hcap) (Nat.le_trans (Nat.le_add_right _ _) hfits)
  refine runCommand_ok herr hentry (show packBody s = _ from ?_)
  rw [packBody_eq, hlen, hloop]
  exact packEnd_packed hfits

end Sys2Proof.Machine
end

section
/-! SUPPORT. Decoding a bit sequence (45_bit_reader R152 to R154): a tree decodes exactly what begins with one of its codes, so it decodes
the codes of an input to the input, and from any part of them the symbols whose codes are complete. -/

namespace Sys2Proof.Machine

/-! ### One symbol -/

/-- The walk from a node reads a symbol exactly where the bits begin with the rest of its code (R112, R152). -/
theorem readSymbol_eq_some_iff {t : HuffmanTree} {bits rest : List Bool} {x : Byte} (p : List Bool) :
    t.readSymbol bits = some (x, rest) ↔ ∃ q, (x, p ++ q) ∈ codes t p ∧ bits = q ++ rest := by
  induction t generalizing p bits with
  | leaf y =>
    simp only [HuffmanTree.readSymbol, codes, Option.some.injEq, Prod.mk.injEq, List.mem_singleton, List.append_right_eq_self]
    constructor
    · rintro ⟨rfl, rfl⟩
      exact ⟨[], ⟨rfl, rfl⟩, rfl⟩
    · rintro ⟨q, ⟨rfl, rfl⟩, rfl⟩
      exact ⟨rfl, rfl⟩
  | node l r ihl ihr =>
    have hside : ∀ {b : Bool} {q : List Bool} {c : HuffmanTree}, (x, p ++ q) ∈ codes c (p ++ [b]) → ∃ q', q = b :: q' := by
      intro b q c h
      obtain ⟨q', hq'⟩ := (codes_length h).1
      rw [List.append_assoc, List.append_cancel_left_eq] at hq'
      exact ⟨q', hq'.symm⟩
    cases bits with
    | nil =>
      refine ⟨fun h => by simp [HuffmanTree.readSymbol] at h, ?_⟩
      rintro ⟨q, hq, hbits⟩
      obtain ⟨rfl, -⟩ := List.append_eq_nil_iff.mp hbits.symm
      rcases List.mem_append.mp hq with hq | hq <;>
      · obtain ⟨q', hq'⟩ := hside hq
        cases hq'
    | cons b bits =>
      have hread : (HuffmanTree.node l r).readSymbol (b :: bits) = if b then r.readSymbol bits else l.readSymbol bits := rfl
      rw [hread]
      constructor
      · intro h
        cases b with
        | false =>
          obtain ⟨q, hq, rfl⟩ := (ihl (p ++ [false])).mp h
          exact ⟨false :: q, List.mem_append_left _ (by simpa using hq), rfl⟩
        | true =>
          obtain ⟨q, hq, rfl⟩ := (ihr (p ++ [true])).mp h
          exact ⟨true :: q, List.mem_append_right _ (by simpa using hq), rfl⟩
      · rintro ⟨q, hq, hbits⟩
        rcases List.mem_append.mp hq with hq | hq
        all_goals
          obtain ⟨q', rfl⟩ := hside hq
          obtain ⟨rfl, rfl⟩ := List.cons.inj hbits
        · exact (ihl (p ++ [false])).mpr ⟨q', by simpa using hq, rfl⟩
        · exact (ihr (p ++ [true])).mpr ⟨q', by simpa using hq, rfl⟩

/-- From the root a symbol is decoded exactly where the bits begin with a code of the tree, `"0"` under a leaf (R152, R153). -/
theorem decodeSymbol_eq_some_iff {t : HuffmanTree} {bits rest : List Bool} {x : Byte} :
    t.decodeSymbol bits = some (x, rest) ↔ ∃ q, (x, q) ∈ treeCodes (some t) ∧ bits = q ++ rest := by
  cases t with
  | node l r => exact readSymbol_eq_some_iff []
  | leaf y =>
    rcases bits with _ | ⟨b, bits⟩
    · simp [HuffmanTree.decodeSymbol, treeCodes]
    · cases b <;> simp [HuffmanTree.decodeSymbol, treeCodes, eq_comm]

/-- The error in which the walk from the root ends when it decodes no symbol: a 1 bit under a leaf is `E_BADCODE`, else the bits have
ended (R153, R155). -/
def HuffmanTree.stopCode : HuffmanTree → List Bool → ErrorCode
  | .leaf _, _ :: _ => .badCode
  | .leaf _, [] => .trunc
  | .node _ _, _ => .trunc

/-- Where more bits would have helped, it was the bits that ended. -/
theorem stopCode_of_append {t : HuffmanTree} {bits more : List Bool} (h : t.decodeSymbol bits = none)
    (hmore : t.decodeSymbol (bits ++ more) ≠ none) : t.stopCode bits = .trunc := by
  cases t with
  | node l r => rfl
  | leaf x =>
    rcases bits with _ | ⟨b, bits⟩
    · rfl
    · cases b with
      | false => cases h
      | true => exact absurd rfl hmore

/-! ### Several symbols -/

section
variable {t : HuffmanTree} {n : Nat} {bits rest : List Bool} {xs : List Byte}

theorem decodeSymbols_succ_eq_some_iff {ys : List Byte} :
    t.decodeSymbols (n + 1) bits = some (ys, rest) ↔
      ∃ x mid xs, t.decodeSymbol bits = some (x, mid) ∧ t.decodeSymbols n mid = some (xs, rest) ∧ ys = x :: xs := by
  rw [HuffmanTree.decodeSymbols]
  rcases t.decodeSymbol bits with _ | ⟨x, mid⟩
  · simp
  · rcases hmid : t.decodeSymbols n mid with _ | ⟨xs, rest'⟩
    · simp [hmid]
    · simp [hmid, and_comm, eq_comm]

/-- Decoding goes on where it stopped. -/
theorem decodeSymbols_add (h : t.decodeSymbols n bits = some (xs, rest)) (m : Nat) :
    t.decodeSymbols (n + m) bits = (t.decodeSymbols m rest).map (fun d => (xs ++ d.1, d.2)) := by
  induction n generalizing bits xs with
  | zero =>
    obtain ⟨rfl, rfl⟩ := Prod.mk.inj (Option.some.inj h)
    simp
  | succ n ih =>
    obtain ⟨x, mid, xs, hx, hxs, rfl⟩ := decodeSymbols_succ_eq_some_iff.mp h
    rw [Nat.succ_add_eq_add_succ, Nat.add_succ, HuffmanTree.decodeSymbols, hx]
    dsimp only
    rw [ih hxs]
    cases t.decodeSymbols m rest <;> rfl

theorem decodeSymbol_eq_none_of_succ (h : t.decodeSymbols n bits = some (xs, rest))
    (hnone : t.decodeSymbols (n + 1) bits = none) : t.decodeSymbol rest = none := by
  rw [decodeSymbols_add h 1, Option.map_eq_none_iff] at hnone
  by_contra hsome
  obtain ⟨⟨x, more⟩, hx⟩ := Option.ne_none_iff_exists'.mp hsome
  simp [HuffmanTree.decodeSymbols, hx] at hnone

/-- Decoding that does not reach `n` symbols stops at one of them. -/
theorem decodeSymbols_eq_none (h : t.decodeSymbols n bits = none) :
    ∃ m xs rest, m < n ∧ t.decodeSymbols m bits = some (xs, rest) ∧ t.decodeSymbol rest = none := by
  induction n with
  | zero => cases h
  | succ n ih =>
    cases hn : t.decodeSymbols n bits with
    | none =>
      obtain ⟨m, xs, rest, hm, hstop⟩ := ih hn
      exact ⟨m, xs, rest, Nat.lt_succ_of_lt hm, hstop⟩
    | some d => exact ⟨n, d.1, d.2, Nat.lt_succ_self n, hn, decodeSymbol_eq_none_of_succ hn h⟩

/-- The bits after a symbol do not matter (R154). -/
theorem decodeSymbols_append (h : t.decodeSymbols n bits = some (xs, rest)) (more : List Bool) :
    t.decodeSymbols n (bits ++ more) = some (xs, rest ++ more) := by
  induction n generalizing bits xs with
  | zero =>
    obtain ⟨rfl, rfl⟩ := Prod.mk.inj (Option.some.inj h)
    rfl
  | succ n ih =>
    obtain ⟨x, mid, xs, hx, hxs, rfl⟩ := decodeSymbols_succ_eq_some_iff.mp h
    obtain ⟨q, hq, rfl⟩ := decodeSymbol_eq_some_iff.mp hx
    refine decodeSymbols_succ_eq_some_iff.mpr ⟨x, mid ++ more, xs, ?_, ih hxs, rfl⟩
    exact decodeSymbol_eq_some_iff.mpr ⟨q, hq, List.append_assoc q mid more⟩

theorem decodeSymbols_length_le (h : t.decodeSymbols n bits = some (xs, rest)) : rest.length ≤ bits.length := by
  induction n generalizing bits xs with
  | zero => exact Nat.le_of_eq (congrArg List.length (Prod.mk.inj (Option.some.inj h)).2).symm
  | succ n ih =>
    obtain ⟨x, mid, xs, hx, hxs, -⟩ := decodeSymbols_succ_eq_some_iff.mp h
    obtain ⟨q, -, rfl⟩ := decodeSymbol_eq_some_iff.mp hx
    rw [List.length_append]
    exact Nat.le_add_left_of_le (ih hxs)

/-- A proper part of bits that decode to `n` symbols decodes to fewer, and stops where it ends (R155). -/
theorem decodeSymbols_of_cut {cut more : List Bool} (h : t.decodeSymbols n (cut ++ more) = some (xs, []))
    (hmore : more ≠ []) :
    ∃ m ys rest, m < n ∧ t.decodeSymbols m cut = some (ys, rest) ∧ t.decodeSymbol rest = none ∧ t.stopCode rest = .trunc := by
  have hnone : t.decodeSymbols n cut = none := by
    by_contra hsome
    obtain ⟨⟨ys, rest⟩, hys⟩ := Option.ne_none_iff_exists'.mp hsome
    obtain ⟨-, hend⟩ := Prod.mk.inj (Option.some.inj ((decodeSymbols_append hys more).symm.trans h))
    exact hmore (List.append_eq_nil_iff.mp hend).2
  obtain ⟨m, ys, rest, hm, hys, hstop⟩ := decodeSymbols_eq_none hnone
  refine ⟨m, ys, rest, hm, hys, hstop, stopCode_of_append hstop (more := more) fun hend => ?_⟩
  obtain ⟨k, rfl⟩ := Nat.exists_eq_add_of_lt hm
  rw [Nat.add_assoc, decodeSymbols_add (decodeSymbols_append hys more), HuffmanTree.decodeSymbols, hend] at h
  cases h

/-- The codes of an input decode to the input (R154, R158). -/
theorem decodeSymbols_codeBits {book : Byte → Code} {input : List Byte}
    (hcodes : ∀ x ∈ input, (x, (book x).path) ∈ treeCodes (some t)) (more : List Bool) :
    t.decodeSymbols input.length (codeBits book input ++ more) = some (input, more) := by
  induction input with
  | nil => rfl
  | cons x input ih =>
    obtain ⟨hx, hinput⟩ := List.forall_mem_cons.mp hcodes
    refine decodeSymbols_succ_eq_some_iff.mpr ⟨x, _, input, decodeSymbol_eq_some_iff.mpr ⟨_, hx, ?_⟩, ih hinput, rfl⟩
    rw [codeBits, List.flatMap_cons, List.append_assoc]
    rfl

end

/-- Under a tree of one leaf 0 bits decode to its symbol, one for each (R153). -/
theorem decodeSymbols_leaf (x : Byte) (n : Nat) (more : List Bool) :
    (HuffmanTree.leaf x).decodeSymbols n (List.replicate n false ++ more) = some (List.replicate n x, more) := by
  induction n with
  | zero => rfl
  | succ n ih => exact decodeSymbols_succ_eq_some_iff.mpr ⟨x, _, _, rfl, ih, rfl⟩

/-! ### The codes of a tree's symbols -/

/-- The last code recorded for a symbol is one of its codes (R116). -/
theorem recordedBook_of_mem_fst {cs : List (Byte × List Bool)} {x : Byte} (h : x ∈ cs.map Prod.fst) (book : Vector Code 256) :
    ∃ p, (x, p) ∈ cs ∧ (recordedBook cs book)[x.toNat]'(x.isLt) = codeOfPath p := by
  induction cs generalizing book with
  | nil => cases h
  | cons c cs ih =>
    by_cases hcs : x ∈ cs.map Prod.fst
    · obtain ⟨p, hp, hbook⟩ := ih hcs (book.set c.1.toNat (codeOfPath c.2) c.1.isLt)
      exact ⟨p, List.mem_cons_of_mem c hp, hbook⟩
    · obtain rfl : x = c.1 := (List.mem_cons.mp h).resolve_right hcs
      exact ⟨c.2, List.mem_cons_self, recordedBook_last hcs [] c.2 book⟩

theorem treeCodes_symbols (t : HuffmanTree) : (treeCodes (some t)).map Prod.fst = t.symbols := by
  cases t with
  | leaf x => rfl
  | node l r => exact codes_symbols _ []

/-- A symbol's entry in the code book of the tree (R116). -/
def HuffmanTree.codeOf (t : HuffmanTree) (x : Byte) : Code := (codeBookOf (some t))[x.toNat]'(x.isLt)

/-- Every symbol of the tree has a code in it, one of the tree's codes for it, which reads back as it was recorded. -/
theorem codeOf_of_mem_symbols {t : HuffmanTree} (hheight : t.height ≤ Config.depthMax) {x : Byte} (hx : x ∈ t.symbols) :
    (t.codeOf x).present = true ∧ (x, (t.codeOf x).path) ∈ treeCodes (some t) := by
  rw [← treeCodes_symbols] at hx
  obtain ⟨p, hp, hbook⟩ := recordedBook_of_mem_fst hx (Vector.replicate 256 Code.absent)
  simp only [HuffmanTree.codeOf, codeBookOf_eq, hbook, path_codeOfPath (treeCodes_length hheight hp).2]
  exact ⟨rfl, hp⟩

/-- What is packed with a tree's code book decodes under the tree to what was packed (R158). -/
theorem decodeSymbols_codeOf {t : HuffmanTree} (hheight : t.height ≤ Config.depthMax) {input : List Byte}
    (hinput : ∀ x ∈ input, x ∈ t.symbols) (more : List Bool) :
    t.decodeSymbols input.length (codeBits t.codeOf input ++ more) = some (input, more) :=
  decodeSymbols_codeBits (fun x hx => (codeOf_of_mem_symbols hheight (hinput x hx)).2) more

/-! ### The bits of packed bytes -/

theorem bitsOfByte_getD (v : Byte) {j : Nat} (hj : j < 8) : (bitsOfByte v).getD j false = v.getLsbD (7 - j) := by
  simp [bitsOfByte, hj]

@[simp] theorem bitsOfBytes_cons (v : Byte) (bs : List Byte) : bitsOfBytes (v :: bs) = bitsOfByte v ++ bitsOfBytes bs := rfl

theorem bitsOfBytes_append (as bs : List Byte) : bitsOfBytes (as ++ bs) = bitsOfBytes as ++ bitsOfBytes bs :=
  List.flatMap_append

/-- Bit `i` of a byte sequence stands in byte `i / 8`, after `i % 8` bits (R7). -/
theorem bitsOfBytes_getD (bs : List Byte) (i : Nat) :
    (bitsOfBytes bs).getD i false = (bs.getD (i / 8) 0).getLsbD (7 - i % 8) := by
  induction bs generalizing i with
  | nil => simp [bitsOfBytes]
  | cons v bs ih =>
    rw [bitsOfBytes_cons]
    by_cases hi : i < 8
    · rw [List.getD_append _ _ _ _ hi, bitsOfByte_getD v hi, Nat.div_eq_of_lt hi, Nat.mod_eq_of_lt hi, List.getD_cons_zero]
    · have hdiv : i / 8 = (i - 8) / 8 + 1 := by omega
      have hmod : i % 8 = (i - 8) % 8 := by omega
      rw [List.getD_append_right _ _ _ _ (Nat.not_lt.mp hi), bitsOfByte_length, ih, hdiv, hmod, List.getD_cons_succ]

/-- The bits of packed bytes are the bits packed and zero pad bits (R70, R142). -/
theorem bitsOfBytes_bytesOfBits (bits : List Bool) :
    bitsOfBytes (bytesOfBits bits) = bits ++ List.replicate (8 * ((bits.length + 7) / 8) - bits.length) false := by
  refine List.ext_getElem (by simp; omega) fun i hi hi' => ?_
  have hbyte : (bytesOfBits bits).getD (i / 8) 0 = byteOfBits bits (i / 8) := by
    have hlt : i / 8 < (bits.length + 7) / 8 := by
      rw [bitsOfBytes_length, bytesOfBits_length] at hi
      omega
    simp [bytesOfBits, hlt]
  have hindex : 8 * (i / 8) + i % 8 = i := Nat.div_add_mod i 8
  rw [← List.getD_eq_getElem _ false hi, ← List.getD_eq_getElem _ false hi', bitsOfBytes_getD, hbyte,
    byteOfBits_getLsbD bits _ (Nat.mod_lt i (by decide)), hindex]
  by_cases hlt : i < bits.length
  · rw [List.getD_append _ _ _ _ hlt]
  · rw [bitsOfBytes_length, bytesOfBits_length] at hi
    rw [List.getD_eq_default _ _ (Nat.not_lt.mp hlt), List.getD_append_right _ _ _ _ (Nat.not_lt.mp hlt),
      List.getD_replicate _ (by omega)]

/-- The bits of a proper part of the packed bytes are a proper part of the bits packed (R70). -/
theorem bitsOfBytes_take_bytesOfBits {bits : List Bool} {j : Nat} (hj : j < (bytesOfBits bits).length) :
    ∃ more, more ≠ [] ∧ bits = bitsOfBytes ((bytesOfBits bits).take j) ++ more := by
  have hshort : 8 * j < bits.length := by
    rw [bytesOfBits_length] at hj
    omega
  have hlen : (bitsOfBytes ((bytesOfBits bits).take j)).length = 8 * j := by
    rw [bitsOfBytes_length, List.length_take, Nat.min_eq_left hj.le]
  have hcut : bitsOfBytes ((bytesOfBits bits).take j) = bits.take (8 * j) := by
    calc bitsOfBytes ((bytesOfBits bits).take j)
        = (bitsOfBytes (bytesOfBits bits)).take (8 * j) := by
          rw [← List.take_append_drop j (bytesOfBits bits), bitsOfBytes_append, List.take_append_drop, List.take_left' hlen]
      _ = bits.take (8 * j) := by rw [bitsOfBytes_bytesOfBits, List.take_append_of_le_length hshort.le]
  refine ⟨bits.drop (8 * j), ?_, by rw [hcut, List.take_append_drop]⟩
  rw [ne_eq, List.drop_eq_nil_iff]
  omega

end Sys2Proof.Machine
end

section
/-! SUPPORT. UNPK's loop against the decoding of a bit sequence (45_bit_reader R152 to R158): the bits its reader has before it are decoded
symbol by symbol, each symbol is appended, and the walk ends where the decoding ends. -/

namespace Sys2Proof.Machine

/-! ### Room for more -/

theorem outputFits.lt {s : State} {n : Nat} (h : outputFits s n) : s.olen.toNat + n < 2 ^ 64 :=
  (h.trans_lt (obufCap_lt s)).trans (by decide)

/-- What has room beside `bs` has room after it. -/
theorem outputFits.after {s : State} {bs : List Byte} {n : Nat} (h : outputFits s (bs.length + n)) :
    outputFits (appended s bs) n := by
  have holen := appended_olen_toNat (h.mono (Nat.le_add_right bs.length n)).lt
  rw [outputFits, holen, Nat.add_assoc]
  exact h

/-! ### Moving `IPOS` -/

/-- The state with `IPOS` at `p`. -/
def movedTo (p : Word) (u : State) : State := { u with ipos := p }

@[simp] theorem movedTo_root (p : Word) (u : State) : (movedTo p u).root = u.root := rfl

theorem treeAt_movedTo (p : Word) (u : State) (depth : Nat) (i : NodeIdx) :
    (movedTo p u).treeAt depth i = u.treeAt depth i :=
  treeAt_congr (s := u) (t := movedTo p u) rfl rfl depth i

theorem currentTree_movedTo_appended (p : Word) (u : State) (xs : List Byte) :
    (movedTo p (appended u xs)).currentTree = u.currentTree :=
  currentTree_congr (s := u) (t := movedTo p (appended u xs)) ⟨rfl, rfl, rfl, rfl⟩

/-! ### An entry and its children -/

/-- The entry at which a tree is read is the tree's root. -/
theorem usedNode?_of_treeAt {u : State} {depth : Nat} {i : NodeIdx} {t : HuffmanTree} (h : u.treeAt depth i = some t) :
    ∃ n, u.usedNode? i = some n ∧ ((n.leaf = true ∧ t = .leaf n.sym) ∨ (n.leaf = false ∧ ∃ a b, t = .node a b)) := by
  obtain ⟨depth, rfl⟩ := Nat.exists_eq_add_one.mpr (t.height_pos.trans_le (height_le_of_treeAt h))
  rcases treeAt_eq_some h with ⟨n, hn, hl, ht⟩ | ⟨n, a, b, hn, hl, -, -, ht⟩
  · exact ⟨n, hn, .inl ⟨hl, ht⟩⟩
  · exact ⟨n, hn, .inr ⟨hl, a, b, ht⟩⟩

/-- Below an internal entry the left subtree is read at `LEFT`, the right one at `RIGHT` (R152). -/
theorem treeAt_childOf {u : State} {depth : Nat} {i : NodeIdx} {a b : HuffmanTree} (h : u.treeAt depth i = some (.node a b))
    (bit : Bool) : ∃ n depth', u.usedNode? i = some n ∧ n.leaf = false ∧
      u.treeAt depth' (childOf n bit) = some (if bit then b else a) := by
  obtain ⟨depth, rfl⟩ := Nat.exists_eq_add_one.mpr ((HuffmanTree.height_pos _).trans_le (height_le_of_treeAt h))
  rcases treeAt_eq_some h with ⟨n, -, -, hleaf⟩ | ⟨n, a', b', hn, hl, ha, hb, hnode⟩
  · cases hleaf
  · obtain ⟨rfl, rfl⟩ := HuffmanTree.node.inj hnode
    refine ⟨n, depth, hn, hl, ?_⟩
    cases bit with
    | false => exact ha
    | true => exact hb

/-! ### The bits the reader has before it -/

/-- The bits of the byte taken last that are still to be read (R152). -/
def BitCursor.openBits (r : BitCursor) : List Bool := if r.nb = 0 then [] else (bitsOfByte r.cur).drop r.nb

theorem openBits_fresh {r : BitCursor} (h : r.nb = 0) : r.openBits = [] := if_pos h

/-- The bits of an open byte are the next one and those open after it. -/
theorem openBits_open {r : BitCursor} (h : r.nb ≠ 0) (hlt : r.nb < 8) :
    r.openBits = r.cur.getLsbD (7 - r.nb) :: BitCursor.openBits { r with nb := (r.nb + 1) % 8 } := by
  have hlt' : r.nb < (bitsOfByte r.cur).length := hlt
  rw [BitCursor.openBits, if_neg h, List.drop_eq_getElem_cons hlt', ← List.getD_eq_getElem _ false, bitsOfByte_getD _ hlt]
  by_cases hlast : r.nb = 7
  · simp [BitCursor.openBits, hlast]
  · have hnext : (r.nb + 1) % 8 = r.nb + 1 := Nat.mod_eq_of_lt (by omega)
    simp [BitCursor.openBits, hnext]

/-- The reader has these bits before it: those of the byte it has open, then those of the stream (R45, R152). -/
structure BitsAhead (r : BitCursor) (u : State) (bits : List Bool) : Prop where
  nb_lt : r.nb < 8
  stream : ∃ bs, streamIs u bs ∧ bits = r.openBits ++ bitsOfBytes bs

section
variable {r : BitCursor} {u : State} {bits : List Bool}

theorem bitsAhead_fresh {stream : List Byte} (h : streamIs u stream) : BitsAhead freshCursor u (bitsOfBytes stream) :=
  ⟨Nat.succ_pos 7, stream, h, rfl⟩

/-- Appending reads nothing. -/
theorem BitsAhead.appended (h : BitsAhead r u bits) (xs : List Byte) : BitsAhead r (appended u xs) bits := ⟨h.nb_lt, h.stream⟩

theorem openBits_length_lt (h : r.nb < 8) : r.openBits.length < 8 := by
  unfold BitCursor.openBits
  split
  · exact Nat.succ_pos 7
  · simp
    omega

/-- A byte is read when its first bit is: the whole bytes among the bits ahead are those from `IPOS` on (R156). -/
theorem BitsAhead.ipos (h : BitsAhead r u bits) : u.ipos.toNat + bits.length / 8 = u.ilen.toNat := by
  have hopen := openBits_length_lt h.nb_lt
  obtain ⟨bs, ⟨hlen, -, -⟩, rfl⟩ := h.stream
  simp only [List.length_append, bitsOfBytes_length]
  omega

/-- `get_bit` answers the first of the bits ahead (R152). -/
theorem BitsAhead.getBit {b : Bool} (h : BitsAhead r u (b :: bits)) :
    ∃ r' p, getBit r u = .ok (b, r', movedTo p u) ∧ BitsAhead r' (movedTo p u) bits := by
  obtain ⟨bs, hbs, hbits⟩ := h.stream
  by_cases hnb : r.nb = 0
  · rw [openBits_fresh hnb, List.nil_append] at hbits
    cases bs with
    | nil => cases hbits
    | cons v bs =>
      obtain ⟨rfl, rfl⟩ := List.cons.inj hbits
      exact ⟨_, _, getBit_fresh hnb hbs.nextByte, Nat.one_lt_succ_succ 6, bs, hbs.tail, rfl⟩
  · rw [openBits_open hnb h.nb_lt] at hbits
    obtain ⟨rfl, rfl⟩ := List.cons.inj hbits
    exact ⟨_, u.ipos, getBit_open hnb, Nat.mod_lt _ (Nat.succ_pos 7), bs, hbs, rfl⟩

/-- With no bit ahead `get_bit` raises `E_TRUNC` (R155). -/
theorem BitsAhead.getBit_end (h : BitsAhead r u []) : Machine.getBit r u = .error (.raise .trunc u.draws) := by
  obtain ⟨bs, ⟨hlen, -, -⟩, hbits⟩ := h.stream
  obtain ⟨hopen, hbytes⟩ := List.append_eq_nil_iff.mp hbits.symm
  have hnil : bs.length = 0 := by
    have := congrArg List.length hbytes
    simpa using this
  have hnb : r.nb = 0 := by
    by_contra hnb
    rw [openBits_open hnb h.nb_lt] at hopen
    cases hopen
  have hnext : nextByte u = .error (.raise .trunc u.draws) := nextByte_end (by omega)
  simp [Machine.getBit, hnb, hnext]

end

/-! ### One symbol -/

/-- What is left of the loop when it has read a symbol: to append it and go on from the root, with the bits left over ahead. When the
bits decode to no symbol the loop raises `e` (R152, R155). -/
def loopGoesOn (left : Nat) (u : State) (e : ErrorCode) (result : Except Stop State) : Option (Byte × List Bool) → Prop
  | none => result = .error (.raise e u.draws)
  | some (x, rest) => ∃ turns r p, rest.length < turns ∧ BitsAhead r (movedTo p u) rest ∧
      result = append x (movedTo p u) >>= unpkLoop turns left u.root r

section
variable {u v : State} {r r' : BitCursor} {turns left : Nat} {i : NodeIdx}

theorem unpkLoop_end {e : Stop} (h : getBit r u = .error e) : unpkLoop (turns + 1) (left + 1) i r u = .error e := by
  rw [unpkLoop, h]
  rfl

/-- A turn at an entry in use whose children are in use: to a child that is a leaf, or one level down (R152). -/
theorem unpkLoop_internal {b : Bool} {n m : Node} (h : getBit r u = .ok (b, r', v)) (hn : v.usedNode? i = some n)
    (hl : n.leaf = false) (hm : v.usedNode? (childOf n b) = some m) :
    unpkLoop (turns + 1) (left + 1) i r u =
      if m.leaf then append m.sym v >>= unpkLoop turns left v.root r' else unpkLoop turns (left + 1) (childOf n b) r' v := by
  rw [unpkLoop, h]
  simp only [Except.ok_bind, hn, hl, hm, Bool.false_eq_true, if_false]

/-- A turn at a root that is a leaf (R153). -/
theorem unpkLoop_leaf {b : Bool} {n : Node} (h : getBit r u = .ok (b, r', v)) (hn : v.usedNode? i = some n)
    (hl : n.leaf = true) :
    unpkLoop (turns + 1) (left + 1) i r u =
      if b then .error (.raise .badCode v.draws) else append n.sym v >>= unpkLoop turns left i r' := by
  rw [unpkLoop, h]
  simp only [Except.ok_bind, hn, hl, if_true]
  rfl

/-- From an internal entry the loop reads the symbol that the walk from there reads, or ends with `E_TRUNC` (R152, R155). -/
theorem unpkLoop_readSymbol {bits : List Bool} {depth : Nat} {a b : HuffmanTree} (ht : u.treeAt depth i = some (.node a b))
    (h : BitsAhead r u bits) (hturns : bits.length < turns) :
    loopGoesOn left u .trunc (unpkLoop turns (left + 1) i r u) ((HuffmanTree.node a b).readSymbol bits) := by
  induction bits generalizing u r turns i depth a b with
  | nil =>
    obtain ⟨turns, rfl⟩ := Nat.exists_eq_add_one.mpr hturns
    exact unpkLoop_end h.getBit_end
  | cons bit bits ih =>
    obtain ⟨turns, rfl⟩ := Nat.exists_eq_add_one.mpr (Nat.zero_lt_of_lt hturns)
    have hleft : bits.length < turns := Nat.lt_of_succ_lt_succ hturns
    obtain ⟨r', p, hbit, hahead⟩ := h.getBit
    obtain ⟨n, depth, hn, hl, hchild⟩ := treeAt_childOf ht bit
    have hread : (HuffmanTree.node a b).readSymbol (bit :: bits) = (if bit then b else a).readSymbol bits := by
      cases bit <;> rfl
    rw [hread]
    generalize (if bit then b else a) = child at hchild ⊢
    obtain ⟨m, hm, ⟨hml, rfl⟩ | ⟨hml, c, d, rfl⟩⟩ := usedNode?_of_treeAt hchild
    · refine ⟨turns, r', p, hleft, hahead, ?_⟩
      rw [unpkLoop_internal (v := movedTo p u) hbit hn hl hm, if_pos hml, movedTo_root]
    · rw [unpkLoop_internal (v := movedTo p u) hbit hn hl hm, if_neg (by simp [hml])]
      exact ih (u := movedTo p u) ((treeAt_movedTo p u _ _).trans hchild) hahead hleft

/-- From the root the loop reads the symbol that the tree decodes, or ends with the error of R153 and R155. -/
theorem unpkLoop_decodeSymbol {t : HuffmanTree} {bits : List Bool} (ht : u.currentTree = some t) (h : BitsAhead r u bits)
    (hturns : bits.length < turns) :
    loopGoesOn left u (t.stopCode bits) (unpkLoop turns (left + 1) u.root r u) (t.decodeSymbol bits) := by
  obtain ⟨-, hread⟩ := treeAt_of_currentTree ht
  cases t with
  | node a b => exact unpkLoop_readSymbol hread h hturns
  | leaf x =>
    obtain ⟨n, hn, ⟨hl, hx⟩ | ⟨-, a, b, hnode⟩⟩ := usedNode?_of_treeAt hread
    · obtain rfl := HuffmanTree.leaf.inj hx
      obtain ⟨turns, rfl⟩ := Nat.exists_eq_add_one.mpr (Nat.zero_lt_of_lt hturns)
      rcases bits with _ | ⟨bit, bits⟩
      · exact unpkLoop_end h.getBit_end
      · obtain ⟨r', p, hbit, hahead⟩ := h.getBit
        rw [unpkLoop_leaf (v := movedTo p u) hbit hn hl]
        cases bit with
        | true => rfl
        | false => exact ⟨turns, r', p, Nat.lt_of_succ_lt_succ hturns, hahead, rfl⟩
    · cases hnode

end

/-! ### Several symbols -/

/-- The loop reads and appends the symbols that the tree decodes, when there is room for them, and goes on behind them (R152). -/
theorem unpkLoop_decodeSymbols {t : HuffmanTree} {n left turns : Nat} {r : BitCursor} {u : State} {bits rest : List Bool}
    {xs : List Byte} (ht : u.currentTree = some t) (h : BitsAhead r u bits) (hturns : bits.length < turns)
    (hdecode : t.decodeSymbols n bits = some (xs, rest)) (hfits : outputFits u n) :
    ∃ turns' r' p, rest.length < turns' ∧ BitsAhead r' (movedTo p (appended u xs)) rest ∧
      unpkLoop turns (left + n) u.root r u = unpkLoop turns' left u.root r' (movedTo p (appended u xs)) := by
  induction n generalizing turns r u bits xs with
  | zero =>
    obtain ⟨rfl, rfl⟩ := Prod.mk.inj (Option.some.inj hdecode)
    rw [appended_nil]
    exact ⟨turns, r, u.ipos, hturns, h, rfl⟩
  | succ n ih =>
    obtain ⟨x, mid, xs, hx, hxs, rfl⟩ := decodeSymbols_succ_eq_some_iff.mp hdecode
    have hloop := unpkLoop_decodeSymbol (left := left + n) ht h hturns
    rw [hx] at hloop
    obtain ⟨turns₁, r₁, p₁, hturns₁, h₁, hloop⟩ := hloop
    rw [Nat.add_comm, ← List.length_singleton (a := x)] at hfits
    have hone : u.olen.toNat + [x].length < 2 ^ 64 := (hfits.mono (Nat.le_add_right _ _)).lt
    have hroom : u.olen.toNat < u.obufCap := hfits.mono (Nat.le_add_right 1 n)
    have happend : append x (movedTo p₁ u) = .ok (movedTo p₁ (appended u [x])) := append_room hroom
    obtain ⟨turns', r', p, hturns', h', hrest⟩ := ih (u := movedTo p₁ (appended u [x]))
      ((currentTree_movedTo_appended p₁ u [x]).trans ht) (h₁.appended [x]) hturns₁ hxs hfits.after
    have hboth : appended (movedTo p₁ (appended u [x])) xs = movedTo p₁ (appended u (x :: xs)) :=
      congrArg (movedTo p₁) (appended_appended hone)
    rw [hboth] at h' hrest
    refine ⟨turns', r', p, hturns', h', ?_⟩
    rw [← Nat.add_assoc, hloop, happend, Except.ok_bind]
    exact hrest

/-! ### UNPK -/

theorem unpkEntry_eq_none {s : State} {bs : List Byte} (hbs : streamIs s bs) (hcap : s.olen.toNat ≤ s.obufCap)
    (htotal : s.total.toNat ≤ Config.totalMax) (htree : s.total = 0 ∨ s.treeValid = true ∧ s.nnode ≠ 0) : unpkEntry s = none := by
  obtain ⟨hlen, hilen, -⟩ := hbs
  rw [unpkEntry, if_neg (by omega)]
  by_cases h0 : s.total = 0
  · exact if_pos h0
  · obtain ⟨hvalid, hnodes⟩ := htree.resolve_left h0
    rw [if_neg h0, if_neg (by simpa [hvalid] using hnodes)]

/-- A count of 0 needs no tree and changes nothing (R154). -/
theorem exec_unpk_zero {s : State} (herr : s.err = false) (htotal : s.total = 0) (hilen : s.ilen.toNat ≤ s.ibufCap)
    (hipos : s.ipos.toNat ≤ s.ilen.toNat) (holen : s.olen.toNat ≤ s.obufCap) : exec .unpk s = .next s := by
  have hlegal : ¬ Config.totalMax < s.total.toNat := by
    rw [htotal]
    exact Nat.not_lt_zero _
  have hentry : unpkEntry s = none := by
    rw [unpkEntry, if_neg (by omega), if_pos htotal]
  exact runCommand_ok (c := unpkCommand) herr hentry (if_pos htotal)

/-- `IPOS` when of the stream's bits `rest` are left to read: past the byte of the last bit taken (R156). -/
def iposLeaving (s : State) (stream : List Byte) (rest : List Bool) : Word :=
  s.ipos + BitVec.ofNat 64 ((8 * stream.length - rest.length + 7) / 8)

section
variable {s : State} {t : HuffmanTree} {stream xs : List Byte} {n : Nat} {rest : List Bool} (htree : s.currentTree = some t)
  (hstream : streamIs s stream) (hdecode : t.decodeSymbols n (bitsOfBytes stream) = some (xs, rest)) (hfits : outputFits s n)
include htree hstream hdecode hfits

/-- UNPK's body comes as far as the symbols that decode, with `IPOS` past the byte of the last bit taken (R152, R156). -/
theorem unpkBody_decodes {left : Nat} (htotal : s.total.toNat = left + n) (h0 : 0 < s.total.toNat) :
    ∃ turns r, rest.length < turns ∧
      BitsAhead r (movedTo (iposLeaving s stream rest) (appended s xs)) rest ∧
      unpkBody s = unpkLoop turns left s.root r
        (movedTo (iposLeaving s stream rest) (appended s xs)) := by
  have hrest := decodeSymbols_length_le hdecode
  rw [bitsOfBytes_length] at hrest
  obtain ⟨hlen, hcap, hbytes⟩ := hstream
  have hturns : (bitsOfBytes stream).length < unpkTurns s := by
    rw [bitsOfBytes_length, unpkTurns]
    omega
  obtain ⟨turns, r, p, hleft, hahead, hloop⟩ :=
    unpkLoop_decodeSymbols (left := left) htree (bitsAhead_fresh ⟨hlen, hcap, hbytes⟩) hturns hdecode hfits
  have hp : p = iposLeaving s stream rest := by
    have hipos : p.toNat + rest.length / 8 = s.ilen.toNat := hahead.ipos
    have hilen := s.ilen.isLt
    apply BitVec.eq_of_toNat_eq
    rw [iposLeaving, BitVec.toNat_add, BitVec.toNat_ofNat]
    omega
  subst hp
  have hne : s.total ≠ 0 := fun h => by
    rw [h] at h0
    exact Nat.lt_irrefl 0 h0
  refine ⟨turns, r, hleft, hahead, ?_⟩
  rw [unpkBody, if_neg hne, htotal]
  exact hloop

/-- UNPK's body appends the symbols when there are `TOTAL` of them (R154). -/
theorem unpkBody_completes (htotal : s.total.toNat = n) (h0 : 0 < n) :
    unpkBody s =
      .ok (movedTo (iposLeaving s stream rest) (appended s xs)) := by
  obtain ⟨turns, r, hturns, -, hbody⟩ :=
    unpkBody_decodes htree hstream hdecode hfits (left := 0) (htotal.trans (Nat.zero_add n).symm) (htotal ▸ h0)
  obtain ⟨turns, rfl⟩ := Nat.exists_eq_add_one.mpr (Nat.zero_lt_of_lt hturns)
  exact hbody

/-- UNPK's body raises where the bits decode to no further symbol and `TOTAL` is not reached (R153, R155). -/
theorem unpkBody_stops (hstop : t.decodeSymbol rest = none) (hn : n < s.total.toNat) :
    unpkBody s = .error (.raise (t.stopCode rest) s.draws) := by
  obtain ⟨left, hleft⟩ := Nat.exists_eq_add_of_lt hn
  obtain ⟨turns, r, hturns, hahead, hbody⟩ := unpkBody_decodes htree hstream hdecode hfits (left := left + 1) (by omega) (by omega)
  have hloop := unpkLoop_decodeSymbol (left := left) ((currentTree_movedTo_appended _ s xs).trans htree) hahead hturns
  rw [hstop] at hloop
  exact hbody.trans hloop

end

/-- An error of UNPK's body is reported, and the tree stays valid (R199). -/
theorem unpk_raises {s : State} {e : ErrorCode} {n : Nat} (herr : s.err = false) (hentry : unpkEntry s = none)
    (hvalid : s.treeValid = true) (hbody : unpkBody s = .error (.raise e n)) :
    ∃ u, exec .unpk s = .next u ∧ reports u e ∧ u.ecode = errorCode e ∧ u.treeValid = true :=
  ⟨_, runCommand_raise (c := unpkCommand) herr hentry hbody, ⟨rfl, rfl, rfl⟩, rfl, (Bool.and_true _).trans hvalid⟩

/-- UNPK reports the error in which the decoding ends before `TOTAL` (R153, R155). -/
theorem exec_unpk_stops {s : State} {t : HuffmanTree} {stream xs : List Byte} {n : Nat} {rest : List Bool} (herr : s.err = false)
    (hvalid : s.treeValid = true) (htree : s.currentTree = some t) (hstream : streamIs s stream)
    (htotal : s.total.toNat ≤ Config.totalMax) (hdecode : t.decodeSymbols n (bitsOfBytes stream) = some (xs, rest))
    (hstop : t.decodeSymbol rest = none) (hn : n < s.total.toNat) (hfits : outputFits s n) :
    ∃ u, exec .unpk s = .next u ∧ reports u (t.stopCode rest) ∧ u.ecode = errorCode (t.stopCode rest) ∧ u.treeValid = true :=
  unpk_raises herr
    (unpkEntry_eq_none hstream ((Nat.le_add_right _ _).trans hfits) htotal (.inr ⟨hvalid, (treeAt_of_currentTree htree).1⟩)) hvalid
    (unpkBody_stops htree hstream hdecode hfits hstop hn)

/-- Settles O33: the loop's symbols are those the tree decodes, and it ends when there are `TOTAL` of them. -/
theorem unpkDecodesTotalSymbols : Obligations.UnpkDecodesTotalSymbols := by
  intro s herr holen
  refine ⟨fun htotal hilen hipos => exec_unpk_zero herr htotal hilen hipos holen, ?_⟩
  intro t stream symbols rest hstream h0 hlegal hvalid htree hdecode hfits
  have hentry := unpkEntry_eq_none hstream holen hlegal (.inr ⟨hvalid, (treeAt_of_currentTree htree).1⟩)
  exact runCommand_ok (c := unpkCommand) herr hentry (unpkBody_completes htree hstream hdecode hfits rfl h0)

/-- Settles O34: the packed bits are the codes of the input, which decode to it, and zero pad bits. -/
theorem unpkUndoesPack : Obligations.UnpkUndoesPack := by
  intro s t input rest herr hvalid htree hinput htotal hlegal hstream hfits
  change streamIs s (bytesOfBits (codeBits t.codeOf input) ++ rest) at hstream
  change exec .unpk s = .next { appended s input with
    ipos := s.ipos + BitVec.ofNat 64 (bytesOfBits (codeBits t.codeOf input)).length }
  have holen : s.olen.toNat ≤ s.obufCap := (Nat.le_add_right _ _).trans hfits
  obtain ⟨hzero, hdecodes⟩ := unpkDecodesTotalSymbols s herr holen
  rcases eq_or_ne input [] with rfl | hne
  · obtain ⟨hlen, hilen, -⟩ := hstream
    have hnext := hzero (BitVec.eq_of_toNat_eq htotal) hilen (by omega)
    simpa [codeBits, appended_nil, bytesOfBits] using hnext
  have hpos : 0 < input.length := List.length_pos_iff.mpr hne
  have hdecode := decodeSymbols_codeOf (height_le_of_treeAt (treeAt_of_currentTree htree).2) hinput
  generalize codeBits t.codeOf input = bits at hstream hdecode ⊢
  have hpacked := hdecode (List.replicate (8 * ((bits.length + 7) / 8) - bits.length) false ++ bitsOfBytes rest)
  rw [← List.append_assoc, ← bitsOfBytes_bytesOfBits, ← bitsOfBytes_append, ← htotal] at hpacked
  have hcount : (8 * (bytesOfBits bits ++ rest).length -
      (List.replicate (8 * ((bits.length + 7) / 8) - bits.length) false ++ bitsOfBytes rest).length + 7) / 8 =
      (bytesOfBits bits).length := by
    simp only [List.length_append, bytesOfBits_length, List.length_replicate, bitsOfBytes_length]
    omega
  rw [hdecodes t _ input _ hstream (htotal ▸ hpos) (htotal ▸ hlegal) hvalid htree hpacked (htotal ▸ hfits), hcount]

/-- Settles O35: under an internal root the walk from the root meets the end of the bits; under a leaf all bits decode, and the end
comes before `TOTAL`. -/
theorem unpkOfTooFewBitsRaisesETrunc : Obligations.UnpkOfTooFewBitsRaisesETrunc := by
  intro s stream herr hstream hvalid hlegal
  refine ⟨fun l r n symbols rest htree hn hfits hdecode hnone => ?_, fun x htree hshort hfits hzeros => ?_⟩
  · exact exec_unpk_stops herr hvalid htree hstream hlegal hdecode (decodeSymbol_eq_none_of_succ hdecode hnone) hn hfits
  · have hbits : bitsOfBytes stream = List.replicate (8 * stream.length) false ++ [] := by
      rw [List.append_nil, List.eq_replicate_iff]
      exact ⟨bitsOfBytes_length stream, hzeros⟩
    have hdecode := decodeSymbols_leaf x (8 * stream.length) []
    rw [← hbits] at hdecode
    exact exec_unpk_stops herr hvalid htree hstream hlegal hdecode rfl hshort hfits

/-- Settles O36: the 0 bits before it decode, and the 1 bit is no code of a leaf. -/
theorem unpkOfAOneBitUnderALeafRaisesEBadCode : Obligations.UnpkOfAOneBitUnderALeafRaisesEBadCode := by
  intro s x stream n herr hstream hvalid htree hn hlegal hfits hbits
  have hsplit : bitsOfBytes stream = List.replicate n false ++ true :: (bitsOfBytes stream).drop (n + 1) := by
    rw [← List.singleton_append, ← List.append_assoc, ← hbits, List.take_append_drop]
  have hdecode := decodeSymbols_leaf x n (true :: (bitsOfBytes stream).drop (n + 1))
  rw [← hsplit] at hdecode
  exact exec_unpk_stops herr hvalid htree hstream hlegal hdecode rfl hn hfits

end Sys2Proof.Machine
end

section
/-! SUPPORT. The commands that write output, whether or not it fits: each appends what its rule says, or raises `E_OVF` when that is more
than there is room for (20_memory R44, 60_exceptions R191). -/

namespace Sys2Proof.Machine

/-- From state `s` the step appends `bs`; when there is no room for them it raises `E_OVF` (R44, R191). -/
def Appends (s : State) (bs : List Byte) (x : Except Stop State) : Prop :=
  Answers x (fun t => t = appended s bs ∧ outputFits s bs.length) (· = .ovf)

section
variable {s : State} {bs cs : List Byte}

theorem appends_nil (h : outputFits s 0) : Appends s [] (.ok s) := answers_ok ⟨(appended_nil s).symm, h⟩

/-- What fits after `bs` fits together with it. -/
theorem outputFits.before {n : Nat} (hbs : outputFits s bs.length) (h : outputFits (appended s bs) n) :
    outputFits s (bs.length + n) := by
  rwa [outputFits, appended_olen_toNat hbs.lt, Nat.add_assoc] at h

/-- Appending twice. -/
theorem Appends.bind {x : Except Stop State} {f : State → Except Stop State} (h : Appends s bs x)
    (hf : outputFits (appended s bs) 0 → Appends (appended s bs) cs (f (appended s bs))) : Appends s (bs ++ cs) (x >>= f) := by
  refine Answers.bind h ?_
  rintro _ - ⟨rfl, hfits⟩
  refine (hf (outputFits.after hfits)).mono ?_ fun _ => id
  rintro _ ⟨rfl, hmore⟩
  exact ⟨appended_appended hfits.lt, List.length_append ▸ hfits.before hmore⟩

theorem append_appends (v : Byte) (s : State) : Appends s [v] (append v s) := by
  by_cases hroom : s.olen.toNat < s.obufCap
  · exact .inl ⟨_, append_room hroom, rfl, hroom⟩
  · exact .inr ⟨_, _, append_full (Nat.not_lt.mp hroom), rfl⟩

/-- The appending of `v` after `bs`. -/
theorem append_appended_answers (v : Byte) (h : outputFits s bs.length) :
    Answers (append v (appended s bs)) (fun t => t = appended s (bs ++ [v]) ∧ outputFits s (bs ++ [v]).length) (· = .ovf) :=
  Appends.bind (x := .ok (appended s bs)) (f := append v) (answers_ok ⟨rfl, h⟩) fun _ => append_appends v _

/-! ### WHDR -/

theorem foldlM_append_appends {α : Type} (f : α → Byte) (l : List α) (h : outputFits s 0) :
    Appends s (l.map f) (l.foldlM (fun u a => append (f a) u) s) := by
  induction l generalizing s with
  | nil => exact appends_nil h
  | cons a l ih =>
    rw [List.foldlM_cons, List.map_cons, ← List.singleton_append]
    exact (append_appends (f a) s).bind ih

/-- WHDR's body appends the header (R166). -/
theorem whdrBody_appends (h : outputFits s 0) : Appends s (headerBytes s.total) (whdrBody s) :=
  foldlM_append_appends (headerByte s.total) (List.range 8) h

end

/-! ### TSER -/

/-- TSER issued at `s` has laid out as much as the layout `q`, and it fits (R122). -/
def laidOut (s : State) (q : LayoutState) (a : ControlByte × State) : Prop :=
  a.2 = appended s q.out ∧ SameControl s q a.1 ∧ outputFits s q.out.length

section
variable {s : State} (hwf : s.obuf.wf)
include hwf

/-- `put_bit` needs room when it opens a control byte (R122). -/
theorem putBit_answers {q : LayoutState} {c : ControlByte} (b : Bool) (h : SameControl s q c) (hfits : outputFits s q.out.length) :
    Answers (putBit b c (appended s q.out)) (laidOut s (layoutItem q (.bit b))) (· = .ovf) := by
  by_cases hroom : outputFits s (layoutItem q (.bit b)).out.length
  · obtain ⟨c', hput, hc'⟩ := putBit_layout hwf b h hroom
    exact .inl ⟨_, hput, rfl, hc', hroom⟩
  · have hfull : q.nb = 0 := by
      by_contra hnb
      rw [layoutItem_bit, opened_filling hnb, layoutOpenBit_length] at hroom
      exact hroom hfits
    rw [layoutItem_bit, opened_full hfull, layoutOpenBit_length] at hroom
    rcases append_appended_answers 0 hfits with ⟨_, -, -, hone⟩ | ⟨e, n, happend, he⟩
    · exact absurd hone hroom
    · refine .inr ⟨e, n, ?_, he⟩
      rw [putBit, if_pos (h.nb.trans hfull), happend]
      rfl

/-- `ser` lays out the items of the tree as far as there is room (R122). -/
theorem serialize_answers {depth : Nat} {i : NodeIdx} {t : HuffmanTree} (ht : s.treeAt depth i = some t) {q : LayoutState}
    {c : ControlByte} (h : SameControl s q c) (hfits : outputFits s q.out.length) :
    Answers (serialize depth i c (appended s q.out)) (laidOut s ((items t).foldl layoutItem q)) (· = .ovf) := by
  induction depth generalizing i t q c with
  | zero => simp [State.treeAt] at ht
  | succ depth ih =>
    have hused : (appended s q.out).usedNode? i = s.usedNode? i := usedNode?_congr rfl rfl i
    rcases treeAt_eq_some ht with ⟨n, hn, hl, rfl⟩ | ⟨n, l, r, hn, hl, hleft, hright, rfl⟩
    · simp only [serialize, hused, hn, hl, if_true]
      refine (putBit_answers hwf true h hfits).bind ?_
      rintro ⟨c₁, _⟩ - ⟨rfl, hc₁, hfits₁⟩
      refine (append_appended_answers n.sym hfits₁).bind ?_
      rintro _ - ⟨rfl, hfits₂⟩
      exact answers_ok ⟨rfl, hc₁.byte n.sym, hfits₂⟩
    · simp only [serialize, hused, hn, hl, Bool.false_eq_true, if_false, items, List.foldl_cons, List.foldl_append]
      refine (putBit_answers hwf false h hfits).bind ?_
      rintro ⟨c₁, _⟩ - ⟨rfl, hc₁, hfits₁⟩
      refine (ih hleft hc₁ hfits₁).bind ?_
      rintro ⟨c₂, _⟩ - ⟨rfl, hc₂, hfits₂⟩
      exact ih hright hc₂ hfits₂

/-- TSER's body appends the tree region (R69, R122). -/
theorem tserBody_appends (hread : s.nnode = 0 ∨ ∃ t, s.currentTree = some t) (h : outputFits s 0) :
    Appends s (treeRegion s.currentTree) (tserBody s) := by
  rw [tserBody]
  by_cases h0 : s.nnode = 0
  · rw [State.currentTree, if_pos h0, if_pos h0]
    exact appends_nil h
  · obtain ⟨t, ht⟩ := hread.resolve_left h0
    have hstart : SameControl s { out := [], nb := 0, cpos := 0 } noControlByte := ⟨rfl, fun h => absurd rfl h⟩
    have hser := serialize_answers hwf (treeAt_of_currentTree ht).2 hstart h
    rw [appended_nil] at hser
    rw [if_neg h0, ht]
    refine hser.bind ?_
    rintro ⟨c, _⟩ - ⟨rfl, -, hfits⟩
    exact answers_ok ⟨rfl, hfits⟩

end

/-! ### PACK -/

/-- PACK issued at `s` has packed these bits, and the bytes they fill fit (R141). -/
def packedUpTo (s : State) (bits : List Bool) (q : Packer × State) : Prop :=
  q = packed s bits ∧ outputFits s (bits.length / 8)

section
variable {s : State}

/-- One more bit packed: it needs room when it completes a byte (R141). -/
theorem packBit_answers {bits : List Bool} (b : Bool) (hfits : outputFits s (bits.length / 8)) :
    Answers (packBit b (packed s bits).1 (packed s bits).2) (packedUpTo s (bits ++ [b])) (· = .ovf) := by
  by_cases hroom : outputFits s ((bits ++ [b]).length / 8)
  · exact .inl ⟨_, packBit_packed b hroom, rfl, hroom⟩
  · have hlast : bits.length % 8 + 1 = 8 := by
      by_contra hopen
      have hcount : (bits ++ [b]).length / 8 = bits.length / 8 := by simp; omega
      exact hroom (hcount ▸ hfits)
    have hcount : (bits ++ [b]).length / 8 = bits.length / 8 + 1 := by simp; omega
    rw [← wholeBytes_length] at hfits
    rcases append_appended_answers (byteOfBits bits (bits.length / 8) ||| bitInByte b (bits.length % 8)) hfits with
      ⟨_, -, -, hone⟩ | ⟨e, n, happend, he⟩
    · rw [List.length_append, wholeBytes_length, List.length_singleton, ← hcount] at hone
      exact absurd hone hroom
    · refine .inr ⟨e, n, ?_, he⟩
      simp only [packBit, packed, hlast, if_true, happend]
      rfl

theorem packBits_answers {bits : List Bool} (more : List Bool) (hfits : outputFits s (bits.length / 8)) :
    Answers (packBits more (packed s bits).1 (packed s bits).2) (packedUpTo s (bits ++ more)) (· = .ovf) := by
  induction more generalizing bits with
  | nil =>
    rw [List.append_nil]
    exact answers_ok ⟨rfl, hfits⟩
  | cons b more ih =>
    rw [List.append_cons]
    refine (packBit_answers b hfits).bind ?_
    rintro _ - ⟨rfl, hfits₁⟩
    exact ih hfits₁

/-- The loop over written symbols that have codes (R141). -/
theorem packLoop_answers {input : List Byte} (hbytes : holdsAt s.ibuf 0 input)
    (hcodes : ∀ x ∈ input, (s.codeAt x).present = true) (hfits : outputFits s 0) :
    Answers (packLoop s input.length) (packedUpTo s (codeBits s.codeAt input)) (· = .ovf) := by
  induction input using List.reverseRecOn with
  | nil => exact answers_ok ⟨(packed_nil s).symm, hfits.mono (by simp [codeBits])⟩
  | append_singleton input x ih =>
    rw [List.length_append, List.length_singleton, packLoop_succ, codeBits_snoc]
    refine (ih hbytes.left fun y hy => hcodes y (List.mem_append_left _ hy)).bind ?_
    rintro _ - ⟨rfl, hfits₁⟩
    have hbyte : s.ibuf.byte? input.length = some x := by simpa using hbytes.byte?_append_cons
    have hread : memRead input.length (packed s (codeBits s.codeAt input)).2 = (x, (packed s (codeBits s.codeAt input)).2) :=
      memRead_written hbyte
    have hbook : (packed s (codeBits s.codeAt input)).2.codeAt x = s.codeAt x := rfl
    simp only [packSymbol, hread, hbook, hcodes x (by simp), if_true]
    exact packBits_answers _ hfits₁

/-- PACK's body appends the packed codes of a written input whose symbols have codes (R141). -/
theorem packBody_appends {input : List Byte} (hinput : inputIs s input) (hcodes : ∀ x ∈ input, (s.codeAt x).present = true)
    (hfits : outputFits s 0) : Appends s (bytesOfBits (codeBits s.codeAt input)) (packBody s) := by
  obtain ⟨hlen, -, hbytes⟩ := hinput
  rw [packBody_eq, hlen]
  refine (packLoop_answers hbytes hcodes hfits).bind ?_
  rintro _ - ⟨rfl, hfits₁⟩
  generalize codeBits s.codeAt input = bits at hfits₁ ⊢
  by_cases hnb : bits.length % 8 = 0
  · rw [bytesOfBits_whole hnb]
    rw [← wholeBytes_length] at hfits₁
    have hend : packEnd (packed s bits).1 (packed s bits).2 = .ok (appended s (wholeBytes bits)) := if_pos hnb
    exact hend ▸ answers_ok ⟨rfl, hfits₁⟩
  · rw [bytesOfBits_padded hnb]
    rw [← wholeBytes_length] at hfits₁
    have hend : packEnd (packed s bits).1 (packed s bits).2 =
        append (byteOfBits bits (bits.length / 8)) (appended s (wholeBytes bits)) := if_neg hnb
    exact hend ▸ append_appended_answers _ hfits₁

end

end Sys2Proof.Machine
end

section
/-! SUPPORT. A sub-command is the command that the host would have issued (46_orchestration R169); and COMP on an input the host has
written: it appends the artifact of the input to an empty output, or raises `E_OVF` (R171, 30_encoding R60). -/

namespace Sys2Proof.Machine

/-! ### Sub-commands -/

theorem subCommand_of_entry {c : Command} {s : State} (h : c.entry s = none) : subCommand c s = c.body s := by
  rw [subCommand, h]

/-- A command that ends without an error ends as well inside a composite (R169). -/
theorem subCommand_of_next {c : Command} {s t : State} (hs : s.err = false) (h : runCommand c s = .next t) (ht : t.err = false) :
    subCommand c s = .ok t := by
  rcases runCommand_next h with ⟨herr, -⟩ | ⟨-, e, -, rfl⟩ | ⟨-, hentry, hbody⟩ | ⟨-, -, e, n, -, rfl⟩
  · simp [hs] at herr
  · simp at ht
  · rw [subCommand_of_entry hentry, hbody]
  · simp at ht

/-- An error code names one error (R24). -/
theorem errorCode_injective : Function.Injective errorCode := by
  intro e e'
  cases e <;> cases e' <;> decide

/-- A primitive that ends in an error raises it inside a composite (R169). -/
theorem subCommand_of_reports {c : Command} (hc : c ∈ primitives) {s t : State} {e : ErrorCode} (hs : s.err = false)
    (h : runCommand c s = .next t) (ht : reports t e) : ∃ n, subCommand c s = .error (.raise e n) := by
  obtain ⟨herr, hcode, -⟩ := ht
  rcases runCommand_next h with ⟨hsticky, -⟩ | ⟨-, e', hentry, rfl⟩ | ⟨-, -, hbody⟩ | ⟨-, hentry, e', n, hbody, rfl⟩
  · simp [hs] at hsticky
  · obtain rfl : e' = e := errorCode_injective hcode
    exact ⟨s.draws, by rw [subCommand, hentry]; rfl⟩
  · have hkept := (primitive_body_frame hc hbody).errorBits.1
    simp [hkept, hs] at herr
  · obtain rfl : e' = e := errorCode_injective hcode
    exact ⟨n, by rw [subCommand_of_entry hentry, hbody]⟩

/-! ### The tree of an input -/

theorem inputIs.ilen_le {s : State} {input : List Byte} (h : inputIs s input) : s.ilen.toNat ≤ s.ibufCap := by
  obtain ⟨hlen, hcap, -⟩ := h
  exact hlen ▸ hcap

/-- An input that the buffer holds has a legal count: a capacity is below `2^63` (R6, R12). -/
theorem inputIs.length_le_totalMax {s : State} {input : List Byte} (h : inputIs s input) : input.length ≤ Config.totalMax := by
  obtain ⟨-, hcap, -⟩ := h
  exact Nat.le_of_lt_succ (hcap.trans_lt (ibufCap_lt s))

theorem mem_presentSymbols {s : State} {x : Byte} : x ∈ presentSymbols s ↔ s.freqAt x ≠ 0 := by
  have hbyte : x ∈ (List.range 256).map (BitVec.ofNat 8) :=
    List.mem_map.mpr ⟨x.toNat, List.mem_range.mpr x.isLt, by simp⟩
  simp [presentSymbols, hbyte]

/-- The symbols that FCNT counted are present, when the counts do not wrap. -/
theorem mem_presentSymbols_of_counts {s : State} {input : List Byte} (h : s.freq = symbolCounts input)
    (hlen : input.length < 2 ^ 64) (x : Byte) : x ∈ presentSymbols s ↔ x ∈ input := by
  have hcount : (s.freqAt x).toNat = input.count x := by
    have hfits : input.count x < 2 ^ 64 := List.count_le_length.trans_lt hlen
    simp only [State.freqAt, h, symbolCounts_getElem]
    simpa using hfits
  rw [mem_presentSymbols, ← List.count_pos_iff, ← hcount, Nat.pos_iff_ne_zero, ne_eq, BitVec.toNat_eq]
  exact Iff.rfl

/-- A tree of the input: none for the empty one, else a tree that fits the arena and has exactly the input's symbols (R102). -/
inductive IsTreeOf (input : List Byte) : Option HuffmanTree → Prop
  | empty : input = [] → IsTreeOf input none
  | ofTree {tree : HuffmanTree} : tree.size ≤ 511 → (∀ x, x ∈ tree.symbols ↔ x ∈ input) → IsTreeOf input (some tree)

/-- An input that has a tree is not empty: every tree has a leaf. -/
theorem IsTreeOf.ne_nil {input : List Byte} {tree : HuffmanTree} (h : IsTreeOf input (some tree)) : input ≠ [] := by
  rintro rfl
  cases h with
  | ofTree hsize hmem =>
    have hnone : tree.symbols = [] := List.eq_nil_iff_forall_not_mem.mpr fun x hx => List.not_mem_nil ((hmem x).mp hx)
    have hcount := tree.size_add_one
    rw [hnone, List.length_nil] at hcount
    omega

/-- What BUILD makes of an input's counts is a tree of the input. -/
theorem isTreeOf_buildTree {s : State} {input : List Byte} (h : s.freq = symbolCounts input) (hlen : input.length < 2 ^ 64) :
    IsTreeOf input (buildTree s).currentTree := by
  have hmem := mem_presentSymbols_of_counts h hlen
  by_cases hsyms : presentSymbols s = []
  · obtain ⟨hsize, -⟩ := buildTree_size s
    rw [hsyms] at hsize
    have hnone : (buildTree s).currentTree = none := if_pos (BitVec.eq_of_toNat_eq hsize)
    rw [hnone]
    exact .empty (List.eq_nil_iff_forall_not_mem.mpr fun x hx => by simpa [hsyms] using (hmem x).mpr hx)
  · obtain ⟨tree, htree, hperm, -⟩ := buildTree_tree hsyms
    have hcount := presentSymbols_length_le s
    have hsize := tree.size_add_one
    rw [hperm.length_eq] at hsize
    rw [htree]
    exact .ofTree (by omega) fun x => hperm.mem_iff.trans (hmem x)

/-- Every symbol of an input has a code in the code book of its tree. -/
theorem IsTreeOf.present {input : List Byte} {T : Option HuffmanTree} (h : IsTreeOf input T) {x : Byte} (hx : x ∈ input) :
    ((codeBookOf T)[x.toNat]'(x.isLt)).present = true := by
  cases h with
  | empty hnil =>
    rw [hnil] at hx
    cases hx
  | ofTree hsize hmem => exact (codeOf_of_mem_symbols (HuffmanTree.height_le_depthMax hsize) ((hmem x).mpr hx)).1

/-! ### COMP -/

/-- The state in which FCNT leaves these counts (R90). -/
def counted (f : Vector Word 256) (s : State) : State := { s with freq := f, total := s.ilen }

/-- The state in which GENC leaves a valid tree (R111). -/
def coded (u : State) : State := { u with codeBook := codeBookOf u.currentTree, cbValid := true }

/-- The state of COMP when FCNT, BUILD and GENC have run on the input, and no output is written yet (R171). -/
def compCoded (s : State) (input : List Byte) : State := coded (buildTree (counted (symbolCounts input) (compPreamble s)))

theorem coded_currentTree (u : State) : (coded u).currentTree = u.currentTree :=
  currentTree_congr (s := u) (t := coded u) ⟨rfl, rfl, rfl, rfl⟩

@[simp] theorem coded_nnode (u : State) : (coded u).nnode = u.nnode := rfl

@[simp] theorem coded_err (u : State) : (coded u).err = u.err := rfl

@[simp] theorem counted_err (f : Vector Word 256) (s : State) : (counted f s).err = s.err := rfl

@[simp] theorem counted_freq (f : Vector Word 256) (s : State) : (counted f s).freq = f := rfl

theorem coded_codeBook (u : State) : (coded u).codeBook = codeBookOf (coded u).currentTree :=
  congrArg codeBookOf (coded_currentTree u).symm

theorem buildTree_frame {u : State} (herr : u.err = false) :
    ∃ a n r, buildTree u = { u with arena := a, nnode := n, root := r, treeValid := true, cbValid := false } := by
  obtain ⟨a, n, r, h⟩ := buildAlwaysCompletes u herr
  exact ⟨a, n, r, buildTree_eq_of_exec herr h⟩

/-- What BUILD leaves can be read. -/
theorem buildTree_readable (u : State) :
    (buildTree u).nnode = 0 ∨ ∃ tree, (buildTree u).currentTree = some tree := by
  by_cases h0 : (buildTree u).nnode = 0
  · exact .inl h0
  · obtain ⟨tree, -, -, -, htree⟩ := arenaWf_spans (buildBody_wf (s := u) rfl).1 h0
    exact .inr ⟨tree, htree⟩

theorem subCommand_fcnt {s : State} {input : List Byte} (herr : s.err = false) (hinput : inputIs s input) :
    subCommand fcntCommand s = .ok (counted (symbolCounts input) s) := by
  have hexec : exec .fcnt s = .next (counted (symbolCounts input) s) := (fcntCountsTheInput s herr).1 input hinput
  exact subCommand_of_next herr hexec ((counted_err _ s).trans herr)

theorem subCommand_build (u : State) : subCommand buildCommand u = .ok (buildTree u) := rfl

theorem subCommand_genc {u : State} (herr : u.err = false) (hvalid : u.treeValid = true)
    (hread : u.nnode = 0 ∨ ∃ tree, u.currentTree = some tree) : subCommand gencCommand u = .ok (coded u) :=
  subCommand_of_next herr (exec_genc_completes herr hvalid hread) herr

/-- BUILD and GENC complete after any state without an error (R95, R111). -/
theorem subCommand_build_genc {u : State} (herr : u.err = false) :
    subCommand buildCommand u >>= subCommand gencCommand = .ok (coded (buildTree u)) := by
  obtain ⟨a, n, r, h⟩ := buildTree_frame herr
  rw [subCommand_build, Except.ok_bind]
  exact subCommand_genc (by rw [h, herr]) (by rw [h]) (buildTree_readable u)

/-- Appending leaves the tree as it is. -/
theorem currentTree_appended (u : State) (bs : List Byte) : (appended u bs).currentTree = u.currentTree :=
  currentTree_congr (s := u) (t := appended u bs) ⟨rfl, rfl, rfl, rfl⟩

section
variable {s : State} {input : List Byte}

/-- What COMP has changed before it writes output: frequencies, count, tree and code book, and the output is empty. -/
theorem compCoded_eq (herr : s.err = false) (input : List Byte) : ∃ a n r b, compCoded s input =
    { s with freq := symbolCounts input, total := s.ilen, olen := 0, arena := a, nnode := n, root := r, treeValid := true,
             codeBook := b, cbValid := true } := by
  obtain ⟨a, n, r, h⟩ := buildTree_frame (u := counted (symbolCounts input) (compPreamble s)) (by simpa using herr)
  rw [compCoded, coded]
  generalize codeBookOf _ = b
  rw [h]
  -- `rfl` would unfold the 256 counts
  generalize symbolCounts input = f
  exact ⟨a, n, r, b, rfl⟩

theorem isTreeOf_compCoded (hinput : inputIs s input) : IsTreeOf input (compCoded s input).currentTree := by
  obtain ⟨hlen, -, -⟩ := hinput
  rw [compCoded, coded_currentTree]
  exact isTreeOf_buildTree (counted_freq _ _) (hlen ▸ s.ilen.isLt)

/-- COMP is its last three commands on what the first three leave (R171). -/
theorem compBody_coded (herr : s.err = false) (hinput : inputIs s input) :
    compBody s = (subCommand whdrCommand (compCoded s input) >>= subCommand tserCommand) >>= subCommand packCommand := by
  have hcoded := subCommand_build_genc (u := counted (symbolCounts input) (compPreamble s)) (by simpa using herr)
  have hcounted := subCommand_fcnt (s := compPreamble s) (by simpa using herr) hinput
  calc compBody s
      = (subCommand fcntCommand (compPreamble s) >>= fun u => subCommand buildCommand u >>= subCommand gencCommand) >>=
          fun v => (subCommand whdrCommand v >>= subCommand tserCommand) >>= subCommand packCommand := by
        simp only [compBody, bind_assoc]
    _ = (subCommand whdrCommand (compCoded s input) >>= subCommand tserCommand) >>= subCommand packCommand := by
        rw [hcounted, Except.ok_bind, hcoded, Except.ok_bind, compCoded]

/-- The three commands that write output, one after the other on a state that the first three could have left: they append the
artifact, or one of them raises `E_OVF` (R60, R171). -/
theorem outputCommands_append {u : State} (hinput : inputIs u input) (htotal : u.total = BitVec.ofNat 64 input.length)
    (hvalid : u.treeValid = true) (hcb : u.cbValid = true)
    (hbook : u.codeBook = codeBookOf u.currentTree) (htree : IsTreeOf input u.currentTree)
    (hread : u.nnode = 0 ∨ ∃ tree, u.currentTree = some tree) (hwf : u.obuf.wf) (hroom : outputFits u 0) :
    Appends u (artifact input u.currentTree)
      ((subCommand whdrCommand u >>= subCommand tserCommand) >>= subCommand packCommand) := by
  have hlegal : u.total.toNat ≤ Config.totalMax := by
    rw [htotal, BitVec.toNat_ofNat]
    exact (Nat.mod_le _ _).trans hinput.length_le_totalMax
  have hcodes : u.codeAt = fun x => (codeBookOf u.currentTree)[x.toNat]'(x.isLt) := funext fun x => by
    simp only [State.codeAt, hbook]
  have hpresent : ∀ x ∈ input, (u.codeAt x).present = true := fun x hx => by rw [hcodes]; exact htree.present hx
  rw [artifact, ← hcodes, ← htotal]
  have hheader : Appends u (headerBytes u.total) (subCommand whdrCommand u) := by
    have hentry : whdrEntry u = none := if_neg (not_or.mpr ⟨Nat.not_lt.mpr hroom, Nat.not_lt.mpr hlegal⟩)
    rw [subCommand_of_entry (c := whdrCommand) hentry]
    exact whdrBody_appends hroom
  generalize headerBytes u.total = header at hheader ⊢
  refine (hheader.bind fun hroom₁ => ?_).bind fun hroom₂ => ?_
  · have hentry : tserEntry (appended u header) = none :=
      (if_neg (by simp [hvalid])).trans (if_neg (Nat.not_lt.mpr hroom₁))
    rw [subCommand_of_entry (c := tserCommand) hentry, ← currentTree_appended u header]
    exact tserBody_appends (Memory.wf_storeAll hwf _ _) (by rwa [currentTree_appended]) hroom₁
  · have hentry : packEntry (appended u (header ++ treeRegion u.currentTree)) = none :=
      packEntry_eq_none hcb hinput.ilen_le hroom₂
    rw [subCommand_of_entry (c := packCommand) hentry]
    exact packBody_appends (s := appended u (header ++ treeRegion u.currentTree)) hinput hpresent hroom₂

/-- COMP's body appends the artifact of a written input to the empty output, or raises `E_OVF` (R60, R171). -/
theorem compBody_appends (herr : s.err = false) (hwf : s.obuf.wf) (hinput : inputIs s input) :
    Appends (compCoded s input) (artifact input (compCoded s input).currentTree) (compBody s) := by
  have htree := isTreeOf_compCoded hinput
  have hread : (compCoded s input).nnode = 0 ∨ ∃ tree, (compCoded s input).currentTree = some tree := by
    rw [compCoded, coded_nnode, coded_currentTree]
    exact buildTree_readable _
  have hbook : (compCoded s input).codeBook = codeBookOf (compCoded s input).currentTree := coded_codeBook _
  rw [compBody_coded herr hinput]
  obtain ⟨hlen, hcap, hbytes⟩ := hinput
  obtain ⟨a, n, r, b, hcoded⟩ := compCoded_eq herr input
  generalize compCoded s input = u at *
  generalize symbolCounts input = f at hcoded
  subst hcoded
  refine outputCommands_append ⟨hlen, hcap, hbytes⟩ ?_ rfl rfl hbook htree hread hwf (Nat.zero_le _)
  rw [← hlen, BitVec.ofNat_toNat, BitVec.setWidth_eq]

/-- COMP without an error leaves the artifact of the input under the tree it leaves, a tree of the input (R60, R171). -/
theorem comp_writes_artifact {t : State} (herr : s.err = false) (hwf : s.obuf.wf) (hinput : inputIs s input)
    (hexec : exec .comp s = .next t) (hok : t.err = false) :
    IsTreeOf input t.currentTree ∧ outputIs t (artifact input t.currentTree) := by
  have hbody : compBody s = .ok t :=
    (subCommand_ok (c := compCommand) (subCommand_of_next herr hexec hok)).2
  have htree := isTreeOf_compCoded hinput
  rcases compBody_appends herr hwf hinput with ⟨_, hok', rfl, hfits⟩ | ⟨e, n, hraise, -⟩
  · obtain rfl := Except.ok.inj (hbody.symm.trans hok')
    have holen : (compCoded s input).olen.toNat = 0 := by
      obtain ⟨a, n, r, b, hcoded⟩ := compCoded_eq herr input
      rw [hcoded]
      rfl
    rw [currentTree_appended]
    generalize compCoded s input = u at *
    refine ⟨htree, ?_, ?_⟩
    · rw [appended_olen_toNat hfits.lt, holen, Nat.zero_add]
    · rw [appended_obuf, holen]
      exact holdsAt_storeAll u.obuf 0 _
  · rw [hbody] at hraise
    cases hraise

end

end Sys2Proof.Machine
end

section
/-! SUPPORT. DECO on an artifact that was cut short (45_bit_reader R155, 30_encoding R77): the region that the cut fell into ends too
soon, and RHDR, TDES or UNPK reports it. -/

namespace Sys2Proof.Machine

/-! ### What a stream has after its first bytes -/

theorem holdsAt.right {m : Memory} {a : Nat} {bs cs : List Byte} (h : holdsAt m a (bs ++ cs)) : holdsAt m (a + bs.length) cs :=
  fun k hk => by
    rw [Nat.add_assoc, h (bs.length + k) (by rw [List.length_append]; omega), List.getElem_append_right (Nat.le_add_right _ _)]
    simp

/-- With `IPOS` past the first bytes the stream is the rest. -/
theorem streamIs.right {s : State} {bs cs : List Byte} (h : streamIs s (bs ++ cs)) :
    streamIs (movedTo (s.ipos + BitVec.ofNat 64 bs.length) s) cs := by
  obtain ⟨hlen, hcap, hbytes⟩ := h
  have hilen := s.ilen.isLt
  have hpos : (s.ipos + BitVec.ofNat 64 bs.length).toNat = s.ipos.toNat + bs.length := by
    rw [List.length_append] at hlen
    rw [BitVec.toNat_add, BitVec.toNat_ofNat]
    omega
  refine ⟨?_, hcap, ?_⟩
  · rw [List.length_append, ← Nat.add_assoc] at hlen
    exact (congrArg (· + cs.length) hpos).trans hlen
  · have hright := hbytes.right
    rwa [← hpos] at hright

/-! ### RHDR on too few bytes -/

/-- RHDR's loop stops where the stream ends (R168). -/
theorem rhdrBytes_short {bs : List Byte} {s : State} {n : Nat} (h : streamIs s bs) (hn : bs.length < n) (k : Nat) (v : Word) :
    (List.range' k n).foldlM (fun q j => rhdrByte q.1 q.2 j) (v, s) = .error (.raise .trunc s.draws) := by
  obtain ⟨n, rfl⟩ := Nat.exists_eq_add_one.mpr (Nat.zero_lt_of_lt hn)
  induction bs generalizing s n k v with
  | nil =>
    have hend : rhdrByte v s k = .error (.raise .trunc s.draws) := by
      rw [rhdrByte, nextByte_end (Nat.le_of_eq h.1.symm)]
      rfl
    rw [List.range'_succ, List.foldlM_cons, hend]
    rfl
  | cons b bs ih =>
    obtain ⟨n, rfl⟩ := Nat.exists_eq_add_one.mpr (Nat.zero_lt_of_lt (Nat.lt_of_succ_lt_succ hn))
    have hbyte : rhdrByte v s k = .ok (v + b.setWidth 64 <<< (8 * k), { s with ipos := s.ipos + 1 }) := by
      rw [rhdrByte, h.nextByte]
      rfl
    rw [List.range'_succ, List.foldlM_cons, hbyte, Except.ok_bind]
    exact ih h.tail (k + 1) _ n (Nat.lt_of_succ_lt_succ hn)

theorem rhdrBody_short {bs : List Byte} {s : State} (h : streamIs s bs) (hlen : bs.length < 8) :
    rhdrBody s = .error (.raise .trunc s.draws) := by
  rw [rhdrBody, List.range_eq_range', rhdrBytes_short h hlen 0 0]
  rfl

/-! ### DECO by its parts -/

section
variable {s : State}

/-- An error of DECO's body is reported (R188). -/
theorem deco_raises {e : ErrorCode} {n : Nat} (herr : s.err = false) (hcap : s.ilen.toNat ≤ s.ibufCap)
    (h : decoBody s = .error (.raise e n)) : ∃ v, exec .deco s = .next v ∧ reports v e ∧ v.ecode = errorCode e :=
  ⟨_, runCommand_raise (c := decoCommand) herr (if_neg (Nat.not_lt.mpr hcap)) h, ⟨rfl, rfl, rfl⟩, rfl⟩

theorem inputIs.decoStream {input : List Byte} (h : inputIs s input) : streamIs (decoPreamble s) input := by
  obtain ⟨hlen, hcap, hbytes⟩ := h
  exact ⟨(Nat.zero_add _).trans hlen.symm, hlen ▸ hcap, hbytes⟩

theorem decoBody_of_rhdr_error {e : Stop} (h : subCommand rhdrCommand (decoPreamble s) = .error e) : decoBody s = .error e := by
  rw [decoBody, h]
  rfl

/-- The state in which RHDR hands the count to TDES (R174). -/
def decoCounted (s : State) (count : Word) : State := { decoPreamble s with total := count, ipos := 8 }

/-- DECO on a header with a count other than 0 goes on with TDES and UNPK (R174). -/
theorem decoBody_header {count : Word} {rest : List Byte} (herr : s.err = false) (h0 : count ≠ 0)
    (hlegal : count.toNat ≤ Config.totalMax) (hinput : inputIs s (headerBytes count ++ rest)) :
    decoBody s = (subCommand tdesCommand (decoCounted s count) >>= subCommand unpkCommand) ∧
      streamIs (decoCounted s count) rest := by
  have hstream := hinput.decoStream
  have hexec : exec .rhdr (decoPreamble s) = .next (decoCounted s count) :=
    headerRoundTrip (decoPreamble s) count rest herr hlegal hstream
  refine ⟨?_, hstream.right⟩
  rw [decoBody, subCommand_of_next (c := rhdrCommand) (s := decoPreamble s) herr hexec herr, Except.ok_bind]
  exact if_neg h0

/-- The state in which TDES hands the tree to UNPK, with the entries `a` (R66, R174). -/
def decoRebuilt (s : State) (count : Word) (tree : HuffmanTree) (a : Vector Node 511) : State :=
  { decoCounted s count with
    arena := a
    nnode := BitVec.ofNat 10 tree.size
    root := 0
    treeValid := true
    cbValid := false
    ipos := 8 + BitVec.ofNat 64 (layout (items tree)).length }

/-- DECO on a header and the whole region of a tree goes on with UNPK, the tree in the arena and the code region ahead (R174). -/
theorem decoBody_region {count : Word} {tree : HuffmanTree} {rest : List Byte} (herr : s.err = false) (h0 : count ≠ 0)
    (hlegal : count.toNat ≤ Config.totalMax) (hsize : tree.size ≤ 511)
    (hinput : inputIs s (headerBytes count ++ (layout (items tree) ++ rest))) :
    ∃ a, decoBody s = subCommand unpkCommand (decoRebuilt s count tree a) ∧
      (decoRebuilt s count tree a).currentTree = some tree ∧ streamIs (decoRebuilt s count tree a) rest := by
  obtain ⟨hbody, hstream⟩ := decoBody_header herr h0 hlegal hinput
  obtain ⟨a, hexec, hrebuilt⟩ := tdesRebuildsTheTree (decoCounted s count) tree rest herr hsize hstream
  obtain ⟨htree, -⟩ := hrebuilt _ hexec
  have hnext : subCommand tdesCommand (decoCounted s count) = .ok (decoRebuilt s count tree a) :=
    subCommand_of_next (s := decoCounted s count) (t := decoRebuilt s count tree a) herr hexec herr
  exact ⟨a, by rw [hbody, hnext, Except.ok_bind], htree, hstream.right⟩

/-! ### A cut artifact -/

/-- In the tree region: TDES meets the end (R130). -/
theorem decoBody_of_cut_region {count : Word} {tree : HuffmanTree} {k : Nat} (herr : s.err = false) (h0 : count ≠ 0)
    (hlegal : count.toNat ≤ Config.totalMax) (hk : k < arenaBytes tree)
    (hinput : inputIs s (headerBytes count ++ (layout (items tree)).take k)) : ∃ n, decoBody s = .error (.raise .trunc n) := by
  obtain ⟨hbody, hstream⟩ := decoBody_header herr h0 hlegal hinput
  obtain ⟨u, hexec, hreport, -⟩ := tdesOfATruncatedTreeRaisesETrunc (decoCounted s count) tree k herr hk hstream
  obtain ⟨n, hn⟩ := subCommand_of_reports (c := tdesCommand) (s := decoCounted s count) (by simp [primitives]) herr hexec hreport
  exact ⟨n, by rw [hbody, hn]; rfl⟩

/-- In the code region: UNPK meets the end before it has all symbols (R155). -/
theorem decoBody_of_cut_code {count : Word} {tree : HuffmanTree} {more : List Bool} {stream input : List Byte}
    (herr : s.err = false) (h0 : count ≠ 0) (hlegal : count.toNat ≤ Config.totalMax) (hsize : tree.size ≤ 511)
    (hinput : inputIs s (headerBytes count ++ (layout (items tree) ++ stream))) (hroom : count.toNat ≤ s.obufCap)
    (hdecode : tree.decodeSymbols count.toNat (bitsOfBytes stream ++ more) = some (input, [])) (hmore : more ≠ []) :
    ∃ n, decoBody s = .error (.raise .trunc n) := by
  obtain ⟨a, hbody, htree, hstream⟩ := decoBody_region herr h0 hlegal hsize hinput
  obtain ⟨m, ys, rest, hm, hys, hstop, htrunc⟩ := decodeSymbols_of_cut hdecode hmore
  have hfits : outputFits (decoRebuilt s count tree a) m := (Nat.le_of_eq (Nat.zero_add m)).trans (hm.le.trans hroom)
  obtain ⟨u, hexec, hreport, -⟩ := exec_unpk_stops (s := decoRebuilt s count tree a) herr rfl htree hstream hlegal hys hstop hm hfits
  rw [htrunc] at hreport
  obtain ⟨n, hn⟩ := subCommand_of_reports (c := unpkCommand) (s := decoRebuilt s count tree a) (by simp [primitives]) herr hexec hreport
  exact ⟨n, hbody.trans hn⟩

/-- In the header: RHDR meets the end (R168). -/
theorem decoBody_of_cut_header {input : List Byte} (hlen : input.length < 8) (hinput : inputIs s input) :
    ∃ n, decoBody s = .error (.raise .trunc n) := by
  have hstream := hinput.decoStream
  have hrhdr : subCommand rhdrCommand (decoPreamble s) = .error (.raise .trunc s.draws) :=
    (subCommand_of_entry (c := rhdrCommand) hstream.rhdrEntry).trans (rhdrBody_short hstream hlen)
  exact ⟨_, decoBody_of_rhdr_error hrhdr⟩

/-- The artifact of an input under a tree, region by region (R60). -/
theorem artifact_ofTree (input : List Byte) (tree : HuffmanTree) :
    artifact input (some tree) =
      headerBytes (BitVec.ofNat 64 input.length) ++ (layout (items tree) ++ bytesOfBits (codeBits tree.codeOf input)) :=
  List.append_assoc _ _ _

/-- DECO raises `E_TRUNC` on the artifact of an input under a tree, cut short of its length (R155). -/
theorem decoBody_of_cut_artifact {input : List Byte} {tree : HuffmanTree} {k : Nat} (herr : s.err = false)
    (hlen : input.length ≤ Config.totalMax) (hne : input ≠ []) (hsize : tree.size ≤ 511) (hsyms : ∀ x ∈ input, x ∈ tree.symbols)
    (hk : k < (artifact input (some tree)).length) (hinput : inputIs s ((artifact input (some tree)).take k))
    (hroom : input.length ≤ s.obufCap) : ∃ n, decoBody s = .error (.raise .trunc n) := by
  have hcount : (BitVec.ofNat 64 input.length).toNat = input.length := Nat.mod_eq_of_lt (hlen.trans_lt (by decide))
  rw [artifact_ofTree] at hk hinput
  generalize BitVec.ofNat 64 input.length = count at hk hinput hcount
  have h0 : count ≠ 0 := fun h => hne (List.length_eq_zero_iff.mp (hcount ▸ congrArg BitVec.toNat h))
  have hlegal : count.toNat ≤ Config.totalMax := hcount ▸ hlen
  have hheader : (headerBytes count).length = 8 := rfl
  rw [List.length_append, List.length_append, hheader] at hk
  rw [List.take_append, hheader] at hinput
  by_cases hk8 : k < 8
  · refine decoBody_of_cut_header ?_ hinput
    rw [List.length_append, List.length_take, hheader, Nat.sub_eq_zero_of_le hk8.le, List.take_zero, List.length_nil]
    omega
  rw [List.take_of_length_le (Nat.not_lt.mp hk8)] at hinput
  by_cases hregion : k - 8 < (layout (items tree)).length
  · rw [List.take_append_of_le_length hregion.le] at hinput
    exact decoBody_of_cut_region herr h0 hlegal (arenaBytes_of_size_le tree hsize ▸ hregion) hinput
  · rw [List.take_append, List.take_of_length_le (Nat.not_lt.mp hregion)] at hinput
    obtain ⟨more, hmore, hbits⟩ := bitsOfBytes_take_bytesOfBits (bits := codeBits tree.codeOf input)
      (j := k - 8 - (layout (items tree)).length) (by omega)
    have hdecode := decodeSymbols_codeOf (HuffmanTree.height_le_depthMax hsize) hsyms []
    rw [List.append_nil, hbits, ← hcount] at hdecode
    exact decoBody_of_cut_code herr h0 hlegal hsize hinput (hcount ▸ hroom) hdecode hmore

/-- The artifact of the empty input is a header, so a cut falls into it (R69, R175). -/
theorem decoBody_of_cut_empty_artifact {k : Nat} (hk : k < (artifact [] none).length)
    (hinput : inputIs s ((artifact [] none).take k)) : ∃ n, decoBody s = .error (.raise .trunc n) :=
  decoBody_of_cut_header ((List.length_take_le k _).trans_lt hk) hinput

end

theorem outputIs_unique {s : State} {bs cs : List Byte} (h : outputIs s bs) (h' : outputIs s cs) : bs = cs := by
  obtain ⟨hlen, hbytes⟩ := h
  obtain ⟨hlen', hbytes'⟩ := h'
  exact List.ext_getElem (hlen.symm.trans hlen') fun k hk hk' => Option.some.inj ((hbytes k hk).symm.trans (hbytes' k hk'))

/-- Settles O46: COMP wrote the artifact of the input under a tree of the input, and the cut falls into one of its regions. -/
theorem truncatedArtifactIsReported : Obligations.TruncatedArtifactIsReported := by
  intro s t u input art k herr hwf hinput hexec hok hart hk huerr hcut hroom
  obtain ⟨htree, hout⟩ := comp_writes_artifact herr hwf hinput hexec hok
  obtain rfl := outputIs_unique hart hout
  suffices h : ∃ n, decoBody u = .error (.raise .trunc n) by
    obtain ⟨n, hn⟩ := h
    exact deco_raises huerr hcut.ilen_le hn
  generalize t.currentTree = T at *
  cases htree with
  | empty hnil =>
    subst hnil
    exact decoBody_of_cut_empty_artifact hk hcut
  | ofTree hsize hmem =>
    have hne := (IsTreeOf.ofTree hsize hmem).ne_nil
    exact decoBody_of_cut_artifact huerr hinput.length_le_totalMax hne hsize (fun x => (hmem x).mpr) hk hcut hroom

end Sys2Proof.Machine
end

section
/-! SUPPORT. What a command that is issued reports and leaves when it raises (60_exceptions R188, R199), and what CLR leaves
(46_orchestration R176). -/

namespace Sys2Proof.Machine

/-! ### A command that raises -/

/-- An error of an entry check is reported, and nothing else changes (R199 (1)). -/
theorem exec_of_entry {i : Instr} {c : Command} (hi : commandOf i = some c) {s : State} {e : ErrorCode} (herr : s.err = false)
    (hentry : c.entry s = some e) : exec i s = .next (withError s e) := by
  rw [exec_of_commandOf hi]
  exact runCommand_entry herr hentry

/-- An error of the body is reported, and leaves `OLEN` and `IPOS` within their bounds and the output before the command as it
was (R199 (2)). -/
theorem exec_of_raise {i : Instr} {c : Command} (hi : commandOf i = some c) {s : State} {e : ErrorCode} {n : Nat}
    (herr : s.err = false) (hentry : c.entry s = none) (hbody : c.body s = .error (.raise e n)) :
    ∃ t, exec i s = .next t ∧ reports t e ∧ t.ecode = errorCode e ∧
      (c.writes.output = true → t.olen.toNat ≤ s.obufCap) ∧ (c.writes.ipos = true → t.ipos.toNat ≤ s.ilen.toNat) ∧
      ∀ a, a < c.outputFrom s → t.obuf.byte? a = s.obuf.byte? a :=
  ⟨_, (exec_of_commandOf hi s).trans (runCommand_raise herr hentry hbody), ⟨rfl, rfl, rfl⟩, rfl, takeError_olen_le _ _ _ _,
    takeError_ipos_le _ _ _ _, fun _ ha => takeError_byte?_below _ _ _ _ ha⟩

/-! ### CLR -/

/-- While an error is pending every command but CLR is ignored (R189). -/
theorem exec_sticky {i : Instr} {s : State} (herr : s.err = true) (hi : i ≠ .clr) : exec i s = .next s := by
  cases hc : commandOf i with
  | none => exact absurd (commandOf_eq_none hc) hi
  | some c => exact (exec_of_commandOf hc s).trans (runCommand_sticky herr)

/-- Settles O12: the other commands are ignored, and CLR's next state is `clearAll`, field by field. -/
theorem clrClearsAllButTheBuffers : Obligations.ClrClearsAllButTheBuffers := by
  refine ⟨fun i s => exec_sticky, fun s => ⟨clearAll s, exec_clr s, fun x => ?_, rfl, rfl, rfl, rfl, rfl, rfl, rfl, rfl, rfl,
    rfl, rfl, fun a => ⟨rfl, rfl⟩, rfl, rfl, rfl, rfl, fun i f => rfl, fun x => ⟨rfl, rfl, rfl⟩⟩⟩
  rw [State.freqAt, clearAll, clearError, Vector.getElem_replicate]

end Sys2Proof.Machine
end

section
/-! SUPPORT. WHDR and RHDR, the header commands: with and without room for the header, and on a stream with and without one
(46_orchestration R166, R168). -/

namespace Sys2Proof.Machine

/-! ### WHDR -/

/-- Appends in a row, with room for all. -/
theorem foldlM_append_room {α : Type} (f : α → Byte) (l : List α) {s : State} (h : outputFits s l.length) :
    l.foldlM (fun u a => append (f a) u) s = .ok (appended s (l.map f)) := by
  induction l generalizing s with
  | nil => rw [List.map_nil, appended_nil]; rfl
  | cons a l ih =>
    have hfits : outputFits s ([f a].length + l.length) := h.mono (by simp [Nat.add_comm])
    have hone : outputFits s [f a].length := hfits.mono (Nat.le_add_right _ _)
    rw [List.foldlM_cons, append_room hone, Except.ok_bind, ih hfits.after, appended_appended hone.lt]
    rfl

theorem whdrEntry_eq_none {s : State} (hlegal : s.total.toNat ≤ Config.totalMax) (holen : s.olen.toNat ≤ s.obufCap) :
    whdrEntry s = none :=
  if_neg (not_or.mpr ⟨Nat.not_lt.mpr holen, Nat.not_lt.mpr hlegal⟩)

/-- With room for it, WHDR appends the header (R166). -/
theorem exec_whdr_room {s : State} (herr : s.err = false) (hlegal : s.total.toNat ≤ Config.totalMax) (hfits : outputFits s 8) :
    exec .whdr s = .next (appended s (headerBytes s.total)) :=
  runCommand_ok (c := whdrCommand) herr (whdrEntry_eq_none hlegal ((Nat.le_add_right _ _).trans hfits))
    (foldlM_append_room (headerByte s.total) (List.range 8) hfits)

/-- Byte `k` of the header as a number: the count without its low `8k` bits (R61). -/
theorem headerByte_eq_ofNat (v : Word) (k : Nat) : headerByte v k = BitVec.ofNat 8 (v.toNat / 2 ^ (8 * k)) := by
  apply BitVec.eq_of_toNat_eq
  rw [headerByte, BitVec.extractLsb'_toNat, Nat.shiftRight_eq_div_pow, BitVec.toNat_ofNat]

/-- Settles O37: the loop appends the header as far as there is room. -/
theorem whdrAppendsTheCount : Obligations.WhdrAppendsTheCount := by
  intro s herr
  refine ⟨fun hrange => exec_of_entry (c := whdrCommand) rfl herr (if_pos hrange), fun hlegal hfits => ?_,
    fun hlegal holen hfull => ?_⟩
  · refine ⟨headerBytes s.total, exec_whdr_room herr hlegal hfits, rfl, fun k hk => ?_⟩
    rw [headerBytes, List.getElem?_map, List.getElem?_range hk, Option.map_some, headerByte_eq_ofNat]
  · rcases whdrBody_appends (s := s) holen with ⟨_, -, -, hroom⟩ | ⟨e, n, hraise, rfl⟩
    · exact absurd hroom hfull
    · obtain ⟨t, hexec, hreport, hcode, hout, -, hkept⟩ :=
        exec_of_raise (i := .whdr) rfl herr (whdrEntry_eq_none hlegal holen) hraise
      exact ⟨t, hexec, hreport, hcode, (exec_primitive_frame rfl (by decide) hexec).1, hout rfl, hkept⟩

/-! ### RHDR -/

/-- RHDR that raises in its body: the error is reported, and only `TOTAL` and `IPOS` may change (R168). -/
theorem rhdr_raises {s : State} {bs : List Byte} {e : ErrorCode} {n : Nat} (herr : s.err = false) (hbs : streamIs s bs)
    (hbody : rhdrBody s = .error (.raise e n)) :
    ∃ t, exec .rhdr s = .next t ∧ reports t e ∧ t.ecode = errorCode e ∧ unchangedOutside (ruleWrites .rhdr) s t ∧
      t.ipos.toNat ≤ s.ilen.toNat := by
  obtain ⟨t, hexec, hreport, hcode, -, hipos, -⟩ := exec_of_raise (i := .rhdr) rfl herr hbs.rhdrEntry hbody
  exact ⟨t, hexec, hreport, hcode, (exec_primitive_frame rfl (by decide) hexec).1, hipos rfl⟩

theorem headerValue_lt (bs : List Byte) : headerValue bs < 2 ^ (8 * bs.length) := by
  induction bs with
  | nil => exact Nat.one_pos
  | cons b bs ih =>
    have hb := b.isLt
    rw [headerValue, List.length_cons, Nat.mul_succ, Nat.pow_add]
    omega

/-- A header whose number has bit 63 set is refused (R62, R168). -/
theorem rhdrBody_hdr {header rest : List Byte} {s : State} (hlen : header.length = 8) (h : streamIs s (header ++ rest))
    (hlarge : 2 ^ 63 ≤ headerValue header) : rhdrBody s = .error (.raise .hdr s.draws) := by
  have hlt := headerValue_lt header
  rw [hlen] at hlt
  have hbit : (BitVec.ofNat 64 (headerValue header)).getLsbD 63 = true := by
    rw [BitVec.getLsbD_ofNat, Nat.testBit_of_two_pow_le_and_two_pow_add_one_gt hlarge hlt]
    rfl
  rw [rhdrBody_stream hlen h, if_pos hbit]
  rfl

/-- Settles O38: the loop assembles the number, or meets the end of the stream, and bit 63 of the number decides. -/
theorem rhdrReadsTheCount : Obligations.RhdrReadsTheCount := by
  intro s herr
  refine ⟨fun hrange => exec_of_entry (c := rhdrCommand) rfl herr (if_pos hrange),
    fun header rest hlen hstream hlegal => execRhdr_stream herr hlen hstream hlegal,
    fun header rest hlen hstream hlarge => rhdr_raises herr hstream (rhdrBody_hdr hlen hstream hlarge),
    fun stream hshort hstream => rhdr_raises herr hstream (rhdrBody_short hstream hshort)⟩

end Sys2Proof.Machine
end

section
/-! SUPPORT. Where a command stores its output: between the old `OLEN` and the new one, in every state (20_memory R43, R44,
46_orchestration R166, 43_tree_codec R120, 44_bit_packer R140, 45_bit_reader R150). -/

namespace Sys2Proof.Machine

/-- From `s` to `t` output was stored between the two values of `OLEN` alone (R44). -/
structure OutputGrows (s t : State) : Prop where
  olen : s.olen.toNat ≤ t.olen.toNat
  kept : ∀ a, a < s.olen.toNat ∨ t.olen.toNat ≤ a → t.obuf.byte? a = s.obuf.byte? a

section
variable {s t u : State}

theorem OutputGrows.of_same (holen : t.olen = s.olen) (hobuf : t.obuf = s.obuf) : OutputGrows s t where
  olen := Nat.le_of_eq (congrArg BitVec.toNat holen.symm)
  kept _ _ := by rw [hobuf]

theorem OutputGrows.refl (s : State) : OutputGrows s s := .of_same rfl rfl

theorem OutputGrows.trans (h : OutputGrows s t) (h' : OutputGrows t u) : OutputGrows s u where
  olen := h.olen.trans h'.olen
  kept a ha := by
    have hmid := h.olen
    have hend := h'.olen
    rw [h'.kept a (by omega), h.kept a (by omega)]

/-- A command that writes no output leaves it. -/
theorem OutputGrows.of_frame {w : WriteSet} (hw : w.output = false) (h : Frame w s t) : OutputGrows s t :=
  .of_same (h.output hw).1 (h.output hw).2

/-! ### The shared operations -/

/-- `append` moves `OLEN` by one: a capacity is below `2^63` (R6, R44). -/
theorem append_olen {v : Byte} (h : append v s = .ok t) : t.olen.toNat = s.olen.toNat + 1 := by
  obtain ⟨hroom, rfl⟩ := append_ok h
  have hcap := obufCap_lt s
  exact appended_olen_toNat (bs := [v]) (show s.olen.toNat + 1 < 2 ^ 64 by omega)

theorem outputGrows_append {v : Byte} (h : append v s = .ok t) : OutputGrows s t := by
  have holen := append_olen h
  obtain ⟨-, rfl⟩ := append_ok h
  exact ⟨by omega, fun a ha => Memory.byte?_store_other _ _ (by omega)⟩

theorem outputGrows_getBit {r r' : BitCursor} {b : Bool} (h : getBit r s = .ok (b, r', t)) : OutputGrows s t := by
  rcases getBit_ok h with ⟨-, rfl, -⟩ | ⟨-, -, -, n, rfl⟩
  · exact .refl _
  · exact .of_same rfl rfl

end

/-! ### WHDR, PACK and UNPK -/

theorem whdrBody_outputGrows {s t : State} (h : whdrBody s = .ok t) : OutputGrows s t :=
  foldlM_keeps (P := OutputGrows s) (fun _ _ _ hu ha => hu.trans (outputGrows_append ha)) _ (.refl s) h

theorem outputGrows_packBit {b : Bool} {p p' : Packer} {s t : State} (h : packBit b p s = .ok (p', t)) :
    OutputGrows s t := by
  by_cases hfull : p.nb + 1 = 8
  · rw [packBit, if_pos hfull] at h
    obtain ⟨u, hu, h⟩ := Except.bind_eq_ok.mp h
    obtain ⟨-, rfl⟩ := Prod.mk.inj (Except.ok.inj h)
    exact outputGrows_append hu
  · rw [packBit_open hfull] at h
    obtain ⟨-, rfl⟩ := Prod.mk.inj (Except.ok.inj h)
    exact .refl s

theorem outputGrows_packBits {bits : List Bool} {p p' : Packer} {s t : State} (h : packBits bits p s = .ok (p', t)) :
    OutputGrows s t := by
  induction bits generalizing p s with
  | nil =>
    obtain ⟨-, rfl⟩ := Prod.mk.inj (Except.ok.inj h)
    exact .refl s
  | cons b bits ih =>
    obtain ⟨⟨q, u⟩, hu, h⟩ := Except.bind_eq_ok.mp h
    exact (outputGrows_packBit hu).trans (ih h)

theorem outputGrows_packSymbol {p p' : Packer} {s t : State} {k : Nat} (h : packSymbol p s k = .ok (p', t)) :
    OutputGrows s t := by
  obtain ⟨n, hread⟩ := memRead_eq k s
  rw [packSymbol] at h
  dsimp only at h
  split at h
  · exact OutputGrows.trans (.of_same (by rw [hread]) (by rw [hread])) (outputGrows_packBits h)
  · simp [raiseIn] at h

theorem packBody_outputGrows {s t : State} (h : packBody s = .ok t) : OutputGrows s t := by
  obtain ⟨⟨p, u⟩, hu, h⟩ := Except.bind_eq_ok.mp h
  have hpacked : OutputGrows s u := foldlM_keeps (P := fun q => OutputGrows s q.2)
    (fun _ _ _ hq ha => hq.trans (outputGrows_packSymbol ha)) _ (.refl s) hu
  by_cases hnb : p.nb = 0
  · obtain rfl : u = t := Except.ok.inj ((if_pos hnb).symm.trans h)
    exact hpacked
  · exact hpacked.trans (outputGrows_append ((if_neg hnb).symm.trans h))

theorem outputGrows_unpkLoop {turns left : Nat} {cur : NodeIdx} {r : BitCursor} {s t : State}
    (h : unpkLoop turns left cur r s = .ok t) : OutputGrows s t := by
  induction turns generalizing left cur r s with
  | zero => simp [unpkLoop] at h
  | succ turns ih =>
    cases left with
    | zero => exact Except.ok.inj h ▸ .refl s
    | succ left =>
      -- after the bit the loop goes on, with or without a symbol appended
      have hgoes : ∀ {x : Byte} {left' : Nat} {i : NodeIdx} {r' : BitCursor} {v : State},
          (append x v >>= unpkLoop turns left' i r') = .ok t → OutputGrows v t := fun hx => by
        obtain ⟨w, happend, hloop⟩ := Except.bind_eq_ok.mp hx
        exact (outputGrows_append happend).trans (ih hloop)
      obtain ⟨⟨b, r', v⟩, hbit, h⟩ := Except.bind_eq_ok.mp h
      refine (outputGrows_getBit hbit).trans ?_
      dsimp only at h
      split at h
      · simp at h
      · split at h
        · split at h
          · simp [raiseIn] at h
          · exact hgoes h
        · split at h
          · simp at h
          · split at h
            · exact hgoes h
            · exact ih h

theorem unpkBody_outputGrows {s t : State} (h : unpkBody s = .ok t) : OutputGrows s t := by
  by_cases h0 : s.total = 0
  · exact Except.ok.inj ((if_pos h0).symm.trans h) ▸ .refl s
  · exact outputGrows_unpkLoop ((if_neg h0).symm.trans h)

/-! ### TSER -/

/-- TSER issued at `s` has come to `u`: output was stored from `OLEN0` on, and so the control byte being filled lies there
(R122). -/
structure Serializing (s : State) (c : ControlByte) (u : State) : Prop where
  grows : OutputGrows s u
  cpos : c.nb ≠ 0 → s.olen.toNat ≤ c.cpos ∧ c.cpos < u.olen.toNat

section
variable {s u v : State} {c c' : ControlByte}

theorem Serializing.append {x : Byte} (h : Serializing s c u) (hv : append x u = .ok v) : Serializing s c v :=
  have happend := outputGrows_append hv
  ⟨h.grows.trans happend, fun hnb => ⟨(h.cpos hnb).1, Nat.lt_of_lt_of_le (h.cpos hnb).2 happend.olen⟩⟩

/-- A control byte of this run of TSER rewritten. -/
theorem serializing_putOpen (b : Bool) (h : OutputGrows s u) (hcpos : s.olen.toNat ≤ c.cpos ∧ c.cpos < u.olen.toNat) :
    Serializing s (putOpen b c u).1 (putOpen b c u).2 where
  grows := ⟨h.olen, fun a ha =>
    (Memory.byte?_store_other u.obuf _ (show a ≠ c.cpos by change _ ∨ u.olen.toNat ≤ a at ha; omega)).trans (h.kept a ha)⟩
  cpos _ := hcpos

theorem Serializing.putBit {b : Bool} (h : Serializing s c u) (hput : putBit b c u = .ok (c', v)) : Serializing s c' v := by
  by_cases hnb : c.nb = 0
  · rw [Machine.putBit, if_pos hnb] at hput
    obtain ⟨w, happend, hput⟩ := Except.bind_eq_ok.mp hput
    have hopen := serializing_putOpen b (c := { nb := 0, cpos := u.olen.toNat, cval := 0 })
      (h.grows.trans (outputGrows_append happend)) ⟨h.grows.olen, append_olen happend ▸ Nat.lt_succ_self _⟩
    rwa [Except.ok.inj hput] at hopen
  · rw [Machine.putBit, if_neg hnb] at hput
    have hopen := serializing_putOpen b h.grows (h.cpos hnb)
    rwa [Except.ok.inj hput] at hopen

theorem Serializing.serialize {depth : Nat} {i : NodeIdx} (h : Serializing s c u)
    (hser : serialize depth i c u = .ok (c', v)) : Serializing s c' v := by
  induction depth generalizing i c c' u v with
  | zero => simp [Machine.serialize] at hser
  | succ depth ih =>
    rw [Machine.serialize] at hser
    split at hser
    · simp at hser
    · split at hser
      · obtain ⟨⟨c₁, s₁⟩, hput, hser⟩ := Except.bind_eq_ok.mp hser
        obtain ⟨s₂, happend, hser⟩ := Except.bind_eq_ok.mp hser
        obtain ⟨rfl, rfl⟩ := Prod.mk.inj (Except.ok.inj hser)
        exact (h.putBit hput).append happend
      · obtain ⟨⟨c₁, s₁⟩, hput, hser⟩ := Except.bind_eq_ok.mp hser
        obtain ⟨⟨c₂, s₂⟩, hleft, hright⟩ := Except.bind_eq_ok.mp hser
        exact ih (ih (h.putBit hput) hleft) hright

end

theorem tserBody_outputGrows {s t : State} (h : tserBody s = .ok t) : OutputGrows s t := by
  by_cases h0 : s.nnode = 0
  · exact Except.ok.inj ((if_pos h0).symm.trans h) ▸ .refl s
  · rw [tserBody, if_neg h0] at h
    obtain ⟨⟨c, u⟩, hser, h⟩ := Except.bind_eq_ok.mp h
    obtain rfl := Except.ok.inj h
    have hstart : Serializing s noControlByte s := ⟨.refl s, fun hnb => absurd rfl hnb⟩
    exact (hstart.serialize hser).grows

/-! ### The nine primitives -/

/-- What the body of a primitive command stores lies between the old `OLEN` and the new one. -/
theorem primitive_body_outputGrows {c : Command} (hc : c ∈ primitives) {s t : State} (h : c.body s = .ok t) :
    OutputGrows s t := by
  have hframe := primitive_body_frame hc h
  simp only [primitives, List.mem_cons, List.not_mem_nil, or_false] at hc
  rcases hc with rfl | rfl | rfl | rfl | rfl | rfl | rfl | rfl | rfl
  · exact .of_frame rfl hframe
  · exact .of_frame rfl hframe
  · exact .of_frame rfl hframe
  · exact whdrBody_outputGrows h
  · exact tserBody_outputGrows h
  · exact packBody_outputGrows h
  · exact .of_frame rfl hframe
  · exact .of_frame rfl hframe
  · exact unpkBody_outputGrows h

theorem primitive_outputFrom {c : Command} (hc : c ∈ primitives) (s : State) : c.outputFrom s = s.olen.toNat := by
  simp only [primitives, List.mem_cons, List.not_mem_nil, or_false] at hc
  rcases hc with rfl | rfl | rfl | rfl | rfl | rfl | rfl | rfl | rfl <;> rfl

/-- Issued by the host, a primitive stores between the old `OLEN` and the new one without an error, and on no path below the old
one (R199). -/
theorem runCommand_outputGrows {c : Command} (hc : c ∈ primitives) {s t : State} (h : runCommand c s = .next t) :
    (t.err = s.err → OutputGrows s t) ∧ ∀ a, a < s.olen.toNat → t.obuf.byte? a = s.obuf.byte? a := by
  rcases runCommand_next h with ⟨-, rfl⟩ | ⟨herr, e, -, rfl⟩ | ⟨-, -, hb⟩ | ⟨herr, -, e, n, -, rfl⟩
  · exact ⟨fun _ => .refl _, fun _ _ => rfl⟩
  · exact ⟨fun h => by simp [herr] at h, fun _ _ => rfl⟩
  · have hgrows := primitive_body_outputGrows hc hb
    exact ⟨fun _ => hgrows, fun a ha => hgrows.kept a (.inl ha)⟩
  · exact ⟨fun h => by simp [herr] at h, fun a ha => takeError_byte?_below _ _ _ _ (primitive_outputFrom hc s ▸ ha)⟩

/-- Settles O51: each of the four commands is a primitive, whose body keeps to its write set and stores from `OLEN` on. -/
theorem outputCommandsFrame : Obligations.OutputCommandsFrame := by
  intro i s t hi h
  have hprim : isComposite i = false ∧ i ≠ .clr := by
    rcases hi with rfl | rfl | rfl | rfl <;> decide
  obtain ⟨hframe, hbits⟩ := exec_primitive_frame hprim.1 hprim.2 h
  obtain ⟨c, hi, hc⟩ := commandOf_primitive hprim.1 hprim.2
  rw [exec_of_commandOf hi] at h
  obtain ⟨hgrows, hbelow⟩ := runCommand_outputGrows hc h
  exact ⟨hframe, hbits, fun hok => ⟨(hgrows hok).olen, (hgrows hok).kept⟩, hbelow⟩

end Sys2Proof.Machine
end

section
/-! SUPPORT. A composite command is its primitives issued one after the other (46_orchestration R169, R171, R174): what they leave,
it leaves, and the first error of one of them is its own. -/

namespace Sys2Proof.Machine

/-! ### Sub-commands in a row -/

/-- Commands run one after the other inside a composite one, up to the first that stops (R169). -/
def subCommands (is : List Instr) (s : State) : Except Stop State :=
  (is.filterMap commandOf).foldlM (fun u c => subCommand c u) s

theorem subCommands_nil (s : State) : subCommands [] s = .ok s := rfl

theorem subCommands_cons {i : Instr} {c : Command} (hi : commandOf i = some c) (is : List Instr) (s : State) :
    subCommands (i :: is) s = subCommand c s >>= subCommands is := by
  rw [subCommands, List.filterMap_cons_some hi, List.foldlM_cons]
  rfl

/-- The parts of COMP (R171). -/
def compParts : List Instr := [.fcnt, .build, .genc, .whdr, .tser, .pack]

theorem compBody_eq (s : State) : compBody s = subCommands compParts (compPreamble s) := by
  simp [compBody, subCommands, compParts, commandOf]

theorem decoBody_eq (s : State) :
    decoBody s = subCommand rhdrCommand (decoPreamble s) >>= fun u =>
      if u.total = 0 then .ok u else subCommands [.tdes, .unpk] u := by
  simp [decoBody, subCommands, commandOf]

/-! ### What a composite command changes -/

/-- A change within a write set is one within a larger set. -/
theorem Frame.mono {w w' : WriteSet} {s t : State} (h : Frame w s t) (hw : unionWrites w w' = w') : Frame w' s t := by
  have hsub : ∀ {a b : Bool}, (a || b) = b → b = false → a = false := fun h hb => by simpa [hb] using h
  obtain ⟨hfreq, htotal, hipos, htree, hbook, hout⟩ := WriteSet.mk.inj hw
  exact { h with
    freq := fun h0 => h.freq (hsub hfreq h0)
    total := fun h0 => h.total (hsub htotal h0)
    ipos := fun h0 => h.ipos (hsub hipos h0)
    tree := fun h0 => h.tree (hsub htree h0)
    codeBook := fun h0 => h.codeBook (hsub hbook h0)
    cbValid := fun h0 h0' => h.cbValid (hsub htree h0) (hsub hbook h0')
    output := fun h0 => h.output (hsub hout h0) }

/-- Primitives in a row change the union of their write sets at most, and store from `OLEN` on. -/
theorem subCommands_frame {w : WriteSet} {is : List Instr}
    (his : ∀ i ∈ is, isComposite i = false ∧ i ≠ .clr ∧ unionWrites (ruleWrites i) w = w) {s t : State}
    (h : subCommands is s = .ok t) : Frame w s t ∧ OutputGrows s t := by
  induction is generalizing s with
  | nil => exact Except.ok.inj h ▸ ⟨.refl w s, .refl s⟩
  | cons i is ih =>
    obtain ⟨⟨hcomp, hclr, hw⟩, his⟩ := List.forall_mem_cons.mp his
    obtain ⟨c, hi, hc⟩ := commandOf_primitive hcomp hclr
    rw [subCommands_cons hi] at h
    obtain ⟨u, hu, h⟩ := Except.bind_eq_ok.mp h
    obtain ⟨-, hbody⟩ := subCommand_ok hu
    obtain ⟨hframe, hgrows⟩ := ih his h
    have hone := (commandOf_writes hi ▸ primitive_body_frame hc hbody).mono hw
    exact ⟨hone.trans hframe, (primitive_body_outputGrows hc hbody).trans hgrows⟩

theorem compBody_frame {s t : State} (h : compBody s = .ok t) :
    Frame (ruleWrites .comp) s t ∧ OutputGrows (compPreamble s) t := by
  have hstart : Frame (ruleWrites .comp) s (compPreamble s) := by
    constructor <;> simp [sameErrorBits, ruleWrites, compPreamble]
  rw [compBody_eq] at h
  obtain ⟨hframe, hgrows⟩ := subCommands_frame (w := ruleWrites .comp) (by decide) h
  exact ⟨hstart.trans hframe, hgrows⟩

theorem decoBody_frame {s t : State} (h : decoBody s = .ok t) :
    Frame (ruleWrites .deco) s t ∧ OutputGrows (decoPreamble s) t := by
  have hstart : Frame (ruleWrites .deco) s (decoPreamble s) := by
    constructor <;> simp [sameErrorBits, ruleWrites, decoPreamble]
  rw [decoBody_eq] at h
  obtain ⟨u, hu, h⟩ := Except.bind_eq_ok.mp h
  have hrhdr : subCommands [.rhdr] (decoPreamble s) = .ok u := by
    rw [subCommands_cons (c := rhdrCommand) rfl, hu]
    rfl
  obtain ⟨hframe, hgrows⟩ := subCommands_frame (w := ruleWrites .deco) (by decide) hrhdr
  by_cases h0 : u.total = 0
  · rw [if_pos h0] at h
    exact Except.ok.inj h ▸ ⟨hstart.trans hframe, hgrows⟩
  · rw [if_neg h0] at h
    obtain ⟨hframe', hgrows'⟩ := subCommands_frame (w := ruleWrites .deco) (by decide) h
    exact ⟨(hstart.trans hframe).trans hframe', hgrows.trans hgrows'⟩

/-- The body of a command other than CLR keeps to its rule's write set. -/
theorem body_frame {i : Instr} {c : Command} (hi : commandOf i = some c) {s t : State} (h : c.body s = .ok t) :
    Frame c.writes s t := by
  rcases commandOf_cases hi with hc | rfl | rfl
  · exact primitive_body_frame hc h
  · exact (compBody_frame h).1
  · exact (decoBody_frame h).1

/-! ### A command issued and a command run inside another -/

section
variable {i : Instr} {c : Command} (hi : commandOf i = some c) {s t : State} (hs : s.err = false)
include hi hs

/-- A command ends without an error exactly when it ends inside a composite one, in the same state (R169). -/
theorem subCommand_eq_ok_iff : subCommand c s = .ok t ↔ exec i s = .next t ∧ t.err = false := by
  rw [exec_of_commandOf hi]
  refine ⟨fun h => ⟨subCommand_eq_ok hs h, ?_⟩, fun ⟨h, ht⟩ => subCommand_of_next hs h ht⟩
  obtain ⟨-, hbody⟩ := subCommand_ok h
  obtain ⟨herr, -⟩ := (body_frame hi hbody).errorBits
  exact herr.trans hs

/-- A command that ends in an error raises it inside a composite one (R169). -/
theorem subCommand_of_error (h : exec i s = .next t) (ht : t.err = true) :
    ∃ e n, subCommand c s = .error (.raise e n) ∧ reports t e := by
  rw [exec_of_commandOf hi] at h
  rcases runCommand_next h with ⟨herr, -⟩ | ⟨-, e, hentry, rfl⟩ | ⟨-, hentry, hbody⟩ | ⟨-, hentry, e, n, hbody, rfl⟩
  · simp [hs] at herr
  · exact ⟨e, s.draws, by rw [subCommand, hentry]; rfl, rfl, rfl, rfl⟩
  · obtain ⟨herr, -⟩ := (body_frame hi hbody).errorBits
    simp [ht, hs] at herr
  · exact ⟨e, n, by rw [subCommand_of_entry hentry, hbody], rfl, rfl, rfl⟩

end

theorem exists_commandOf {i : Instr} (hi : i ≠ .clr) : ∃ c, commandOf i = some c :=
  Option.ne_none_iff_exists'.mp fun h => hi (commandOf_eq_none h)

/-- Commands in a row end without an error exactly when the first does and then the rest. -/
theorem runToError_cons_iff {i : Instr} {is : List Instr} {s t : State} :
    (runToError (i :: is) s = .next t ∧ t.err = false) ↔
      ∃ u, (exec i s = .next u ∧ u.err = false) ∧ runToError is u = .next t ∧ t.err = false := by
  constructor
  · rintro ⟨h, ht⟩
    cases hexec : exec i s with
    | next u =>
      cases hu : u.err with
      | false => exact ⟨u, ⟨rfl, hu⟩, runToError_next is hexec hu ▸ h, ht⟩
      | true =>
        rw [runToError_error is hexec hu] at h
        obtain rfl := Host.Outcome.next.inj h
        simp [ht] at hu
    | fault r => simp [runToError, hexec] at h
    | refused r => simp [runToError, hexec] at h
  · rintro ⟨u, ⟨hexec, hu⟩, h, ht⟩
    exact ⟨(runToError_next is hexec hu).trans h, ht⟩

theorem runToError_singleton_iff {i : Instr} {s t : State} :
    (runToError [i] s = .next t ∧ t.err = false) ↔ exec i s = .next t ∧ t.err = false := by
  rw [runToError_cons_iff]
  constructor
  · rintro ⟨u, hu, h, -⟩
    exact Host.Outcome.next.inj h ▸ hu
  · exact fun h => ⟨t, h, rfl, h.2⟩

/-- Run inside a composite command, they end in the same state. -/
theorem subCommands_eq_ok_iff {is : List Instr} (his : ∀ i ∈ is, i ≠ .clr) {s t : State} (hs : s.err = false) :
    subCommands is s = .ok t ↔ runToError is s = .next t ∧ t.err = false := by
  induction is generalizing s with
  | nil =>
    rw [subCommands_nil, runToError_nil, Except.ok.injEq, Host.Outcome.next.injEq]
    exact ⟨fun h => ⟨h, h ▸ hs⟩, And.left⟩
  | cons i is ih =>
    obtain ⟨hclr, his⟩ := List.forall_mem_cons.mp his
    obtain ⟨c, hi⟩ := exists_commandOf hclr
    rw [subCommands_cons hi, Except.bind_eq_ok, runToError_cons_iff]
    refine exists_congr fun u => ?_
    rw [subCommand_eq_ok_iff hi hs]
    exact and_congr_right fun ⟨_, hu⟩ => ih his hu

/-- Run inside a composite command, they raise the first error of one of them (R169). -/
theorem subCommands_of_error {is : List Instr} (his : ∀ i ∈ is, i ≠ .clr) {s t : State} (hs : s.err = false)
    (h : runToError is s = .next t) (ht : t.err = true) : ∃ e n, subCommands is s = .error (.raise e n) ∧ reports t e := by
  induction is generalizing s with
  | nil =>
    obtain rfl := Host.Outcome.next.inj h
    simp [hs] at ht
  | cons i is ih =>
    obtain ⟨hclr, his⟩ := List.forall_mem_cons.mp his
    obtain ⟨c, hi⟩ := exists_commandOf hclr
    rw [subCommands_cons hi]
    cases hexec : exec i s with
    | next u =>
      cases hu : u.err with
      | true =>
        obtain rfl := Host.Outcome.next.inj ((runToError_error is hexec hu).symm.trans h)
        obtain ⟨e, n, hraise, hreport⟩ := subCommand_of_error hi hs hexec hu
        exact ⟨e, n, by rw [hraise, Except.error_bind], hreport⟩
      | false =>
        rw [runToError_next is hexec hu] at h
        rw [(subCommand_eq_ok_iff hi hs).mpr ⟨hexec, hu⟩, Except.ok_bind]
        exact ih his hu h
    | fault r => simp [runToError, hexec] at h
    | refused r => simp [runToError, hexec] at h

/-! ### COMP and DECO -/

theorem exec_comp_eq_ok_iff {s t : State} (herr : s.err = false) (hcap : s.ilen.toNat ≤ s.ibufCap) :
    (exec .comp s = .next t ∧ t.err = false) ↔ compBody s = .ok t := by
  rw [← subCommand_eq_ok_iff (c := compCommand) rfl herr, subCommand_of_entry (if_neg (Nat.not_lt.mpr hcap))]
  rfl

theorem exec_deco_eq_ok_iff {s t : State} (herr : s.err = false) (hcap : s.ilen.toNat ≤ s.ibufCap) :
    (exec .deco s = .next t ∧ t.err = false) ↔ decoBody s = .ok t := by
  rw [← subCommand_eq_ok_iff (c := decoCommand) rfl herr, subCommand_of_entry (if_neg (Nat.not_lt.mpr hcap))]
  rfl

/-- Two reports of one error agree in the error bits. -/
theorem sameErrorBits_of_reports {s t : State} {e : ErrorCode} (hs : reports s e) (ht : reports t e) : sameErrorBits s t := by
  obtain ⟨herr, hcode, hcorrupt⟩ := hs
  obtain ⟨herr', hcode', hcorrupt'⟩ := ht
  exact ⟨herr'.trans herr.symm, hcorrupt'.trans hcorrupt.symm, hcode'.trans hcode.symm⟩

theorem comp_raises {s : State} {e : ErrorCode} {n : Nat} (herr : s.err = false) (hcap : s.ilen.toNat ≤ s.ibufCap)
    (h : compBody s = .error (.raise e n)) : ∃ v, exec .comp s = .next v ∧ reports v e := by
  obtain ⟨v, hexec, hreport, -⟩ := exec_of_raise (i := .comp) rfl herr (if_neg (Nat.not_lt.mpr hcap)) h
  exact ⟨v, hexec, hreport⟩

/-- Settles O40: COMP's body runs the six, as the host would have, from the state its preamble makes. -/
theorem compIsTheSixPrimitives : Obligations.CompIsTheSixPrimitives := by
  intro s t herr hcap
  have hparts : ∀ i ∈ compParts, i ≠ .clr := by decide
  refine ⟨?_, fun u hrun hu => ?_⟩
  · rw [exec_comp_eq_ok_iff herr hcap, compBody_eq, subCommands_eq_ok_iff hparts (s := compPreamble s) herr]
    simp only [compParts, runToError_cons_iff (is := _ :: _), runToError_singleton_iff, exists_and_left, and_assoc]
    rfl
  · obtain ⟨e, n, hraise, hreport⟩ := subCommands_of_error hparts (s := compPreamble s) herr hrun hu
    obtain ⟨v, hexec, hv⟩ := comp_raises herr hcap ((compBody_eq s).trans hraise)
    exact ⟨v, hexec, sameErrorBits_of_reports hreport hv⟩

/-- DECO ends without an error exactly when RHDR does and, with a count other than 0, TDES and UNPK do (R174). -/
theorem decoBody_eq_ok_iff {s t : State} (herr : s.err = false) :
    decoBody s = .ok t ↔
      ∃ s₁, exec .rhdr (decoPreamble s) = .next s₁ ∧ s₁.err = false ∧
        ((s₁.total = 0 ∧ t = s₁) ∨
          (s₁.total ≠ 0 ∧ ∃ s₂, exec .tdes s₁ = .next s₂ ∧ s₂.err = false ∧ exec .unpk s₂ = .next t ∧ t.err = false)) := by
  rw [decoBody_eq, Except.bind_eq_ok]
  refine exists_congr fun s₁ => ?_
  rw [subCommand_eq_ok_iff (i := .rhdr) (s := decoPreamble s) rfl herr, and_assoc]
  refine and_congr_right fun _ => and_congr_right fun h₁ => ?_
  by_cases h0 : s₁.total = 0
  · rw [if_pos h0, Except.ok.injEq]
    exact ⟨fun h => .inl ⟨h0, h.symm⟩, fun h => h.elim (fun h => h.2.symm) fun h => absurd h0 h.1⟩
  · rw [if_neg h0, subCommands_eq_ok_iff (by decide) h₁, runToError_cons_iff (is := _ :: _)]
    simp only [runToError_singleton_iff, and_assoc]
    exact ⟨fun h => .inr ⟨h0, h⟩, fun h => h.elim (fun h => absurd h.1 h0) And.right⟩

/-- The first error of RHDR, or of TDES and UNPK after it, is DECO's (R169). -/
theorem decoBody_of_error {s u : State} (herr : s.err = false) (hrhdr : exec .rhdr (decoPreamble s) = .next u) :
    (u.err = true → ∃ e n, decoBody s = .error (.raise e n) ∧ reports u e) ∧
      (u.err = false → u.total ≠ 0 → ∀ w, runToError [.tdes, .unpk] u = .next w → w.err = true →
        ∃ e n, decoBody s = .error (.raise e n) ∧ reports w e) := by
  refine ⟨fun hu => ?_, fun hu h0 w hrun hw => ?_⟩
  · obtain ⟨e, n, hraise, hreport⟩ := subCommand_of_error (i := .rhdr) (s := decoPreamble s) rfl herr hrhdr hu
    exact ⟨e, n, decoBody_of_rhdr_error hraise, hreport⟩
  · obtain ⟨e, n, hraise, hreport⟩ := subCommands_of_error (by decide) hu hrun hw
    have hok : subCommand rhdrCommand (decoPreamble s) = .ok u :=
      (subCommand_eq_ok_iff (i := .rhdr) (s := decoPreamble s) rfl herr).mpr ⟨hrhdr, hu⟩
    exact ⟨e, n, by rw [decoBody_eq, hok, Except.ok_bind, if_neg h0, hraise], hreport⟩

/-! ### Corrupt artifacts (R77) -/

theorem count_toNat {n : Nat} (h : n ≤ Config.totalMax) : (BitVec.ofNat 64 n).toNat = n :=
  Nat.mod_eq_of_lt (h.trans_lt (by decide))

theorem count_ne_zero {n : Nat} (h0 : 0 < n) (h : n ≤ Config.totalMax) : BitVec.ofNat 64 n ≠ 0 := fun hz => by
  have hn := count_toNat h
  rw [hz] at hn
  exact absurd hn.symm h0.ne'

section
variable {s : State}

/-- A count with bit 63 set (R168). -/
theorem decoBody_of_large_count {input : List Byte} (hinput : inputIs s input) (hlen : 8 ≤ input.length)
    (hlarge : 2 ^ 63 ≤ headerValue (input.take 8)) : ∃ n, decoBody s = .error (.raise .hdr n) := by
  have hstream := hinput.decoStream
  rw [← List.take_append_drop 8 input] at hstream
  have hrhdr : subCommand rhdrCommand (decoPreamble s) = .error (.raise .hdr (decoPreamble s).draws) :=
    (subCommand_of_entry (c := rhdrCommand) hstream.rhdrEntry).trans
      (rhdrBody_hdr (List.length_take_of_le hlen) hstream hlarge)
  exact ⟨_, decoBody_of_rhdr_error hrhdr⟩

/-- More nodes than the arena takes (R129). -/
theorem decoBody_of_too_many_nodes {count : Word} {tree : HuffmanTree} {rest : List Byte} (herr : s.err = false)
    (h0 : count ≠ 0) (hlegal : count.toNat ≤ Config.totalMax) (hsize : 511 < tree.size)
    (hinput : inputIs s (headerBytes count ++ ((layout (items tree)).take (arenaBytes tree) ++ rest))) :
    ∃ n, decoBody s = .error (.raise .treeOvf n) := by
  obtain ⟨hbody, hstream⟩ := decoBody_header herr h0 hlegal hinput
  obtain ⟨u, hexec, hreport, -⟩ := tdesOfTooManyNodesRaisesETreeOvf (decoCounted s count) tree rest herr hsize hstream
  obtain ⟨n, hn⟩ := subCommand_of_reports (c := tdesCommand) (s := decoCounted s count) (by simp [primitives]) herr hexec
    hreport
  exact ⟨n, by rw [hbody, hn, Except.error_bind]⟩

/-- A 1 bit under a tree of one leaf, before the count is reached (R153). -/
theorem decoBody_of_one_bit {count : Word} {k : Nat} {x : Byte} {stream : List Byte} (herr : s.err = false)
    (hlegal : count.toNat ≤ Config.totalMax) (hk : k < count.toNat) (hroom : k ≤ s.obufCap)
    (hbits : (bitsOfBytes stream).take (k + 1) = List.replicate k false ++ [true])
    (hinput : inputIs s (headerBytes count ++ (layout (items (.leaf x)) ++ stream))) :
    ∃ n, decoBody s = .error (.raise .badCode n) := by
  have h0 : count ≠ 0 := fun h => absurd hk (by simp [h])
  obtain ⟨a, hbody, htree, hstream⟩ :=
    decoBody_region (tree := .leaf x) herr h0 hlegal (show 1 ≤ 511 by decide) hinput
  have hfits : outputFits (decoRebuilt s count (.leaf x) a) k := (Nat.le_of_eq (Nat.zero_add k)).trans hroom
  obtain ⟨u, hexec, hreport, -⟩ := unpkOfAOneBitUnderALeafRaisesEBadCode (decoRebuilt s count (.leaf x) a) x stream k herr
    hstream rfl htree hk hlegal hfits hbits
  obtain ⟨n, hn⟩ := subCommand_of_reports (c := unpkCommand) (s := decoRebuilt s count (.leaf x) a) (by simp [primitives]) herr
    hexec hreport
  exact ⟨n, hbody.trans hn⟩

end

/-- Settles O41: DECO's body runs the three, as the host would have, and on each corrupt input one of them raises. -/
theorem decoIsTheThreePrimitives : Obligations.DecoIsTheThreePrimitives := by
  intro s t herr hcap
  have hraises : ∀ {w : State}, (∃ e n, decoBody s = .error (.raise e n) ∧ reports w e) →
      ∃ v, exec .deco s = .next v ∧ sameErrorBits w v := by
    rintro w ⟨e, n, hbody, hreport⟩
    obtain ⟨v, hexec, hv, -⟩ := deco_raises herr hcap hbody
    exact ⟨v, hexec, sameErrorBits_of_reports hreport hv⟩
  have hreported : ∀ {e : ErrorCode}, (∃ n, decoBody s = .error (.raise e n)) →
      ∃ v, exec .deco s = .next v ∧ reports v e ∧ v.ecode = errorCode e := fun ⟨_, hbody⟩ => deco_raises herr hcap hbody
  refine ⟨(exec_deco_eq_ok_iff herr hcap).trans (decoBody_eq_ok_iff herr), fun u hrhdr => ?_, fun input hinput => ?_⟩
  · obtain ⟨hfirst, hlater⟩ := decoBody_of_error herr hrhdr
    exact ⟨fun hu => hraises (hfirst hu), fun hu h0 w hrun hw => hraises (hlater hu h0 w hrun hw)⟩
  refine ⟨fun hshort => hreported (decoBody_of_cut_header hshort hinput),
    fun hlen hlarge => hreported (decoBody_of_large_count hinput hlen hlarge), ?_, ?_⟩
  · rintro n tree rest h0 hlegal hsize rfl
    rw [List.append_assoc] at hinput
    exact hreported (decoBody_of_too_many_nodes herr (count_ne_zero h0 hlegal) ((count_toNat hlegal).trans_le hlegal) hsize hinput)
  · rintro n k x stream hk hlegal hroom hbits rfl
    rw [List.append_assoc] at hinput
    have hcount := count_toNat hlegal
    exact hreported (decoBody_of_one_bit herr (hcount.trans_le hlegal) (hcount.symm ▸ hk) hroom hbits hinput)

/-- Settles O52: without an error the body's frame holds from the preamble on, which empties the output; an error keeps to the
write set. -/
theorem compositeCommandsFrame : Obligations.CompositeCommandsFrame := by
  intro i s t hi herr h
  obtain ⟨c, hc, hgrows⟩ : ∃ c, commandOf i = some c ∧
      ∀ u, c.body s = .ok u → ∀ a, u.olen.toNat ≤ a → u.obuf.byte? a = s.obuf.byte? a := by
    rcases hi with rfl | rfl
    · exact ⟨compCommand, rfl, fun u hu a ha => (compBody_frame hu).2.kept a (.inr ha)⟩
    · exact ⟨decoCommand, rfl, fun u hu a ha => (decoBody_frame hu).2.kept a (.inr ha)⟩
  have hok : t.err = false → c.body s = .ok t := fun ht =>
    (subCommand_ok ((subCommand_eq_ok_iff hc herr).mpr ⟨h, ht⟩)).2
  rw [exec_of_commandOf hc] at h
  obtain ⟨hframe, hbits⟩ := runCommand_frame (fun u hu => body_frame hc hu) h
  exact ⟨commandOf_writes hc ▸ hframe, fun ht => hbits (ht.trans herr.symm), fun ht => hgrows t (hok ht)⟩

end Sys2Proof.Machine
end

section
/-! SUPPORT. COMP with room for any artifact of its input (00_scope R6): it completes with the artifact, which depends on the input
alone (46_orchestration R171, R172, 30_encoding R60). -/

namespace Sys2Proof.Machine

/-! ### How long an artifact can be (R6) -/

theorem codeBits_length_le (book : Byte → Code) (input : List Byte) : (codeBits book input).length ≤ 255 * input.length := by
  induction input with
  | nil => exact Nat.le_refl 0
  | cons x input ih =>
    have hpath : (book x).path.length ≤ 255 := by
      have hlen := (book x).len.isLt
      rw [Code.path, List.length_map, List.length_range]
      omega
    rw [codeBits, List.flatMap_cons, List.length_append, List.length_cons]
    rw [codeBits] at ih
    omega

/-- A tree region has at most 64 control bytes and 256 symbols (R74). -/
theorem treeRegion_length_le {input : List Byte} {T : Option HuffmanTree} (h : IsTreeOf input T) :
    (treeRegion T).length ≤ 320 := by
  cases h with
  | empty => exact Nat.zero_le _
  | @ofTree tree hsize _ =>
    have hregion := treeRegionSize tree
    have hcount := tree.size_add_one
    rw [treeRegion]
    omega

theorem artifact_length (input : List Byte) (T : Option HuffmanTree) :
    (artifact input T).length = 8 + (treeRegion T).length +
      ((codeBits (fun x => (codeBookOf T)[x.toNat]'(x.isLt)) input).length + 7) / 8 := by
  have hheader : (headerBytes (BitVec.ofNat 64 input.length)).length = 8 := rfl
  rw [artifact, List.length_append, List.length_append, hheader, bytesOfBits_length]

/-- The bound of R6. -/
theorem artifact_length_le {input : List Byte} {T : Option HuffmanTree} (h : IsTreeOf input T) :
    (artifact input T).length ≤ 8 + 320 + (255 * input.length + 7) / 8 := by
  have hregion := treeRegion_length_le h
  have hcodes := codeBits_length_le (fun x => (codeBookOf T)[x.toNat]'(x.isLt)) input
  rw [artifact_length]
  omega

/-! ### The state before output is written -/

/-- FCNT, BUILD and GENC have run on the input, as COMP runs them, and nothing is written yet (R171). -/
structure IsCoded (input : List Byte) (u : State) : Prop where
  err : u.err = false
  written : inputIs u input
  total : u.total = BitVec.ofNat 64 input.length
  olen : u.olen.toNat = 0
  treeValid : u.treeValid = true
  cbValid : u.cbValid = true
  codeBook : u.codeBook = codeBookOf u.currentTree
  tree : IsTreeOf input u.currentTree
  readable : u.nnode = 0 ∨ ∃ tree, u.currentTree = some tree
  obufWf : u.obuf.wf

theorem isCoded_compCoded {s : State} {input : List Byte} (herr : s.err = false) (hwf : s.obuf.wf) (hinput : inputIs s input) :
    IsCoded input (compCoded s input) := by
  have htree := isTreeOf_compCoded hinput
  have hread : (compCoded s input).nnode = 0 ∨ ∃ tree, (compCoded s input).currentTree = some tree := by
    rw [compCoded, coded_nnode, coded_currentTree]
    exact buildTree_readable _
  have hbook : (compCoded s input).codeBook = codeBookOf (compCoded s input).currentTree := coded_codeBook _
  obtain ⟨hlen, hcap, hbytes⟩ := hinput
  have htotal : s.ilen = BitVec.ofNat 64 input.length := by rw [← hlen, BitVec.ofNat_toNat, BitVec.setWidth_eq]
  obtain ⟨a, n, r, b, hcoded⟩ := compCoded_eq herr input
  generalize compCoded s input = u at *
  generalize symbolCounts input = f at hcoded
  subst hcoded
  exact ⟨herr, ⟨hlen, hcap, hbytes⟩, htotal, rfl, rfl, rfl, hbook, htree, hread, hwf⟩

/-! ### The output commands with room -/

/-- With room for it, TSER appends the tree region (R69, R121, R125). -/
theorem exec_tser_room {u : State} (herr : u.err = false) (hvalid : u.treeValid = true) (hwf : u.obuf.wf)
    (hread : u.nnode = 0 ∨ ∃ tree, u.currentTree = some tree) (hfits : outputFits u (treeRegion u.currentTree).length) :
    exec .tser u = .next (appended u (treeRegion u.currentTree)) := by
  obtain ⟨hempty, htree⟩ := tserAppendsTheLayout u herr hvalid hwf ((Nat.le_add_right _ _).trans hfits)
  by_cases h0 : u.nnode = 0
  · have hnone : u.currentTree = none := if_pos h0
    rw [hnone, treeRegion, appended_nil]
    exact hempty h0
  · obtain ⟨tree, hsome⟩ := hread.resolve_left h0
    rw [hsome] at hfits ⊢
    exact htree tree hsome hfits

/-- What fits in two parts. -/
theorem outputFits.split {u : State} {bs cs : List Byte} (h : outputFits u (bs ++ cs).length) :
    outputFits u bs.length ∧ outputFits (appended u bs) cs.length := by
  rw [List.length_append] at h
  exact ⟨h.mono (Nat.le_add_right _ _), h.after⟩

/-- With room for the artifact, the three output commands append it, region by region (R60, R171). -/
theorem IsCoded.appends_artifact {u : State} {input : List Byte} (h : IsCoded input u)
    (hfits : outputFits u (artifact input u.currentTree).length) :
    (subCommand whdrCommand u >>= subCommand tserCommand) >>= subCommand packCommand =
      .ok (appended u (artifact input u.currentTree)) := by
  have hcodes : u.codeAt = fun x => (codeBookOf u.currentTree)[x.toNat]'(x.isLt) := funext fun x => by
    simp only [State.codeAt, h.codeBook]
  have hpresent : ∀ x ∈ input, (u.codeAt x).present = true := fun x hx => by
    rw [hcodes]
    exact h.tree.present hx
  have hlegal : u.total.toNat ≤ Config.totalMax := by
    rw [h.total, count_toNat h.written.length_le_totalMax]
    exact h.written.length_le_totalMax
  rw [artifact, ← hcodes, ← h.total] at hfits ⊢
  obtain ⟨htwo, hcode⟩ := hfits.split
  obtain ⟨hheader, hregion⟩ := htwo.split
  have hwhdr : subCommand whdrCommand u = .ok (appended u (headerBytes u.total)) :=
    subCommand_of_next h.err (exec_whdr_room h.err hlegal hheader) h.err
  generalize headerBytes u.total = header at hwhdr htwo hcode hheader hregion ⊢
  have htser : subCommand tserCommand (appended u header) = .ok (appended (appended u header) (treeRegion u.currentTree)) := by
    rw [← currentTree_appended u header] at hregion ⊢
    exact subCommand_of_next h.err (exec_tser_room (u := appended u header) h.err h.treeValid (Memory.wf_storeAll h.obufWf _ _)
      (by rw [currentTree_appended]; exact h.readable) hregion) h.err
  rw [appended_appended hheader.lt] at htser
  have hpack : subCommand packCommand (appended u (header ++ treeRegion u.currentTree)) =
      .ok (appended (appended u (header ++ treeRegion u.currentTree)) (bytesOfBits (codeBits u.codeAt input))) :=
    subCommand_of_next h.err (packAppendsTheCodeBits (appended u (header ++ treeRegion u.currentTree)) input h.err h.cbValid
      h.written hpresent (bytesOfBits_length _ ▸ hcode)) h.err
  rw [appended_appended htwo.lt] at hpack
  rw [hwhdr, Except.ok_bind, htser, Except.ok_bind, hpack]

/-! ### COMP -/

/-- The symbols with a code in the code book of an input's tree are the input's (R102, R112). -/
theorem IsTreeOf.present_iff {input : List Byte} {T : Option HuffmanTree} (h : IsTreeOf input T) (x : Byte) :
    ((codeBookOf T)[x.toNat]'(x.isLt)).present = true ↔ x ∈ input := by
  refine ⟨fun hpresent => by_contra fun hx => ?_, h.present⟩
  have hnone : x ∉ (treeCodes T).map Prod.fst := by
    cases h with
    | empty => exact List.not_mem_nil
    | @ofTree tree _ hmem =>
      rw [treeCodes_symbols]
      exact fun hmem' => hx ((hmem x).mp hmem')
  simp only [codeBookOf_eq, recordedBook_of_notMem hnone, Vector.getElem_replicate, Code.absent, Bool.false_eq_true] at hpresent

/-- What COMP has before it writes output is counted from the input, or as it was. -/
theorem compCoded_fields {s : State} (herr : s.err = false) (input : List Byte) :
    (compCoded s input).freq = symbolCounts input ∧ (compCoded s input).total = s.ilen ∧ (compCoded s input).ipos = s.ipos ∧
      (compCoded s input).obufCap = s.obufCap := by
  obtain ⟨a, n, r, b, h⟩ := compCoded_eq herr input
  rw [h]
  -- `rfl` would unfold the 256 counts
  generalize symbolCounts input = f
  exact ⟨rfl, rfl, rfl, rfl⟩

section
variable {s : State} {input : List Byte} (herr : s.err = false) (hwf : s.obuf.wf) (hinput : inputIs s input)
include herr hwf hinput

/-- COMP completes when there is room for the artifact (R171). -/
theorem exec_comp_room (hroom : (artifact input (compCoded s input).currentTree).length ≤ s.obufCap) :
    exec .comp s = .next (appended (compCoded s input) (artifact input (compCoded s input).currentTree)) := by
  have hcoded := isCoded_compCoded herr hwf hinput
  obtain ⟨-, -, -, hcap⟩ := compCoded_fields herr input
  have hfits : outputFits (compCoded s input) (artifact input (compCoded s input).currentTree).length := by
    rwa [outputFits, hcoded.olen, Nat.zero_add, hcap]
  have hbody := (compBody_coded herr hinput).trans (hcoded.appends_artifact hfits)
  exact ((exec_comp_eq_ok_iff herr hinput.ilen_le).mpr hbody).1

/-- Where COMP ends without an error it leaves the state of the input with the artifact appended (R171). -/
theorem exec_comp_ok {t : State} (hexec : exec .comp s = .next t) (hok : t.err = false) :
    t = appended (compCoded s input) (artifact input (compCoded s input).currentTree) := by
  have hbody := (exec_comp_eq_ok_iff herr hinput.ilen_le).mp ⟨hexec, hok⟩
  rcases compBody_appends herr hwf hinput with ⟨u, hu, rfl, -⟩ | ⟨e, n, hraise, -⟩
  · exact Except.ok.inj (hbody.symm.trans hu)
  · cases hbody.symm.trans hraise

end

/-- Settles O42: the artifact is within the bound of R6, so the output commands have room for it. -/
theorem compWritesTheArtifact : Obligations.CompWritesTheArtifact := by
  intro s input herr hwf hinput hroom
  have hcoded := isCoded_compCoded herr hwf hinput
  have hexec := exec_comp_room herr hwf hinput ((artifact_length_le hcoded.tree).trans hroom)
  obtain ⟨-, hout⟩ := comp_writes_artifact herr hwf hinput hexec ((appended_err _ _).trans hcoded.err)
  obtain ⟨-, htotal, hipos, -⟩ := compCoded_fields herr input
  generalize compCoded s input = u at *
  refine ⟨_, hexec, hcoded.err, hcoded.treeValid, hcoded.cbValid, htotal, hipos, ?_, fun x => ?_, hout⟩
  · rw [currentTree_appended]
    exact hcoded.codeBook
  · rw [State.codeAt]
    simp only [appended_codeBook, hcoded.codeBook]
    exact hcoded.tree.present_iff x

/-! ### The same input twice -/

/-- What a traversal reads is settled by `NNODE`, `ROOT` and the entries in use. -/
theorem currentTree_of_entries {s u : State} (hn : u.nnode = s.nnode) (hroot : u.root = s.root)
    (hnodes : ∀ i, i < s.nnode.toNat → u.node? i = s.node? i) : u.currentTree = s.currentTree := by
  have hused : ∀ i, u.usedNode? i = s.usedNode? i := fun i => by
    rw [State.usedNode?, State.usedNode?, hn]
    split
    · exact hnodes _ ‹_›
    · rfl
  have htree : ∀ depth i, u.treeAt depth i = s.treeAt depth i := by
    intro depth
    induction depth with
    | zero => exact fun _ => rfl
    | succ depth ih => exact fun i => by simp only [State.treeAt, hused, ih]
  rw [State.currentTree, State.currentTree, hn, hroot, htree]

/-- BUILD makes the same tree of the same counts (R102). -/
theorem compCoded_currentTree (s s' : State) (input : List Byte) :
    (compCoded s' input).currentTree = (compCoded s input).currentTree := by
  obtain ⟨hn, hroot, hnodes⟩ := buildTree_of_freq (s := counted (symbolCounts input) (compPreamble s))
    (s' := counted (symbolCounts input) (compPreamble s')) ((counted_freq _ _).trans (counted_freq _ _).symm)
  rw [compCoded, compCoded, coded_currentTree, coded_currentTree]
  exact currentTree_of_entries hn.symm hroot.symm fun i hi => (hnodes i hi).symm

/-- Settles O43: the counts are the input's, the tree is a function of them, and the rest of the tree and the input. -/
theorem compDependsOnTheInputAlone : Obligations.CompDependsOnTheInputAlone := by
  intro s s' t t' input herr herr' hwf hwf' hinput hinput' hexec hexec' hok hok'
  have hcoded := isCoded_compCoded herr hwf hinput
  have hcoded' := isCoded_compCoded herr' hwf' hinput'
  obtain ⟨hfreq, -⟩ := compCoded_fields herr input
  obtain ⟨hfreq', -⟩ := compCoded_fields herr' input
  have htree : (compCoded s input).currentTree = (compCoded s' input).currentTree := compCoded_currentTree s' s input
  obtain ⟨-, hlen, hbytes⟩ := comp_writes_artifact herr hwf hinput hexec hok
  obtain ⟨-, hlen', hbytes'⟩ := comp_writes_artifact herr' hwf' hinput' hexec' hok'
  obtain rfl := exec_comp_ok herr hwf hinput hexec hok
  obtain rfl := exec_comp_ok herr' hwf' hinput' hexec' hok'
  rw [currentTree_appended] at hlen hlen' hbytes hbytes'
  rw [currentTree_appended, currentTree_appended]
  generalize compCoded s input = u at *
  generalize compCoded s' input = u' at *
  rw [← htree] at hlen' hbytes' ⊢
  refine ⟨BitVec.eq_of_toNat_eq (hlen.trans hlen'.symm), hfreq.trans hfreq'.symm, hcoded.total.trans hcoded'.total.symm, rfl, ?_,
    fun a ha => ?_⟩
  · rw [appended_codeBook, appended_codeBook, hcoded.codeBook, hcoded'.codeBook, htree]
  · rw [hlen] at ha
    rw [← Nat.zero_add a, hbytes a ha, hbytes' a ha]

end Sys2Proof.Machine
end

section
/-! SUPPORT. DECO on an artifact, whole (46_orchestration R174): it leaves the symbols that the code region decodes to; and of an
artifact that COMP wrote, the input (R175). -/

namespace Sys2Proof.Machine

/-! ### Decoding -/

theorem decodeSymbols_length {t : HuffmanTree} {n : Nat} {bits rest : List Bool} {xs : List Byte}
    (h : t.decodeSymbols n bits = some (xs, rest)) : xs.length = n := by
  induction n generalizing bits xs with
  | zero =>
    obtain ⟨rfl, -⟩ := Prod.mk.inj (Option.some.inj h)
    rfl
  | succ n ih =>
    obtain ⟨x, mid, ys, -, hys, rfl⟩ := decodeSymbols_succ_eq_some_iff.mp h
    rw [List.length_cons, ih hys]

/-- What was appended to an empty output is the output. -/
theorem outputIs_appended {u : State} {bs : List Byte} (holen : u.olen.toNat = 0) (hlen : bs.length < 2 ^ 64) :
    outputIs (appended u bs) bs := by
  constructor
  · rw [appended_olen_toNat (by omega), holen, Nat.zero_add]
  · rw [appended_obuf, holen]
    exact holdsAt_storeAll u.obuf 0 bs

/-! ### DECO -/

/-- The state in which DECO ends: UNPK has appended the symbols, and of the code region's bits `rest` are left (R174, R156). -/
def decoDecoded (s : State) (count : Word) (tree : HuffmanTree) (a : Vector Node 511) (stream symbols : List Byte)
    (rest : List Bool) : State :=
  movedTo (iposLeaving (decoRebuilt s count tree a) stream rest) (appended (decoRebuilt s count tree a) symbols)

section
variable {s : State} (herr : s.err = false)
include herr

/-- With a count of 0 nothing after the header is read (R174, R175). -/
theorem exec_deco_zero {rest : List Byte} (hinput : inputIs s (headerBytes 0 ++ rest)) :
    exec .deco s = .next { s with total := 0, ipos := 8, olen := 0, treeValid := false, cbValid := false } := by
  have hrhdr : exec .rhdr (decoPreamble s) = .next { decoPreamble s with total := 0, ipos := 8 } :=
    headerRoundTrip (decoPreamble s) 0 rest herr (by decide) hinput.decoStream
  exact ((exec_deco_eq_ok_iff herr hinput.ilen_le).mpr
    ((decoBody_eq_ok_iff herr).mpr ⟨_, hrhdr, herr, .inl ⟨rfl, rfl⟩⟩)).1

/-- With another count DECO decodes the code region under the tree (R174). -/
theorem exec_deco_artifact {count : Word} {tree : HuffmanTree} {stream symbols : List Byte} {rest : List Bool} (h0 : count ≠ 0)
    (hroom : count.toNat ≤ s.obufCap) (hsize : tree.size ≤ 511)
    (hinput : inputIs s (headerBytes count ++ (layout (items tree) ++ stream)))
    (hdecode : tree.decodeSymbols count.toNat (bitsOfBytes stream) = some (symbols, rest)) :
    ∃ a, exec .deco s = .next (decoDecoded s count tree a stream symbols rest) ∧
      (decoRebuilt s count tree a).currentTree = some tree := by
  have hlegal : count.toNat ≤ Config.totalMax := hroom.trans (Nat.le_of_lt_succ (obufCap_lt s))
  have hpos : 0 < count.toNat := Nat.pos_of_ne_zero fun h => h0 (BitVec.eq_of_toNat_eq h)
  obtain ⟨a, hbody, htree, hstream⟩ := decoBody_region herr h0 hlegal hsize hinput
  obtain ⟨-, hdecodes⟩ := unpkDecodesTotalSymbols (decoRebuilt s count tree a) herr (Nat.zero_le _)
  have hunpk := hdecodes tree stream symbols rest hstream hpos hlegal rfl htree hdecode
    ((Nat.le_of_eq (Nat.zero_add _)).trans hroom)
  refine ⟨a, ((exec_deco_eq_ok_iff herr hinput.ilen_le).mpr (hbody.trans ?_)).1, htree⟩
  exact subCommand_of_next (s := decoRebuilt s count tree a) herr hunpk herr

end

/-- The bytes that DECO consumed: the header, the tree region, and the code region's bytes that were begun (R156, R175). -/
theorem decoDecoded_ipos {s : State} {count : Word} {tree : HuffmanTree} {a : Vector Node 511} {stream symbols : List Byte}
    {rest : List Bool} (hinput : inputIs s (headerBytes count ++ (layout (items tree) ++ stream))) :
    (decoDecoded s count tree a stream symbols rest).ipos.toNat =
      8 + (layout (items tree)).length + (8 * stream.length - rest.length + 7) / 8 := by
  obtain ⟨hlen, -, -⟩ := hinput
  have hilen := s.ilen.isLt
  have hheader : (headerBytes count).length = 8 := rfl
  rw [List.length_append, List.length_append, hheader] at hlen
  change (8 + BitVec.ofNat 64 (layout (items tree)).length +
    BitVec.ofNat 64 ((8 * stream.length - rest.length + 7) / 8)).toNat = _
  have h8 : (8 : Word).toNat = 8 := rfl
  rw [BitVec.toNat_add, BitVec.toNat_add, BitVec.toNat_ofNat, BitVec.toNat_ofNat, h8]
  omega

/-- Settles O44: RHDR reads the count; TDES rebuilds the tree and UNPK decodes the code region. -/
theorem decoDecodesTheArtifact : Obligations.DecoDecodesTheArtifact := by
  intro s input herr hinput
  refine ⟨fun rest hzero => exec_deco_zero herr (hzero ▸ hinput), ?_⟩
  rintro n tree stream symbols rest h0 hroom hsize rfl hdecode
  have hlegal : n ≤ Config.totalMax := hroom.trans (Nat.le_of_lt_succ (obufCap_lt s))
  have hcount := count_toNat hlegal
  rw [List.append_assoc] at hinput
  obtain ⟨a, hexec, htree⟩ := exec_deco_artifact herr (count_ne_zero h0 hlegal) (hcount.trans_le hroom) hsize hinput
    (hcount.symm ▸ hdecode)
  refine ⟨_, hexec, herr, rfl, rfl, rfl, hcount, ?_, ?_, decoDecoded_ipos hinput⟩
  · exact (currentTree_movedTo_appended _ _ _).trans htree
  · have hlen := decodeSymbols_length hdecode
    exact outputIs_appended (u := decoRebuilt s (BitVec.ofNat 64 n) tree a) rfl
      (hlen.trans_lt (hlegal.trans_lt (by decide)))

/-! ### The round trip -/

/-- What DECO makes of the artifact of an input under a tree is the input, and it consumes the whole artifact (R175). -/
theorem exec_deco_of_artifact {u : State} {input : List Byte} {tree : HuffmanTree} (herr : u.err = false) (hne : input ≠ [])
    (hsize : tree.size ≤ 511) (hsyms : ∀ x ∈ input, x ∈ tree.symbols) (hroom : input.length ≤ u.obufCap)
    (hinput : inputIs u (artifact input (some tree))) :
    ∃ v, exec .deco u = .next v ∧ v.err = false ∧ outputIs v input ∧ v.ipos.toNat = (artifact input (some tree)).length := by
  rw [artifact_ofTree] at hinput ⊢
  generalize hbits : codeBits tree.codeOf input = bits at hinput ⊢
  -- the packed bits are the codes and fewer than 8 pad bits, which DECO leaves unread
  have hdecode := decodeSymbols_codeOf (HuffmanTree.height_le_depthMax hsize) hsyms
    (List.replicate (8 * ((bits.length + 7) / 8) - bits.length) false)
  rw [hbits, ← bitsOfBytes_bytesOfBits] at hdecode
  obtain ⟨-, hdeco⟩ := decoDecodesTheArtifact u _ herr hinput
  obtain ⟨v, hexec, hok, -, -, -, -, -, hout, hipos⟩ := hdeco input.length tree (bytesOfBits bits) input _
    (List.length_pos_iff.mpr hne) hroom hsize (List.append_assoc _ _ _).symm hdecode
  refine ⟨v, hexec, hok, hout, hipos.trans ?_⟩
  have hheader : (headerBytes (BitVec.ofNat 64 input.length)).length = 8 := rfl
  rw [List.length_append, List.length_append, hheader, bytesOfBits_length, List.length_replicate]
  omega

/-- The artifact of the empty input is a header with a count of 0 (R69, R175). -/
theorem exec_deco_of_empty_artifact {u : State} (herr : u.err = false) (hinput : inputIs u (artifact [] none)) :
    ∃ v, exec .deco u = .next v ∧ v.err = false ∧ outputIs v [] ∧ v.ipos.toNat = (artifact [] none).length :=
  ⟨_, exec_deco_zero herr (rest := []) hinput, herr, ⟨rfl, fun k hk => absurd hk (Nat.not_lt_zero k)⟩, rfl⟩

/-- Settles O45: COMP wrote the artifact of the input under a tree of the input, and no command changes `ILEN`. -/
theorem decompressUndoesCompress : Obligations.DecompressUndoesCompress := by
  intro s t u input art herr hwf hinput hexec hok hart huerr hu hroom
  obtain ⟨htree, hout⟩ := comp_writes_artifact herr hwf hinput hexec hok
  obtain rfl := outputIs_unique hart hout
  suffices h : ∃ v, exec .deco u = .next v ∧ v.err = false ∧ outputIs v input ∧
      v.ipos.toNat = (artifact input t.currentTree).length by
    obtain ⟨v, hdeco, hvok, hvout, hipos⟩ := h
    obtain ⟨-, hilen⟩ := commandsNeverChangeTheInput .deco u v hdeco
    obtain ⟨hlen, -, -⟩ := hu
    refine ⟨v, hdeco, hvok, hvout, BitVec.eq_of_toNat_eq ?_⟩
    rw [hipos, hilen (by decide), hlen]
  generalize t.currentTree = T at *
  cases htree with
  | empty hnil =>
    subst hnil
    exact exec_deco_of_empty_artifact huerr hu
  | ofTree hsize hmem =>
    have hne := (IsTreeOf.ofTree hsize hmem).ne_nil
    exact exec_deco_of_artifact huerr hne hsize (fun x => (hmem x).mpr) hroom hu

end Sys2Proof.Machine
end

section
/-! SUPPORT. How each command can stop (60_exceptions R201, 70_reset_and_hazards R228): with an error of its row of the table, or,
in an arena that holds no tree, by leaving the tree. A well-formed arena holds one, so from the invariant every command ends. -/

namespace Sys2Proof.Machine

/-! ### What a step that may stop can stop with -/

/-- An error of the list, or a walk that left the tree, where `lost` says that it can. -/
def Stop.isIn (es : List ErrorCode) (lost : Prop) : Stop → Prop
  | .raise e _ => e ∈ es
  | .stuck => lost

/-- When the step stops, it is in this way. -/
def StopsIn {α : Type} (es : List ErrorCode) (lost : Prop) (x : Except Stop α) : Prop :=
  ∀ stop, x = .error stop → stop.isIn es lost

section
variable {α β : Type} {es es' : List ErrorCode} {lost lost' : Prop} {x : Except Stop α}

theorem stopsIn_ok (a : α) : StopsIn es lost (.ok a) := fun _ h => nomatch h

theorem stopsIn_raise {e : ErrorCode} (he : e ∈ es) (s : State) : StopsIn es lost (raiseIn e s : Except Stop α) :=
  fun _ h => Except.error.inj h ▸ he

theorem stopsIn_stuck (h : lost) : StopsIn es lost (.error .stuck : Except Stop α) := fun _ hstop => Except.error.inj hstop ▸ h

theorem StopsIn.mono (h : StopsIn es lost x) (hes : es ⊆ es') (hlost : lost → lost') : StopsIn es' lost' x := fun stop hx => by
  have hin := h stop hx
  cases stop with
  | raise e n => exact hes hin
  | stuck => exact hlost hin

/-- A chain of steps, one after the other. -/
theorem StopsIn.bind {f : α → Except Stop β} (h : StopsIn es lost x) (hf : ∀ a, x = .ok a → StopsIn es lost (f a)) :
    StopsIn es lost (x >>= f) := fun stop hstop => by
  rcases Except.bind_eq_error.mp hstop with hx | ⟨a, hx, hfa⟩
  · exact h stop hx
  · exact hf a hx stop hfa

theorem stopsIn_foldlM {f : β → α → Except Stop β} (hf : ∀ b a, StopsIn es lost (f b a)) (l : List α) (b : β) :
    StopsIn es lost (l.foldlM f b) := by
  induction l generalizing b with
  | nil => exact stopsIn_ok b
  | cons a l ih =>
    rw [List.foldlM_cons]
    exact (hf b a).bind fun c _ => ih c

theorem StopsIn.ne_stuck (h : StopsIn es False x) : x ≠ .error .stuck := fun hx => h _ hx

theorem StopsIn.mem {e : ErrorCode} {n : Nat} (h : StopsIn es lost x) (hx : x = .error (.raise e n)) : e ∈ es := h _ hx

/-! ### The shared operations -/

theorem append_stopsIn (he : .ovf ∈ es) (v : Byte) (s : State) : StopsIn es lost (append v s) := fun _ h => by
  obtain ⟨-, rfl⟩ := append_error h
  exact he

theorem nextByte_stopsIn (he : .trunc ∈ es) (s : State) : StopsIn es lost (nextByte s) := fun _ h => by
  obtain ⟨-, rfl⟩ := nextByte_error h
  exact he

theorem getBit_stopsIn (he : .trunc ∈ es) (r : BitCursor) (s : State) : StopsIn es lost (getBit r s) := fun _ h => by
  obtain ⟨-, -, rfl⟩ := getBit_error h
  exact he

/-- A sub-command stops at entry or in its body (R169). -/
theorem subCommand_stopsIn {c : Command} {s : State} (hentry : ∀ e, c.entry s = some e → e ∈ es)
    (hbody : c.entry s = none → StopsIn es lost (c.body s)) : StopsIn es lost (subCommand c s) := by
  rw [subCommand]
  cases h : c.entry s with
  | some e => exact stopsIn_raise (hentry e h) s
  | none => exact hbody h

end

/-! ### Entry checks -/

theorem eq_range_of_check {p : Prop} [Decidable p] {e : ErrorCode} (h : (if p then some ErrorCode.range else none) = some e) :
    e = .range := by
  split at h
  · exact (Option.some.inj h).symm
  · cases h

theorem eq_seq_or_range_of_checks {p q : Prop} [Decidable p] [Decidable q] {e : ErrorCode}
    (h : (if p then some ErrorCode.seq else if q then some .range else none) = some e) : e = .seq ∨ e = .range := by
  split at h
  · exact .inl (Option.some.inj h).symm
  · exact .inr (eq_range_of_check h)

/-- UNPK's entry check raises `E_SEQ` only where the tree is missing or empty (R151, R192). -/
theorem unpkEntry_error {s : State} {e : ErrorCode} (h : unpkEntry s = some e) :
    e = .range ∨ (e = .seq ∧ (s.treeValid = false ∨ s.nnode = 0)) := by
  rw [unpkEntry] at h
  split at h
  · exact .inl (Option.some.inj h).symm
  · split at h
    · cases h
    · split at h
      · exact .inr ⟨(Option.some.inj h).symm, ‹_›⟩
      · cases h

/-- An entry check raises `E_SEQ` or `E_RANGE`, whichever the command's row names (R192, R193, R201). -/
theorem entry_error {i : Instr} {c : Command} (hi : commandOf i = some c) {s : State} {e : ErrorCode} (h : c.entry s = some e) :
    (e = .seq ∨ e = .range) ∧ e ∈ mayRaise i := by
  cases i <;> cases hi
  case fcnt | whdr | rhdr | tdes | comp | deco =>
    obtain rfl := eq_range_of_check h
    decide
  case build => cases h
  case genc =>
    obtain rfl : e = .seq := by
      change (if s.treeValid then none else some ErrorCode.seq) = some e at h
      split at h
      · cases h
      · exact (Option.some.inj h).symm
    decide
  case tser | pack => rcases eq_seq_or_range_of_checks h with rfl | rfl <;> decide
  case unpk => rcases unpkEntry_error h with rfl | ⟨rfl, -⟩ <;> decide

end Sys2Proof.Machine
end

section
/-! SUPPORT. The bodies of the commands and how they stop, from which every command ends in a next state (60_exceptions R201,
70_reset_and_hazards R228, 93_implementation_defined S4). -/

namespace Sys2Proof.Machine

/-! ### The walks of GENC and TSER -/

section
variable {s : State} {depth : Nat} {i : NodeIdx} {n : Node}

/-- Where a tree is read, so are the subtrees of its root. -/
theorem exists_treeAt_children (hn : s.usedNode? i = some n) (hl : n.leaf = false) (h : ∃ t, s.treeAt (depth + 1) i = some t) :
    (∃ t, s.treeAt depth n.left = some t) ∧ ∃ t, s.treeAt depth n.right = some t := by
  obtain ⟨t, ht⟩ := h
  rcases treeAt_eq_some ht with ⟨m, hm, hml, -⟩ | ⟨m, l, r, hm, -, hleft, hright, -⟩
  · obtain rfl := Option.some.inj (hn.symm.trans hm)
    simp [hl] at hml
  · obtain rfl := Option.some.inj (hn.symm.trans hm)
    exact ⟨⟨l, hleft⟩, r, hright⟩

/-- Where no entry in use is, no tree is read. -/
theorem not_exists_treeAt (hn : s.usedNode? i = none) : ¬ ∃ t, s.treeAt depth i = some t := fun ⟨t, ht⟩ => by
  obtain ⟨n, hsome, -⟩ := usedNode?_of_treeAt ht
  simp [hn] at hsome

end

/-- The walk raises no error, and does not leave a tree that can be read (R111). -/
theorem walk_stopsIn (depth : Nat) (i : NodeIdx) (p : List Bool) (s : State) :
    StopsIn [] (¬ ∃ t, s.treeAt depth i = some t) (walk depth i p s) := by
  induction depth generalizing i p s with
  | zero => exact stopsIn_stuck (by simp [State.treeAt])
  | succ depth ih =>
    rw [walk]
    cases hn : s.usedNode? i with
    | none => exact stopsIn_stuck (not_exists_treeAt hn)
    | some n =>
      cases hl : n.leaf with
      | true =>
        simp only [hl, if_true]
        exact stopsIn_ok _
      | false =>
        simp only [hl, Bool.false_eq_true, if_false]
        refine StopsIn.bind ?_ fun u hu => ?_
        · exact (ih n.left _ s).mono (List.Subset.refl _) (mt fun h => (exists_treeAt_children hn hl h).1)
        · obtain ⟨harena, hnnode, -⟩ := (frame_walk hu).tree rfl
          refine (ih n.right _ u).mono (List.Subset.refl _) (mt fun h => ?_)
          rw [treeAt_congr harena hnnode]
          exact (exists_treeAt_children hn hl h).2

theorem putBit_stopsIn {es : List ErrorCode} {lost : Prop} (he : .ovf ∈ es) (b : Bool) (c : ControlByte) (s : State) :
    StopsIn es lost (putBit b c s) := by
  rw [putBit]
  split
  · exact (append_stopsIn he 0 s).bind fun _ _ => stopsIn_ok _
  · exact stopsIn_ok _

/-- `ser` raises `E_OVF` alone, and does not leave a tree that can be read (R122). -/
theorem serialize_stopsIn (depth : Nat) (i : NodeIdx) {c : ControlByte} {s : State} (hc : controlInRoom c s) :
    StopsIn [.ovf] (¬ ∃ t, s.treeAt depth i = some t) (serialize depth i c s) := by
  induction depth generalizing i c s with
  | zero => exact stopsIn_stuck (by simp [State.treeAt])
  | succ depth ih =>
    rw [serialize]
    cases hn : s.usedNode? i with
    | none => exact stopsIn_stuck (not_exists_treeAt hn)
    | some n =>
      cases hl : n.leaf with
      | true =>
        simp only [hl, if_true]
        exact (putBit_stopsIn (by simp) _ _ _).bind fun a _ => (append_stopsIn (by simp) _ _).bind fun _ _ => stopsIn_ok _
      | false =>
        simp only [hl, Bool.false_eq_true, if_false]
        refine (putBit_stopsIn (by simp) _ _ _).bind fun ⟨c₁, s₁⟩ hput => StopsIn.bind ?_ fun ⟨c₂, s₂⟩ hleft => ?_
        · obtain ⟨hf, hc₁⟩ := frame_putBit hc hput
          obtain ⟨harena, hnnode, -⟩ := hf.tree rfl
          refine (ih n.left hc₁).mono (List.Subset.refl _) (mt fun h => ?_)
          rw [treeAt_congr harena hnnode]
          exact (exists_treeAt_children hn hl h).1
        · obtain ⟨hf₁, hc₁⟩ := frame_putBit hc hput
          obtain ⟨hf₂, hc₂⟩ := frame_serialize hc₁ hleft
          obtain ⟨harena, hnnode, -⟩ := (hf₁.trans hf₂).tree rfl
          refine (ih n.right hc₂).mono (List.Subset.refl _) (mt fun h => ?_)
          rw [treeAt_congr harena hnnode]
          exact (exists_treeAt_children hn hl h).2

/-- The arena holds entries, but no tree can be read from them. -/
def unreadable (s : State) : Prop := s.nnode ≠ 0 ∧ ¬ ∃ t, s.currentTree = some t

theorem unreadable_of_treeAt {s : State} (h0 : s.nnode ≠ 0) (h : ¬ ∃ t, s.treeAt Config.depthMax s.root = some t) :
    unreadable s := ⟨h0, fun ⟨t, ht⟩ => h ⟨t, (treeAt_of_currentTree ht).2⟩⟩

theorem gencCodes_stopsIn (s : State) : StopsIn [] (unreadable s) (gencCodes s) := by
  rw [gencCodes]
  by_cases h0 : s.nnode = 0
  · rw [if_pos h0]
    exact stopsIn_ok s
  · rw [if_neg h0]
    cases hn : s.usedNode? s.root with
    | none => exact stopsIn_stuck (unreadable_of_treeAt h0 (not_exists_treeAt hn))
    | some n =>
      dsimp only
      split
      · exact stopsIn_ok _
      · exact (walk_stopsIn _ _ _ _).mono (List.Subset.refl _) (unreadable_of_treeAt h0)

theorem gencBody_stopsIn (s : State) : StopsIn [] (unreadable s) (gencBody s) := by
  have hsame : (clearCodeBook s).currentTree = s.currentTree := currentTree_congr ⟨rfl, rfl, rfl, rfl⟩
  refine ((gencCodes_stopsIn (clearCodeBook s)).mono (List.Subset.refl _) ?_).bind fun _ _ => stopsIn_ok _
  rintro ⟨h0, hnone⟩
  exact ⟨h0, hsame ▸ hnone⟩

theorem tserBody_stopsIn (s : State) : StopsIn [.ovf] (unreadable s) (tserBody s) := by
  rw [tserBody]
  by_cases h0 : s.nnode = 0
  · rw [if_pos h0]
    exact stopsIn_ok s
  · rw [if_neg h0]
    have hser := serialize_stopsIn Config.depthMax s.root (c := noControlByte) (s := s) fun hnb => absurd rfl hnb
    exact (hser.mono (List.Subset.refl _) (unreadable_of_treeAt h0)).bind fun _ _ => stopsIn_ok _

/-! ### The loops of WHDR, PACK and RHDR -/

theorem whdrBody_stopsIn (s : State) : StopsIn [.ovf] False (whdrBody s) :=
  stopsIn_foldlM (fun _ _ => append_stopsIn (by simp) _ _) _ _

theorem packBits_stopsIn (bits : List Bool) (p : Packer) (s : State) : StopsIn [.noCode, .ovf] False (packBits bits p s) := by
  induction bits generalizing p s with
  | nil => exact stopsIn_ok _
  | cons b bits ih =>
    refine StopsIn.bind ?_ fun q _ => ih q.1 q.2
    rw [packBit]
    split
    · exact (append_stopsIn (by simp) _ _).bind fun _ _ => stopsIn_ok _
    · exact stopsIn_ok _

theorem packBody_stopsIn (s : State) : StopsIn [.noCode, .ovf] False (packBody s) := by
  refine StopsIn.bind (stopsIn_foldlM (fun q k => ?_) _ _) fun q _ => ?_
  · rw [packSymbol]
    dsimp only
    split
    · exact packBits_stopsIn _ _ _
    · exact stopsIn_raise (by simp) _
  · dsimp only [packEnd]
    split
    · exact stopsIn_ok _
    · exact append_stopsIn (by simp) _ _

theorem rhdrBody_stopsIn (s : State) : StopsIn [.trunc, .hdr] False (rhdrBody s) := by
  refine StopsIn.bind (stopsIn_foldlM (fun q k => ?_) _ _) fun q _ => ?_
  · exact (nextByte_stopsIn (by simp) _).bind fun _ _ => stopsIn_ok _
  · dsimp only
    split
    · exact stopsIn_raise (by simp) _
    · exact stopsIn_ok _

/-! ### TDES -/

/-- Nested calls of `des` take an entry each, so they meet the node limit before the bound on their depth (R30, R129, R228). -/
theorem deserialize_stopsIn {depth : Nat} {r : BitCursor} {s : State} (hn : s.nnode.toNat ≤ 511)
    (hdepth : 511 < depth + s.nnode.toNat) : StopsIn [.trunc, .treeOvf] False (deserialize depth r s) := by
  induction depth generalizing r s with
  | zero => omega
  | succ depth ih =>
    rw [deserialize]
    split
    · exact stopsIn_raise (by simp) s
    · rename_i hmax
      have htaken := entryTaken_of_room (s := s) (Nat.lt_of_le_of_ne hn hmax)
      refine (getBit_stopsIn (by simp) _ _).bind fun ⟨b, r₁, s₁⟩ hbit => ?_
      have htaken₁ : EntryTaken s s₁ := htaken.frame (frame_getBit rfl hbit)
      have hroom := htaken₁.room
      have hnnode := htaken₁.nnode
      dsimp only
      split
      · exact (nextByte_stopsIn (by simp) _).bind fun _ _ => stopsIn_ok _
      · refine (ih (by omega) (by omega)).bind fun ⟨l, r₂, s₂⟩ hl => ?_
        obtain ⟨-, hleft⟩ := deserialize_appends hl (by omega)
        have hgrows := hleft.grows
        exact (ih hleft.bound (by omega)).bind fun _ _ => stopsIn_ok _

theorem tdesBody_stopsIn (s : State) : StopsIn [.trunc, .treeOvf] False (tdesBody s) :=
  (deserialize_stopsIn (s := { clearValid s with nnode := 0 }) (Nat.zero_le 511) (show 511 < 512 + 0 by decide)).bind
    fun _ _ => stopsIn_ok _

/-- TDES that ends well leaves at least one entry (R128). -/
theorem tdesBody_nnode_ne_zero {s t : State} (h : tdesBody s = .ok t) : t.nnode ≠ 0 := by
  obtain ⟨⟨i, r, u⟩, hu, h⟩ := Except.bind_eq_ok.mp h
  obtain rfl := Except.ok.inj h
  obtain ⟨-, happended⟩ := deserialize_appends hu (Nat.zero_le _)
  exact fun h0 => absurd happended.grows (by simp [show u.nnode = 0 from h0])

/-! ### UNPK -/

/-- How many bits the reader can still take: those open in its byte and those of the bytes before the end (R45, R152). -/
def bitsLeft (r : BitCursor) (s : State) : Nat := 8 * (s.ilen.toNat - s.ipos.toNat) + (8 - r.nb) % 8

/-- A bit taken is one bit less (R128). -/
theorem bitsLeft_getBit {r r' : BitCursor} {s t : State} {b : Bool} (hr : r.nb < 8) (h : getBit r s = .ok (b, r', t)) :
    r'.nb < 8 ∧ bitsLeft r' t + 1 = bitsLeft r s := by
  rcases getBit_ok h with ⟨hopen, rfl, rfl⟩ | ⟨hfresh, hone, hlt, n, rfl⟩
  · simp only [bitsLeft]
    omega
  · have hilen := s.ilen.isLt
    have hipos : (s.ipos + 1).toNat = s.ipos.toNat + 1 := by
      rw [BitVec.toNat_add]
      exact Nat.mod_eq_of_lt (Nat.lt_of_le_of_lt hlt hilen)
    simp only [bitsLeft, hfresh, hone, hipos]
    omega

/-- The walk stands at a tree, can go back to one at the root, and has more turns than bits before it (R152, R228). -/
structure WalkReady (turns : Nat) (i : NodeIdx) (r : BitCursor) (s : State) : Prop where
  nb_lt : r.nb < 8
  turns : bitsLeft r s < turns
  here : ∃ depth t, s.treeAt depth i = some t
  root : ∃ depth t, s.treeAt depth s.root = some t

section
variable {turns : Nat} {i : NodeIdx} {r r' : BitCursor} {s t : State}

/-- A turn takes one bit. -/
theorem WalkReady.getBit {b : Bool} (h : WalkReady (turns + 1) i r s) (hbit : getBit r s = .ok (b, r', t)) :
    WalkReady turns i r' t := by
  obtain ⟨hnb, hbits⟩ := bitsLeft_getBit h.nb_lt hbit
  obtain ⟨harena, hnnode, hroot, -⟩ := (frame_getBit (w := unpkWrites) rfl hbit).tree rfl
  have hturns := h.turns
  refine ⟨hnb, by omega, ?_, ?_⟩
  · simpa only [treeAt_congr harena hnnode] using h.here
  · simpa only [treeAt_congr harena hnnode, hroot] using h.root

/-- Appending reads nothing. -/
theorem WalkReady.append {v : Byte} (h : WalkReady turns i r s) (happend : append v s = .ok t) : WalkReady turns i r t := by
  obtain ⟨-, rfl⟩ := append_ok happend
  refine ⟨h.nb_lt, h.turns, ?_, ?_⟩
  · simpa only [treeAt_congr (s := s) (t := appended s [v]) rfl rfl] using h.here
  · simpa only [treeAt_congr (s := s) (t := appended s [v]) rfl rfl, appended_root] using h.root

theorem WalkReady.toRoot (h : WalkReady turns i r s) : WalkReady turns s.root r s := { h with here := h.root }

/-- One level down. -/
theorem WalkReady.toChild {n : Node} (h : WalkReady turns i r s) (hn : s.usedNode? i = some n) (hl : n.leaf = false) (b : Bool) :
    WalkReady turns (childOf n b) r s := by
  obtain ⟨depth, tree, htree⟩ := h.here
  obtain ⟨m, hm, ⟨hml, -⟩ | ⟨-, x, y, rfl⟩⟩ := usedNode?_of_treeAt htree
  · obtain rfl := Option.some.inj (hn.symm.trans hm)
    simp [hl] at hml
  · obtain ⟨m, depth', hm, -, hchild⟩ := treeAt_childOf htree b
    obtain rfl := Option.some.inj (hn.symm.trans hm)
    exact { h with here := ⟨depth', _, hchild⟩ }

theorem not_walkReady (hn : s.usedNode? i = none) : ¬ WalkReady turns i r s := fun ⟨_, _, ⟨_, htree⟩, _⟩ =>
  not_exists_treeAt hn htree

end

/-- UNPK's loop stops with an error of its row, and does not leave the tree while it has more turns than bits (R152, R228). -/
theorem unpkLoop_stopsIn (turns left : Nat) (i : NodeIdx) (r : BitCursor) (s : State) :
    StopsIn [.trunc, .badCode, .ovf] (¬ WalkReady turns i r s) (unpkLoop turns left i r s) := by
  induction turns generalizing left i r s with
  | zero => exact stopsIn_stuck fun h => Nat.not_lt_zero _ h.turns
  | succ turns ih =>
    cases left with
    | zero => exact stopsIn_ok s
    | succ left =>
      rw [unpkLoop]
      refine (getBit_stopsIn (by simp) r s).bind fun ⟨b, r', s'⟩ hbit => ?_
      refine StopsIn.mono (lost := ¬ WalkReady turns i r' s') ?_ (List.Subset.refl _) (mt fun h => h.getBit hbit)
      have happended (v : Byte) (j : NodeIdx) (hready : WalkReady turns i r' s' → WalkReady turns j r' s') :
          StopsIn [.trunc, .badCode, .ovf] (¬ WalkReady turns i r' s')
            (append v s' >>= fun s'' => unpkLoop turns left j r' s'') :=
        (append_stopsIn (by simp) v s').bind fun s'' happend =>
          (ih left j r' s'').mono (List.Subset.refl _) (mt fun h => (hready h).append happend)
      dsimp only
      cases hn : s'.usedNode? i with
      | none => exact stopsIn_stuck (not_walkReady hn)
      | some n =>
        dsimp only
        split
        · split
          · exact stopsIn_raise (by simp) s'
          · exact happended n.sym i id
        · rename_i hl
          have hchild (h : WalkReady turns i r' s') : WalkReady turns (childOf n b) r' s' := h.toChild hn (Bool.eq_false_iff.mpr hl) b
          cases hm : s'.usedNode? (childOf n b) with
          | none => exact stopsIn_stuck (mt hchild (not_walkReady hm))
          | some m =>
            dsimp only
            split
            · exact happended m.sym s'.root WalkReady.toRoot
            · exact (ih _ _ _ _).mono (List.Subset.refl _) (mt hchild)

theorem unpkBody_stopsIn (s : State) :
    StopsIn [.trunc, .badCode, .ovf] (s.total ≠ 0 ∧ ¬ ∃ t, s.treeAt Config.depthMax s.root = some t) (unpkBody s) := by
  rw [unpkBody]
  split
  · exact stopsIn_ok s
  · rename_i htotal
    refine (unpkLoop_stopsIn _ _ _ _ s).mono (List.Subset.refl _) fun h => ⟨htotal, fun ⟨t, ht⟩ => h ?_⟩
    exact ⟨by decide, Nat.lt_succ_self _, ⟨_, t, ht⟩, _, t, ht⟩

/-! ### Commands -/

/-- The tree is said to be valid, but the arena's entries hold none: what R18 excludes. -/
def treeLost (s : State) : Prop := s.treeValid = true ∧ unreadable s

theorem DerivedWf.not_treeLost {s : State} (h : DerivedWf s) : ¬ treeLost s := fun ⟨hvalid, h0, hnone⟩ => by
  obtain ⟨t, -, -, -, ht⟩ := arenaWf_spans (h.arena hvalid) h0
  exact hnone ⟨t, ht⟩

theorem treeValid_of_tserEntry {s : State} (h : tserEntry s = none) : s.treeValid = true := by
  rw [tserEntry] at h
  split at h
  · cases h
  · exact Bool.eq_true_of_not_eq_false ‹_›

/-- Past its entry check UNPK has nothing to decode, or a tree (R151, R192). -/
theorem tree_of_unpkEntry {s : State} (h : unpkEntry s = none) : s.total = 0 ∨ s.treeValid = true ∧ s.nnode ≠ 0 := by
  rw [unpkEntry] at h
  split at h
  · cases h
  · split at h
    · exact .inl ‹_›
    · split at h
      · cases h
      · rename_i hthere
        obtain ⟨hvalid, h0⟩ := not_or.mp hthere
        exact .inr ⟨Bool.eq_true_of_not_eq_false hvalid, h0⟩

/-- A primitive command stops with an error of its row, or in an arena that lost its tree (R201). -/
theorem primitive_stopsIn {i : Instr} {c : Command} (hi : commandOf i = some c) (hcomp : isComposite i = false) (s : State) :
    StopsIn (mayRaise i) (treeLost s) (subCommand c s) := by
  refine subCommand_stopsIn (fun e he => (entry_error hi he).2) fun hentry => ?_
  cases i <;> cases hi
  case comp | deco => cases hcomp
  case fcnt | build => exact stopsIn_ok _
  case genc => exact (gencBody_stopsIn s).mono (by decide) fun h => ⟨gencEntry_eq_none.mp hentry, h⟩
  case whdr => exact (whdrBody_stopsIn s).mono (by decide) False.elim
  case tser => exact (tserBody_stopsIn s).mono (by decide) fun h => ⟨treeValid_of_tserEntry hentry, h⟩
  case pack => exact (packBody_stopsIn s).mono (by decide) False.elim
  case rhdr => exact (rhdrBody_stopsIn s).mono (by decide) False.elim
  case tdes => exact (tdesBody_stopsIn s).mono (by decide) False.elim
  case unpk =>
    refine (unpkBody_stopsIn s).mono (by decide) fun ⟨htotal, hnone⟩ => ?_
    obtain ⟨hvalid, h0⟩ := (tree_of_unpkEntry hentry).resolve_left htotal
    exact ⟨hvalid, unreadable_of_treeAt h0 hnone⟩

/-- Primitives in a row, from a state whose tree and code book are well formed, stop with an error of their rows. -/
theorem subCommands_stopsIn {es : List ErrorCode} {is : List Instr}
    (his : ∀ i ∈ is, isComposite i = false ∧ i ≠ .clr ∧ mayRaise i ⊆ es) {s : State} (hs : DerivedWf s) :
    StopsIn es False (subCommands is s) := by
  induction is generalizing s with
  | nil => exact stopsIn_ok s
  | cons i is ih =>
    obtain ⟨hcomp, hclr, hes⟩ := his i List.mem_cons_self
    obtain ⟨c, hi, hc⟩ := commandOf_primitive hcomp hclr
    rw [subCommands_cons hi]
    refine ((primitive_stopsIn hi hcomp s).mono hes hs.not_treeLost).bind fun u hu => ?_
    exact ih (fun j hj => his j (List.mem_cons_of_mem i hj)) (derivedWf_treeProperty.stepKeeps.subCommand hc hs hu)

/-- COMP starts with no valid tree, so BUILD's is well formed, and no later command leaves it. The errors are those of its parts;
which of them a written input leaves is said elsewhere (R169, R171). -/
theorem compBody_stopsIn (s : State) : StopsIn [.seq, .range, .noCode, .ovf] False (compBody s) := by
  rw [compBody_eq]
  exact subCommands_stopsIn (by decide) (.of_invalid rfl rfl)

/-- After TDES there is a tree, so UNPK inside DECO does not miss it (R174, R201). -/
theorem decoBody_stopsIn (s : State) : StopsIn (mayRaise .deco) False (decoBody s) := by
  have hstart : DerivedWf (decoPreamble s) := .of_invalid rfl rfl
  have hkeeps := derivedWf_treeProperty.stepKeeps.toCommandKeeps
  refine ((primitive_stopsIn (i := .rhdr) rfl rfl _).mono (by decide) hstart.not_treeLost).bind fun s₁ h₁ => ?_
  have hs₁ := hkeeps.subCommand (by simp [primitives]) hstart h₁
  split
  · exact stopsIn_ok s₁
  · refine ((primitive_stopsIn (i := .tdes) rfl rfl _).mono (by decide) hs₁.not_treeLost).bind fun s₂ h₂ => ?_
    have hs₂ := hkeeps.subCommand (by simp [primitives]) hs₁ h₂
    have htdes : tdesBody s₁ = .ok s₂ := (subCommand_ok h₂).2
    have hvalid := tdesBody_treeValid htdes
    have h0 := tdesBody_nnode_ne_zero htdes
    refine subCommand_stopsIn (c := unpkCommand) (fun e he => ?_) fun _ => ?_
    · rcases unpkEntry_error he with rfl | ⟨-, hmissing⟩
      · decide
      · exact absurd hmissing (not_or.mpr ⟨by simp [hvalid], h0⟩)
    · exact (unpkBody_stopsIn s₂).mono (by decide) fun ⟨_, hnone⟩ =>
        hs₂.not_treeLost ⟨hvalid, unreadable_of_treeAt h0 hnone⟩

/-! ### Termination -/

/-- A command whose walks do not leave the tree answers a next state. -/
theorem runCommand_terminates {c : Command} {s : State} (h : subCommand c s ≠ .error .stuck) : ∃ t, runCommand c s = .next t := by
  cases hrun : runCommand c s with
  | next t => exact ⟨t, rfl⟩
  | fault f =>
    obtain ⟨-, hentry, hbody, -⟩ := runCommand_fault hrun
    exact absurd ((subCommand_of_entry hentry).trans hbody) h
  | refused r => exact absurd hrun runCommand_refused

/-- Where the arena is well formed whenever its tree is valid, no walk leaves the tree (R18, R228). -/
theorem subCommand_ne_stuck {i : Instr} {c : Command} (hi : commandOf i = some c) {s : State} (hs : DerivedWf s) :
    subCommand c s ≠ .error .stuck := by
  cases i
  case comp =>
    cases hi
    refine (subCommand_stopsIn (fun e he => ?_) fun _ => compBody_stopsIn s).ne_stuck
    obtain rfl := eq_range_of_check he
    decide
  case deco =>
    cases hi
    exact (subCommand_stopsIn (fun e he => (entry_error rfl he).2) fun _ => decoBody_stopsIn s).ne_stuck
  case clr => cases hi
  all_goals exact ((primitive_stopsIn hi rfl s).mono (List.Subset.refl _) hs.not_treeLost).ne_stuck

theorem exec_terminates {s : State} (hs : DerivedWf s) (i : Instr) : ∃ t, exec i s = .next t := by
  cases hi : commandOf i with
  | none => exact ⟨_, commandOf_eq_none hi ▸ exec_clr s⟩
  | some c =>
    rw [exec_of_commandOf hi]
    exact runCommand_terminates (subCommand_ne_stuck hi hs)

/-- A byte that decodes to no command is rejected (R76, R190). -/
theorem issue_of_decodeOpcode_error {v : Byte} {err : DecodeError} (h : decodeOpcode v = .error err) (s : State) :
    issue v s = rejectOpcode s := by
  simp only [issue, decode, h]

/-- A write to `CMD` runs a command or is rejected, and either ends (R22, R190). -/
theorem issue_terminates {s : State} (hs : DerivedWf s) (v : Byte) : ∃ t, issue v s = .next t := by
  cases hd : decodeOpcode v with
  | ok i =>
    rw [issue_of_decode (rest := []) (decode_cons_eq_ok.mpr ⟨hd, rfl⟩)]
    exact exec_terminates hs i
  | error err =>
    rw [issue_of_decodeOpcode_error hd, rejectOpcode]
    split
    · exact ⟨s, rfl⟩
    · exact ⟨setError .cmd s, rfl⟩

/-- A read that comes next reads and does nothing else (R27). -/
theorem step_read_next {s : State} {l : Loc} {rest : List HostEvent} (h : s.host = .read l :: rest) (hl : locExists l s = true) :
    step s = .next (hostReadLoc l { s with host := rest }) :=
  (step_perform h).trans (if_pos ((locExists_take l s rest).trans hl))

theorem Inv.derivedWf {s : State} (h : Inv s) : DerivedWf s := by
  obtain ⟨-, -, -, hderived⟩ := (inv_iff s).mp h
  exact hderived

/-- Settles O55: the invariant has a well-formed arena for every valid tree; every other transaction answers a next state where the
location exists. -/
theorem everyCommandTerminates : Obligations.EveryCommandTerminates := by
  refine ⟨fun i s hs => exec_terminates hs.derivedWf i, fun s hs hloc => ?_⟩
  cases hhost : s.host with
  | nil => exact ⟨s, step_idle hhost⟩
  | cons e rest =>
    rw [hhost, List.head?_cons] at hloc
    cases e with
    | write l v =>
      by_cases hcmd : l = .cmd
      · subst hcmd
        rw [step_write_cmd hhost]
        exact issue_terminates (derivedWf_treeProperty.stepKeeps.take s rest hs.derivedWf) _
      · exact ⟨_, step_write_next hhost hcmd (hloc _ rfl l v (.inl rfl))⟩
    | read l => exact ⟨_, step_read_next hhost (hloc _ rfl l 0 (.inr rfl))⟩
    | hardwareReset => exact ⟨_, step_perform hhost⟩

end Sys2Proof.Machine
end

section
/-! SUPPORT. How much output a command appends, in every state, whatever `OBUF` holds (20_memory R44, 60_exceptions R191): when it is
more than there is room for, the command raises `E_OVF`, and that is the one error it can raise there. -/

namespace Sys2Proof.Machine

/-! ### Output grown by a number of bytes -/

/-- `OLEN` grew by `n`, within the capacity, and nothing but the output changed (R44). -/
structure Longer (s : State) (n : Nat) (t : State) : Prop where
  state : ∃ m o, t = { s with obuf := m, olen := o }
  olen : t.olen.toNat = s.olen.toNat + n
  fits : outputFits s n

/-- From state `s` the step grows the output by `n` bytes, or raises `E_OVF` (R191). -/
def Lengthens (s : State) (n : Nat) (x : Except Stop State) : Prop := Answers x (Longer s n) (· = .ovf)

section
variable {s t u : State} {m n : Nat}

theorem Longer.refl (h : outputFits s 0) : Longer s 0 s := ⟨⟨s.obuf, s.olen, rfl⟩, rfl, h⟩

theorem Longer.trans (h : Longer s m t) (h' : Longer t n u) : Longer s (m + n) u := by
  obtain ⟨⟨b, o, rfl⟩, holen, -⟩ := h
  obtain ⟨⟨b', o', rfl⟩, holen', hfits⟩ := h'
  rw [outputFits, holen, Nat.add_assoc] at hfits
  rw [holen, Nat.add_assoc] at holen'
  exact ⟨⟨b', o', rfl⟩, holen', hfits⟩

/-- A byte rewritten leaves `OLEN` (R43). -/
theorem Longer.memWrite (h : Longer s n t) (a : Nat) (v : Byte) : Longer s n (memWrite a v t) := by
  obtain ⟨⟨b, o, rfl⟩, holen, hfits⟩ := h
  exact ⟨⟨_, o, rfl⟩, holen, hfits⟩

theorem Longer.hasRoom (h : Longer s n t) : outputFits t 0 := by
  obtain ⟨⟨b, o, rfl⟩, holen, hfits⟩ := h
  exact (Nat.le_of_eq holen).trans hfits

theorem Longer.sameTree (h : Longer s n t) : sameTree s t := by
  obtain ⟨⟨b, o, rfl⟩, -, -⟩ := h
  exact ⟨rfl, rfl, rfl, rfl⟩

theorem longer_appended {bs : List Byte} (h : outputFits s bs.length) : Longer s bs.length (appended s bs) :=
  ⟨⟨_, _, rfl⟩, appended_olen_toNat h.lt, h⟩

theorem Appends.lengthens {bs : List Byte} {x : Except Stop State} (h : Appends s bs x) : Lengthens s bs.length x :=
  h.mono (fun _ ⟨ht, hfits⟩ => ht ▸ longer_appended hfits) fun _ => id

/-- Two steps, one after the other. -/
theorem Lengthens.bind {x : Except Stop State} {f : State → Except Stop State} (h : Lengthens s m x)
    (hf : ∀ t, Longer s m t → Lengthens t n (f t)) : Lengthens s (m + n) (x >>= f) :=
  Answers.bind h fun t _ ht => (hf t ht).mono (fun _ => ht.trans) fun _ => id

/-- Output that does not fit raises `E_OVF` (R191). -/
theorem Lengthens.ovf {x : Except Stop State} (h : Lengthens s n x) (hfull : ¬ outputFits s n) :
    ∃ k, x = .error (.raise .ovf k) := by
  rcases h with ⟨t, -, ht⟩ | ⟨e, k, hx, rfl⟩
  · exact absurd ht.fits hfull
  · exact ⟨k, hx⟩

/-! ### TSER -/

/-- TSER issued at `s` has put out so many control bits and symbol bytes (R65, R122). -/
def emitted (s : State) (bits bytes : Nat) (a : ControlByte × State) : Prop :=
  a.1.nb = bits % 8 ∧ Longer s ((bits + 7) / 8 + bytes) a.2

/-- A control bit opens a control byte exactly when the last one is full (R122). -/
theorem putBit_emits {bits bytes : Nat} {c : ControlByte} (b : Bool) (h : emitted s bits bytes (c, u)) :
    Answers (putBit b c u) (emitted s (bits + 1) bytes) (· = .ovf) := by
  obtain ⟨hnb, hlen⟩ := h
  dsimp only at hnb hlen
  rw [putBit]
  by_cases hfull : c.nb = 0
  · rw [if_pos hfull]
    refine Answers.bind (append_appends 0 u).lengthens fun v _ hv => answers_ok ⟨?_, ?_⟩
    · show (0 + 1) % 8 = (bits + 1) % 8
      omega
    · rw [show (bits + 1 + 7) / 8 + bytes = (bits + 7) / 8 + bytes + 1 by omega]
      exact (hlen.trans hv).memWrite _ _
  · rw [if_neg hfull]
    refine answers_ok ⟨?_, ?_⟩
    · show (c.nb + 1) % 8 = (bits + 1) % 8
      omega
    · rw [show (bits + 1 + 7) / 8 = (bits + 7) / 8 by omega]
      exact hlen.memWrite _ _

/-- `ser` puts out a control bit for each node and a byte for each leaf (R63, R122). -/
theorem serialize_emits {depth : Nat} {i : NodeIdx} {t : HuffmanTree} (ht : s.treeAt depth i = some t) {bits bytes : Nat}
    {c : ControlByte} (h : emitted s bits bytes (c, u)) :
    Answers (serialize depth i c u) (emitted s (bits + t.size) (bytes + t.symbols.length)) (· = .ovf) := by
  induction depth generalizing i t bits bytes c u with
  | zero => simp [State.treeAt] at ht
  | succ depth ih =>
    obtain ⟨harena, hnnode, -⟩ := h.2.sameTree
    have hused : u.usedNode? i = s.usedNode? i := usedNode?_congr harena hnnode i
    rcases treeAt_eq_some ht with ⟨n, hn, hl, rfl⟩ | ⟨n, l, r, hn, hl, hleft, hright, rfl⟩
    · simp only [serialize, hused, hn, hl, if_true]
      refine (putBit_emits true h).bind fun ⟨c₁, v⟩ _ ⟨hnb, hv⟩ => ?_
      refine Answers.bind (append_appends n.sym v).lengthens fun w _ hw => answers_ok ⟨hnb, ?_⟩
      exact hv.trans hw
    · simp only [serialize, hused, hn, hl, Bool.false_eq_true, if_false]
      refine (putBit_emits false h).bind fun ⟨c₁, v⟩ _ hv => (ih hleft hv).bind fun ⟨c₂, w⟩ _ hw => ?_
      simpa only [HuffmanTree.size, HuffmanTree.symbols, List.length_append, Nat.add_assoc] using ih hright hw

/-- TSER's body puts out as many bytes as the tree region has (R69, R74, R122). -/
theorem tserBody_lengthens (hread : s.nnode = 0 ∨ ∃ t, s.currentTree = some t) (h : outputFits s 0) :
    Lengthens s (treeRegion s.currentTree).length (tserBody s) := by
  rw [tserBody]
  by_cases h0 : s.nnode = 0
  · rw [State.currentTree, if_pos h0, if_pos h0]
    exact answers_ok (Longer.refl h)
  · obtain ⟨t, ht⟩ := hread.resolve_left h0
    have hstart : Placed 0 0 { out := [], nb := 0, cpos := 0 } := ⟨rfl, rfl⟩
    have hlength : (layout (items t)).length = (0 + t.size + 7) / 8 + (0 + t.symbols.length) := (hstart.tree t).length
    rw [if_neg h0, ht, treeRegion, hlength]
    have hser := serialize_emits (treeAt_of_currentTree ht).2 (c := noControlByte) (bits := 0) (bytes := 0) ⟨rfl, Longer.refl h⟩
    exact hser.bind fun a _ ⟨_, ha⟩ => answers_ok ha

/-! ### COMP -/

/-- The three commands that write output, on a state that FCNT, BUILD and GENC could have left: they grow it by the artifact, or
one of them raises `E_OVF` (R60, R171). -/
theorem outputCommands_lengthen {input : List Byte} (hinput : inputIs u input) (htotal : u.total = BitVec.ofNat 64 input.length)
    (hvalid : u.treeValid = true) (hcb : u.cbValid = true)
    (hbook : u.codeBook = codeBookOf u.currentTree) (htree : IsTreeOf input u.currentTree)
    (hread : u.nnode = 0 ∨ ∃ tree, u.currentTree = some tree) (hroom : outputFits u 0) :
    Lengthens u (artifact input u.currentTree).length
      ((subCommand whdrCommand u >>= subCommand tserCommand) >>= subCommand packCommand) := by
  have hlegal : u.total.toNat ≤ Config.totalMax := by
    rw [htotal, BitVec.toNat_ofNat]
    exact (Nat.mod_le _ _).trans hinput.length_le_totalMax
  have hcodes : u.codeAt = fun x => (codeBookOf u.currentTree)[x.toNat]'(x.isLt) := funext fun x => by
    simp only [State.codeAt, hbook]
  have hpresent : ∀ x ∈ input, (u.codeAt x).present = true := fun x hx => by rw [hcodes]; exact htree.present hx
  rw [artifact_length, ← hcodes]
  refine Lengthens.bind (Lengthens.bind (m := 8) ?_ fun v hv => ?_) fun v hv => ?_
  · rw [subCommand_of_entry (c := whdrCommand) (whdrEntry_eq_none hlegal hroom)]
    exact (whdrBody_appends hroom).lengthens
  · have hsame : v.currentTree = u.currentTree := currentTree_congr hv.sameTree
    obtain ⟨-, hnnode, -, hvalid'⟩ := hv.sameTree
    have hentry : tserEntry v = none := (if_neg (by simp [hvalid', hvalid])).trans (if_neg (Nat.not_lt.mpr hv.hasRoom))
    rw [subCommand_of_entry (c := tserCommand) hentry, ← hsame]
    exact tserBody_lengthens (by rwa [hnnode, hsame]) hv.hasRoom
  · have hroom' := hv.hasRoom
    obtain ⟨⟨b, o, rfl⟩, -, -⟩ := hv
    have hentry : packEntry { u with obuf := b, olen := o } = none := packEntry_eq_none hcb hinput.ilen_le hroom'
    rw [subCommand_of_entry (c := packCommand) hentry, ← bytesOfBits_length]
    exact (packBody_appends (s := { u with obuf := b, olen := o }) hinput hpresent hroom').lengthens

/-- COMP's body, on a written input, makes the artifact from the empty output, or raises `E_OVF` (R60, R171). -/
theorem compBody_lengthens {input : List Byte} (herr : s.err = false) (hinput : inputIs s input) :
    Lengthens (compCoded s input) (artifact input (compCoded s input).currentTree).length (compBody s) := by
  have htree := isTreeOf_compCoded hinput
  have hread : (compCoded s input).nnode = 0 ∨ ∃ tree, (compCoded s input).currentTree = some tree := by
    rw [compCoded, coded_nnode, coded_currentTree]
    exact buildTree_readable _
  have hbook : (compCoded s input).codeBook = codeBookOf (compCoded s input).currentTree := coded_codeBook _
  rw [compBody_coded herr hinput]
  obtain ⟨hlen, hcap, hbytes⟩ := hinput
  obtain ⟨a, n, r, b, hcoded⟩ := compCoded_eq herr input
  generalize compCoded s input = u at *
  generalize symbolCounts input = f at hcoded
  subst hcoded
  refine outputCommands_lengthen ⟨hlen, hcap, hbytes⟩ ?_ rfl rfl hbook htree hread (Nat.zero_le _)
  rw [← hlen, BitVec.ofNat_toNat, BitVec.setWidth_eq]

end

end Sys2Proof.Machine
end

section
/-! SUPPORT. Each command raises the errors of its row alone (60_exceptions R201), and output that does not fit raises `E_OVF`
(R191), in PACK and UNPK also where the room ends before the input does (R200). -/

namespace Sys2Proof.Machine

/-! ### The errors of a row -/

/-- On a written input COMP's parts find a tree, a code book and a code for every symbol, so only room can be missing (R171). -/
theorem compBody_stopsIn_ovf {s : State} {input : List Byte} (herr : s.err = false) (hinput : inputIs s input) :
    StopsIn [.ovf] False (compBody s) := fun _ hstop => by
  rcases compBody_lengthens herr hinput with ⟨t, ht, -⟩ | ⟨e, n, hraise, rfl⟩
  · exact nomatch hstop.symm.trans ht
  · exact Except.error.inj (hraise.symm.trans hstop) ▸ List.mem_singleton_self _

/-- A command stops with an error of its row, or in an arena that lost its tree (R201). -/
theorem command_stopsIn {i : Instr} {c : Command} (hi : commandOf i = some c) {s : State} (herr : s.err = false)
    (hwritten : i = .comp → s.ilen.toNat ≤ s.ibufCap → ∃ input, inputIs s input) :
    StopsIn (mayRaise i) (treeLost s) (subCommand c s) := by
  cases i
  case comp =>
    cases hi
    refine subCommand_stopsIn (fun e he => (entry_error rfl he).2) fun hentry => ?_
    have hcap : s.ilen.toNat ≤ s.ibufCap := by
      by_contra hlong
      have hrange : compEntry s = some .range := if_pos (Nat.not_le.mp hlong)
      exact nomatch hrange.symm.trans hentry
    obtain ⟨input, hinput⟩ := hwritten rfl hcap
    exact (compBody_stopsIn_ovf herr hinput).mono (by decide) False.elim
  case deco =>
    cases hi
    exact subCommand_stopsIn (fun e he => (entry_error rfl he).2) fun _ =>
      (decoBody_stopsIn s).mono (List.Subset.refl _) False.elim
  case clr => cases hi
  all_goals exact primitive_stopsIn hi rfl s

/-- Settles O49: what a command reports is what its checks or its body raised, and CLR reports nothing. -/
theorem eachCommandRaisesOnlyItsErrors : Obligations.EachCommandRaisesOnlyItsErrors := by
  intro i s t herr hwritten h ht
  cases hi : commandOf i with
  | none =>
    obtain rfl := commandOf_eq_none hi
    obtain rfl := Host.Outcome.next.inj h
    cases ht
  | some c =>
    obtain ⟨e, n, hraise, hreports⟩ := subCommand_of_error hi herr h ht
    exact ⟨e, (command_stopsIn hi herr hwritten).mem hraise, hreports⟩

/-! ### PACK where the room ends first -/

/-- A turn of the packing loop that stops ends the loop (R200). -/
theorem packLoop_of_error {s : State} {m n : Nat} {e : Stop} (h : packLoop s m = .error e) (hmn : m ≤ n) :
    packLoop s n = .error e := by
  induction n, hmn using Nat.le_induction with
  | base => exact h
  | succ n _ ih => rw [packLoop_succ, ih, Except.error_bind]

theorem packBody_of_error {s : State} {m : Nat} {e : Stop} (h : packLoop s m = .error e) (hm : m ≤ s.ilen.toNat) :
    packBody s = .error e := by
  rw [packBody_eq, packLoop_of_error h hm, Except.error_bind]

/-- The symbols before are packed as far as there is room for the bytes they complete, whatever follows them (R200). -/
theorem packBody_full {s : State} {before after : List Byte} (hinput : inputIs s (before ++ after))
    (holen : s.olen.toNat ≤ s.obufCap)
    (hcodes : ∀ x ∈ before, (s.codeAt x).present = true) (hfull : ¬ outputFits s ((codeBits s.codeAt before).length / 8)) :
    ∃ k, packBody s = .error (.raise .ovf k) := by
  obtain ⟨hlen, -, hbytes⟩ := hinput
  rcases packLoop_answers hbytes.left hcodes holen with ⟨_, -, -, hfits⟩ | ⟨e, k, hstop, rfl⟩
  · exact absurd hfits hfull
  · refine ⟨k, packBody_of_error hstop ?_⟩
    rw [hlen, List.length_append]
    exact Nat.le_add_right _ _

/-! ### UNPK where the room ends first -/

/-- Bits that decode to `n` symbols decode to fewer, and go on with another one. -/
theorem decodeSymbols_of_lt {t : HuffmanTree} {m n : Nat} {bits rest : List Bool} {xs : List Byte}
    (h : t.decodeSymbols n bits = some (xs, rest)) (hm : m < n) :
    ∃ ys mid x rest', t.decodeSymbols m bits = some (ys, mid) ∧ t.decodeSymbol mid = some (x, rest') := by
  induction m generalizing n bits xs with
  | zero =>
    obtain ⟨n, rfl⟩ := Nat.exists_eq_add_one.mpr hm
    obtain ⟨x, mid, -, hx, -, -⟩ := decodeSymbols_succ_eq_some_iff.mp h
    exact ⟨[], bits, x, mid, rfl, hx⟩
  | succ m ih =>
    obtain ⟨n, rfl⟩ := Nat.exists_eq_add_one.mpr (Nat.zero_lt_of_lt hm)
    obtain ⟨x, mid, xs, hx, hxs, -⟩ := decodeSymbols_succ_eq_some_iff.mp h
    obtain ⟨ys, mid', y, rest', hys, hy⟩ := ih hxs (Nat.lt_of_succ_lt_succ hm)
    exact ⟨x :: ys, mid', y, rest', decodeSymbols_succ_eq_some_iff.mpr ⟨x, mid, ys, hx, hys, rfl⟩, hy⟩

/-- The symbols are appended as far as there is room, and the next one raises `E_OVF` (R191, R200). -/
theorem unpkBody_full {s : State} {t : HuffmanTree} {stream xs : List Byte} {n : Nat} {rest : List Bool}
    (htree : s.currentTree = some t) (hstream : streamIs s stream) (holen : s.olen.toNat ≤ s.obufCap) (hn : n ≤ s.total.toNat)
    (hdecode : t.decodeSymbols n (bitsOfBytes stream) = some (xs, rest)) (hfull : ¬ outputFits s n) :
    ∃ k, unpkBody s = .error (.raise .ovf k) := by
  obtain ⟨m, hm⟩ := Nat.exists_eq_add_of_le holen
  have hfits : outputFits s m := Nat.le_of_eq hm.symm
  have hlt : m < n := Nat.lt_of_not_le fun hle => hfull (hfits.mono hle)
  obtain ⟨ys, mid, x, rest', hys, hx⟩ := decodeSymbols_of_lt hdecode hlt
  obtain ⟨left, hleft⟩ := Nat.exists_eq_add_of_lt (Nat.lt_of_lt_of_le hlt hn)
  obtain ⟨turns, r, hturns, hahead, hbody⟩ :=
    unpkBody_decodes htree hstream hys hfits (left := left + 1) (by omega) (by omega)
  have hloop := unpkLoop_decodeSymbol (left := left) ((currentTree_movedTo_appended _ s ys).trans htree) hahead hturns
  rw [hx] at hloop
  obtain ⟨turns', r', p, -, -, happend⟩ := hloop
  have hlen : (appended s ys).olen.toNat = s.obufCap := by
    rw [appended_olen_toNat ((decodeSymbols_length hys).symm ▸ hfits.lt), decodeSymbols_length hys, hm]
  exact ⟨_, hbody.trans (happend.trans (by rw [append_full (Nat.le_of_eq hlen.symm)]; rfl))⟩

/-! ### COMP and DECO -/

/-- The tree that BUILD makes of an input's counts is the one that COMP makes (R102, R171). -/
theorem currentTree_of_fcnt_build {s s₁ s₂ : State} {input : List Byte} (herr : s.err = false) (hinput : inputIs s input)
    (hfcnt : exec .fcnt s = .next s₁) (hbuild : exec .build s₁ = .next s₂) :
    s₂.currentTree = (compCoded s input).currentTree := by
  have hcounted : exec .fcnt s = .next (counted (symbolCounts input) s) := (fcntCountsTheInput s herr).1 input hinput
  obtain rfl := Host.Outcome.next.inj (hcounted.symm.trans hfcnt)
  obtain rfl := buildTree_eq_of_exec ((counted_err _ s).trans herr) hbuild
  obtain ⟨hn, hroot, hnodes⟩ := buildTree_of_freq (s := counted (symbolCounts input) (compPreamble s))
    (s' := counted (symbolCounts input) s) ((counted_freq _ _).trans (counted_freq _ _).symm)
  rw [compCoded, coded_currentTree]
  exact currentTree_of_entries hn.symm hroot.symm fun i hi => (hnodes i hi).symm

theorem compBody_full {s : State} {input : List Byte} (herr : s.err = false) (hinput : inputIs s input)
    (hfull : s.obufCap < (artifact input (compCoded s input).currentTree).length) :
    ∃ k, compBody s = .error (.raise .ovf k) := by
  refine (compBody_lengthens herr hinput).ovf fun hfits => ?_
  obtain ⟨-, -, -, hcap⟩ := compCoded_fields herr input
  rw [outputFits, hcap] at hfits
  exact Nat.not_le.mpr hfull (Nat.le_of_add_left_le hfits)

theorem decoBody_full {s : State} {count : Word} {k : Nat} {tree : HuffmanTree} {stream symbols : List Byte} {rest : List Bool}
    (herr : s.err = false) (hlegal : count.toNat ≤ Config.totalMax) (hk : k ≤ count.toNat) (hsize : tree.size ≤ 511)
    (hinput : inputIs s (headerBytes count ++ (layout (items tree) ++ stream)))
    (hdecode : tree.decodeSymbols k (bitsOfBytes stream) = some (symbols, rest)) (hfull : s.obufCap < k) :
    ∃ n, decoBody s = .error (.raise .ovf n) := by
  have h0 : count ≠ 0 := fun h => absurd (Nat.lt_of_lt_of_le (Nat.zero_lt_of_lt hfull) hk) (by simp [h])
  obtain ⟨a, hbody, htree, hstream⟩ := decoBody_region herr h0 hlegal hsize hinput
  have hentry : unpkEntry (decoRebuilt s count tree a) = none :=
    unpkEntry_eq_none hstream (Nat.zero_le _) hlegal (.inr ⟨rfl, (treeAt_of_currentTree htree).1⟩)
  obtain ⟨n, hn⟩ := unpkBody_full htree hstream (Nat.zero_le _) hk hdecode fun hfits =>
    Nat.not_le.mpr hfull ((Nat.zero_add k).symm.trans_le hfits)
  exact ⟨n, hbody.trans ((subCommand_of_entry (c := unpkCommand) hentry).trans hn)⟩

/-! ### The six commands -/

theorem exec_ovf {i : Instr} {c : Command} (hi : commandOf i = some c) {s : State} (herr : s.err = false)
    (hentry : c.entry s = none) (hbody : ∃ n, c.body s = .error (.raise .ovf n)) :
    ∃ u, exec i s = .next u ∧ reports u .ovf ∧ u.ecode = 9 := by
  obtain ⟨n, hbody⟩ := hbody
  obtain ⟨u, hexec, hreports, hecode, -⟩ := exec_of_raise hi herr hentry hbody
  exact ⟨u, hexec, hreports, hecode⟩

/-- Settles O47, command by command. -/
theorem outputThatDoesNotFitRaisesEOvf : Obligations.OutputThatDoesNotFitRaisesEOvf := by
  intro s herr
  refine ⟨fun holen => ⟨fun hlegal hfull => ?_, fun t hvalid htree hfull => ?_, fun input hcb hinput hcodes hfull => ?_,
    fun before after hcb hinput hcodes hfull => ?_, fun t n stream symbols rest hvalid htree hstream hlegal hn hdecode hfull => ?_⟩,
    fun input hinput => ⟨fun s₁ s₂ hfcnt hbuild hfull => ?_,
      fun n k t stream symbols rest hk hn hsize hregions hdecode hfull => ?_⟩⟩
  · exact exec_ovf (i := .whdr) rfl herr (whdrEntry_eq_none hlegal holen) ((whdrBody_appends holen).lengthens.ovf hfull)
  · have hentry : tserEntry s = none := (if_neg (by simp [hvalid])).trans (if_neg (Nat.not_lt.mpr holen))
    have hlengthens := tserBody_lengthens (.inr ⟨t, htree⟩) holen
    rw [htree] at hlengthens
    exact exec_ovf (i := .tser) rfl herr hentry (hlengthens.ovf hfull)
  · have hlengthens := (packBody_appends hinput hcodes holen).lengthens
    rw [bytesOfBits_length] at hlengthens
    exact exec_ovf (i := .pack) rfl herr (packEntry_eq_none hcb hinput.ilen_le holen) (hlengthens.ovf hfull)
  · exact exec_ovf (i := .pack) rfl herr (packEntry_eq_none hcb hinput.ilen_le holen) (packBody_full hinput holen hcodes hfull)
  · exact exec_ovf (i := .unpk) rfl herr
      (unpkEntry_eq_none hstream holen hlegal (.inr ⟨hvalid, (treeAt_of_currentTree htree).1⟩))
      (unpkBody_full htree hstream holen hn hdecode hfull)
  · rw [currentTree_of_fcnt_build herr hinput hfcnt hbuild] at hfull
    exact exec_ovf (i := .comp) rfl herr (if_neg (Nat.not_lt.mpr hinput.ilen_le)) (compBody_full herr hinput hfull)
  · subst hregions
    rw [List.append_assoc] at hinput
    have hcount := count_toNat hn
    exact exec_ovf (i := .deco) rfl herr (if_neg (Nat.not_lt.mpr hinput.ilen_le))
      (decoBody_full herr (hcount.le.trans hn) (hk.trans hcount.ge) hsize hinput hdecode hfull)

end Sys2Proof.Machine
end

section
/-! SUPPORT. What an error leaves: in PACK at a symbol without a code (60_exceptions R198), in every command its write set within the
bounds of R199, and of an entry check `STATUS` alone (R192, R193). -/

namespace Sys2Proof.Machine

/-! ### PACK at a symbol without a code -/

/-- The lookup comes before any bit of the symbol, so the bytes before it are what has been appended (R141, R200). -/
theorem packBody_noCode {s : State} {before after : List Byte} {x : Byte} (hinput : inputIs s (before ++ x :: after))
    (hcodes : ∀ y ∈ before, (s.codeAt y).present = true) (hnone : (s.codeAt x).present = false)
    (hfits : outputFits s ((codeBits s.codeAt before).length / 8)) : ∃ n, packBody s = .error (.raise .noCode n) := by
  obtain ⟨hlen, -, hbytes⟩ := hinput
  have hbyte : s.ibuf.byte? before.length = some x := by simpa using hbytes.byte?_append_cons
  have hread : memRead before.length (packed s (codeBits s.codeAt before)).2 = (x, (packed s (codeBits s.codeAt before)).2) :=
    memRead_written hbyte
  have hbook : (packed s (codeBits s.codeAt before)).2.codeAt x = s.codeAt x := rfl
  have hstop : packLoop s (before.length + 1) = .error (.raise .noCode s.draws) := by
    rw [packLoop_succ, packLoop_written hbytes.left hcodes hfits, Except.ok_bind, packSymbol, hread]
    simp only [hbook, hnone, Bool.false_eq_true, if_false]
    rfl
  refine ⟨s.draws, packBody_of_error hstop ?_⟩
  rw [hlen, List.length_append, List.length_cons]
  omega

/-- Settles O32: PACK's write set is the output, so the error leaves both flags. -/
theorem packOfASymbolWithoutCodeRaisesENoCode : Obligations.PackOfASymbolWithoutCodeRaisesENoCode := by
  intro s before after x herr hcb hinput hcodes hnone hfits
  have hentry : packEntry s = none := packEntry_eq_none hcb hinput.ilen_le ((Nat.le_add_right _ _).trans hfits)
  obtain ⟨n, hbody⟩ := packBody_noCode hinput hcodes hnone hfits
  exact ⟨_, runCommand_raise (c := packCommand) herr hentry hbody, ⟨rfl, rfl, rfl⟩, rfl, Bool.and_true _, Bool.and_true _⟩

/-! ### The write set after an error -/

/-- A command's output starts at `OLEN`, but for the composite ones (R199). -/
theorem outputFrom_of_not_composite {i : Instr} {c : Command} (hi : commandOf i = some c) (hcomp : isComposite i = false)
    (s : State) : c.outputFrom s = s.olen.toNat := by
  cases i <;> cases hcomp <;> cases hi <;> rfl

/-- Settles O48: an entry check changes `STATUS` alone; an error of the body leaves of the write set free values within the bounds of
R199; a body that ends well reports no error. -/
theorem errorsStayWithinTheWriteSet : Obligations.ErrorsStayWithinTheWriteSet := by
  intro i s t herr h ht
  cases hi : commandOf i with
  | none =>
    obtain rfl := commandOf_eq_none hi
    obtain rfl := Host.Outcome.next.inj h
    cases ht
  | some c =>
    rw [exec_of_commandOf hi] at h
    rcases runCommand_next h with ⟨hpending, -⟩ | ⟨-, e, hentry, rfl⟩ | ⟨-, -, hbody⟩ | ⟨-, -, e, n, -, rfl⟩
    · simp [herr] at hpending
    · exact .inl ⟨e, rfl, (entry_error hi hentry).1⟩
    · obtain ⟨hsame, -⟩ := (body_frame hi hbody).errorBits
      simp [ht, herr] at hsame
    · have hframe := ((frame_draws c.writes s n).trans (frame_forget c.writes (c.outputFrom s) _)).unchangedOutside
      rw [← commandOf_writes hi]
      refine .inr ⟨⟨e, rfl, rfl, rfl⟩, unchangedOutside_setError hframe e, takeError_olen_le _ _ _ _, fun _ hcomp a ha => ?_,
        takeError_ipos_le _ _ _ _, fun htree => ?_, fun hbook => ?_⟩
      · exact takeError_byte?_below _ _ _ _ (outputFrom_of_not_composite hi hcomp s ▸ ha)
      · simp [htree]
      · rcases hbook with htree | hbook
        · simp [htree]
        · simp [hbook]

/-! ### Entry checks -/

/-- Settles O13: each of these checks comes first, or after the ranges that hold here. -/
theorem missingTreeOrCodeBookRaisesESeq : Obligations.MissingTreeOrCodeBookRaisesESeq := by
  intro s herr
  refine ⟨fun htree => ?_, fun htree => ?_, fun hbook => ?_, fun hilen hipos holen hlegal hpos hmissing => ?_, rfl, rfl⟩
  · exact exec_of_entry (i := .genc) rfl herr (if_neg (by simp [htree]))
  · exact exec_of_entry (i := .tser) rfl herr (if_pos htree)
  · exact exec_of_entry (i := .pack) rfl herr (if_pos hbook)
  · have htotal : s.total ≠ 0 := fun h => by simp [h] at hpos
    have hentry : unpkEntry s = some .seq := by
      rw [unpkEntry, if_neg (by omega), if_neg htotal, if_pos hmissing]
    exact exec_of_entry (i := .unpk) rfl herr hentry

/-- Settles O14: the check of the ranges comes first, in TSER and PACK after that of the tree or the code book. -/
theorem registerOutOfRangeRaisesERange : Obligations.RegisterOutOfRangeRaisesERange := by
  intro s herr
  refine ⟨fun h => ?_, fun htree h => ?_, fun hbook h => ?_, fun h => ?_, fun h => ?_, fun h => ?_, fun h => ?_, fun h => ?_,
    fun h => ?_, rfl, rfl⟩
  · exact exec_of_entry (i := .fcnt) rfl herr (if_pos h)
  · exact exec_of_entry (i := .tser) rfl herr ((if_neg (by simp [htree])).trans (if_pos h))
  · exact exec_of_entry (i := .pack) rfl herr ((if_neg (by simp [hbook])).trans (if_pos h))
  · exact exec_of_entry (i := .whdr) rfl herr (if_pos h)
  · exact exec_of_entry (i := .rhdr) rfl herr (if_pos h)
  · exact exec_of_entry (i := .tdes) rfl herr (if_pos h)
  · exact exec_of_entry (i := .unpk) rfl herr (if_pos h)
  · exact exec_of_entry (i := .comp) rfl herr (if_pos h)
  · exact exec_of_entry (i := .deco) rfl herr (if_pos h)

end Sys2Proof.Machine
end

section
/-! SUPPORT. The host against a pending error (60_exceptions R189, R190) and hardware reset (70_reset_and_hazards R215). -/

namespace Sys2Proof.Machine

/-! ### Illegal opcodes -/

/-- Settles O4: the low byte of the value is no opcode, and `E_CMD` is no corrupt class. -/
theorem illegalOpcodeRaisesECmd : Obligations.IllegalOpcodeRaisesECmd := by
  intro s v rest hhost hillegal herr
  have hvalue : (BitVec.ofNat 8 v).toNat = v % 256 := BitVec.toNat_ofNat v 8
  have hdecode : decodeOpcode (BitVec.ofNat 8 v) = .error (.illegalOpcode (BitVec.ofNat 8 v)) := by
    refine decodeOpcode_illegal (hillegal.imp (fun h0 => ?_) fun h13 => hvalue ▸ h13)
    exact BitVec.eq_of_toNat_eq (hvalue.trans h0)
  rw [step_write_cmd hhost, issue_of_decodeOpcode_error hdecode, rejectOpcode, if_neg (by simp [herr])]
  rfl

/-! ### A pending error -/

/-- The value of CLR's opcode (R75). -/
theorem value_of_decodeOpcode_clr {v : Nat} (h : decodeOpcode (BitVec.ofNat 8 v) = .ok .clr) : v % 256 = 0x0C := by
  have hopcode := congrArg BitVec.toNat (opcode_of_decodeOpcode h)
  rwa [BitVec.toNat_ofNat, eq_comm] at hopcode

/-- While an error is pending a write to `CMD` of any value but CLR's opcode is ignored whole (R189). -/
theorem issue_sticky {s : State} {v : Nat} (herr : s.err = true) (hv : v % 256 ≠ 0x0C) : issue (BitVec.ofNat 8 v) s = .next s := by
  cases hd : decodeOpcode (BitVec.ofNat 8 v) with
  | error err => rw [issue_of_decodeOpcode_error hd, rejectOpcode, if_pos herr]
  | ok i =>
    rw [issue_of_decode (rest := []) (decode_cons_eq_ok.mpr ⟨hd, rfl⟩)]
    refine exec_sticky herr ?_
    rintro rfl
    exact hv (value_of_decodeOpcode_clr hd)

/-- A host write to a location leaves the error bit (R27). -/
theorem hostWriteLoc_err (l : Loc) (v : Nat) (s : State) : (hostWriteLoc l v s).err = s.err := by
  obtain ⟨_, _, _, _, _, _, h, -⟩ := hostWriteLoc_eq l v s
  rw [h]

theorem hostReadLoc_err (l : Loc) (s : State) : (hostReadLoc l s).err = s.err := by
  obtain ⟨_, _, h⟩ := hostReadLoc_eq l s
  rw [h]

/-- A step that clears the error is CLR or hardware reset (R189). -/
theorem step_clears_error {s t : State} (h : step s = .next t) (herr : s.err = true) (ht : t.err = false) :
    (∃ v rest, s.host = .write .cmd v :: rest ∧ v % 256 = 0x0C) ∨ ∃ rest, s.host = .hardwareReset :: rest := by
  have hchanged : t.err ≠ s.err := by simp [herr, ht]
  have hclr {v : Nat} {rest : List HostEvent} (hhost : s.host = .write .cmd v :: rest) : v % 256 = 0x0C := by
    by_contra hv
    rw [step_write_cmd hhost, issue_sticky (s := { s with host := rest }) herr hv] at h
    exact hchanged (Host.Outcome.next.inj h ▸ rfl)
  rcases step_next h with ⟨-, rfl⟩ | ⟨e, rest, hhost, hcases⟩
  · exact absurd rfl hchanged
  · rcases hcases with ⟨v, -, rfl, -⟩ | ⟨v, -, rfl, -⟩ | ⟨l, v, -, -, -, rfl⟩ | ⟨l, -, -, rfl⟩ | ⟨rfl, -⟩
    · exact .inl ⟨v, rest, hhost, hclr hhost⟩
    · exact .inl ⟨v, rest, hhost, hclr hhost⟩
    · exact absurd (hostWriteLoc_err l v { s with host := rest }) hchanged
    · exact absurd (hostReadLoc_err l { s with host := rest }) hchanged
    · exact .inr ⟨rest, hhost⟩

/-- Settles O5: a command word is ignored, and what the host does besides works as it does without an error. -/
theorem errorIsSticky : Obligations.ErrorIsSticky := by
  refine ⟨fun s v rest herr hhost hv => ?_, fun s t h herr ht => step_clears_error h herr ht,
    fun s l v rest _ hhost hcmd hl => step_write_next hhost hcmd hl, fun s l rest _ hhost hl => step_read_next hhost hl⟩
  exact (step_write_cmd hhost).trans (issue_sticky herr hv)

/-! ### Hardware reset -/

/-- Settles O11: the next state is `hardwareReset`, field by field. -/
theorem hardwareResetRestoresResetValues : Obligations.HardwareResetRestoresResetValues := by
  intro s rest hhost
  refine ⟨hardwareReset { s with host := rest }, step_perform hhost, rfl, fun x => ?_, rfl, rfl, rfl, rfl, rfl, rfl, rfl, rfl, rfl,
    rfl, rfl, rfl, fun a => ⟨rfl, rfl⟩, rfl⟩
  rw [State.freqAt, hardwareReset, State.resetWith, Vector.getElem_replicate]

end Sys2Proof.Machine
end
